-- ==== Sys2Proof/Word.lean ====
section
/-!
DEFINITION. The words of the YD41: bytes, 32-bit check values and times, and the identity of an image.
-/
namespace Sys2Proof

/-- One byte of a frame, a record or the store. -/
abbrev Byte := BitVec 8

/-- A 32-bit quantity that is computed with as bits: a CRC-32 or a wrapping yard time. -/
abbrev Word32 := BitVec 32

/-- An image is identified by the pair of its id and its version (00, Conventions). -/
structure ImageKey where
  id : Nat
  version : Nat
  deriving DecidableEq, Repr

end Sys2Proof
end

