-- ==== Sys2Proof/Config.lean ====
section
/-!
DEFINITION. The values the manual leaves open. Each is a constant with no body: nothing can be proved about which value it takes.
-/
namespace Sys2Proof

/-- The k-th byte whose content the manual leaves open: what a failed or cut-off program or erase leaves behind (logs 9 and 10). -/
opaque Config.freeByte : Nat → Byte

/-- The k-th draw of a backoff count (R81 draws it "from 0 to CW − 1, each value equally likely"); the model reduces it modulo CW (log 11). -/
opaque Config.freeDraw : Nat → Nat

end Sys2Proof
end

