-- ==== Sys2Proof/Syntax.lean ====
section
/-!
DEFINITION. The commands of the YD41: one constructor of `Instr` for each row of spec/opcode_table.json.
The table names no operands; those below are what the rule of each row says the event carries.
-/
namespace Sys2Proof

/-- The role strap (R183). -/
inductive Role where
  | busStation
  | origin
  deriving DecidableEq, Repr

/-- The four combinations of the two store size strap inputs (R183); the fourth is read as 2,048. -/
inductive SizeStrap where
  | slots2048
  | slots4096
  | slots8192
  | fourth
  deriving DecidableEq, Repr

/-- The input pins: the two straps, the departure line, channel-busy and the two wires of the cabin line. -/
structure Pins where
  role : Role
  size : SizeStrap
  departure : Bool
  channelBusy : Bool
  clock : Bool
  data : Bool
  deriving DecidableEq, Repr

/-- A wire of the cabin line (R122). -/
inductive Wire where
  | data
  | clock
  deriving DecidableEq, Repr

/-- The commands. A row that receives a yard link frame carries the delivered bytes; a local port row carries the command's arguments. -/
inductive Instr where
  | powerOn (pins : Pins)
  | restartSelectRelease
  | offer (frame : List Byte)
  | ask (frame : List Byte)
  | block (frame : List Byte)
  | lacking (frame : List Byte)
  | refused (frame : List Byte)
  | busy (frame : List Byte)
  | plan (frame : List Byte)
  | planAsk (frame : List Byte)
  | beacon (frame : List Byte)
  | leave (frame : List Byte)
  | fetchTimerExpiry (slot : Nat)
  | fetchBlockProgramComplete
  | fetchBlockProgramFailed
  | claimProgramComplete
  | claimProgramFailed
  | coolingEnd (image : ImageKey) (segment : Nat)
  | checkReadComplete
  | headerProgramComplete
  | headerProgramFailed
  | serveReadComplete
  | slotEraseComplete
  | slotEraseFailed
  | slotEraseMarkProgramComplete
  | slotEraseMarkProgramFailed
  | retiredMarkProgramEnd (completed : Bool)
  | configReadComplete
  | planCopyReadComplete
  | sweepReadComplete
  | manifestReadComplete
  | planCopyProgramComplete
  | planCopyProgramFailed
  | planCopyEraseComplete
  | planCopyEraseFailed
  | commissionEraseComplete
  | commissionEraseFailed
  | commissionProgramComplete
  | commissionProgramFailed
  | loadBlockProgramComplete
  | loadBlockProgramFailed
  | transmissionEnd
  | channelBusyRise
  | channelBusyFall
  | gapElapsed
  | deferSlotElapsed
  | countdownSlotElapsed
  | allowanceWindowOpen
  | offerRoundExpiry
  | peerExpiry (station : Nat)
  | shunEnd (station : Nat)
  | busyMarkEnd (station : Nat)
  | beaconTimerExpiry
  | freeRunningTimeout
  | notBeforeReached (address : Nat)
  | departureLineEdge (asserted : Bool)
  | departureLineAsserted
  | leaveTimerExpiry
  | departureLineReleased
  | lineWireChange (clock data : Bool)
  | lineQuietElapsed
  | cabinTransactionEnd (unacknowledged : Option Nat) (received : List Byte)
  | arbitrationLoss
  | lineFault (wire : Wire)
  | holdTimeout (heldMs : Nat)
  | recoveringClockReleased
  | lineStuckTimeout
  | censusPauseEnd
  | censusHoldoffEnd
  | jobPauseEnd
  | flasherReadComplete
  | probationPollDue (address : Nat)
  | finalReadDue (address : Nat)
  | probationRepeatDue (address : Nat)
  | status
  | readUnits
  | readCatalog (position : Byte) (firstSegment : BitVec 16)
  | readReports (sequence : BitVec 16)
  | setDeparture (seconds : Word32)
  | clearDeparture
  | census
  | restart
  | commission (record : List Byte)
  | loadPlan (serial : Word32) (count : Byte) (entries : List Byte)
  | loadSegmentOpen (id version segment slot : BitVec 16)
  | loadBlock (index : Byte) (data : List Byte)
  | loadSegmentClose (mode : Byte)
  | badCommandFrame (frame : List Byte)
  | exchangeDiscarded
  deriving DecidableEq, Repr

end Sys2Proof
end

