-- ==== Sys2Proof/WellFormed.lean ====
section
/-!
DEFINITION. Which commands are well formed: an operand that has a bounded field keeps its bound. A command that is not well formed still has a meaning.
-/
namespace Sys2Proof

/-- A station id is 1 to 65534 (00, Conventions). -/
def wfStation (n : Nat) : Bool := 1 ≤ n && n ≤ 65534

/-- A cabin unit address is 1 to 31 (00, Conventions). -/
def wfAddress (n : Nat) : Bool := 1 ≤ n && n ≤ 31

/-- An image id is 1 to 65535 and a version is 16 bits (00, Conventions). -/
def wfImage (k : ImageKey) : Bool := 1 ≤ k.id && k.id ≤ 65535 && k.version ≤ 65535

/-- Which operands the fields of a command allow: four fetch slots (R38), segments 0 to 2,024, station ids, unit addresses, the 18 bytes of a
configuration record and the 128 bytes of a block (R196), received bytes up to 128 (R114). -/
def Instr.wf : Instr → Bool
  | .fetchTimerExpiry slot => slot < 4
  | .coolingEnd image segment => wfImage image && segment ≤ 2024
  | .peerExpiry station => wfStation station
  | .shunEnd station => wfStation station
  | .busyMarkEnd station => wfStation station
  | .notBeforeReached address => wfAddress address
  | .probationPollDue address => wfAddress address
  | .finalReadDue address => wfAddress address
  | .probationRepeatDue address => wfAddress address
  | .cabinTransactionEnd _ received => received.length ≤ 128
  | .commission record => record.length == 18
  | .loadBlock _ data => data.length == 128
  | _ => true

end Sys2Proof
end

