-- ==== Sys2Proof/Machine/State.lean ====
section
/-!
DEFINITION. The state of the YD41, block by block, as plain data; what a step can stop with; and the state right after a power-on start.
Chapter numbers in comments are the numbers of the files of spec/.
-/
namespace Sys2Proof.Machine

/-! ## Plan Store (01) -/

/-- R8. The persisting state. WRITING holds the body being written, its copy position and the piece in hand; `erasing` while slot 1 is erased first. -/
inductive Persist where
  | idle
  | writing (body : List Byte) (position piece : Nat) (erasing : Bool)
  deriving DecidableEq, Repr

/-- R1, R8. The held body is kept byte for byte; an empty body is no plan. The serial and the entries are views of it (`heldSerial`, `heldEntries`). -/
structure PlanStore where
  body : List Byte
  relayPending : Bool
  lastPlanAsk : Option Nat
  nextPosition : Nat
  persist : Persist
  persistNoted : Bool
  deriving DecidableEq, Repr

/-! ## Holding Catalog (01) -/

/-- R11. -/
inductive NeedClass where
  | own
  | courier
  deriving DecidableEq, Repr

/-- R14. -/
inductive ImageState where
  | needsManifest
  | gathering
  | complete
  | rejected
  deriving DecidableEq, Repr

/-- R17. A segment's state, with its store slot where it has one and its cooling-until in COOLING. -/
inductive SegState where
  | absent
  | fetching (slot : Nat)
  | checking (slot : Nat)
  | held (slot : Nat)
  | cooling (until_ : Nat)
  deriving DecidableEq, Repr

/-- R17, R25. A segment entry: its state and its holder count. -/
structure SegEntry where
  state : SegState
  holders : Nat
  deriving DecidableEq, Repr

/-- R15. A placement window descriptor. -/
structure PlacementWindow where
  first : Nat
  last : Nat
  offset : Nat
  bitOrder : Bool
  deriving DecidableEq, Repr

/-- R14, R16. What the catalog records from a manifest that has passed validation. -/
structure Manifest where
  count : Nat
  length : Nat
  windows : List PlacementWindow
  crcs : List Word32
  deriving DecidableEq, Repr

/-- R14, R92. An image record; `entries` starts with segment 0. -/
structure ImageRecord where
  image : ImageKey
  need : NeedClass
  priv : Bool
  manifestCrc : Word32
  model : Nat
  state : ImageState
  manifest : Option Manifest
  entries : List SegEntry
  spanCursor : Nat
  deriving DecidableEq, Repr

/-- R14, R91. The image records in record order, and the image last offered. -/
structure Catalog where
  records : List ImageRecord
  lastOffered : Option ImageKey
  deriving DecidableEq, Repr

/-! ## Peer Table (02) -/

/-- R24. A run of segments, first to last, both included. -/
structure SegRun where
  first : Nat
  last : Nat
  deriving DecidableEq, Repr

/-- R36. The depth and the local time of the latest Beacon of a peer. -/
structure BeaconHeard where
  depth : Nat
  time : Nat
  deriving DecidableEq, Repr

/-- R20. A peer record. A range list that is not listed is empty. -/
structure PeerRecord where
  id : Nat
  lastHeard : Nat
  originAttr : Bool
  departing : Bool
  beacon : Option BeaconHeard
  strikes : Nat
  shunnedUntil : Option Nat
  busyUntil : Option Nat
  openFetches : Nat
  estimate : Nat
  lists : List (ImageKey × List SegRun)
  deriving DecidableEq, Repr

/-! ## Fetch Engine (03) -/

/-- R38. The fields of an OPEN fetch slot. `counted`: the record the slot chose still stands (R33). `accepted`: blocks of the window accepted from the
chosen peer since window start time (R34). `claimed`: the store slot's claim mark is programmed (R101). -/
structure OpenFetch where
  image : ImageKey
  segment : Nat
  peer : Nat
  counted : Bool
  base : Nat
  bitmap : BitVec 64
  reask : Bool
  switches : Nat
  switchOwed : Bool
  lastAsk : Option (Nat × BitVec 16)
  timer : Option Nat
  windowStart : Option Nat
  lastAccept : Option Nat
  accepted : Nat
  storeSlot : Nat
  claimed : Bool
  deriving DecidableEq, Repr

/-- R38. What a fetch slot keeps in CHECK. -/
structure CheckFetch where
  image : ImageKey
  segment : Nat
  peer : Nat
  counted : Bool
  storeSlot : Nat
  deriving DecidableEq, Repr

/-- R38. The three phases of a fetch slot. -/
inductive FetchSlot where
  | free
  | opened (f : OpenFetch)
  | checking (f : CheckFetch)
  deriving DecidableEq, Repr

/-- R39. A block accepted for a fetch slot and not yet programmed. -/
structure BufferedBlock where
  fetch : Nat
  index : Nat
  data : List Byte
  deriving DecidableEq, Repr

/-- R38, R39, R45, R48. `asks` lists the fetch slots whose Ask waits in the scheduled lane, oldest queued first. `selectionAsked` is the model's own:
set when a block asks for selection within a step, clear between steps (log 13). -/
structure Fetch where
  slots : List FetchSlot
  buffer : List BufferedBlock
  asks : List Nat
  storeFullAt : Option Nat
  selectionAsked : Bool
  deriving DecidableEq, Repr

/-! ## Serve Engine (04) -/

/-- R62. An entry of the ask queue; in a serve slot `mask` is the remaining mask. -/
structure AskEntry where
  asker : Nat
  image : ImageKey
  segment : Nat
  base : Nat
  mask : BitVec 16
  deriving DecidableEq, Repr

/-- R62. A serve slot. The block in hand is given by its position in the window. -/
inductive ServeSlot where
  | free
  | reading (entry : AskEntry) (inHand : Nat)
  | ready (entry : AskEntry) (inHand : Nat) (bytes : List Byte)
  | sending (entry : AskEntry)
  deriving DecidableEq, Repr

/-- R62. The marks name serve slots 1 to 3; slot n is element n − 1 of `slots`. -/
structure Serve where
  queue : List AskEntry
  slots : List ServeSlot
  sendMark : Nat
  readMark : Nat
  deriving DecidableEq, Repr

/-! ## Yard Link Port (05) -/

/-- R79. The ten frame kinds. -/
inductive FrameKind where
  | offer
  | ask
  | block
  | lacking
  | busy
  | refused
  | plan
  | planAsk
  | beacon
  | leave
  deriving DecidableEq, Repr

/-- R78. -/
inductive PortMode where
  | off
  | on
  | departed
  deriving DecidableEq, Repr

/-- R81. The phases of channel access. DEFER's slot has no start while channel-busy is high. -/
inductive AccessPhase where
  | idle
  | gap
  | defer (slotStart : Option Nat)
  | countdown (remaining slotStart : Nat)
  | sending
  deriving DecidableEq, Repr

/-- R69. The three short replies. -/
inductive ReplyKind where
  | lacking
  | busy
  | refused
  deriving DecidableEq, Repr

/-- R85. A frame of the urgent lane, complete but for what is filled when its transmission begins. -/
inductive UrgentFrame where
  | reply (kind : ReplyKind) (asker : Nat) (image : ImageKey) (segment : Nat)
  | planAsk (station : Nat)
  | beacon (depth : Nat)
  | leave
  deriving DecidableEq, Repr

/-- R92. An Offer as built at a round. -/
structure OfferBody where
  image : ImageKey
  spanFirst : Nat
  spanLast : Nat
  ranges : List SegRun
  deriving DecidableEq, Repr

/-- R84. Whose frame is on the air, with what the source must still hold for the end to be acted on. -/
inductive TxSource where
  | ask (fetch : Nat) (image : ImageKey) (segment peer base : Nat) (mask : BitVec 16)
  | block (serve asker : Nat) (image : ImageKey) (segment : Nat)
  | plan (serial : Nat)
  | offer (body : OfferBody)
  | leave
  | untold
  deriving DecidableEq, Repr

/-- R84. The frame on the air: its source and its bytes as handed to the transceiver. -/
structure OnAir where
  source : TxSource
  bytes : List Byte
  deriving DecidableEq, Repr

/-- R78, R81, R85, R88, R90. `allowance` is in ms, `airtimeUsed` in µs. -/
structure Yard where
  mode : PortMode
  phase : AccessPhase
  cw : Nat
  lastEnd : Option Nat
  urgent : List UrgentFrame
  windowOpen : Nat
  allowance : Nat
  airtimeUsed : Nat
  offerRound : Option Nat
  roundOffer : Option OfferBody
  onAir : Option OnAir
  deriving DecidableEq, Repr

/-! ## Segment Store Controller (06) -/

/-- R99. The owner of a FILLING or FULL slot. -/
inductive Owner where
  | fetch (slot : Nat)
  | load
  | check (image : ImageKey) (segment : Nat)
  | segment (image : ImageKey) (segment : Nat)
  deriving DecidableEq, Repr

/-- R99. The six conditions of a slot. -/
inductive SlotCond where
  | erased
  | filling
  | full
  | dirty
  | retired
  | leftover
  deriving DecidableEq, Repr

/-- R99. A slot's condition and owner. -/
structure SlotInfo where
  cond : SlotCond
  owner : Option Owner
  deriving DecidableEq, Repr

/-- R105. The seven clients of the store arbiter. -/
inductive StoreClient where
  | fetchWriter
  | checker
  | serverReader
  | flasherReader
  | localPort
  | eraser
  | scanner
  deriving DecidableEq, Repr

/-- R96, R105. The operations the clients present. The reads of slot 1 and of a manifest carry the number of the block read; slot 0 has its record in its
first block (log 7). -/
inductive StoreOp where
  | fetchClaim (fetch slot : Nat)
  | fetchBlock (fetch slot index : Nat) (data : List Byte)
  | checkRead (slot index : Nat)
  | checkHeader (slot : Nat) (bytes : List Byte)
  | serveRead (serve slot index : Nat)
  | flashRead (packet : Nat) (image : ImageKey) (segment : Nat) (slot : Option Nat) (index : Nat)
  | planProgram (position piece : Nat) (data : List Byte)
  | planErase
  | commissionErase
  | commissionProgram (data : List Byte)
  | loadClaim (slot : Nat)
  | loadBlock (slot index : Nat) (data : List Byte)
  | slotErase (slot : Nat)
  | eraseMark (slot : Nat)
  | retiredMark (slot : Nat)
  | scanConfig
  | scanPlan (index : Nat)
  | scanSpare (slot : Nat)
  | scanManifest (slot index : Nat)
  deriving DecidableEq, Repr

/-- R106. An operation waiting at the arbiter, with the owner it is presented for (none where no owner is compared). -/
structure WaitingOp where
  op : StoreOp
  owner : Option Owner
  deriving DecidableEq, Repr

/-- R105. The operation in progress; `live` is cleared when its client no longer wants its result. -/
structure CurrentOp where
  op : StoreOp
  live : Bool
  deriving DecidableEq, Repr

/-- R107. A check request. `source` is the fetch slot, or none for the load. `reads` counts the reads made, `crc` is the CRC-32 register, `header` is
set once the header program is asked for, `orphan` once the image record has been removed. -/
structure CheckRequest where
  source : Option Nat
  image : ImageKey
  segment : Nat
  slot : Nat
  expected : Word32
  reads : Nat
  crc : Word32
  header : Bool
  orphan : Bool
  deriving DecidableEq, Repr

/-- R109. -/
inductive ScanPhase where
  | system
  | sweep
  | manifests
  | data
  | done
  deriving DecidableEq, Repr

/-- R110. A finding of the sweep. -/
structure Finding where
  slot : Nat
  image : ImageKey
  segment : Nat
  crc : Word32
  deriving DecidableEq, Repr

/-- R99 to R109. `flash` is the store itself, a canonical list of cells; `slotMap` lists, in rising slot order, the segment-area slots that are not
DIRTY without owner; `releasing` the slots that join the dirty queue when an operation on them has ended (R102, R188). -/
structure Store where
  flash : List Host.Cell
  slotMap : List (Nat × SlotInfo)
  dirtyQueue : List Nat
  releasing : List Nat
  retiredList : List Nat
  awaitingMark : List Nat
  eraseMarkDue : Option Nat
  checkQueue : List CheckRequest
  lastGranted : StoreClient
  current : Option CurrentOp
  waiting : List WaitingOp
  portQueue : List WaitingOp
  scanPhase : ScanPhase
  scanNext : Nat
  findings : List Finding
  deriving DecidableEq, Repr

/-! ## Cabin Line Controller and census (07) -/

/-- R113. QUIET holds the time since which both wires read high. -/
inductive LineState where
  | quiet (since : Nat)
  | idle
  | busy
  | master
  | recovering
  deriving DecidableEq, Repr

/-- The ten cabin commands (R127 to R129, R195). `open` is Lean's word, hence `openBank`. -/
inductive CabinCommand where
  | identify
  | health
  | openBank
  | erase
  | write
  | read
  | seal
  | swap
  | keep
  | revert
  deriving DecidableEq, Repr

/-- R114. -/
inductive LineClient where
  | census
  | job
  | probation
  deriving DecidableEq, Repr

/-- R114. A request. `rate` is the effective rate of R115 in bit/s, `holdLimit` is in ms, `presented` is the local time it began to wait. -/
structure LineRequest where
  client : LineClient
  address : Nat
  command : CabinCommand
  offset : Nat
  lengthByte : Nat
  data : List Byte
  receive : Nat
  rate : Nat
  holdLimit : Nat
  presented : Nat
  deriving DecidableEq, Repr

/-- R120, R121, R126. The request begun: its loss count, whether it waits to begin again, and whether its outcome is to be discarded. -/
structure CurrentRequest where
  request : LineRequest
  losses : Nat
  waiting : Bool
  discarded : Bool
  deriving DecidableEq, Repr

/-- R116 to R120. Which of the two wires the controller itself drives low. The pins give what the other parties leave the wires at. -/
structure Drive where
  clock : Bool
  data : Bool
  deriving DecidableEq, Repr

/-- R116 to R119. What the controller puts on the line, piece by piece: the marks, the bytes it sends, and the bytes it takes and acknowledges. -/
inductive LineStep where
  | opening
  | byte (b : Byte)
  | reopen
  | received (b : Byte)
  | closing
  deriving DecidableEq, Repr

/-- R113, R114, R123, R125. `heldSince` is the start of the hold under way; `steps` is what the controller has put on the line in the transaction in
progress, or in the latest one. -/
structure CabinLine where
  state : LineState
  requests : List LineRequest
  current : Option CurrentRequest
  drive : Drive
  steps : List LineStep
  heldSince : Option Nat
  blockedSince : Option Nat
  stuckReported : Bool
  deriving DecidableEq, Repr

/-- R119. What a request ends with. -/
inductive LineOutcome where
  | completed (bytes : List Byte)
  | absent
  | refused
  | contended
  | lineFault
  | holdTimeout
  deriving DecidableEq, Repr

/-- A unit's firmware banks. -/
inductive Bank where
  | a
  | b
  deriving DecidableEq, Repr

/-- R130. An identity record. The rate class is in bit/s. -/
structure Identity where
  model : Nat
  revision : Nat
  serial : Nat
  active : Bank
  versionA : Nat
  sealedA : Bool
  versionB : Nat
  sealedB : Bool
  sectorSize : Nat
  sectors : Nat
  granule : Nat
  bitOrder : Bool
  rate : Nat
  pageTime : Nat
  pageHold : Nat
  eraseTime : Nat
  eraseHold : Nat
  deriving DecidableEq, Repr

/-- R132. PAUSED holds the local time at which the pause ends (R133). -/
inductive CensusState where
  | idle
  | running
  | paused (until_ : Nat)
  deriving DecidableEq, Repr

/-- R132, R133. `completedOnce`: a census has completed in this start (R13, R40). -/
structure Census where
  state : CensusState
  owed : Bool
  next : Nat
  pauses : Nat
  holds : Nat
  results : List (Nat × Identity)
  lastAbandon : Option Nat
  completedOnce : Bool
  deriving DecidableEq, Repr

/-! ## Unit Update Sequencer (08) -/

/-- R136. -/
inductive WaitReason where
  | notBefore
  | unsynced
  | noNotice
  | budget
  deriving DecidableEq, Repr

/-- R137. The sixteen job states; WAITING_TIME carries its wait reason. -/
inductive JobState where
  | current
  | ahead
  | stranded
  | waitingImage
  | waitingTime (reason : WaitReason)
  | ready
  | erasing
  | writing
  | verifying
  | sealing
  | switching
  | probation
  | done
  | failed
  | rolledBack
  | unreachable
  deriving DecidableEq, Repr

/-- R154. The reason codes of a failed attempt. -/
inductive FailReason where
  | hold
  | absent
  | refused
  | lineBusy
  | lineFault
  | verify
  | misfit
  | identity
  deriving DecidableEq, Repr

/-- R136, R196. The last outcomes of an entry. -/
inductive LastOutcome where
  | attempt (reason : FailReason)
  | done
  | rolledBack
  | unreachable
  | cancelledPlan
  | cancelledDeparture
  | failed (reason : FailReason)
  deriving DecidableEq, Repr

/-- R136. The image a target entry names. -/
structure TargetImage where
  image : ImageKey
  crc : Word32
  deriving DecidableEq, Repr

/-- R136. An entry of the unit table; the identity and condition fields are those of the last usable identity record. -/
structure UnitEntry where
  address : Nat
  identity : Identity
  state : JobState
  targetIndex : Option Nat
  target : Option TargetImage
  attempts : Nat
  deferralReported : Bool
  deferred : Bool
  changed : Bool
  last : Option (LastOutcome × Nat)
  deriving DecidableEq, Repr

/-- R146, R148. A packet of the ring: its place in the packet list, its command, the store block it takes its bytes from (with how many of them are
image bytes and whether they are reversed, R147), and its prepared bytes once in hand. -/
structure Packet where
  index : Nat
  command : CabinCommand
  offset : Nat
  length : Nat
  segment : Nat
  block : Nat
  imageBytes : Nat
  reversed : Bool
  bytes : Option (List Byte)
  deriving DecidableEq, Repr

/-- R144, R145, R155, R156. The job record. `identified`: the attempt-start Identify has completed. `probationSeconds`: the target entry's, log 20.
`cancelAtBoundary` and `stopAtBoundary` are the pending ends of R155 and R156; `sealDone` and `swapBegun` are what R155 asks about; `closing` is set
while the further Open of R155 is made, `closingAsked` once it has been presented. `readGone` is set once a flasher read has been answered gone: no further
read is presented before the boundary (log 60). -/
structure JobRecord where
  address : Nat
  attempt : Nat
  image : ImageKey
  manifest : Manifest
  probationSeconds : Nat
  oldBank : Option Bank
  newBank : Option Bank
  shortcut : Bool
  cursor : Nat
  ring : List Packet
  retries : Nat
  pauses : Nat
  pausingUntil : Option Nat
  identified : Bool
  cancelAtBoundary : Bool
  stopAtBoundary : Bool
  sealDone : Bool
  swapBegun : Bool
  closing : Bool
  closingAsked : Bool
  readGone : Bool
  deriving DecidableEq, Repr

/-- R158 to R162. The requests of a probation. -/
inductive ProbationRequest where
  | poll
  | finalRead
  | keep
  | revert
  | confirm
  deriving DecidableEq, Repr

/-- R157. -/
inductive ProbationPhase where
  | polling
  | final
  deriving DecidableEq, Repr

/-- R157 to R162. A probation record. `nextPoll` is none when the next poll waits for the request in hand, or when no further poll is to come;
`repeatDue` is the later request of R158 with its time; `confirmed` is R160's; `revertReason` is set once a Revert has been called for. -/
structure ProbationRecord where
  address : Nat
  oldBank : Bank
  newBank : Bank
  length : Nat
  swapTime : Nat
  phase : ProbationPhase
  nextPoll : Option Nat
  unanswered : Nat
  inHand : Option ProbationRequest
  repeatDue : Option (Nat × ProbationRequest)
  confirmed : Bool
  revertReason : Option Nat
  deriving DecidableEq, Repr

/-- R136, R144, R157. -/
structure Seq where
  units : List UnitEntry
  job : Option JobRecord
  probations : List ProbationRecord
  deriving DecidableEq, Repr

/-! ## Yard Clock and Departure Monitor (09) -/

/-- R164. -/
inductive ClockState where
  | unsynced
  | synced
  | freeRunning
  deriving DecidableEq, Repr

/-- R164. -/
structure Clock where
  state : ClockState
  offset : Word32
  source : Option Nat
  depth : Option Nat
  lastAdoption : Option Nat
  lastRelay : Option Nat
  beaconTimer : Option Nat
  deriving DecidableEq, Repr

/-- R169, R175, R177. `departed` is the departure state; `edgeAt` is the local time since which the line has stood at a level not yet taken. -/
structure Departure where
  departed : Bool
  levelTaken : Bool
  edgeAt : Option Nat
  deadline : Option Nat
  leaveCount : Nat
  leavesQueued : Nat
  nextLeave : Option Nat
  deriving DecidableEq, Repr

/-! ## Local Port (10) -/

/-- R180. -/
inductive PartState where
  | starting
  | unconfigured
  | running
  deriving DecidableEq, Repr

/-- R183. The configuration record in force. -/
structure ConfigRecord where
  station : Nat
  guardSeconds : Nat
  derate : Nat
  courier : Bool
  noRoster : Bool
  attentionMask : BitVec 64
  writeLocks : BitVec 16
  serveLocks : BitVec 16
  deriving DecidableEq, Repr

/-- R189. The 34 report kinds, in the order of their codes (R196). -/
inductive ReportKind where
  | started
  | commissioned
  | planAdopted
  | planRestored
  | catalogFull
  | imageComplete
  | manifestRejected
  | storeFull
  | fetchAbandoned
  | segmentSpoiled
  | storeError
  | loadDone
  | lineFault
  | lineStuck
  | identityBad
  | censusDone
  | censusOverflow
  | censusAbandoned
  | unitAhead
  | unitStranded
  | jobStarted
  | budgetDeferred
  | attemptFailed
  | jobFailed
  | jobCancelled
  | unitSwapped
  | unitDone
  | unitRolledBack
  | unitUnreachable
  | clockSynced
  | clockStep
  | clockFreeRunning
  | departed
  | returned
  deriving DecidableEq, Repr

/-- R196. How a report's subject is filled. -/
inductive Subject where
  | none
  | number (n : Nat)
  | serial (n : Nat)
  | image (k : ImageKey)
  | segment (k : ImageKey) (segment : Nat)
  deriving DecidableEq, Repr

/-- R189. -/
structure Report where
  sequence : BitVec 16
  localTime : Word32
  yardTime : Word32
  synced : Bool
  kind : ReportKind
  subject : Subject
  detail : BitVec 16
  unread : Bool
  deriving DecidableEq, Repr

/-- R196. The status byte of a reply. -/
inductive Status where
  | ok
  | busy
  | refused
  | bad
  | stale
  | starting
  deriving DecidableEq, Repr

/-- R179. A reply: status, the command byte echoed and the result bytes. -/
structure Reply where
  status : Status
  command : Byte
  result : List Byte
  deriving DecidableEq, Repr

/-- R185. -/
inductive CommissionState where
  | idle
  | writing
  | done
  | failed
  deriving DecidableEq, Repr

/-- R186, R187. The fields of a load: `marks` has one mark per block, `claimed` is set once the claim program has completed, `pending` while a block
program of the load waits or runs. -/
structure Load where
  image : ImageKey
  segment : Nat
  slot : Nat
  expected : Word32
  marks : BitVec 64
  claimed : Bool
  pending : Bool
  deriving DecidableEq, Repr

/-- R186. -/
inductive LoadState where
  | idle
  | opened (load : Load)
  | checking (load : Load)
  deriving DecidableEq, Repr

/-- R179 to R191. `reports` is the ring, oldest first; `commissionRecord` is the block being written; `restartArmed` from RESTART's answer to the
release of its select. -/
structure Port where
  part : PartState
  config : Option ConfigRecord
  reports : List Report
  attention : Bool
  reply : Option Reply
  restartArmed : Bool
  commission : CommissionState
  commissionRecord : List Byte
  load : LoadState
  deriving DecidableEq, Repr

/-! ## The whole -/

/-- The part: its pins, what a start read from the straps, its local time, and its blocks. `freeCount` is the model's own: how many free values have
been taken (logs 9, 10, 11). -/
structure Chip where
  pins : Pins
  role : Role
  total : Nat
  now : Nat
  freeCount : Nat
  plans : PlanStore
  catalog : Catalog
  peers : List PeerRecord
  fetch : Fetch
  serve : Serve
  yard : Yard
  store : Store
  line : CabinLine
  census : Census
  seq : Seq
  clock : Clock
  departure : Departure
  port : Port
  deriving DecidableEq, Repr

/-- The machine: the part, and the commands waiting, first in, first out. -/
structure State where
  chip : Chip
  pending : List Instr
  deriving DecidableEq, Repr

/-- What could stop the machine with a fault. The manual describes no event that stops the part, so no command raises this; it is here because a step
has three outcomes. Safe: nothing is proved from an outcome that does not arise. -/
inductive Fault where
  /-- Raised by nothing. -/
  | partStopped
  deriving DecidableEq, Repr

/-- What a command can be turned away with. -/
inductive Refusal where
  /-- Raised by an arm of `exec` for a command that has no meaning yet; no arm is one now. Safe: nothing is proved of such a command. -/
  | notModelled (mnemonic : String)
  deriving DecidableEq, Repr

/-- R97, R183. The number of slots a strap combination selects. -/
def slotsOf : SizeStrap → Nat
  | .slots2048 => 2048
  | .slots4096 => 4096
  | .slots8192 => 8192
  | .fourth => 2048

/-- R184 and the chapters: every block's value after a start, with the pins as they stand and the store's contents kept. The report ring is empty here;
STARTED is appended by the start. Log 45 names the fields to which the spec gives no value here, among them the departure line's level last taken
(released) and the counts of Leaves (0). No plan is held, serial 0, until R9 restores the copy (log 14, the model's choice). -/
def Chip.afterStart (pins : Pins) (flash : List Host.Cell) (freeCount : Nat) : Chip where
  pins := pins
  role := pins.role
  total := slotsOf pins.size
  now := 0
  freeCount := freeCount
  plans := { body := [], relayPending := false, lastPlanAsk := none, nextPosition := 16, persist := .idle, persistNoted := false }
  catalog := { records := [], lastOffered := none }
  peers := []
  fetch := { slots := [.free, .free, .free, .free], buffer := [], asks := [], storeFullAt := none, selectionAsked := false }
  serve := { queue := [], slots := [.free, .free, .free], sendMark := 3, readMark := 3 }
  yard :=
    { mode := .off, phase := .idle, cw := 8, lastEnd := none, urgent := [], windowOpen := 0, allowance := 1000, airtimeUsed := 0,
      offerRound := none, roundOffer := none, onAir := none }
  store :=
    { flash := flash, slotMap := [], dirtyQueue := [], releasing := [], retiredList := [], awaitingMark := [], eraseMarkDue := none,
      checkQueue := [], lastGranted := .scanner, current := none, waiting := [], portQueue := [{ op := .scanConfig, owner := none }],
      scanPhase := .system, scanNext := 8,
      findings := [] }
  line :=
    { state := if pins.clock && pins.data then .quiet 0 else .busy, requests := [], current := none, drive := ⟨false, false⟩, steps := [],
      heldSince := none, blockedSince := none, stuckReported := false }
  census :=
    { state := .idle, owed := decide (pins.role = .busStation), next := 1, pauses := 0, holds := 0, results := [], lastAbandon := none,
      completedOnce := false }
  seq := { units := [], job := none, probations := [] }
  clock :=
    { state := if pins.role = .origin then .synced else .unsynced, offset := 0, source := none, depth := none, lastAdoption := none,
      lastRelay := none, beaconTimer := none }
  departure :=
    { departed := false, levelTaken := false, edgeAt := none, deadline := none, leaveCount := 0, leavesQueued := 0, nextLeave := none }
  port :=
    { part := .starting, config := none, reports := [], attention := false, reply := none, restartArmed := false, commission := .idle,
      commissionRecord := [], load := .idle }

/-- The machine right after a power-on start of a bus station (log 1): the after-start values, STARTED with detail 0 in the ring (R184), and the
read of slot 0 granted (R108). Its store has nothing programmed (log 2). -/
def State.reset : State where
  chip :=
    let fresh := Chip.afterStart ⟨.busStation, .slots2048, false, false, true, true⟩ [] 0
    { fresh with
      port.reports :=
        [{ sequence := 0, localTime := 0, yardTime := 0, synced := false, kind := .started, subject := .none, detail := 0, unread := true }]
      store.lastGranted := .localPort
      store.portQueue := []
      store.current := some { op := .scanConfig, live := true } }
  pending := []

end Sys2Proof.Machine
end

