-- ==== Sys2Proof/Machine/Operands.lean ====
section
/-!
DEFINITION. The operand forms: check values (R192) and the byte layouts of yard link frames (R193), stored formats (R194), cabin line formats (R195)
and local port frames (R196). Multi-byte fields are most significant byte first (11).
-/
namespace Sys2Proof.Machine

/-! ## Byte order -/

/-- Byte `i` of `bs` as a number; bytes beyond the end read as 0xFF, the value of a line or a cell that nothing drives. -/
def byteAt (bs : List Byte) (i : Nat) : Nat := (bs.getD i 0xFF#8).toNat

/-- The 2-byte field at offset `i`. -/
def be16 (bs : List Byte) (i : Nat) : Nat := byteAt bs i * 256 + byteAt bs (i + 1)

/-- The 4-byte field at offset `i`. -/
def be32 (bs : List Byte) (i : Nat) : Nat := be16 bs i * 65536 + be16 bs (i + 2)

/-- The 8-byte field at offset `i`. -/
def be64 (bs : List Byte) (i : Nat) : Nat := be32 bs i * 4294967296 + be32 bs (i + 4)

/-- The `i`-th bit of the byte at `off` (a flag). -/
def flagAt (bs : List Byte) (off i : Nat) : Bool := (byteAt bs off).testBit i

def put8 (n : Nat) : List Byte := [BitVec.ofNat 8 n]

def put16 (n : Nat) : List Byte := [BitVec.ofNat 8 (n / 256), BitVec.ofNat 8 n]

def put32 (n : Nat) : List Byte := put16 (n / 65536) ++ put16 n

def put64 (n : Nat) : List Byte := put32 (n / 4294967296) ++ put32 n

def putFlag (b : Bool) : List Byte := [if b then 1#8 else 0#8]

/-- `len` bytes from offset `off`. -/
def slice (bs : List Byte) (off len : Nat) : List Byte := (bs.drop off).take len

/-- `bs` made `n` bytes long: cut, or filled with 0xFF. -/
def padTo (n : Nat) (bs : List Byte) : List Byte := bs.take n ++ List.replicate (n - bs.length) 0xFF#8

/-! ## Check values (R192) -/

/-- R192. One bit of the CRC-16: polynomial 0x1021, not reflected. -/
def crc16Bit (r : BitVec 16) : BitVec 16 := if r.msb then (r <<< 1) ^^^ 0x1021#16 else r <<< 1

/-- R192. One byte of the CRC-16. -/
def crc16Byte (r : BitVec 16) (b : Byte) : BitVec 16 :=
  crc16Bit (crc16Bit (crc16Bit (crc16Bit (crc16Bit (crc16Bit (crc16Bit (crc16Bit (r ^^^ (b.zeroExtend 16 <<< 8)))))))))

/-- R192. CRC-16, register preset to all ones, no final inversion. -/
def crc16 (bs : List Byte) : BitVec 16 := bs.foldl crc16Byte 0xFFFF#16

/-- R192. One bit of the CRC-32: polynomial 0x04C11DB7 in reflected form. -/
def crc32Bit (r : Word32) : Word32 := if r.getLsbD 0 then (r >>> 1) ^^^ 0xEDB88320#32 else r >>> 1

/-- R192. One byte of the CRC-32, least significant bit first. -/
def crc32Byte (r : Word32) (b : Byte) : Word32 :=
  crc32Bit (crc32Bit (crc32Bit (crc32Bit (crc32Bit (crc32Bit (crc32Bit (crc32Bit (r ^^^ b.zeroExtend 32))))))))

/-- The register's preset value (R192). -/
def crc32Start : Word32 := 0xFFFFFFFF#32

/-- The register after further bytes (R107 computes it as the bytes arrive). -/
def crc32Feed (r : Word32) (bs : List Byte) : Word32 := bs.foldl crc32Byte r

/-- R192. CRC-32, the final register value inverted. -/
def crc32 (bs : List Byte) : Word32 := ~~~(crc32Feed crc32Start bs)

/-! ## Yard time order (R192) -/

/-- R192. The difference a − b of two yard times, read as a signed number. -/
def yardDiff (a b : Word32) : Int := (a - b).toInt

/-- R192. Yard time `a` is earlier than `b`. -/
def yardEarlier (a b : Word32) : Bool := decide (yardDiff a b < 0)

/-! ## Yard link frames (R193) -/

/-- R193. The kind byte. -/
def FrameKind.code : FrameKind → Nat
  | .offer => 1
  | .ask => 2
  | .block => 3
  | .lacking => 4
  | .busy => 5
  | .refused => 6
  | .plan => 7
  | .planAsk => 8
  | .beacon => 9
  | .leave => 10

/-- R79. The kind a kind byte names, if it is one of the ten. -/
def frameKindOf : Nat → Option FrameKind
  | 1 => some .offer
  | 2 => some .ask
  | 3 => some .block
  | 4 => some .lacking
  | 5 => some .busy
  | 6 => some .refused
  | 7 => some .plan
  | 8 => some .planAsk
  | 9 => some .beacon
  | 10 => some .leave
  | _ => none

/-- A delivered frame that has passed the checks of R79. -/
structure RxFrame where
  kind : FrameKind
  originFlag : Bool
  departing : Bool
  sender : Nat
  serial : Nat
  payload : List Byte
  deriving DecidableEq, Repr

/-- R79 check 4, R193. The payload has the length its kind requires; for Offer and Plan that length follows from the count it carries. -/
def payloadLengthOk (kind : FrameKind) (payload : List Byte) : Bool :=
  match kind with
  | .offer => 9 ≤ payload.length && byteAt payload 8 ≤ 24 && payload.length == 9 + 4 * byteAt payload 8
  | .ask => payload.length == 11
  | .block => payload.length == 138
  | .lacking => payload.length == 8
  | .busy => payload.length == 8
  | .refused => payload.length == 8
  | .plan => 11 ≤ payload.length && byteAt payload 6 ≤ 16 && payload.length == 11 + 26 * byteAt payload 6
  | .planAsk => payload.length == 2
  | .beacon => payload.length == 5
  | .leave => payload.length == 0

/-- R79. The six checks of a delivered frame at a station with id `own`; none when one fails (the frame is dropped). -/
def acceptFrame (own : Nat) (frame : List Byte) : Option RxFrame :=
  let len := frame.length
  let body := frame.take (len - 2)
  let payload := body.drop 10
  let sender := be16 frame 2
  if len < 12 then none
  else if crc16 body ≠ BitVec.ofNat 16 (be16 frame (len - 2)) then none
  else
    match frameKindOf (byteAt frame 0) with
    | none => none
    | some kind =>
      if len ≠ 10 + be16 frame 8 + 2 then none
      else if !payloadLengthOk kind payload then none
      else if sender = 0 || sender = 65535 || sender = own then none
      else if kind = .beacon && 3 < byteAt payload 4 then none
      else
        some
          { kind := kind
            originFlag := flagAt frame 1 0
            departing := flagAt frame 1 1
            sender := sender
            serial := be32 frame 4
            payload := payload }

/-- R77, R193. A whole frame: header, payload, frame check value. -/
def frameBytes (kind : FrameKind) (originFlag departing : Bool) (sender serial : Nat) (payload : List Byte) : List Byte :=
  let flags := (if originFlag then 1 else 0) + (if departing then 2 else 0)
  let body := put8 kind.code ++ put8 flags ++ put16 sender ++ put32 serial ++ put16 payload.length ++ payload
  body ++ put16 (crc16 body).toNat

/-- R76. The airtime in µs of a frame of `len` bytes. -/
def airtime (len : Nat) : Nat := (len + 8) * 32

/-- R193. The image named at payload offset `i`. -/
def imageAt (bs : List Byte) (i : Nat) : ImageKey := ⟨be16 bs i, be16 bs (i + 2)⟩

def putImage (k : ImageKey) : List Byte := put16 k.id ++ put16 k.version

/-- R193. The ranges of an Offer's payload from offset `i`, `n` of them. -/
def rangesAt (bs : List Byte) (i : Nat) : Nat → List SegRun
  | 0 => []
  | n + 1 => ⟨be16 bs i, be16 bs (i + 2)⟩ :: rangesAt bs (i + 4) n

/-- R193. An Offer's payload. -/
def offerOf (p : List Byte) : OfferBody :=
  { image := imageAt p 0, spanFirst := be16 p 4, spanLast := be16 p 6, ranges := rangesAt p 9 (byteAt p 8) }

def putOffer (o : OfferBody) : List Byte :=
  putImage o.image ++ put16 o.spanFirst ++ put16 o.spanLast ++ put8 o.ranges.length ++
    o.ranges.flatMap (fun r => put16 r.first ++ put16 r.last)

/-- R193. An Ask's payload: the station asked, and the entry it would make. -/
def askOf (sender : Nat) (p : List Byte) : Nat × AskEntry :=
  (be16 p 0,
    { asker := sender, image := imageAt p 2, segment := be16 p 6, base := byteAt p 8, mask := BitVec.ofNat 16 (be16 p 9) })

def putAsk (server : Nat) (image : ImageKey) (segment base : Nat) (mask : BitVec 16) : List Byte :=
  put16 server ++ putImage image ++ put16 segment ++ put8 base ++ put16 mask.toNat

/-- R193. A Block's payload. -/
structure BlockBody where
  asker : Nat
  image : ImageKey
  segment : Nat
  index : Nat
  lastOfAsk : Bool
  data : List Byte
  deriving DecidableEq, Repr

def blockOf (p : List Byte) : BlockBody :=
  { asker := be16 p 0, image := imageAt p 2, segment := be16 p 6, index := byteAt p 8, lastOfAsk := flagAt p 9 0, data := p.drop 10 }

def putBlock (b : BlockBody) : List Byte :=
  put16 b.asker ++ putImage b.image ++ put16 b.segment ++ put8 b.index ++ putFlag b.lastOfAsk ++ padTo 128 b.data

/-- R193. A Lacking, Busy or Refused payload: asker, image, segment. -/
def replyOf (p : List Byte) : Nat × ImageKey × Nat := (be16 p 0, imageAt p 2, be16 p 6)

def putReply (asker : Nat) (image : ImageKey) (segment : Nat) : List Byte := put16 asker ++ putImage image ++ put16 segment

/-! ## Plans (R2, R193) -/

/-- R2. A plan entry; the probation seconds are as sent. -/
structure PlanEntry where
  model : Nat
  image : ImageKey
  crc : Word32
  floor : Nat
  priv : Bool
  allowDowngrade : Bool
  notBefore : Option Word32
  probation : Nat
  deriving DecidableEq, Repr

/-- R193. The entry whose 26 bytes begin at offset `i`. -/
def planEntryAt (bs : List Byte) (i : Nat) : PlanEntry :=
  { model := be16 bs i
    image := imageAt bs (i + 2)
    crc := BitVec.ofNat 32 (be32 bs (i + 6))
    floor := be16 bs (i + 10)
    priv := flagAt bs (i + 12) 0
    allowDowngrade := flagAt bs (i + 12) 1
    notBefore := if flagAt bs (i + 12) 2 then some (BitVec.ofNat 32 (be32 bs (i + 13))) else none
    probation := be16 bs (i + 17) }

/-- `n` entries from offset `i`. -/
def planEntriesAt (bs : List Byte) (i : Nat) : Nat → List PlanEntry
  | 0 => []
  | n + 1 => planEntryAt bs i :: planEntriesAt bs (i + 26) n

/-- R193. The plan serial stands at body offset 2. -/
def planSerial (body : List Byte) : Nat := be32 body 2

def planAuthor (body : List Byte) : Nat := be16 body 0

/-- The entries of a body; an empty body has none (R1). -/
def planEntries (body : List Byte) : List PlanEntry := if body = [] then [] else planEntriesAt body 7 (byteAt body 6)

/-- The length of the body that an entry count implies (01). -/
def planBodyLength (count : Nat) : Nat := 11 + 26 * count

/-- R8, R193. The body at the head of `bs`, if its entry count is 16 or less and its plan CRC-32 is right over what the count implies. -/
def wholePlanBody (bs : List Byte) : Option (List Byte) :=
  let count := byteAt bs 6
  let len := planBodyLength count
  if bs.length < 11 || 16 < count || bs.length < len then none
  else if crc32 (bs.take (len - 4)) = BitVec.ofNat 32 (be32 bs (len - 4)) then some (bs.take len)
  else none

/-- R2, R193. The bytes of `n` entries as an origin stores and sends them: the unnamed bits 3 to 7 of each flags byte and the 7 bytes of each pad zero,
whatever the host gave for them (log 57). -/
def authoredEntries : Nat → List Byte → List Byte
  | 0, _ => []
  | n + 1, bs => bs.take 12 ++ ((bs.getD 12 0 &&& 7) :: (slice bs 13 6 ++ (List.replicate 7 0#8 ++ authoredEntries n (bs.drop 26))))

/-- R10. The body of a plan authored by station `author`. -/
def buildPlanBody (author serial count : Nat) (entries : List Byte) : List Byte :=
  let head := put16 author ++ put32 serial ++ put8 count ++ authoredEntries count entries
  head ++ put32 (crc32 head).toNat

/-! ## Stored formats (R194) -/

/-- R194. A placement window descriptor at manifest offset `i`. -/
def windowAt (bs : List Byte) (i : Nat) : PlacementWindow :=
  { first := be16 bs i, last := be16 bs (i + 2), offset := be32 bs (i + 4), bitOrder := flagAt bs (i + 8) 0 }

def windowsAt (bs : List Byte) (i : Nat) : Nat → List PlacementWindow
  | 0 => []
  | n + 1 => windowAt bs i :: windowsAt bs (i + 16) n

def crcsAt (bs : List Byte) (i : Nat) : Nat → List Word32
  | 0 => []
  | n + 1 => BitVec.ofNat 32 (be32 bs i) :: crcsAt bs (i + 4) n

/-- R15. The window length of a descriptor in an image of `count` segments and `length` bytes. -/
def windowLength (count length : Nat) (w : PlacementWindow) : Nat :=
  (w.last + 1 - w.first) * 8192 - (if w.last = count then count * 8192 - length else 0)

/-- R15. The header check value of a manifest segment: the CRC-32 of its bytes with the 4 bytes of the value itself left out. -/
def manifestCheck (bs : List Byte) : Word32 := crc32 (bs.take 28 ++ bs.drop 32)

/-- R16 reason 7: each window has first ≤ last within 1 to N, and begins after the one before it ends. -/
def windowRangesOk (count : Nat) : Nat → List PlacementWindow → Bool
  | _, [] => true
  | after, w :: ws => decide (after < w.first) && decide (w.first ≤ w.last) && decide (w.last ≤ count) && windowRangesOk count w.last ws

/-- R16 reason 9: two bank ranges share no byte. -/
def windowsDisjoint (count length : Nat) (v w : PlacementWindow) : Bool :=
  decide (v.offset + windowLength count length v ≤ w.offset) || decide (w.offset + windowLength count length w ≤ v.offset)

/-- R16 reason 9 for a list: the bank ranges are pairwise disjoint. -/
def windowsApart (count length : Nat) : List PlacementWindow → Bool
  | [] => true
  | w :: ws => ws.all (windowsDisjoint count length w) && windowsApart count length ws

/-- R16. Manifest validation: the reason of the first condition that fails, in the order given, or what the catalog records. -/
def validateManifest (image : ImageKey) (model : Nat) (bs : List Byte) : Except Nat Manifest :=
  let count := be16 bs 6
  let length := be32 bs 8
  let nw := byteAt bs 12
  let ws := windowsAt bs 32 nw
  if manifestCheck bs ≠ BitVec.ofNat 32 (be32 bs 28) then .error 1
  else if imageAt bs 0 ≠ image then .error 2
  else if be16 bs 4 ≠ model then .error 3
  else if count < 1 || 2024 < count then .error 4
  else if length < (count - 1) * 8192 + 1 || count * 8192 < length then .error 5
  else if nw < 1 || 4 < nw then .error 6
  else if !windowRangesOk count 0 ws then .error 7
  else if !ws.all (fun w => w.offset % 4096 == 0) then .error 8
  else if !windowsApart count length ws then .error 9
  else .ok { count := count, length := length, windows := ws, crcs := crcsAt bs 96 count }

/-- R194. The erase mark's value. -/
def eraseMarkBytes : List Byte := [0xA5#8, 0xC3#8]

/-- R194. The claim mark's value. -/
def claimMarkBytes : List Byte := [0x3C#8, 0x5A#8]

/-- R194. The held stamp's marker value. -/
def heldStampBytes : List Byte := [0x6C#8, 0x3A#8, 0x95#8, 0xD2#8]

/-- R194. The retired mark's value. -/
def retiredMarkBytes : List Byte := [0#8, 0#8, 0#8, 0#8]

/-- R194. The slot header and held stamp, spare offsets 4 to 17. -/
def headerBytes (image : ImageKey) (segment : Nat) (crc : Word32) : List Byte :=
  putImage image ++ put16 segment ++ put32 crc.toNat ++ heldStampBytes

/-- R110. What the sweep makes of a spare area. -/
inductive SpareClass where
  | retired
  | finding (image : ImageKey) (segment : Nat) (crc : Word32)
  | erased
  | dirty
  deriving DecidableEq, Repr

/-- R194. Every byte reads 0xFF. -/
def allErased (bs : List Byte) : Bool := bs.all (fun b => b == 0xFF#8)

/-- R110, R194. The first row that applies to the 64 bytes of a spare area. -/
def classifySpare (sp : List Byte) : SpareClass :=
  let erase := slice sp 0 2 == eraseMarkBytes
  if !allErased (slice sp 60 4) then .retired
  else if erase && slice sp 2 2 == claimMarkBytes && slice sp 14 4 == heldStampBytes then
    .finding (imageAt sp 4) (be16 sp 8) (BitVec.ofNat 32 (be32 sp 10))
  else if erase && allErased (slice sp 2 16) then .erased
  else .dirty

/-- R194. The format marker of a configuration record. -/
def configMarker : Nat := 0x59443431

/-- R183, R194. The configuration record's fields from its 18 bytes at offsets 4 to 21. -/
def configFields (r : List Byte) : ConfigRecord :=
  { station := be16 r 0
    guardSeconds := be16 r 2
    derate := byteAt r 4
    courier := flagAt r 5 0
    noRoster := flagAt r 5 1
    attentionMask := BitVec.ofNat 64 (be64 r 6)
    writeLocks := BitVec.ofNat 16 (be16 r 14)
    serveLocks := BitVec.ofNat 16 (be16 r 16) }

/-- 00, Conventions. A station id lies in 1 to 65534. -/
def stationOk (n : Nat) : Bool := decide (1 ≤ n) && decide (n ≤ 65534)

/-- R183. The record in the first block of slot 0, if it is whole: marker, CRC-32 and station id. -/
def judgeConfig (blk : List Byte) : Option ConfigRecord :=
  let r := configFields (slice blk 4 18)
  if be32 blk 0 = configMarker && BitVec.ofNat 32 (be32 blk 22) == crc32 (blk.take 22) && stationOk r.station then some r else none

/-- R185, R194. The 26 bytes a commission write programs for the 18 argument bytes; the flags byte's unnamed bits are stored as zero (11). -/
def commissionBytes (args : List Byte) : List Byte :=
  let head := put32 configMarker ++ args.take 5 ++ put8 (byteAt args 5 % 4) ++ args.drop 6
  head ++ put32 (crc32 head).toNat

/-! ## Cabin line formats (R195) -/

/-- R195. The command bytes. -/
def CabinCommand.code : CabinCommand → Nat
  | .identify => 0x01
  | .health => 0x02
  | .openBank => 0x10
  | .erase => 0x11
  | .write => 0x12
  | .read => 0x13
  | .seal => 0x14
  | .swap => 0x20
  | .keep => 0x21
  | .revert => 0x22

/-- R116, R195. The address byte: unit address in bits 7 to 3, direction in bit 2. -/
def addressByte (address : Nat) (receiving : Bool) : Byte := BitVec.ofNat 8 (address * 8 + (if receiving then 4 else 0))

/-- R116, R117. The bytes a transaction sends before any reopen mark: address, command, offset, length byte, data. -/
def sentBytes (r : LineRequest) : List Byte :=
  [addressByte r.address false] ++ put8 r.command.code ++ [BitVec.ofNat 8 (r.offset / 65536)] ++ put16 r.offset ++ put8 r.lengthByte ++ r.data

/-- R118. The bytes the unit must acknowledge: those sent, and the second address byte of a command that receives. -/
def acknowledgedBytes (r : LineRequest) : List Byte :=
  sentBytes r ++ (if r.receive = 0 then [] else [addressByte r.address true])

/-- R116 to R119. The outcome of a transaction in which the byte at place `nak` (counted from 0) was left unacknowledged, or none was, and in which the
unit drove `received`. A unit that has stopped driving gives 0xFF (R118). -/
def transactionOutcome (r : LineRequest) (nak : Option Nat) (received : List Byte) : LineOutcome :=
  match nak with
  | some 0 => .absent
  | some k => if k < (acknowledgedBytes r).length then .refused else .completed (padTo r.receive received)
  | none => .completed (padTo r.receive received)

def bankOf : Nat → Option Bank
  | 0 => some .a
  | 1 => some .b
  | _ => none

def bankCode : Bank → Nat
  | .a => 0
  | .b => 1

def otherBank : Bank → Bank
  | .a => .b
  | .b => .a

def rateOf : Nat → Option Nat
  | 0 => some 100000
  | 1 => some 400000
  | 2 => some 1000000
  | _ => none

def rateCode (rate : Nat) : Nat := if rate = 100000 then 0 else if rate = 400000 then 1 else 2

/-- R130. A power of two from 4,096 to 65,536. -/
def sectorSizeOk (n : Nat) : Bool := n == 4096 || n == 8192 || n == 16384 || n == 32768 || n == 65536

/-- R130, R195. The identity record in 32 received bytes, if it is usable. -/
def usableIdentity (bs : List Byte) : Option Identity :=
  match bankOf (byteAt bs 8), rateOf (byteAt bs 23) with
  | some active, some rate =>
    let r : Identity :=
      { model := be16 bs 0
        revision := be16 bs 2
        serial := be32 bs 4
        active := active
        versionA := be16 bs 9
        sealedA := flagAt bs 11 0
        versionB := be16 bs 12
        sealedB := flagAt bs 14 0
        sectorSize := be32 bs 15
        sectors := be16 bs 19
        granule := byteAt bs 21
        bitOrder := flagAt bs 22 0
        rate := rate
        pageTime := be16 bs 24
        pageHold := be16 bs 26
        eraseTime := be16 bs 28
        eraseHold := be16 bs 30 }
    if r.model ≠ 0 && r.model ≠ 65535 && sectorSizeOk r.sectorSize && 1 ≤ r.sectors && r.sectorSize * r.sectors ≤ 16777216 &&
        (r.granule == 1 || r.granule == 2 || r.granule == 4) then some r
    else none
  | _, _ => none

/-- R195. Identity record offsets 0 to 14: the unit and its banks. -/
def putIdentityBanks (r : Identity) : List Byte :=
  put16 r.model ++ put16 r.revision ++ put32 r.serial ++ put8 (bankCode r.active) ++ put16 r.versionA ++ putFlag r.sealedA ++ put16 r.versionB ++
    putFlag r.sealedB

/-- R195. Identity record offsets 15 to 31: the unit's geometry and times. -/
def putIdentityTimes (r : Identity) : List Byte :=
  put32 r.sectorSize ++ put16 r.sectors ++ put8 r.granule ++ putFlag r.bitOrder ++ put8 (rateCode r.rate) ++ put16 r.pageTime ++
    put16 r.pageHold ++ put16 r.eraseTime ++ put16 r.eraseHold

/-- R195. The identity record layout, 32 bytes. -/
def putIdentity (r : Identity) : List Byte := putIdentityBanks r ++ putIdentityTimes r

/-- R127. A health record. `fallback` is the boot result; the self-test is 0 RUNNING, 1 PASS, 2 FAIL. -/
structure Health where
  running : Bank
  trial : Bool
  fallback : Bool
  selfTest : Nat
  deriving DecidableEq, Repr

/-- R127, R195. The health record in 4 received bytes, if every field is within its values. -/
def healthOf (bs : List Byte) : Option Health :=
  match bankOf (byteAt bs 0) with
  | none => none
  | some bank =>
    if byteAt bs 1 ≤ 1 && byteAt bs 2 ≤ 1 && byteAt bs 3 ≤ 2 then
      some { running := bank, trial := byteAt bs 1 == 1, fallback := byteAt bs 2 == 1, selfTest := byteAt bs 3 }
    else none

/-- R131. Two records are of the same unit when model code, hardware revision and serial agree. -/
def sameUnit (a b : Identity) : Bool := a.model == b.model && a.revision == b.revision && a.serial == b.serial

/-- R138. The version recorded for a bank. -/
def Identity.version (r : Identity) : Bank → Nat
  | .a => r.versionA
  | .b => r.versionB

/-- R130. The sealed flag of a bank. -/
def Identity.sealed (r : Identity) : Bank → Bool
  | .a => r.sealedA
  | .b => r.sealedB

/-- R130. The bank size. -/
def Identity.bankSize (r : Identity) : Nat := r.sectorSize * r.sectors

/-- R147. A byte with its bit order reversed. -/
def reverseByte (b : Byte) : Byte :=
  BitVec.ofNat 8
    ((b.toNat / 128) % 2 + (b.toNat / 64) % 2 * 2 + (b.toNat / 32) % 2 * 4 + (b.toNat / 16) % 2 * 8 + (b.toNat / 8) % 2 * 16 +
      (b.toNat / 4) % 2 * 32 + (b.toNat / 2) % 2 * 64 + b.toNat % 2 * 128)

/-! ## Local port frames (R179, R196) -/

/-- R196. The status byte. -/
def Status.code : Status → Nat
  | .ok => 0
  | .busy => 1
  | .refused => 2
  | .bad => 3
  | .stale => 4
  | .starting => 5

/-- R179. The bytes a controller clocks between the end of a command frame and the first byte of the reply; the part sends them 0x00. -/
def turnaround : List Byte := List.replicate 4 0#8

/-- R179, R196. The bytes of a reply frame. -/
def Reply.bytes (r : Reply) : List Byte :=
  let body := put8 r.status.code ++ [r.command] ++ put16 r.result.length ++ r.result
  body ++ put16 (crc16 body).toNat

/-- R179. What the part sends in an exchange once the command frame has arrived: the turnaround, then the reply frame. -/
def Reply.sent (r : Reply) : List Byte := turnaround ++ r.bytes

/-- R196. The argument lengths each command byte allows; none for a byte that names no command. -/
def argumentLengthOk (code len : Nat) : Bool :=
  match code with
  | 0x01 => len == 0
  | 0x02 => len == 0
  | 0x03 => len == 3
  | 0x04 => len == 2
  | 0x05 => len == 4
  | 0x06 => len == 0
  | 0x07 => len == 0
  | 0x08 => len == 0
  | 0x09 => len == 18
  | 0x10 => 5 ≤ len
  | 0x11 => len == 8
  | 0x12 => len == 129
  | 0x13 => len == 1
  | _ => false

/-- R179. A command frame is good when it is whole, its CRC-16 is right, its command byte names a command and its argument length is allowed. -/
def commandFrameGood (frame : List Byte) : Bool :=
  let len := be16 frame 1
  decide (5 ≤ frame.length) && frame.length == len + 5 && crc16 (frame.take (len + 3)) == BitVec.ofNat 16 (be16 frame (len + 3)) &&
    argumentLengthOk (byteAt frame 0) len

/-- R179, R196. The command a good frame carries. -/
def commandOfFrame (frame : List Byte) : Option Instr :=
  let a := slice frame 3 (be16 frame 1)
  if !commandFrameGood frame then none
  else
    match byteAt frame 0 with
    | 0x01 => some .status
    | 0x02 => some .readUnits
    | 0x03 => some (.readCatalog (BitVec.ofNat 8 (byteAt a 0)) (BitVec.ofNat 16 (be16 a 1)))
    | 0x04 => some (.readReports (BitVec.ofNat 16 (be16 a 0)))
    | 0x05 => some (.setDeparture (BitVec.ofNat 32 (be32 a 0)))
    | 0x06 => some .clearDeparture
    | 0x07 => some .census
    | 0x08 => some .restart
    | 0x09 => some (.commission a)
    | 0x10 => some (.loadPlan (BitVec.ofNat 32 (be32 a 0)) (BitVec.ofNat 8 (byteAt a 4)) (a.drop 5))
    | 0x11 =>
      some (.loadSegmentOpen (BitVec.ofNat 16 (be16 a 0)) (BitVec.ofNat 16 (be16 a 2)) (BitVec.ofNat 16 (be16 a 4)) (BitVec.ofNat 16 (be16 a 6)))
    | 0x12 => some (.loadBlock (BitVec.ofNat 8 (byteAt a 0)) (a.drop 1))
    | 0x13 => some (.loadSegmentClose (BitVec.ofNat 8 (byteAt a 0)))
    | _ => none

/-- R179. The bytes of a command frame with these arguments. -/
def commandFrame (code : Nat) (args : List Byte) : List Byte :=
  let body := put8 code ++ put16 args.length ++ args
  body ++ put16 (crc16 body).toNat

/-- R189, R196. The report kind codes, 1 to 34. -/
def ReportKind.code : ReportKind → Nat
  | .started => 1
  | .commissioned => 2
  | .planAdopted => 3
  | .planRestored => 4
  | .catalogFull => 5
  | .imageComplete => 6
  | .manifestRejected => 7
  | .storeFull => 8
  | .fetchAbandoned => 9
  | .segmentSpoiled => 10
  | .storeError => 11
  | .loadDone => 12
  | .lineFault => 13
  | .lineStuck => 14
  | .identityBad => 15
  | .censusDone => 16
  | .censusOverflow => 17
  | .censusAbandoned => 18
  | .unitAhead => 19
  | .unitStranded => 20
  | .jobStarted => 21
  | .budgetDeferred => 22
  | .attemptFailed => 23
  | .jobFailed => 24
  | .jobCancelled => 25
  | .unitSwapped => 26
  | .unitDone => 27
  | .unitRolledBack => 28
  | .unitUnreachable => 29
  | .clockSynced => 30
  | .clockStep => 31
  | .clockFreeRunning => 32
  | .departed => 33
  | .returned => 34

/-- R196. The 6 bytes of a report's subject. -/
def putSubject : Subject → List Byte
  | .none => put16 0 ++ put32 0
  | .number n => put32 0 ++ put16 n
  | .serial n => put16 0 ++ put32 n
  | .image k => putImage k ++ put16 0
  | .segment k seg => putImage k ++ put16 seg

/-- R196. The 20 bytes of a report record. -/
def putReport (r : Report) : List Byte :=
  put16 r.sequence.toNat ++ put32 r.localTime.toNat ++ put32 r.yardTime.toNat ++ putFlag r.synced ++ put8 r.kind.code ++ putSubject r.subject ++
    put16 r.detail.toNat

/-- R137, R196. The job state codes, 0 to 15. -/
def JobState.code : JobState → Nat
  | .current => 0
  | .ahead => 1
  | .stranded => 2
  | .waitingImage => 3
  | .waitingTime _ => 4
  | .ready => 5
  | .erasing => 6
  | .writing => 7
  | .verifying => 8
  | .sealing => 9
  | .switching => 10
  | .probation => 11
  | .done => 12
  | .failed => 13
  | .rolledBack => 14
  | .unreachable => 15

/-- R196. The wait reason codes; 0 when absent. -/
def JobState.reasonCode : JobState → Nat
  | .waitingTime .notBefore => 1
  | .waitingTime .unsynced => 2
  | .waitingTime .noNotice => 3
  | .waitingTime .budget => 4
  | _ => 0

/-- R154. The reason codes of a failed attempt. -/
def FailReason.code : FailReason → Nat
  | .hold => 1
  | .absent => 2
  | .refused => 3
  | .lineBusy => 4
  | .lineFault => 5
  | .verify => 6
  | .misfit => 7
  | .identity => 8

/-- R196. The last outcome codes. -/
def lastOutcomeCode : LastOutcome → Nat
  | .attempt r => r.code
  | .done => 0x20
  | .rolledBack => 0x21
  | .unreachable => 0x22
  | .cancelledPlan => 0x30
  | .cancelledDeparture => 0x31
  | .failed r => 0x40 + r.code

/-- R196. The 51 bytes of a unit table entry. While there is no last outcome its four bytes of time are sent as 0 too (log 55). -/
def putUnit (u : UnitEntry) : List Byte :=
  put8 u.address ++ putIdentity u.identity ++ put8 u.state.code ++ put8 u.state.reasonCode ++ put8 (u.targetIndex.getD 0xFF) ++
    (match u.target with
      | some t => putImage t.image ++ put32 t.crc.toNat
      | none => put64 0) ++
    put8 u.attempts ++
    put8 ((if u.deferralReported then 1 else 0) + (if u.changed then 2 else 0) + (if u.deferred then 4 else 0)) ++
    (match u.last with
      | some (o, t) => put8 (lastOutcomeCode o) ++ put32 t
      | none => put8 0 ++ put32 0)

/-- R196. The segment state codes, in the order ABSENT, FETCHING, CHECKING, HELD, COOLING. -/
def SegState.code : SegState → Nat
  | .absent => 0
  | .fetching _ => 1
  | .checking _ => 2
  | .held _ => 3
  | .cooling _ => 4

/-- R196. The image state codes. -/
def ImageState.code : ImageState → Nat
  | .needsManifest => 0
  | .gathering => 1
  | .complete => 2
  | .rejected => 3

/-- R182. How many segments of a record are in the state with this code. -/
def countSegments (r : ImageRecord) (code : Nat) : Nat := r.entries.countP (fun e => e.state.code == code)

/-- R196. The 23 bytes of a record summary. -/
def putRecord (r : ImageRecord) : List Byte :=
  putImage r.image ++ put8 (if r.need = .own then 0 else 1) ++ putFlag r.priv ++ put8 r.state.code ++
    (match r.manifest with
      | some m => put16 m.count ++ put32 m.length
      | none => put16 0 ++ put32 0) ++
    put16 (countSegments r 0) ++ put16 (countSegments r 1) ++ put16 (countSegments r 2) ++ put16 (countSegments r 3) ++ put16 (countSegments r 4)

end Sys2Proof.Machine
end

