-- ==== Sys2Proof/Machine/Ops.lean ====
section
/-!
DEFINITION. The operations the blocks share: the store flash as memory (R96), the slot map and its geometry (R97, R99), the catalog's and the peer
table's records, and the reading of the clocks.
-/
namespace Sys2Proof.Machine

/-! ## The store flash (R96) -/

/-- R96. What an erased byte reads as; also what an unlisted cell reads as (log 2). -/
def erasedByte : Byte := 0xFF#8

/-- R96. A slot's bytes: 8,192 of data and 64 of spare area. -/
def slotBytes : Nat := 8256

/-- The address of byte `off` of the slot's data part. -/
def dataAddress (slot off : Nat) : Nat := slot * slotBytes + off

/-- The address of byte `off` of the slot's spare area. -/
def spareAddress (slot off : Nat) : Nat := slot * slotBytes + 8192 + off

/-- The memory's canonical form: addresses strictly rising, and nothing listed that reads as erased. -/
abbrev Memory.wf (m : List Host.Cell) : Prop := m.Pairwise (fun c d => c.1 < d.1) ∧ ∀ c ∈ m, c.2 ≠ erasedByte

/-- The byte at an address; an unlisted cell reads as erased. -/
def Memory.read (m : List Host.Cell) (a : Nat) : Byte := (m.lookup a).getD erasedByte

/-- `n` bytes from an address. -/
def Memory.readRange (m : List Host.Cell) (a : Nat) : Nat → List Byte
  | 0 => []
  | n + 1 => Memory.read m a :: Memory.readRange m (a + 1) n

/-- The cells that hold `bs` from address `a` on. -/
def Memory.cells (a : Nat) : List Byte → List Host.Cell
  | [] => []
  | b :: bs => if b = erasedByte then Memory.cells (a + 1) bs else (a, b) :: Memory.cells (a + 1) bs

/-- The memory with `bs` at address `a`. -/
def Memory.write (m : List Host.Cell) (a : Nat) (bs : List Byte) : List Host.Cell :=
  m.filter (fun c => decide (c.1 < a)) ++ (Memory.cells a bs ++ m.filter (fun c => decide (a + bs.length ≤ c.1)))

/-- R96. What a program leaves of the bytes `old`: an erased byte takes the value given, a programmed one keeps its value. -/
def programBytes (old new : List Byte) : List Byte := List.zipWith (fun o n => if o = erasedByte then n else o) old new

/-- R96. A program of `bs` at address `a`. -/
def Memory.program (m : List Host.Cell) (a : Nat) (bs : List Byte) : List Host.Cell :=
  Memory.write m a (programBytes (Memory.readRange m a bs.length) bs)

/-- R96. An erase: every byte of the slot reads 0xFF. -/
def Memory.eraseSlot (m : List Host.Cell) (slot : Nat) : List Host.Cell :=
  m.filter (fun c => decide (c.1 < slot * slotBytes) || decide (slot * slotBytes + slotBytes ≤ c.1))

/-- `n` bytes the manual leaves open, the k-th and on (log 9). -/
def freeBytes (k n : Nat) : List Byte := (List.range n).map (fun i => Config.freeByte (k + i))

/-- The chip with `bs` programmed at address `a`. -/
def programFlash (a : Nat) (bs : List Byte) (c : Chip) : Chip := { c with store.flash := Memory.program c.store.flash a bs }

/-- Log 9. A program of `n` bytes that failed or was cut off: each byte that was erased holds a free byte. -/
def spoilProgram (a n : Nat) (c : Chip) : Chip :=
  { c with
    store.flash := Memory.program c.store.flash a (freeBytes c.freeCount n)
    freeCount := c.freeCount + n }

/-- R96. The chip with the slot erased. -/
def eraseFlash (slot : Nat) (c : Chip) : Chip := { c with store.flash := Memory.eraseSlot c.store.flash slot }

/-- Log 9. An erase that failed or was cut off: every byte of the slot holds a free byte. -/
def spoilErase (slot : Nat) (c : Chip) : Chip :=
  { c with
    store.flash := Memory.write c.store.flash (slot * slotBytes) (freeBytes c.freeCount slotBytes)
    freeCount := c.freeCount + slotBytes }

/-- R96. Block `b` of a slot's data part, 128 bytes. -/
def readBlock (c : Chip) (slot b : Nat) : List Byte := Memory.readRange c.store.flash (dataAddress slot (b * 128)) 128

/-- R96. The spare area of a slot, 64 bytes. -/
def readSpare (c : Chip) (slot : Nat) : List Byte := Memory.readRange c.store.flash (spareAddress slot 0) 64

/-- R96. The data part of a slot, 8,192 bytes. -/
def readData (c : Chip) (slot : Nat) : List Byte := Memory.readRange c.store.flash (dataAddress slot 0) 8192

/-! ## Geometry and the slot map (R97, R99) -/

/-- R97. Slots per protection area. -/
def areaSize (c : Chip) : Nat := (c.total - 8) / 16

/-- R97. The end of the segment area: one more than its last slot. -/
def segmentEnd (c : Chip) : Nat := 8 + 16 * areaSize c

/-- R97. The slot lies in one of the 16 protection areas. -/
def inSegmentArea (c : Chip) (slot : Nat) : Bool := decide (8 ≤ slot) && decide (slot < segmentEnd c)

/-- R97. The protection area of a segment-area slot. -/
def areaOf (c : Chip) (slot : Nat) : Nat := (slot - 8) / areaSize c

/-- R98. The area is write-locked by the lock map in force. -/
def writeLocked (c : Chip) (area : Nat) : Bool :=
  match c.port.config with
  | some r => r.writeLocks.getLsbD area
  | none => false

/-- R98. The area is serve-locked by the lock map in force. -/
def serveLocked (c : Chip) (area : Nat) : Bool :=
  match c.port.config with
  | some r => r.serveLocks.getLsbD area
  | none => false

/-- R99. The condition a slot of the segment area has when the map lists nothing for it: DIRTY, without owner. -/
def unlistedSlot : SlotInfo := { cond := .dirty, owner := none }

/-- R99. The map's word on a segment-area slot. -/
def slotInfo (c : Chip) (slot : Nat) : SlotInfo := (c.store.slotMap.lookup slot).getD unlistedSlot

/-- R99. The condition of any slot of the store: those of the system area and the leftover slots stand whatever they contain. -/
def slotCondition (c : Chip) (slot : Nat) : SlotCond :=
  if slot < 2 then .full else if slot < 8 then .erased else if slot < segmentEnd c then (slotInfo c slot).cond else .leftover

/-- The map with one slot's word replaced; listed in rising slot order, DIRTY without owner unlisted. -/
def setSlotIn (m : List (Nat × SlotInfo)) (slot : Nat) (i : SlotInfo) : List (Nat × SlotInfo) :=
  m.filter (fun e => decide (e.1 < slot)) ++
    ((if i = unlistedSlot then [] else [(slot, i)]) ++ m.filter (fun e => decide (slot < e.1)))

def setSlot (slot : Nat) (i : SlotInfo) (c : Chip) : Chip := { c with store.slotMap := setSlotIn c.store.slotMap slot i }

/-- R99. How many segment-area slots are in a condition other than DIRTY. -/
def countCond (c : Chip) (k : SlotCond) : Nat := c.store.slotMap.countP (fun e => e.2.cond == k)

/-- R181. How many segment-area slots are DIRTY: those listed so and those unlisted. -/
def countDirty (c : Chip) : Nat := 16 * areaSize c - c.store.slotMap.countP (fun e => e.2.cond != .dirty)

/-- R101. The erased-slot list of an area: its ERASED slots in ascending order (the map is in slot order). -/
def erasedList (c : Chip) (area : Nat) : List Nat :=
  (c.store.slotMap.filter (fun e => e.2.cond == .erased && areaOf c e.1 == area)).map Prod.fst

/-! ## Clocks -/

/-- R164. Yard time: local time plus the offset, modulo 2^32. -/
def yardNow (c : Chip) : Word32 := BitVec.ofNat 32 c.now + c.clock.offset

/-- A time set in local time has been reached. -/
def reached (c : Chip) (t : Nat) : Bool := decide (t ≤ c.now)

/-- A time that may be absent is present and reached. -/
def due (c : Chip) (t : Option Nat) : Bool :=
  match t with
  | some t => reached c t
  | none => false

/-! ## Configuration -/

/-- R183. The station id in force, or 0. -/
def stationId (c : Chip) : Nat :=
  match c.port.config with
  | some r => r.station
  | none => 0

/-- R180. A whole configuration record is in force. -/
def configured (c : Chip) : Bool := c.port.config.isSome

/-- R115, R170. The derate percent as used: 0, 10, 20 and 30 as given, any other value as the next higher of these, above 30 as 30. -/
def derateUsed (d : Nat) : Nat := if d = 0 then 0 else if d ≤ 10 then 10 else if d ≤ 20 then 20 else 30

/-- R115. The effective rate in bit/s for a rate class. -/
def effectiveRate (c : Chip) (rate : Nat) : Nat :=
  rate * (100 - derateUsed (match c.port.config with | some r => r.derate | none => 0)) / 100

/-- R115. The least clock period in µs for an effective rate: nine of them are a byte with its acknowledge. -/
def clockPeriod (rEff : Nat) : Nat := (1000000 + rEff - 1) / rEff

/-! ## The plan's views (R1, R3) -/

/-- R1. The held serial, 0 when no plan is held. -/
def heldSerial (c : Chip) : Nat := if c.plans.body = [] then 0 else planSerial c.plans.body

def heldEntries (c : Chip) : List PlanEntry := planEntries c.plans.body

/-- R3. An entry is inert beside the earlier live ones. -/
def inertBeside (live : List PlanEntry) (e : PlanEntry) : Bool :=
  e.image.id == 0 || live.any (fun l => l.image == e.image && (l.model != e.model || l.crc != e.crc)) ||
    live.any (fun l => l.model == e.model && l.image.version == e.image.version)

/-- R3. The live entries with their index, walking in entry order from index `i` behind the live entries `seen`. -/
def liveFrom (i : Nat) (seen : List PlanEntry) : List PlanEntry → List (Nat × PlanEntry)
  | [] => []
  | e :: es => if inertBeside seen e then liveFrom (i + 1) seen es else (i, e) :: liveFrom (i + 1) (seen ++ [e]) es

/-- R3. The live entries of a body. -/
def liveOf (body : List Byte) : List (Nat × PlanEntry) := liveFrom 0 [] (planEntries body)

def liveEntries (c : Chip) : List (Nat × PlanEntry) := liveOf c.plans.body

/-- R3. The number of inert entries of the held plan. -/
def inertCount (c : Chip) : Nat := (heldEntries c).length - (liveEntries c).length

/-! ## Catalog records (R14, R17) -/

def findRecord (c : Chip) (k : ImageKey) : Option ImageRecord := c.catalog.records.find? (fun r => r.image == k)

/-- The chip with the record of an image changed. -/
def updateRecord (k : ImageKey) (f : ImageRecord → ImageRecord) (c : Chip) : Chip :=
  { c with catalog.records := c.catalog.records.map (fun r => if r.image = k then f r else r) }

/-- R17. The state of a segment, if the catalog has an entry for it. -/
def segState (c : Chip) (k : ImageKey) (seg : Nat) : Option SegState :=
  match findRecord c k with
  | some r => (r.entries[seg]?).map (fun e => e.state)
  | none => none

/-- The store slot of a HELD segment. -/
def heldSlot (c : Chip) (k : ImageKey) (seg : Nat) : Option Nat :=
  match segState c k seg with
  | some (.held slot) => some slot
  | _ => none

/-- R40. Ask the Fetch Engine for a selection run within this step. -/
def askSelection (c : Chip) : Chip := { c with fetch.selectionAsked := true }

/-- R17. A segment's state changed; "every state change made here is a change of catalog state, so the Fetch Engine runs selection again". -/
def setSegState (k : ImageKey) (seg : Nat) (st : SegState) (c : Chip) : Chip :=
  askSelection (updateRecord k (fun r => { r with entries := r.entries.modify seg (fun e => { e with state := st }) }) c)

/-- R14. The record is COMPLETE. -/
def imageComplete (c : Chip) (k : ImageKey) : Bool :=
  match findRecord c k with
  | some r => r.state == .complete
  | none => false

/-! ## Peer records (R20) -/

def findPeer (c : Chip) (id : Nat) : Option PeerRecord := c.peers.find? (fun p => p.id == id)

/-- The chip with one peer's record changed. -/
def updatePeer (id : Nat) (f : PeerRecord → PeerRecord) (c : Chip) : Chip :=
  { c with peers := c.peers.map (fun p => if p.id = id then f p else p) }

/-! ## Fetch slots (R38) and unit entries (R136) -/

def fetchSlot (c : Chip) (i : Nat) : FetchSlot := c.fetch.slots.getD i .free

def setFetchSlot (i : Nat) (f : FetchSlot) (c : Chip) : Chip := { c with fetch.slots := c.fetch.slots.set i f }

def serveSlot (c : Chip) (i : Nat) : ServeSlot := c.serve.slots.getD i .free

def setServeSlot (i : Nat) (v : ServeSlot) (c : Chip) : Chip := { c with serve.slots := c.serve.slots.set i v }

def findUnit (c : Chip) (address : Nat) : Option UnitEntry := c.seq.units.find? (fun u => u.address == address)

def updateUnit (address : Nat) (f : UnitEntry → UnitEntry) (c : Chip) : Chip :=
  { c with seq.units := c.seq.units.map (fun u => if u.address = address then f u else u) }

/-- R137. The flashing states. -/
def JobState.flashing : JobState → Bool
  | .erasing => true
  | .writing => true
  | .verifying => true
  | .sealing => true
  | .switching => true
  | _ => false

/-- R137. The waiting states. -/
def JobState.waiting : JobState → Bool
  | .waitingImage => true
  | .waitingTime _ => true
  | .ready => true
  | _ => false

/-- R137. The held outcomes. -/
def JobState.heldOutcome : JobState → Bool
  | .done => true
  | .failed => true
  | .rolledBack => true
  | .unreachable => true
  | _ => false

/-- R142. Some entry is in a flashing state. -/
def anyFlashing (c : Chip) : Bool := c.seq.units.any (fun u => u.state.flashing)

/-- Do `f` for each element in turn. -/
def forEach {α : Type} (xs : List α) (f : α → Chip → Chip) (c : Chip) : Chip := xs.foldl (fun c x => f x c) c

end Sys2Proof.Machine
end

