-- ==== Sys2Proof/Machine/Flags.lean ====
section
/-!
DEFINITION. Reports and the attention line (R189, R191), and the replies of the local port (R179).
-/
namespace Sys2Proof.Machine

/-- R190. One greater than the newest record's sequence number, or 0 when the ring is empty. -/
def nextSequence (reports : List Report) : BitVec 16 :=
  match reports.getLast? with
  | some r => r.sequence + 1
  | none => 0

/-- R189. The ring with a record appended; when it already holds 64, the oldest is removed. -/
def pushReport (r : Report) (ring : List Report) : List Report := (if 64 ≤ ring.length then ring.drop 1 else ring) ++ [r]

/-- R189. A block that reaches a reportable outcome appends one record at that moment, marked unread. -/
def report (kind : ReportKind) (subject : Subject) (detail : Nat) (c : Chip) : Chip :=
  { c with
    port.reports :=
      pushReport
        { sequence := nextSequence c.port.reports
          localTime := BitVec.ofNat 32 c.now
          yardTime := yardNow c
          synced := c.clock.state != .unsynced
          kind := kind
          subject := subject
          detail := BitVec.ofNat 16 detail
          unread := true }
        c.port.reports }

/-- R191. The kind is marked in the attention mask. -/
def masked (r : ConfigRecord) (kind : ReportKind) : Bool := r.attentionMask.getLsbD kind.code

/-- R191. The level of the attention line: some unread record is of a kind the configuration in force marks. -/
def attentionLevel (p : Port) : Bool :=
  match p.config with
  | some r => p.reports.any (fun x => x.unread && masked r x.kind)
  | none => false

/-- R191. The attention line's "level follows these changes at the moment each is made". -/
def driveAttention (c : Chip) : Chip := { c with port.attention := attentionLevel c.port }

/-- R179, R196. Put a reply in the port; a reply other than OK carries no result. -/
def answer (status : Status) (command : Byte) (result : List Byte) (c : Chip) : Chip :=
  { c with port.reply := some { status := status, command := command, result := if status = .ok then result else [] } }

end Sys2Proof.Machine
end

