-- ==== Sys2Proof/Machine/Targets.lean ====
section
/-!
DEFINITION. Choosing and evaluating targets (R138 to R141): the part of the Unit Update Sequencer that reads the plan, the catalog, the clock and the notice.
-/
namespace Sys2Proof.Machine

/-- R138. The results of target selection. -/
inductive TargetChoice where
  | current
  | ahead
  | stranded
  | target (index : Nat) (entry : PlanEntry)
  deriving DecidableEq, Repr

/-- The entry with the highest image version of a list of live entries; no two live entries of one model share a version (R3). -/
def highest : List (Nat × PlanEntry) → Option (Nat × PlanEntry)
  | [] => none
  | e :: es =>
    match highest es with
    | some b => if e.2.image.version < b.2.image.version then some b else some e
    | none => some e

/-- R138. Target selection for a unit model whose active bank has version `v`. -/
def chooseTarget (live : List (Nat × PlanEntry)) (model v : Nat) : TargetChoice :=
  let mine := live.filter (fun e => e.2.model == model)
  match highest mine with
  | none => .current
  | some (i, e) =>
    if v = e.image.version then .current
    else if e.image.version < v then (if e.allowDowngrade then .target i e else .ahead)
    else if e.floor ≤ v then .target i e
    else
      match highest (mine.filter (fun s => decide (v < s.2.image.version) && decide (s.2.floor ≤ v))) with
      | some (j, s) => .target j s
      | none => .stranded

/-- R138. The version of the entry's active bank. -/
def runningVersion (u : UnitEntry) : Nat := u.identity.version u.identity.active

/-- R140. The plan entry at the target entry index. -/
def targetEntry (c : Chip) (u : UnitEntry) : Option PlanEntry :=
  match u.targetIndex with
  | some i => (heldEntries c)[i]?
  | none => none

/-- R140. The state an entry with a target is evaluated to; the first test that holds gives it. -/
def evaluatedState (c : Chip) (u : UnitEntry) : JobState :=
  let nb := (targetEntry c u).bind (fun e => e.notBefore)
  if !(match u.target with | some t => imageComplete c t.image | none => false) then .waitingImage
  else if nb.isSome && c.clock.state == .unsynced then .waitingTime .unsynced
  else if (match nb with | some t => yardEarlier (yardNow c) t | none => false) then .waitingTime .notBefore
  else if c.departure.deadline.isNone && !(match c.port.config with | some r => r.noRoster | none => false) then .waitingTime .noNotice
  else if u.deferred then .waitingTime .budget
  else .ready

/-- R141. An entry that stands in a waiting state is evaluated again. -/
def evaluateEntry (c : Chip) (u : UnitEntry) : UnitEntry := if u.state.waiting then { u with state := evaluatedState c u } else u

/-- R141. The Sequencer evaluates its waiting entries again. -/
def evaluateWaiting (c : Chip) : Chip := { c with seq.units := c.seq.units.map (evaluateEntry c) }

/-- R141. A change of notice: each entry's deferred mark is cleared, and the waiting entries are evaluated again. -/
def noticeChanged (c : Chip) : Chip :=
  evaluateWaiting { c with seq.units := c.seq.units.map (fun u => { u with deferred := false }) }

/-- R139. A new target, for a new job: attempts return to 0, deferral reported and the deferred mark are cleared. -/
def takeNewTarget (i : Nat) (t : TargetImage) (u : UnitEntry) : UnitEntry :=
  { u with targetIndex := some i, target := some t, attempts := 0, deferralReported := false, deferred := false }

/-- R136, R139. Selection applied to an entry that is neither flashing nor in PROBATION. A held outcome and the attempts of a job that waits stand under
the same image; in CURRENT, AHEAD and STRANDED there is no job (R137), so a target begins a new one, whatever image it names (log 21). -/
def applyChoice (c : Chip) (u : UnitEntry) : TargetChoice → UnitEntry
  | .current => { u with targetIndex := none, state := if u.state = .done then .done else .current }
  | .ahead => { u with targetIndex := none, state := .ahead }
  | .stranded => { u with targetIndex := none, state := .stranded }
  | .target i e =>
    let t : TargetImage := { image := e.image, crc := e.crc }
    if u.target = some t && u.state.heldOutcome then { u with targetIndex := some i }
    else
      let u' := if u.target = some t && u.state.waiting then { u with targetIndex := some i } else takeNewTarget i t u
      { u' with state := evaluatedState c u' }

/-- R138. The choice for an entry under the held plan. -/
def choiceFor (c : Chip) (u : UnitEntry) : TargetChoice := chooseTarget (liveEntries c) u.identity.model (runningVersion u)

/-- R139. UNIT_AHEAD or UNIT_STRANDED when an entry enters AHEAD or STRANDED from another state. -/
def reportNoTarget (before after : UnitEntry) (c : Chip) : Chip :=
  if after.state = before.state then c
  else if after.state = .ahead then report .unitAhead (.number after.address) 0 c
  else if after.state = .stranded then report .unitStranded (.number after.address) 0 c
  else c

/-- R139. Target selection for one entry; entries in a flashing state or in PROBATION are not selected. -/
def selectUnit (address : Nat) (c : Chip) : Chip :=
  match findUnit c address with
  | none => c
  | some u =>
    if u.state.flashing || u.state = .probation then c
    else
      let u' := applyChoice c u (choiceFor c u)
      reportNoTarget u u' (updateUnit address (fun _ => u') c)

/-- R139. Target selection for every entry, in address order (log 61, the model's choice). -/
def selectUnits (c : Chip) : Chip := forEach (c.seq.units.map (fun u => u.address)) selectUnit c

end Sys2Proof.Machine
end

