-- ==== Sys2Proof/Machine/Peers.lean ====
section
/-!
DEFINITION. The Peer Table (R20 to R37): range lists and their merging, holder counts, eligibility, strikes and estimates.
-/
namespace Sys2Proof.Machine

/-! ## Range lists (R24 to R28) -/

/-- R24. A run contains the segment. -/
def SegRun.has (r : SegRun) (seg : Nat) : Bool := decide (r.first ≤ seg) && decide (seg ≤ r.last)

/-- R24. A segment is covered by a list when some run contains it. -/
def covers (l : List SegRun) (seg : Nat) : Bool := l.any (fun r => r.has seg)

/-- R24. The form of a range list: each run has first ≤ last, runs ascend, and at least one segment lies between any two. -/
def runsApart : List SegRun → Bool
  | [] => true
  | r :: rs =>
    decide (r.first ≤ r.last) &&
      (match rs with
        | [] => true
        | q :: _ => decide (r.last + 1 < q.first)) &&
      runsApart rs

/-- R24. A whole range list: at most 24 runs, apart and ascending, within 0 to 2,024. -/
def rangeListOk (l : List SegRun) : Bool := decide (l.length ≤ 24) && runsApart l && l.all (fun r => decide (r.last ≤ 2024))

/-- R27 step 1. What is left of a run when the segments `a` to `b` are removed: up to two runs. -/
def cutRun (a b : Nat) (r : SegRun) : List SegRun :=
  if r.last < a || b < r.first then [r]
  else
    (if r.first < a then [⟨r.first, a - 1⟩] else []) ++ (if b < r.last then [⟨b + 1, r.last⟩] else [])

/-- R27 step 1. The list with every segment from `a` to `b` removed. -/
def removeSpan (a b : Nat) (l : List SegRun) : List SegRun := l.flatMap (cutRun a b)

/-- R27 steps 2 and 3. A run added to an ascending list, joined with every run it overlaps or abuts. -/
def addRun (r : SegRun) : List SegRun → List SegRun
  | [] => [r]
  | q :: qs =>
    if r.last + 1 < q.first then r :: q :: qs
    else if q.last + 1 < r.first then q :: addRun r qs
    else addRun ⟨min r.first q.first, max r.last q.last⟩ qs

/-- R27 steps 2 and 3. The union of an ascending list with further runs, in the form of R24. -/
def addRuns (l new : List SegRun) : List SegRun := new.foldl (fun acc r => addRun r acc) l

/-- R28. The run to drop next: the shortest, and among equals the one with the highest first segment. -/
def dropCandidate : List SegRun → Option SegRun
  | [] => none
  | r :: rs =>
    match dropCandidate rs with
    | none => some r
    | some q =>
      let lr := r.last - r.first
      let lq := q.last - q.first
      if lr < lq || (lr == lq && decide (q.first < r.first)) then some r else some q

/-- R28. Drop `n` runs. -/
def dropRuns : Nat → List SegRun → List SegRun
  | 0, l => l
  | n + 1, l =>
    match dropCandidate l with
    | none => l
    | some r => dropRuns n (l.erase r)

/-- R28. Prune a list to 24 runs. -/
def prune (l : List SegRun) : List SegRun := dropRuns (l.length - 24) l

/-- R27. The list after an Offer with span `a` to `b` and ranges `new`. -/
def mergeRuns (a b : Nat) (new l : List SegRun) : List SegRun := prune (addRuns (removeSpan a b l) new)

/-- R29. The list after one segment is withdrawn. -/
def withdrawOne (seg : Nat) (l : List SegRun) : List SegRun := prune (removeSpan seg seg l)

/-- R24. A peer's range list for an image; none listed is the empty list. -/
def rangeList (p : PeerRecord) (k : ImageKey) : List SegRun := (p.lists.lookup k).getD []

/-- The peer with its list for an image replaced; an empty list is not listed. -/
def setRangeList (k : ImageKey) (l : List SegRun) (p : PeerRecord) : PeerRecord :=
  { p with lists := (if l = [] then [] else [(k, l)]) ++ p.lists.filter (fun e => e.1 != k) }

/-! ## Holder counts (R25) -/

/-- R25. The number of peer records whose list for the image covers the segment. -/
def coverCount (peers : List PeerRecord) (k : ImageKey) (seg : Nat) : Nat := peers.countP (fun p => covers (rangeList p k) seg)

/-- R25. A record's entries, from segment `seg` on, with the holder counts the peers' lists give. -/
def countEntries (peers : List PeerRecord) (k : ImageKey) (seg : Nat) : List SegEntry → List SegEntry
  | [] => []
  | e :: es => { e with holders := coverCount peers k seg } :: countEntries peers k (seg + 1) es

/-- R25. A record with its holder counts as the peers' lists give them. -/
def countRecord (peers : List PeerRecord) (r : ImageRecord) : ImageRecord := { r with entries := countEntries peers r.image 0 r.entries }

/-- R25. After an operation on range lists every count stands at the number of covering records; whenever one or more changed, the Fetch Engine is told
to run selection once. -/
def recount (c : Chip) : Chip :=
  let records := c.catalog.records.map (countRecord c.peers)
  if records = c.catalog.records then c else askSelection { c with catalog.records := records }

/-! ## Eligibility (R33) -/

/-- R33. The peer is an eligible holder of the segment. -/
def eligible (k : ImageKey) (seg : Nat) (p : PeerRecord) : Bool :=
  !p.departing && p.shunnedUntil.isNone && p.busyUntil.isNone && decide (p.openFetches < 2) && covers (rangeList p k) seg

/-- R43. The better of two holders: the higher estimate, and at equal estimates the lower station id. -/
def betterHolder (p q : PeerRecord) : PeerRecord :=
  if q.estimate < p.estimate then p else if p.estimate < q.estimate then q else if p.id < q.id then p else q

/-- R43. The best of a list of holders. -/
def bestHolder : List PeerRecord → Option PeerRecord
  | [] => none
  | p :: ps =>
    match bestHolder ps with
    | none => some p
    | some q => some (betterHolder p q)

/-- R43, R56. The holder chosen for a segment among the eligible ones other than `besides`. -/
def chooseHolder (c : Chip) (k : ImageKey) (seg : Nat) (besides : Option Nat) : Option PeerRecord :=
  bestHolder (c.peers.filter (fun p => eligible k seg p && some p.id != besides))

/-- R33. Open fetches rise by one when a slot chooses the peer. -/
def raiseOpen (id : Nat) (c : Chip) : Chip := updatePeer id (fun p => { p with openFetches := p.openFetches + 1 }) c

/-- R33. Open fetches fall by one when a slot on the peer ends or switches away; not applied when the slot no longer counts against a record. The fall
can make the peer eligible, so selection is asked for. -/
def lowerOpen (id : Nat) (counted : Bool) (c : Chip) : Chip :=
  if counted then askSelection (updatePeer id (fun p => { p with openFetches := p.openFetches - 1 }) c) else c

/-! ## Strikes, marks and estimates (R31, R32, R34) -/

/-- R31. A strike: the third sets strikes to 0 and shuns the peer for 60,000 ms; a shunning already set is replaced by the later time. -/
def struck (now : Nat) (p : PeerRecord) : PeerRecord :=
  if p.strikes < 2 then { p with strikes := p.strikes + 1 }
  else { p with strikes := 0, shunnedUntil := some (max (now + 60000) (p.shunnedUntil.getD 0)) }

/-- R31, R33. The Fetch Engine adds a strike; not applied when the slot no longer counts against a record. -/
def strike (id : Nat) (counted : Bool) (c : Chip) : Chip := if counted then updatePeer id (struck c.now) c else c

/-- R32. A Busy mark for 1,000 ms; a later Busy replaces it with its own later time. -/
def markBusy (id : Nat) (c : Chip) : Chip := updatePeer id (fun p => { p with busyUntil := some (c.now + 1000) }) c

/-- R34. The smoothed estimate after a sample. -/
def smooth (e s : Nat) : Nat := e - e / 4 + s / 4

/-- R34. The sample of a completed window: bytes over elapsed ms, per second, at most 1,000,000. -/
def sampleOf (bytes elapsed : Nat) : Nat := min (bytes * 1000 / (if elapsed = 0 then 1 else elapsed)) 1000000

/-- R34. The Fetch Engine gives the Peer Table a sample; none is given when bytes is 0. -/
def giveSample (id bytes elapsed : Nat) (c : Chip) : Chip :=
  if bytes = 0 then c else updatePeer id (fun p => { p with estimate := smooth p.estimate (sampleOf bytes elapsed) }) c

/-! ## Coverage of one peer (R24, R33) -/

/-- R24. The range list of a station for an image; empty without a record. -/
def heldList (c : Chip) (station : Nat) (k : ImageKey) : List SegRun :=
  match findPeer c station with
  | some p => rangeList p k
  | none => []

/-- R24. The station has a record that covers some segment. -/
def hasCoverage (c : Chip) (station : Nat) : Bool :=
  match findPeer c station with
  | some p => p.lists != []
  | none => false

/-- R33. Ask for selection when a peer's eligibility has changed. -/
def askIf (b : Bool) (c : Chip) : Chip := if b then askSelection c else c

/-- R25, R33. One peer's list for an image is changed: the counts follow, and a change of its coverage is a change of its eligibility, whether or not a
segment it concerns has an entry. -/
def changeList (id : Nat) (k : ImageKey) (f : List SegRun → List SegRun) (c : Chip) : Chip :=
  askIf (f (heldList c id k) != heldList c id k) (recount (updatePeer id (fun p => setRangeList k (f (rangeList p k)) p) c))

/-! ## Withdrawal (R29) -/

/-- R29. One segment of a peer's coverage is withdrawn. -/
def withdrawSegment (id : Nat) (k : ImageKey) (seg : Nat) (c : Chip) : Chip := changeList id k (withdrawOne seg) c

/-- R29. A peer's coverage of one image is withdrawn. -/
def withdrawImage (id : Nat) (k : ImageKey) (c : Chip) : Chip := changeList id k (fun _ => []) c

/-- R29. All a peer's coverage is withdrawn. -/
def withdrawAll (id : Nat) (c : Chip) : Chip := askIf (hasCoverage c id) (recount (updatePeer id (fun p => { p with lists := [] }) c))

/-- R33. Slots that name the peer no longer count against any record: its record is removed. -/
def uncountSlot (id : Nat) : FetchSlot → FetchSlot
  | .opened f => .opened (if f.peer = id then { f with counted := false } else f)
  | .checking f => .checking (if f.peer = id then { f with counted := false } else f)
  | .free => .free

/-- R22, R23, R29. A record is removed: its coverage is withdrawn, and the record with it. -/
def removePeer (id : Nat) (c : Chip) : Chip :=
  askIf (hasCoverage c id)
    (recount
      { c with
        peers := c.peers.filter (fun p => p.id != id)
        fetch.slots := c.fetch.slots.map (uncountSlot id) })

/-- R22. The record removed to make room: the oldest last-heard among those with no open fetches; among equals the lower station id. -/
def roomCandidate : List PeerRecord → Option PeerRecord
  | [] => none
  | p :: ps =>
    if p.openFetches ≠ 0 then roomCandidate ps
    else
      match roomCandidate ps with
      | none => some p
      | some q => if p.lastHeard < q.lastHeard || (p.lastHeard == q.lastHeard && decide (p.id < q.id)) then some p else some q

/-- R20. A record in the table, which is kept by rising station id (the table has no order of its own). -/
def insertPeer (p : PeerRecord) (ps : List PeerRecord) : List PeerRecord :=
  ps.filter (fun q => decide (q.id < p.id)) ++ (p :: ps.filter (fun q => decide (p.id < q.id)))

/-- R20. The values a record takes on creation. -/
def newPeer (id now : Nat) (originAttr : Bool) : PeerRecord :=
  { id := id, lastHeard := now, originAttr := originAttr, departing := false, beacon := none, strikes := 0, shunnedUntil := none, busyUntil := none,
    openFetches := 0, estimate := 2000, lists := [] }

/-- R22. Room for one more record: in a full table one is removed first. "A record with no open fetches always exists in a full table", so the last case
is never reached; the table would give its first record there, and so stay within its 48 (log 48). -/
def makeRoom (c : Chip) : Chip :=
  if c.peers.length < 48 then c
  else
    match roomCandidate c.peers, c.peers with
    | some p, _ => removePeer p.id c
    | none, p :: _ => removePeer p.id c
    | none, [] => c

/-- R26. An Offer's span and ranges are well formed. -/
def offerWellFormed (o : OfferBody) : Bool :=
  decide (o.spanFirst ≤ o.spanLast) && decide (o.spanLast ≤ 2024) &&
    o.ranges.all (fun r => decide (r.first ≤ r.last) && decide (o.spanFirst ≤ r.first) && decide (r.last ≤ o.spanLast))

/-- R26, R27. An Offer reaching the Peer Table after presence is merged when all the conditions of R26 hold. -/
def mergeOffer (sender : Nat) (o : OfferBody) (c : Chip) : Chip :=
  match findPeer c sender with
  | none => c
  | some p =>
    if p.departing || (findRecord c o.image).isNone || !offerWellFormed o then c
    else changeList sender o.image (mergeRuns o.spanFirst o.spanLast o.ranges) c

/-- R36. An accepted Beacon's depth and time are recorded against its sender, unless it carries the departing flag. -/
def recordBeacon (sender depth : Nat) (c : Chip) : Chip := updatePeer sender (fun p => { p with beacon := some ⟨depth, c.now⟩ }) c

/-- R37. P: records heard within the last 10,000 ms whose departing attribute is clear. -/
def peersHeard (c : Chip) : Nat := c.peers.countP (fun p => decide (c.now ≤ p.lastHeard + 10000) && !p.departing)

/-- R37. Some record has the origin attribute and no departing attribute. -/
def originPresent (c : Chip) : Bool := c.peers.any (fun p => p.originAttr && !p.departing)

end Sys2Proof.Machine
end

