-- ==== Sys2Proof/Machine/Slots.lean ====
section
/-!
DEFINITION. Store slots in use (R99 to R104): allocation, release, the dirty queue and retirement; and the urgent lane (R85, R86).
-/
namespace Sys2Proof.Machine

/-! ## Operations and the slots they act on -/

/-- The client that presents an operation (R105). -/
def StoreOp.client : StoreOp → StoreClient
  | .fetchClaim _ _ => .fetchWriter
  | .fetchBlock _ _ _ _ => .fetchWriter
  | .checkRead _ _ => .checker
  | .checkHeader _ _ => .checker
  | .serveRead _ _ _ => .serverReader
  | .flashRead _ _ _ _ _ => .flasherReader
  | .planProgram _ _ _ => .localPort
  | .planErase => .localPort
  | .commissionErase => .localPort
  | .commissionProgram _ => .localPort
  | .loadClaim _ => .localPort
  | .loadBlock _ _ _ => .localPort
  | .slotErase _ => .eraser
  | .eraseMark _ => .eraser
  | .retiredMark _ => .eraser
  | .scanConfig => .localPort
  | .scanPlan _ => .localPort
  | .scanSpare _ => .scanner
  | .scanManifest _ _ => .scanner

/-- The segment-area slot an operation acts on, if it does. -/
def StoreOp.slot? : StoreOp → Option Nat
  | .fetchClaim _ slot => some slot
  | .fetchBlock _ slot _ _ => some slot
  | .checkRead slot _ => some slot
  | .checkHeader slot _ => some slot
  | .serveRead _ slot _ => some slot
  | .flashRead _ _ _ slot _ => slot
  | .planProgram _ _ _ => none
  | .planErase => none
  | .commissionErase => none
  | .commissionProgram _ => none
  | .loadClaim slot => some slot
  | .loadBlock slot _ _ => some slot
  | .slotErase slot => some slot
  | .eraseMark slot => some slot
  | .retiredMark slot => some slot
  | .scanConfig => none
  | .scanPlan _ => none
  | .scanSpare slot => some slot
  | .scanManifest slot _ => some slot

def StoreOp.isCheckRead : StoreOp → Bool
  | .checkRead _ _ => true
  | _ => false

/-- The operation in progress acts on the slot. -/
def busyOn (c : Chip) (slot : Nat) : Bool :=
  match c.store.current with
  | some o => o.op.slot? == some slot
  | none => false

/-- R102. A release withdraws every operation on the slot that waits ungranted, except a check's reads. -/
def withdrawOps (slot : Nat) (c : Chip) : Chip :=
  let keep := fun (w : WaitingOp) => w.op.slot? != some slot || w.op.isCheckRead
  { c with
    store.waiting := c.store.waiting.filter keep
    store.portQueue := c.store.portQueue.filter keep }

/-- R102. The slot joins the tail of the dirty queue; it appears there at most once. -/
def joinDirty (slot : Nat) (c : Chip) : Chip :=
  let c := setSlot slot { cond := .dirty, owner := none } c
  { c with store.dirtyQueue := if slot ∈ c.store.dirtyQueue then c.store.dirtyQueue else c.store.dirtyQueue ++ [slot] }

/-- R102, R188. The slot joins the dirty queue when an operation on it has ended (`finishRelease`). -/
def awaitEnd (slot : Nat) (c : Chip) : Chip :=
  { c with store.releasing := if slot ∈ c.store.releasing then c.store.releasing else c.store.releasing ++ [slot] }

/-- R102. An owner releases a slot. While an operation on it is in progress the release waits for that operation's end; from the release on the slot has
no owner in the map. -/
def release (slot : Nat) (c : Chip) : Chip :=
  let c := withdrawOps slot c
  if busyOn c slot then awaitEnd slot (setSlot slot { slotInfo c slot with owner := none } c) else joinDirty slot c

/-- R104. The controller retires a slot: it leaves every list, becomes RETIRED without owner, joins the retired list and the list awaiting the retired
mark, and STORE_ERROR is appended with its index and the detail code. -/
def retire (slot detail : Nat) (c : Chip) : Chip :=
  let c := setSlot slot { cond := .retired, owner := none } (withdrawOps slot c)
  report .storeError (.number slot) detail
    { c with
      store.dirtyQueue := c.store.dirtyQueue.filter (fun s => s != slot)
      store.releasing := c.store.releasing.filter (fun s => s != slot)
      store.eraseMarkDue := if c.store.eraseMarkDue = some slot then none else c.store.eraseMarkDue
      store.retiredList := c.store.retiredList ++ [slot]
      store.awaitingMark := c.store.awaitingMark ++ [slot] }

/-- R102, R188. The operation in progress on the slot has completed: a release that waited for it is made. -/
def finishRelease (slot : Nat) (c : Chip) : Chip :=
  if slot ∈ c.store.releasing then
    joinDirty slot { c with store.releasing := c.store.releasing.filter (fun s => s != slot) }
  else c

/-! ## Allocation (R44, R101) -/

/-- R44. The area is of the kind: private is serve-locked and not write-locked, common is neither. -/
def areaOfKind (c : Chip) (priv : Bool) (area : Nat) : Bool := !writeLocked c area && serveLocked c area == priv

/-- R44, R101. The lowest ERASED slot of the kind, areas taken in ascending order (the map is in slot order, and areas ascend with slots). -/
def lowestErased (c : Chip) (priv : Bool) : Option Nat :=
  (c.store.slotMap.find? (fun e => e.2.cond == .erased && areaOfKind c priv (areaOf c e.1))).map Prod.fst

/-- R45. Some slot of the kind is DIRTY. One whose release still waits for an operation in progress (R102) does not count yet (log 58). -/
def someDirty (c : Chip) (priv : Bool) : Bool :=
  (List.range 16).any (fun a =>
    areaOfKind c priv a && decide (c.store.slotMap.countP (fun e => areaOf c e.1 == a && e.2.cond != .dirty) < areaSize c))

/-- R101. An ERASED slot leaves its list and becomes FILLING with this owner. -/
def allocate (slot : Nat) (o : Owner) (c : Chip) : Chip := setSlot slot { cond := .filling, owner := some o } c

/-! ## The urgent lane (R85, R86) -/

/-- R78, R85, R86, R93. A frame offered to the urgent lane: discarded in OFF, only Leaves are taken in DEPARTED, and a lane of 8 takes no more (a Leave
never finds it so, R86). -/
def pushUrgent (f : UrgentFrame) (c : Chip) : Chip :=
  let taken := if c.yard.urgent.length < 8 then { c with yard.urgent := c.yard.urgent ++ [f] } else c
  match c.yard.mode with
  | .off => c
  | .departed => if f = .leave then taken else c
  | .on => taken

/-! ## Blocks of a window -/

/-- The 16-mark mask of the positions for which `f` holds. -/
def maskOf (f : Nat → Bool) : BitVec 16 := (List.range 16).foldl (fun m p => if f p then m ||| (1#16 <<< p) else m) 0#16

/-- The lowest position a mask names. -/
def lowestMark (m : BitVec 16) : Option Nat := (List.range 16).find? (fun p => m.getLsbD p)

/-- The highest position a mask names. -/
def highestMark (m : BitVec 16) : Option Nat := (List.range 16).reverse.find? (fun p => m.getLsbD p)

/-- The mask with one position's mark cleared. -/
def clearMark (m : BitVec 16) (p : Nat) : BitVec 16 := m &&& ~~~(1#16 <<< p)

end Sys2Proof.Machine
end

