-- ==== Sys2Proof/Machine/Catalog.lean ====
section
/-!
DEFINITION. The Holding Catalog's own moves (R14, R16, R17, R19): a segment becoming HELD, manifest validation, a segment leaving HELD with what that
does to the serve slots working on it (R73), and the Offer of a round (R91, R92).
-/
namespace Sys2Proof.Machine

/-! ## Serve slots on a segment (R73) -/

/-- The entry a serve slot works on. -/
def ServeSlot.entry? : ServeSlot → Option AskEntry
  | .free => none
  | .reading e _ => some e
  | .ready e _ _ => some e
  | .sending e => some e

/-- R73, R75. A serve slot's read is given up: a waiting one is withdrawn, one in progress runs to its end and its bytes are discarded. -/
def giveUpServeRead (i : Nat) (c : Chip) : Chip :=
  let mine := fun (o : StoreOp) => match o with | .serveRead j _ _ => j == i | _ => false
  { c with
    store.waiting := c.store.waiting.filter (fun w => !mine w.op)
    store.current := c.store.current.map (fun o => if mine o.op then { o with live := false } else o) }

/-- A serve slot ends: it becomes FREE, and its read is given up. A frame on the air is finished. -/
def endServe (i : Nat) (c : Chip) : Chip := giveUpServeRead i (setServeSlot i .free c)

/-- R69. A reply to an asker is queued in the urgent lane. -/
def queueReply (kind : ReplyKind) (e : AskEntry) (c : Chip) : Chip := pushUrgent (.reply kind e.asker e.image e.segment) c

/-- R73. Serve slot `i` is ended with Lacking when it works on an image (and segment) that `hit` picks. -/
def endServeIf (hit : AskEntry → Bool) (i : Nat) (c : Chip) : Chip :=
  match (serveSlot c i).entry? with
  | some e => if hit e then queueReply .lacking e (endServe i c) else c
  | none => c

/-- R73. Every serve slot whose entry `hit` picks is ended at once, whatever its phase, the Lackings queued in ascending order of serve slot (log 59). -/
def endServes (hit : AskEntry → Bool) (c : Chip) : Chip := endServeIf hit 2 (endServeIf hit 1 (endServeIf hit 0 c))

/-! ## HELD (R14, R16, R17, R59) -/

/-- R14. Every data segment of the record is HELD. -/
def allHeld (r : ImageRecord) : Bool := r.entries.drop 1 |>.all (fun e => e.state.code == 3)

/-- R14. The record's last data segment has become HELD: COMPLETE, IMAGE_COMPLETE (not while the start scan runs, R112), and the Sequencer evaluates its
waiting entries again (R141). -/
def completeIfHeld (k : ImageKey) (c : Chip) : Chip :=
  match findRecord c k with
  | some r =>
    if r.state = .gathering && allHeld r then
      let c := askSelection (updateRecord k (fun r => { r with state := .complete }) c)
      evaluateWaiting (if c.store.scanPhase = .done then report .imageComplete (.image k) 0 c else c)
    else c
  | none => c

/-- R16. Validation passed: the catalog records the manifest and creates entries 1 to N in ABSENT, their counts from the peers' lists. -/
def takeManifest (k : ImageKey) (slot : Nat) (m : Manifest) (c : Chip) : Chip :=
  recount
    (askSelection
      (updateRecord k
        (fun r =>
          { r with
            state := .gathering
            manifest := some m
            entries :=
              { state := .held slot, holders := match r.entries with | e :: _ => e.holders | [] => 0 } ::
                List.replicate m.count { state := .absent, holders := 0 } })
        c))

/-- R14. Validation failed: REJECTED, segment 0 ABSENT, its slot dirty, MANIFEST_REJECTED appended with the reason. -/
def rejectManifest (k : ImageKey) (slot reason : Nat) (c : Chip) : Chip :=
  report .manifestRejected (.image k) reason
    (release slot (setSegState k 0 .absent (updateRecord k (fun r => { r with state := .rejected }) c)))

/-- R59, R17. The segment becomes HELD in the slot, now FULL with the catalog segment as owner; validation is part of segment 0 becoming HELD (R14). -/
def holdSegment (k : ImageKey) (seg slot : Nat) (c : Chip) : Chip :=
  match findRecord c k with
  | none => release slot c
  | some r =>
    let c := setSlot slot { cond := .full, owner := some (.segment k seg) } c
    if seg = 0 then
      match validateManifest k r.model (readData c slot) with
      | .ok m => takeManifest k slot m c
      | .error reason => rejectManifest k slot reason c
    else completeIfHeld k (setSegState k seg (.held slot) c)

/-- R14. A data segment has left HELD: a COMPLETE image returns to GATHERING, and the waiting entries are evaluated again (R141). -/
def leaveComplete (k : ImageKey) (c : Chip) : Chip :=
  if imageComplete c k then evaluateWaiting (askSelection (updateRecord k (fun r => { r with state := .gathering }) c)) else c

/-- R46, R73. Eviction: the segment moves from HELD to ABSENT, the serve slots on it end with Lacking, and its slot goes to the dirty queue. -/
def evictSegment (k : ImageKey) (seg slot : Nat) (c : Chip) : Chip :=
  leaveComplete k
    (release slot (endServes (fun e => e.image == k && e.segment == seg) (setSegState k seg .absent c)))

/-- R58. The CRC a segment is checked against: the manifest CRC of the record for segment 0, the manifest's table entry for a data segment. -/
def expectedCrc (c : Chip) (k : ImageKey) (seg : Nat) : Word32 :=
  match findRecord c k with
  | none => 0
  | some r =>
    if seg = 0 then r.manifestCrc
    else
      match r.manifest with
      | some m => m.crcs.getD (seg - 1) 0
      | none => 0

/-! ## The Offer of a round (R91, R92) -/

/-- R92. The held runs of entries from segment `seg` on; `open_` is the first segment of the run under way. -/
def heldRunsFrom (seg : Nat) (open_ : Option Nat) : List SegEntry → List SegRun
  | [] =>
    match open_ with
    | some a => [⟨a, seg - 1⟩]
    | none => []
  | e :: es =>
    if e.state.code = 3 then heldRunsFrom (seg + 1) (some (open_.getD seg)) es
    else
      match open_ with
      | some a => ⟨a, seg - 1⟩ :: heldRunsFrom (seg + 1) none es
      | none => heldRunsFrom (seg + 1) none es

/-- R92. The held runs lying at or after the cursor, the run that contains it cut to begin there. -/
def runsAfter (cursor : Nat) (l : List SegRun) : List SegRun :=
  (l.filter (fun r => decide (cursor ≤ r.last))).map (fun r => { r with first := max r.first cursor })

/-- R91. A record qualifies when it has at least one HELD segment. -/
def qualifies (r : ImageRecord) : Bool := r.entries.any (fun e => e.state.code == 3)

/-- R91. The records in the order in which the round looks at them: those after the last offered one, wrapping round to it. -/
def offerOrder (records : List ImageRecord) (last : Option ImageKey) : List ImageRecord :=
  match last with
  | none => records
  | some k =>
    match records.findIdx? (fun r => r.image == k) with
    | some i => records.drop (i + 1) ++ records.take (i + 1)
    | none => records

/-- R92. The Offer of a record at its cursor, and where the cursor goes. -/
def buildOffer (r : ImageRecord) : OfferBody × Nat :=
  let runs := runsAfter r.spanCursor (heldRunsFrom 0 none r.entries)
  let n := r.entries.length - 1
  match runs[24]? with
  | some q => ({ image := r.image, spanFirst := r.spanCursor, spanLast := q.first - 1, ranges := runs.take 24 }, q.first)
  | none => ({ image := r.image, spanFirst := r.spanCursor, spanLast := n, ranges := runs }, 0)

/-- R91. The presence-only Offer. -/
def presenceOffer : OfferBody := { image := ⟨0, 0⟩, spanFirst := 0, spanLast := 0, ranges := [] }

/-- R90, R91, R92. The catalog builds the round's Offer, which takes the place of any round Offer still unsent. -/
def buildRoundOffer (c : Chip) : Chip :=
  match (offerOrder c.catalog.records c.catalog.lastOffered).find? qualifies with
  | none => { c with yard.roundOffer := some presenceOffer }
  | some r =>
    let o := buildOffer r
    let c := updateRecord r.image (fun r => { r with spanCursor := o.2 }) c
    { c with
      catalog.lastOffered := some r.image
      yard.roundOffer := some o.1 }

end Sys2Proof.Machine
end

