-- ==== Sys2Proof/Machine/Fetch.lean ====
section
/-!
DEFINITION. The Fetch Engine (R38 to R61): selection, opening, Asks, blocks and windows, replies, switching, abandonment and cancellation.
-/
namespace Sys2Proof.Machine

/-! ## Blocks of a slot (R38, R39) -/

/-- R38. The block's mark is set in the slot's bitmap. -/
def marked (f : OpenFetch) (b : Nat) : Bool := f.bitmap.getLsbD b

/-- R39. Block `b` of fetch slot `i` is in the block buffer. -/
def buffered (c : Chip) (i b : Nat) : Bool := c.fetch.buffer.any (fun x => x.fetch == i && x.index == b)

/-- R38. A block is missing when its mark is clear and it is not awaiting programming. -/
def missing (c : Chip) (i : Nat) (f : OpenFetch) (b : Nat) : Bool := !marked f b && !buffered c i b

/-- R48. The window's missing blocks, as a mask. -/
def missingMask (c : Chip) (i : Nat) (f : OpenFetch) : BitVec 16 := maskOf (fun p => missing c i f (f.base + p))

/-- R50. Every mark of the window is set. -/
def windowMarked (f : OpenFetch) : Bool := (List.range 16).all (fun p => marked f (f.base + p))

/-- R48. An Ask of the slot waits in the scheduled lane. -/
def askWaits (c : Chip) (i : Nat) : Bool := c.fetch.asks.contains i

/-- Change the fields of an OPEN slot. -/
def updateOpen (i : Nat) (f : OpenFetch → OpenFetch) (c : Chip) : Chip :=
  match fetchSlot c i with
  | .opened x => setFetchSlot i (.opened (f x)) c
  | _ => c

/-- R48. The slot's waiting Ask is withdrawn from the lane. -/
def withdrawAsk (i : Nat) (c : Chip) : Chip := { c with fetch.asks := c.fetch.asks.filter (fun j => j != i) }

/-- R48. An Ask of the slot is queued, with the time of its new queuing; while it waits the timer is stopped. A port that is not ON discards it (R78). -/
def queueAsk (i : Nat) (c : Chip) : Chip :=
  let c := updateOpen i (fun f => { f with timer := none }) (withdrawAsk i c)
  if c.yard.mode = .on then { c with fetch.asks := c.fetch.asks ++ [i] } else c

/-! ## Ends of a slot (R57, R61) -/

/-- A waiting operation of the fetch writer for fetch slot `i` is discarded (R50). -/
def dropFetchOps (i : Nat) (c : Chip) : Chip :=
  let mine := fun (o : StoreOp) =>
    match o with
    | .fetchClaim j _ => j == i
    | .fetchBlock j _ _ _ => j == i
    | _ => false
  { c with store.waiting := c.store.waiting.filter (fun w => !mine w.op) }

/-- A fetch slot becomes FREE: its Ask is withdrawn, its buffered blocks are discarded, its peer's open fetches fall, and selection is asked for (R40). -/
def freeFetch (i peer : Nat) (counted : Bool) (c : Chip) : Chip :=
  let c := dropFetchOps i (withdrawAsk i c)
  askSelection
    (lowerOpen peer counted
      (setFetchSlot i .free { c with fetch.buffer := c.fetch.buffer.filter (fun x => x.fetch != i) }))

/-- R57. Abandonment, with detail 1 for the switch limit and 2 for no other eligible holder. -/
def abandonFetch (i detail : Nat) (f : OpenFetch) (c : Chip) : Chip :=
  report .fetchAbandoned (.segment f.image f.segment) detail
    (setSegState f.image f.segment (.cooling (c.now + 30000)) (release f.storeSlot (freeFetch i f.peer f.counted c)))

/-- R61. A fetch is cancelled: no strike, no sample, no report; the segment returns to ABSENT and the store slot joins the dirty queue. -/
def cancelFetch (i : Nat) (f : OpenFetch) (c : Chip) : Chip :=
  setSegState f.image f.segment .absent (release f.storeSlot (freeFetch i f.peer f.counted c))

/-- R50, R61. A failed program of one of the slot's blocks (or of its claim mark, R101): the store slot is retired and the fetch is cancelled. -/
def failFetch (i detail : Nat) (f : OpenFetch) (c : Chip) : Chip :=
  setSegState f.image f.segment .absent (retire f.storeSlot detail (freeFetch i f.peer f.counted c))

/-! ## Switching (R56) -/

/-- R56. The slot moves to the new peer and queues an Ask for the current window. -/
def moveToPeer (i : Nat) (f : OpenFetch) (p : PeerRecord) (c : Chip) : Chip :=
  queueAsk i
    (setFetchSlot i
      (.opened
        { f with
          peer := p.id
          counted := true
          switches := f.switches + 1
          reask := false
          switchOwed := false
          timer := none
          windowStart := none
          accepted := 0 })
      (raiseOpen p.id (lowerOpen f.peer f.counted c)))

/-- R56, R57. A switch is made: to the best eligible holder other than the current peer, or the slot is abandoned. With both of R57's conditions met the
detail is the switch limit's 1 (log 47). -/
def switchFetch (i : Nat) (c : Chip) : Chip :=
  match fetchSlot c i with
  | .opened f =>
    if 3 ≤ f.switches then abandonFetch i 1 f c
    else
      match chooseHolder c f.image f.segment (some f.peer) with
      | none => abandonFetch i 2 f c
      | some p => moveToPeer i f p c
  | _ => c

/-- R56. A switch demanded: not made while the window has no missing block; a departure or expiry then sets switch owed. -/
def demandSwitch (i : Nat) (owes : Bool) (c : Chip) : Chip :=
  match fetchSlot c i with
  | .opened f =>
    if missingMask c i f = 0#16 then (if owes then setFetchSlot i (.opened { f with switchOwed := true }) c else c)
    else switchFetch i c
  | _ => c

/-- The slot is OPEN on the peer. -/
def openOn (c : Chip) (i peer : Nat) : Bool :=
  match fetchSlot c i with
  | .opened f => f.peer == peer
  | _ => false

/-- R23, R30. Every open fetch naming the peer is to switch to another holder with no strike: in ascending order of fetch slot (log 49). -/
def switchAway (peer : Nat) (c : Chip) : Chip :=
  forEach [0, 1, 2, 3] (fun i c => if openOn c i peer then demandSwitch i true c else c) c

/-! ## Windows (R49 to R52) -/

/-- R51. The window ends: the timer stops; missing blocks cause the one re-ask, and after it a strike and a switch. -/
def endWindow (i : Nat) (c : Chip) : Chip :=
  match fetchSlot c i with
  | .opened f =>
    let c := setFetchSlot i (.opened { f with timer := none }) c
    if missingMask c i f = 0#16 then c
    else if f.reask then switchFetch i (strike f.peer f.counted c)
    else queueAsk i (updateOpen i (fun f => { f with reask := true }) c)
  | _ => c

/-- R49. The block passes the first three conditions for fetch slot `i`: this asker, this segment with the sender as chosen peer, this window. -/
def blockMatches (c : Chip) (sender : Nat) (b : BlockBody) (f : OpenFetch) : Bool :=
  b.asker == stationId c && f.image == b.image && f.segment == b.segment && f.peer == sender && decide (f.base ≤ b.index) &&
    decide (b.index < f.base + 16)

/-- R49. The block is accepted into the buffer; if no Ask of the slot waits the timer is set for 150 ms. -/
def acceptBlock (i : Nat) (f : OpenFetch) (b : BlockBody) (c : Chip) : Chip :=
  let timer := if askWaits c i then f.timer else some (c.now + 150)
  setFetchSlot i
    (.opened { f with lastAccept := some c.now, accepted := f.accepted + (if f.windowStart.isSome then 1 else 0), timer := timer })
    { c with fetch.buffer := c.fetch.buffer ++ [{ fetch := i, index := b.index, data := b.data }] }

/-- R49. The flagged block is the highest block named in the mask of the latest Ask transmitted, and no Ask of the slot waits. -/
def flagEndsWindow (c : Chip) (i : Nat) (f : OpenFetch) (b : BlockBody) : Bool :=
  b.lastOfAsk && !askWaits c i &&
    (match f.lastAsk with
      | some (base, mask) => (highestMark mask).map (fun p => base + p) == some b.index
      | none => false)

/-- R49. A Block frame at fetch slot `i`. -/
def blockAt (sender : Nat) (b : BlockBody) (i : Nat) (c : Chip) : Chip :=
  match fetchSlot c i with
  | .opened f =>
    if !blockMatches c sender b f then c
    else
      let c' := if missing c i f b.index && decide (c.fetch.buffer.length < 16) then acceptBlock i f b c else c
      if flagEndsWindow c i f b then endWindow i c' else c'
  | _ => c

/-- R49. A Block frame reaching the Fetch Engine; no two OPEN slots name the same segment (R38). -/
def onBlock (sender : Nat) (b : BlockBody) (c : Chip) : Chip := forEach [0, 1, 2, 3] (blockAt sender b) c

/-- R52, R34. The throughput sample of a completed window, if window start time is present and some block was accepted from the current peer. -/
def windowSample (f : OpenFetch) (c : Chip) : Chip :=
  match f.windowStart, f.lastAccept with
  | some t, some a => giveSample f.peer (128 * f.accepted) (a - t) c
  | _, _ => c

/-- R52, R58. The last window is complete: the segment is CHECKING, the slot enters CHECK, and the check is requested. -/
def enterCheck (i : Nat) (f : OpenFetch) (c : Chip) : Chip :=
  let c := setSegState f.image f.segment (.checking f.storeSlot) (withdrawAsk i c)
  let c :=
    setFetchSlot i
      (.checking { image := f.image, segment := f.segment, peer := f.peer, counted := f.counted, storeSlot := f.storeSlot }) c
  { c with
    store.checkQueue :=
      c.store.checkQueue ++
        [{ source := some i, image := f.image, segment := f.segment, slot := f.storeSlot, expected := expectedCrc c f.image f.segment,
           reads := 0, crc := crc32Start, header := false, orphan := false }] }

/-- R52. A window is complete: its sample is given, and the window advances (by a switch when one is owed), or the segment goes to its check. -/
def completeWindow (i : Nat) (c : Chip) : Chip :=
  match fetchSlot c i with
  | .opened f =>
    let c := windowSample f c
    if f.base < 48 then
      let c :=
        setFetchSlot i
          (.opened { f with base := f.base + 16, reask := false, windowStart := none, timer := none, lastAccept := none, accepted := 0 }) c
      if f.switchOwed then switchFetch i c else queueAsk i c
    else enterCheck i f c
  | _ => c

/-- R39, R50. A block's program has completed: the block leaves the buffer, its mark is set, and the window may be complete. -/
def blockProgrammed (i b : Nat) (c : Chip) : Chip :=
  let c := { c with fetch.buffer := c.fetch.buffer.filter (fun x => !(x.fetch == i && x.index == b)) }
  match fetchSlot c i with
  | .opened f =>
    let f' := { f with bitmap := f.bitmap ||| (1#64 <<< b) }
    let c := setFetchSlot i (.opened f') c
    if windowMarked f' then completeWindow i c else c
  | _ => c

/-! ## Replies from the peer (R53 to R55) -/

/-- A reply matches fetch slot `i`: this station is the asker, and the OPEN slot names the segment with the sender as chosen peer. -/
def replyMatches (c : Chip) (sender asker : Nat) (k : ImageKey) (seg i : Nat) : Bool :=
  match fetchSlot c i with
  | .opened f => asker == stationId c && f.image == k && f.segment == seg && f.peer == sender
  | _ => false

/-- R53 to R55. A matching reply has its effect on the peer's record, then the slot switches unless the window has no missing block. -/
def onReply (effect : Chip → Chip) (sender asker : Nat) (k : ImageKey) (seg : Nat) (c : Chip) : Chip :=
  match [0, 1, 2, 3].find? (replyMatches c sender asker k seg) with
  | some i => demandSwitch i false (effect c)
  | none => c

/-- R48, R84. The end of an Ask's transmission, acted on while the same slot is open on the same segment with the same peer and window base. -/
def askSent (i : Nat) (k : ImageKey) (seg peer base : Nat) (mask : BitVec 16) (c : Chip) : Chip :=
  match fetchSlot c i with
  | .opened f =>
    if f.image = k && f.segment = seg && f.peer = peer && f.base = base then
      setFetchSlot i
        (.opened
          { f with
            lastAsk := some (base, mask)
            timer := if askWaits c i then none else some (c.now + 400)
            windowStart := some (f.windowStart.getD c.now)
            accepted := if f.windowStart.isSome then f.accepted else 0 })
        c
    else c
  | _ => c

/-! ## Selection (R40 to R47) -/

/-- R41, R44. A candidate: the segment, its record's image, and what orders it and picks its store slot. -/
structure Candidate where
  image : ImageKey
  segment : Nat
  need : NeedClass
  holders : Nat
  privKind : Bool
  deriving DecidableEq, Repr

/-- R186. A local port load names the segment. -/
def loadNames (c : Chip) (k : ImageKey) (seg : Nat) : Bool :=
  match c.port.load with
  | .idle => false
  | .opened l => l.image == k && l.segment == seg
  | .checking l => l.image == k && l.segment == seg

/-- R41. The segment of the record is a candidate. -/
def isCandidate (c : Chip) (r : ImageRecord) (seg : Nat) (e : SegEntry) : Bool :=
  e.state == .absent &&
    (if seg = 0 then r.state == .needsManifest else r.state == .gathering) &&
    c.peers.any (eligible r.image seg) && !loadNames c r.image seg

/-- R41, R44. The candidates of a record's entries from segment `seg` on. The private kind is for OWN images whose private flag is set. -/
def recordCandidates (c : Chip) (r : ImageRecord) (seg : Nat) : List SegEntry → List Candidate
  | [] => []
  | e :: es =>
    (if isCandidate c r seg e then
        [{ image := r.image, segment := seg, need := r.need, holders := e.holders, privKind := r.need == .own && r.priv }]
      else []) ++ recordCandidates c r (seg + 1) es

/-- R41. All candidates, in record order and within a record in segment order. -/
def candidates (c : Chip) : List Candidate := c.catalog.records.flatMap (fun r => recordCandidates c r 0 r.entries)

/-- R42. `a` comes strictly before `b` by need class, segment 0 first, and holder count; the two last keys are the order of the list. -/
def comesBefore (a b : Candidate) : Bool :=
  if a.need ≠ b.need then a.need == .own
  else if (a.segment == 0) != (b.segment == 0) then a.segment == 0
  else decide (a.holders < b.holders)

/-- R42. The first candidate in order. -/
def firstCandidate : List Candidate → Option Candidate
  | [] => none
  | x :: xs =>
    match firstCandidate xs with
    | none => some x
    | some y => if comesBefore y x then some y else some x

/-- R46. An evictable segment: image, segment, slot and holder count. -/
structure Evictable where
  image : ImageKey
  segment : Nat
  slot : Nat
  holders : Nat
  deriving DecidableEq, Repr

/-- R46. The evictable segments of a COURIER record's data entries from segment `seg` on, for a kind. -/
def recordEvictable (c : Chip) (priv : Bool) (k : ImageKey) (seg : Nat) : List SegEntry → List Evictable
  | [] => []
  | e :: es =>
    (match e.state with
      | .held slot => if areaOfKind c priv (areaOf c slot) then [{ image := k, segment := seg, slot := slot, holders := e.holders }] else []
      | _ => []) ++ recordEvictable c priv k (seg + 1) es

def evictables (c : Chip) (priv : Bool) : List Evictable :=
  c.catalog.records.flatMap (fun r => if r.need = .courier then recordEvictable c priv r.image 1 (r.entries.drop 1) else [])

/-- R46. The highest holder count; among equals the image latest in record order, then the highest segment index: the last of the list. -/
def evictChoice : List Evictable → Option Evictable
  | [] => none
  | x :: xs =>
    match evictChoice xs with
    | none => some x
    | some y => if y.holders < x.holders then some x else some y

/-- R45. What is done about a short candidate. -/
def dealShort (x : Candidate) (c : Chip) : Chip :=
  if someDirty c x.privKind then c
  else
    match (if x.need = .own then evictChoice (evictables c x.privKind) else none) with
    | some v => evictSegment v.image v.segment v.slot c
    | none =>
      if (match c.fetch.storeFullAt with | some t => decide (c.now ≤ t + 3600000) | none => false) then c
      else
        report .storeFull (.segment x.image x.segment) (if x.privKind then 1 else 0) { c with fetch.storeFullAt := some c.now }

/-- R47. The number of a FREE slot: the lowest (log 50). -/
def freeSlot (c : Chip) : Option Nat := c.fetch.slots.findIdx? (fun f => f == .free)

/-- R47. A fetch is opened for the candidate in fetch slot `i` and store slot `slot`. -/
def openFetch (i slot : Nat) (x : Candidate) (p : PeerRecord) (c : Chip) : Chip :=
  queueAsk i
    (setFetchSlot i
      (.opened
        { image := x.image, segment := x.segment, peer := p.id, counted := true, base := 0, bitmap := 0, reask := false, switches := 0,
          switchOwed := false, lastAsk := none, timer := none, windowStart := none, lastAccept := none, accepted := 0, storeSlot := slot,
          claimed := false })
      (raiseOpen p.id (setSegState x.image x.segment (.fetching slot) (allocate slot (.fetch i) c))))

/-- R47. A selection run. At each step the candidates are ordered afresh and those of a kind found short in this run are passed over: with no ERASED
slot of a kind, every candidate of that kind is short. At most 4 openings and 2 kinds found short make a run. -/
def selectionSteps : Nat → Bool → Bool → Chip → Chip
  | 0, _, _, c => c
  | fuel + 1, shortCommon, shortPrivate, c =>
    match freeSlot c with
    | none => c
    | some i =>
      match firstCandidate ((candidates c).filter (fun x => if x.privKind then !shortPrivate else !shortCommon)) with
      | none => c
      | some x =>
        match lowestErased c x.privKind, chooseHolder c x.image x.segment none with
        | some slot, some p => selectionSteps fuel shortCommon shortPrivate (openFetch i slot x p c)
        | none, _ => selectionSteps fuel (shortCommon || !x.privKind) (shortPrivate || x.privKind) (dealShort x c)
        | some _, none => c

/-- R40. The conditions under which selection opens fetches. -/
def selectionOpen (c : Chip) : Bool :=
  configured c && c.store.scanPhase == .done && (c.role == .origin || c.census.completedOnce) && (c.role == .origin || !c.departure.departed)

/-- R40. Selection runs if a block has asked for it within the step; while a condition does not hold, a run opens nothing and changes nothing. -/
def runSelection (c : Chip) : Chip :=
  if !c.fetch.selectionAsked then c
  else
    let c := if selectionOpen c then selectionSteps 8 false false c else c
    { c with fetch.selectionAsked := false }

/-! ## Departure (R61) -/

/-- R61. Departure cancels fetch slot `i`, OPEN or in CHECK; a check's store slot is released and no further operation of it is presented. -/
def departFetch (i : Nat) (c : Chip) : Chip :=
  match fetchSlot c i with
  | .free => c
  | .opened f => cancelFetch i f c
  | .checking f => freeFetch i f.peer f.counted c

/-- R61, R107. Departure removes a fetch's check request from the queue: the segment returns to ABSENT unless its record was removed, and its slot is
released once an operation in progress on it has ended. -/
def departCheck (q : CheckRequest) (c : Chip) : Chip :=
  let c := { c with store.waiting := c.store.waiting.filter (fun w => !(w.op.client == .checker && w.op.slot? == some q.slot)) }
  release q.slot (if q.orphan then c else setSegState q.image q.segment .absent c)

/-- R61. The departure line is asserted: every OPEN slot and every slot in CHECK is cancelled, and the block buffer is empty (R39). The store slots of OPEN
fetches join the dirty queue in order of fetch slot, then those of the checks in the order of the check queue (log 23). -/
def departFetches (c : Chip) : Chip :=
  let checks := c.store.checkQueue.filter (fun q => q.source.isSome)
  let c := forEach [0, 1, 2, 3] departFetch c
  let c := forEach checks departCheck { c with store.checkQueue := c.store.checkQueue.filter (fun q => q.source.isNone) }
  { c with fetch.buffer := [] }

end Sys2Proof.Machine
end

