-- ==== Sys2Proof/Machine/Serve.lean ====
section
/-!
DEFINITION. The Serve Engine (R62 to R75), and what a frame's sender means to the Peer Table and to it (R21, R30, R74).
-/
namespace Sys2Proof.Machine

/-- The store slot of a HELD segment lies in a serve-locked area. -/
def slotServeLocked (c : Chip) (slot : Nat) : Bool := serveLocked c (areaOf c slot)

/-- R62. Two entries are of the same asker for the same image and segment. -/
def sameAsk (a b : AskEntry) : Bool := a.asker == b.asker && a.image == b.image && a.segment == b.segment

/-! ## Taking an Ask (R64 to R68) -/

/-- R64. The screen: the Ask names this station, a window base and at least one block. -/
def askScreened (c : Chip) (server : Nat) (e : AskEntry) : Bool :=
  server == stationId c && (e.base == 0 || e.base == 16 || e.base == 32 || e.base == 48) && e.mask != 0#16

/-- R66. Any entry of the same asker for the same segment leaves the ask queue. -/
def dropQueued (e : AskEntry) (c : Chip) : Chip := { c with serve.queue := c.serve.queue.filter (fun q => !sameAsk q e) }

/-- R70, R71. A serve slot enters READING: the lowest-positioned block of the mask is chosen as block in hand and its mark cleared. -/
def startReading (e : AskEntry) : ServeSlot :=
  match lowestMark e.mask with
  | some p => .reading { e with mask := clearMark e.mask p } p
  | none => .free

/-- R67. The block in hand at position `p` of the old window is kept by the new Ask. -/
def keepsInHand (old new : AskEntry) (p : Nat) : Bool := old.base == new.base && new.mask.getLsbD p

/-- R67. Replacement in place of the entry in serve slot `i`. A read of the given-up block that still waits ungranted is withdrawn (log 53). -/
def replaceInSlot (i : Nat) (e : AskEntry) (c : Chip) : Chip :=
  match serveSlot c i with
  | .sending old => setServeSlot i (.sending { old with base := e.base, mask := e.mask }) c
  | .reading old p =>
    if keepsInHand old e p then setServeSlot i (.reading { e with mask := clearMark e.mask p } p) c
    else setServeSlot i (startReading e) (giveUpServeRead i c)
  | .ready old p bytes =>
    if keepsInHand old e p then setServeSlot i (.ready { e with mask := clearMark e.mask p } p bytes) c
    else setServeSlot i (startReading e) c
  | .free => c

/-- The serve slot that works on an entry of the same asker for the same segment. -/
def servingSlot (c : Chip) (e : AskEntry) : Option Nat :=
  [0, 1, 2].find? (fun i => match (serveSlot c i).entry? with | some q => sameAsk q e | none => false)

/-- R65. The answer to a screened Ask: the first test that holds. Until the start scan completes every Ask is answered Lacking (R63). -/
def answerAsk (e : AskEntry) (c : Chip) : Chip :=
  let lack := queueReply .lacking e (dropQueued e c)
  if c.store.scanPhase ≠ .done then lack
  else
    match heldSlot c e.image e.segment with
    | none => lack
    | some slot =>
      if slotServeLocked c slot then queueReply .refused e (dropQueued e c)
      else if c.serve.queue.any (fun q => sameAsk q e) then
        { c with serve.queue := c.serve.queue.map (fun q => if sameAsk q e then { q with base := e.base, mask := e.mask } else q) }
      else
        match servingSlot c e with
        | some i => replaceInSlot i e c
        | none => if 8 ≤ c.serve.queue.length then queueReply .busy e c else { c with serve.queue := c.serve.queue ++ [e] }

/-- R63, R64. An Ask reaching the Serve Engine. -/
def onAsk (server : Nat) (e : AskEntry) (c : Chip) : Chip :=
  if configured c && askScreened c server e then answerAsk e c else c

/-! ## Working through an ask (R70 to R72) -/

/-- R70. The number of the lowest FREE serve slot. -/
def freeServe (c : Chip) : Option Nat := c.serve.slots.findIdx? (fun s => s == .free)

/-- R70, R74. The asker has a record with the departing attribute set. -/
def askerDeparting (c : Chip) (asker : Nat) : Bool :=
  match findPeer c asker with
  | some p => p.departing
  | none => false

/-- R70. A taken entry is examined against the catalog and the Peer Table as they now stand. -/
def examineTaken (i : Nat) (e : AskEntry) (c : Chip) : Chip :=
  match heldSlot c e.image e.segment with
  | none => queueReply .lacking e c
  | some slot =>
    if slotServeLocked c slot then queueReply .refused e c
    else if askerDeparting c e.asker then c
    else setServeSlot i (startReading e) c

/-- R70. FREE slots take entries from the head of the queue; `entries` is the queue as it stands. -/
def takeEntries : List AskEntry → Chip → Chip
  | [], c => { c with serve.queue := [] }
  | e :: es, c =>
    match freeServe c with
    | none => { c with serve.queue := e :: es }
    | some i => takeEntries es (examineTaken i e c)

/-- R70. A FREE serve slot takes the entry at the head of the ask queue whenever the queue is not empty. -/
def serveTake (c : Chip) : Chip := takeEntries c.serve.queue c

/-- The slot numbers after a rotation mark, counting 1, 2, 3, 1. -/
def rotation (mark : Nat) : List Nat := if mark = 1 then [2, 3, 1] else if mark = 2 then [3, 1, 2] else [1, 2, 3]

def isReading : ServeSlot → Bool
  | .reading _ _ => true
  | _ => false

def isReady : ServeSlot → Bool
  | .ready _ _ _ => true
  | _ => false

/-- R71. The slot whose read the server reader takes next: the first in READING after the read rotation mark. -/
def nextReading (c : Chip) : Option Nat := (rotation c.serve.readMark).find? (fun n => isReading (serveSlot c (n - 1)))

/-- R72. The slot the engine offers at a turn: the first READY after the send rotation mark. -/
def nextReady (c : Chip) : Option Nat := (rotation c.serve.sendMark).find? (fun n => isReady (serveSlot c (n - 1)))

/-- R71. A read from a serve-locked area is refused: Refused is queued and the slot becomes FREE. -/
def refuseRead (i : Nat) (e : AskEntry) (c : Chip) : Chip := queueReply .refused e (endServe i c)

/-- R71, R74. A serve slot's read has completed with these bytes: READY, unless the asker is departing at that moment (log 52). -/
def serveReadDone (i : Nat) (bytes : List Byte) (c : Chip) : Chip :=
  match serveSlot c i with
  | .reading e p => if askerDeparting c e.asker then endServe i c else setServeSlot i (.ready e p bytes) c
  | _ => c

/-- R72, R74, R84. The end of a Block's transmission, acted on while the slot still serves the same asker and segment; the asker's departing attribute
counts as it then stands (log 52). -/
def blockSent (i asker : Nat) (k : ImageKey) (seg : Nat) (c : Chip) : Chip :=
  match serveSlot c i with
  | .sending e =>
    if e.asker = asker && e.image = k && e.segment = seg then
      if e.mask = 0#16 || askerDeparting c asker then setServeSlot i .free c else setServeSlot i (startReading e) c
    else c
  | _ => c

/-- R75. Serving is suspended: the queue is emptied, every slot ends without reply, and both rotation marks name slot 3. -/
def suspendServing (c : Chip) : Chip :=
  let c := endServe 2 (endServe 1 (endServe 0 c))
  { c with
    serve.queue := []
    serve.sendMark := 3
    serve.readMark := 3 }

/-! ## A frame's sender (R21, R30, R74) -/

/-- R74. A READY slot for an asker that takes the departing attribute becomes FREE at once, its bytes unsent. -/
def dropReadyFor (asker i : Nat) (c : Chip) : Chip :=
  match serveSlot c i with
  | .ready e _ _ => if e.asker = asker then setServeSlot i .free c else c
  | _ => c

/-- R30, R33. A record takes the departing attribute: its coverage is withdrawn, its READY serves end (R74), every open fetch naming it is to switch, and
selection is asked for. -/
def announceDeparture (id : Nat) (c : Chip) : Chip :=
  match findPeer c id with
  | none => c
  | some p =>
    if p.departing then c
    else
      askSelection
        (switchAway id
          (dropReadyFor id 2 (dropReadyFor id 1 (dropReadyFor id 0 (withdrawAll id (updatePeer id (fun p => { p with departing := true }) c))))))

/-- R21. Last-heard is refreshed; where the departing flag is clear the origin attribute follows the frame's origin flag, but for a Plan. -/
def refreshPeer (f : RxFrame) (now : Nat) (p : PeerRecord) : PeerRecord :=
  { p with lastHeard := now, originAttr := if f.kind = .plan || f.departing then p.originAttr else f.originFlag }

/-- R21. The Peer Table deals with the sender of an accepted frame. A record created by a Plan does not take the origin attribute from it (R4). A READY slot
that the departing flag frees takes its next entry here (R74), before the frame's owner is told (R80). -/
def presence (f : RxFrame) (c : Chip) : Chip :=
  match findPeer c f.sender with
  | some p =>
    let c := updatePeer f.sender (refreshPeer f c.now) c
    if f.departing then serveTake (announceDeparture f.sender c)
    else if p.departing then askSelection (updatePeer f.sender (fun p => { p with departing := false }) c)
    else c
  | none =>
    if f.departing then c
    else
      let c := makeRoom c
      { c with peers := insertPeer (newPeer f.sender c.now (f.kind != .plan && f.originFlag)) c.peers }

end Sys2Proof.Machine
end

