-- ==== Sys2Proof/Machine/Line.lean ====
section
/-!
DEFINITION. The Cabin Line Controller (R113 to R126): the line state, the request list, the beginning of a transaction, and what ends one. Handing the
outcome to its client stands in Sys2Proof/Machine/Census.lean.
-/
namespace Sys2Proof.Machine

/-! ## Requests (R114, R115, R123) -/

/-- R123. A hold limit below 50 ms in an identity record is used as 50 ms. -/
def holdUsed (ms : Nat) : Nat := max ms 50

/-- R114. A request, presented now. -/
def lineRequest (c : Chip) (client : LineClient) (address : Nat) (command : CabinCommand) (offset lengthByte : Nat) (data : List Byte) (receive rate : Nat)
    (hold : Nat) : LineRequest :=
  { client := client, address := address, command := command, offset := offset, lengthByte := lengthByte, data := data, receive := receive,
    rate := effectiveRate c rate, holdLimit := hold, presented := c.now }

/-- R127, R195. An Identify of a unit: 32 bytes. -/
def identifyRequest (c : Chip) (client : LineClient) (address rate : Nat) : LineRequest := lineRequest c client address .identify 0 32 [] 32 rate 50

/-- R127, R195. A Health read of a unit: 4 bytes. -/
def healthRequest (c : Chip) (client : LineClient) (address rate : Nat) : LineRequest := lineRequest c client address .health 0 4 [] 4 rate 50

/-- R129. A Swap, Keep or Revert. -/
def bareRequest (c : Chip) (client : LineClient) (command : CabinCommand) (address rate : Nat) : LineRequest :=
  lineRequest c client address command 0 0 [] 0 rate 50

/-- R113. The controller accepts requests only on a configured bus station. -/
def lineAccepts (c : Chip) : Bool := configured c && c.role == .busStation

/-- R114. A client presents a request: it joins the request list. -/
def presentLine (r : LineRequest) (c : Chip) : Chip := if lineAccepts c then { c with line.requests := c.line.requests ++ [r] } else c

/-- R114. The request is the client's: for probation, the one for this unit. -/
def isFrom (client : LineClient) (address : Nat) (r : LineRequest) : Bool := r.client == client && (client != .probation || r.address == address)

/-- R126. A client withdraws its waiting request. -/
def withdrawLine (client : LineClient) (address : Nat) (c : Chip) : Chip :=
  { c with line.requests := c.line.requests.filter (fun r => !isFrom client address r) }

/-- R126, R135, R157. The outcome of a client's request that has begun is to be set aside. -/
def discardLine (client : LineClient) (address : Nat) (c : Chip) : Chip :=
  { c with line.current := c.line.current.map (fun q => if isFrom client address q.request then { q with discarded := true } else q) }

/-- A request of the client is begun and its outcome is still wanted. -/
def lineBegun (c : Chip) (client : LineClient) (address : Nat) : Bool :=
  match c.line.current with
  | some q => isFrom client address q.request && !q.discarded
  | none => false

/-- A request of the client waits in the list. -/
def lineWaits (c : Chip) (client : LineClient) (address : Nat) : Bool := c.line.requests.any (isFrom client address)

/-! ## Beginning (R114, R116, R120) -/

/-- R114. The arbiter's choice: the oldest probation request, otherwise the census's, otherwise the flashing job's. -/
def chooseRequest (l : List LineRequest) : Option LineRequest :=
  match l.find? (fun r => r.client == .probation) with
  | some r => some r
  | none =>
    match l.find? (fun r => r.client == .census) with
    | some r => some r
    | none => l.find? (fun r => r.client == .job)

/-- R155. The job record notes that its Swap has begun, whatever then becomes of it (log 54). -/
def noteBegun (r : LineRequest) (c : Chip) : Chip :=
  if r.client = .job && r.command = .swap then { c with seq.job := c.seq.job.map (fun j => { j with swapBegun := true }) } else c

/-- R116. The opening mark is made: MASTER, with the data wire and then the clock wire driven low. -/
def openMark (c : Chip) : Chip :=
  { c with line := { c.line with state := .master, drive := ⟨true, true⟩, steps := [.opening], heldSince := none } }

/-- R114, R116, R120. On an IDLE line a transaction begins: the current request again after a loss, ahead of any in the list, otherwise the arbiter's
choice. -/
def lineBegin (c : Chip) : Chip :=
  if c.line.state ≠ .idle then c
  else
    match c.line.current with
    | some q => { openMark c with line.current := some { q with waiting := false } }
    | none =>
      match chooseRequest c.line.requests with
      | none => c
      | some r =>
        noteBegun r
          { openMark c with
            line.requests := c.line.requests.erase r
            line.current := some { request := r, losses := 0, waiting := false, discarded := false } }

/-- The request whose transaction the controller is carrying out. -/
def transaction (c : Chip) : Option LineRequest :=
  if c.line.state = .master then c.line.current.map (fun q => q.request) else none

/-! ## What a transaction puts on the line (R116 to R119) -/

/-- R115, R117. One clock period, a low half and a high half, in which the data wire is driven low or left released. -/
def period (low : Bool) : List Drive := [⟨true, low⟩, ⟨false, low⟩]

/-- R116 to R119, R195. How the controller drives the two wires in a step, half period by half period. A byte goes out most significant bit first and its
ninth period is the receiver's; a byte received is the unit's for eight periods, and the ninth acknowledges it. -/
def LineStep.drives : LineStep → List Drive
  | .opening => [⟨false, true⟩, ⟨true, true⟩]
  | .byte b => [7, 6, 5, 4, 3, 2, 1, 0].flatMap (fun i => period (!b.getLsbD i)) ++ period false
  | .reopen => [⟨true, false⟩, ⟨false, false⟩, ⟨false, true⟩]
  | .received _ => (List.replicate 8 (period false)).flatten ++ period true
  | .closing => [⟨true, true⟩, ⟨false, true⟩, ⟨false, false⟩]

/-- R117, R118. The first `n` of the bytes the unit must acknowledge, the reopen mark standing before the second address byte. -/
def sentSteps (r : LineRequest) (n : Nat) : List LineStep :=
  ((sentBytes r).take n).map LineStep.byte ++
    (if r.receive ≠ 0 ∧ (sentBytes r).length < n then [.reopen, .byte (addressByte r.address true)] else [])

/-- R116 to R119. All that a transaction which ends at its closing mark has put on the line: no byte after an unacknowledged one, and in a completed one
every received byte acknowledged. -/
def transactionSteps (r : LineRequest) (nak : Option Nat) (received : List Byte) : List LineStep :=
  match transactionOutcome r nak received with
  | .completed bytes => .opening :: sentSteps r (acknowledgedBytes r).length ++ bytes.map LineStep.received ++ [.closing]
  | _ => .opening :: sentSteps r (nak.getD 0 + 1) ++ [.closing]

/-! ## The wires (R113) -/

/-- R113. The level a wire reads at: low when any party drives it low. -/
def wireReads (c : Chip) : Wire → Bool
  | .clock => c.pins.clock && !c.line.drive.clock
  | .data => c.pins.data && !c.line.drive.data

/-- R119, R120, R122, R124, R126. The controller releases both wires, and times no hold. -/
def releaseWires (c : Chip) : Chip := { c with line := { c.line with drive := ⟨false, false⟩, heldSince := none } }

/-- Set the levels at which the other parties leave the two wires. -/
def setWires (clock data : Bool) (c : Chip) : Chip := { c with pins.clock := clock, pins.data := data }

/-- R113, R119. A closing mark has been made: both wires read high from now on, and QUIET begins. -/
def lineQuiet (c : Chip) : Chip := { setWires true true (releaseWires c) with line.state := .quiet c.now }

/-- R124. In RECOVERING the closing mark is made as soon as both wires read high; with the data wire still held low it waits for the line to free. -/
def closeRecovery (c : Chip) : Chip :=
  if c.pins.clock && c.pins.data then lineQuiet { c with line.steps := c.line.steps ++ [.closing] } else c

/-- R113, R123, R124. A wire changes level. Outside MASTER and RECOVERING the state follows the wires; in MASTER a clock wire that another party keeps low is a
hold, timed from 0 until it reads high; in RECOVERING two high wires let the closing mark be made. -/
def wireChange (clock data : Bool) (c : Chip) : Chip :=
  let c := setWires clock data c
  match c.line.state with
  | .master => { c with line.heldSince := if clock then none else some (c.line.heldSince.getD c.now) }
  | .recovering => closeRecovery c
  | .busy => if clock && data then { c with line.state := .quiet c.now } else c
  | .quiet _ => if clock && data then c else { c with line.state := .busy }
  | .idle => if clock && data then c else { c with line.state := .busy }

/-- R113, R125. QUIET unbroken for 2 ms gives IDLE, which ends a period of waiting. -/
def quietElapsed (c : Chip) : Chip :=
  match c.line.state with
  | .quiet since => if reached c (since + 2) then { c with line.state := .idle, line.stuckReported := false } else c
  | _ => c

/-- R119. The closing mark of a transaction, all of which is `steps`: the current request leaves the controller with both wires released. -/
def leaveLine (steps : List LineStep) (c : Chip) : Chip := lineQuiet { c with line.current := none, line.steps := steps }

/-- R122. After a line fault both wires are released with no closing mark, and the line state follows the wires. -/
def abandonLine (c : Chip) : Chip :=
  { releaseWires c with
    line.current := none
    line.state := if c.pins.clock && c.pins.data then .quiet c.now else .busy }

/-- R120, R121. Arbitration loss: both wires are released, the line state becomes BUSY, and below eight losses the request waits to begin again. -/
def loseLine (q : CurrentRequest) (c : Chip) : Chip :=
  { setWires true false (releaseWires c) with
    line.state := .busy
    line.current := if q.losses + 1 < 8 then some { q with losses := q.losses + 1, waiting := true } else none }

/-- R122. The line fault's report. -/
def reportLineFault (address : Nat) (wire : Wire) (c : Chip) : Chip :=
  report .lineFault (.number address) (match wire with | .data => 1 | .clock => 2) c

/-- R124. A hold timeout: the request leaves the controller and the line state becomes RECOVERING, both wires released; the clock wire is held low. -/
def recoverLine (c : Chip) : Chip := { setWires false c.pins.data (releaseWires c) with line.state := .recovering, line.current := none }

/-! ## A stuck line (R125) -/

/-- R125. The requests that wait: the one that waits to begin again, and those of the list. -/
def waitingRequests (c : Chip) : List LineRequest :=
  (match c.line.current with
    | some q => if q.waiting then [q.request] else []
    | none => []) ++ c.line.requests

/-- R125. The code of the state that blocks the line. -/
def blockCode (c : Chip) : Nat := if c.line.state = .recovering then 2 else 1

/-- The line state is BUSY or RECOVERING. -/
def lineBlocked (c : Chip) : Bool :=
  match c.line.state with
  | .busy => true
  | .recovering => true
  | _ => false

/-- R125. A request that has waited 10,000 ms with the line blocked throughout. -/
def stuckRequest (c : Chip) : Option LineRequest :=
  match c.line.blockedSince with
  | none => none
  | some t => (waitingRequests c).find? (fun r => reached c (max r.presented t + 10000))

/-- R125. LINE_STUCK, once in a period of waiting. -/
def reportStuck (c : Chip) : Chip :=
  if c.line.stuckReported || !lineBlocked c then c
  else
    match stuckRequest c with
    | none => c
    | some r => report .lineStuck (.number r.address) (blockCode c) { c with line.stuckReported := true }

/-- R125. The time for which the line has been blocked is kept (log 25); an IDLE line is in no period of waiting. -/
def watchLine (c : Chip) : Chip :=
  { c with
    line.blockedSince := if lineBlocked c then some (c.line.blockedSince.getD c.now) else none
    line.stuckReported := if c.line.state = .idle then false else c.line.stuckReported }

end Sys2Proof.Machine
end

