-- ==== Sys2Proof/Machine/Budget.lean ====
section
/-!
DEFINITION. Job build (R143, R146, R147) and the budget computation of the Departure Monitor (R170 to R173).
-/
namespace Sys2Proof.Machine

/-! ## Job build (R143) -/

/-- R15. A window's length in the job's image. -/
def Manifest.windowLength (m : Manifest) (w : PlacementWindow) : Nat := Sys2Proof.Machine.windowLength m.count m.length w

/-- R143. A window's end in the bank. -/
def windowEnd (m : Manifest) (w : PlacementWindow) : Nat := w.offset + m.windowLength w

/-- R143. Every window end lies within the bank. -/
def windowsFit (m : Manifest) (bankSize : Nat) : Bool := m.windows.all (fun w => decide (windowEnd m w ≤ bankSize))

/-- R143. The touched sectors of a window, as a run of sector numbers. -/
def sectorRun (m : Manifest) (sectorSize : Nat) (w : PlacementWindow) : SegRun := ⟨w.offset / sectorSize, (windowEnd m w - 1) / sectorSize⟩

/-- R143. The touched sectors of the job, as ascending runs: their union over the windows. -/
def touchedRuns (m : Manifest) (sectorSize : Nat) : List SegRun := addRuns [] (m.windows.map (sectorRun m sectorSize))

/-- The number of elements of ascending runs. -/
def runsSize (l : List SegRun) : Nat := (l.map (fun r => r.last + 1 - r.first)).sum

/-- The `i`-th element of ascending runs, counting from 0. -/
def runsGet : List SegRun → Nat → Nat
  | [], _ => 0
  | r :: rs, i => if i < r.last + 1 - r.first then r.first + i else runsGet rs (i - (r.last + 1 - r.first))

/-- R143. S, the number of touched sectors. -/
def touchedSectors (m : Manifest) (sectorSize : Nat) : Nat := runsSize (touchedRuns m sectorSize)

/-- R143. The Write packets of one window. -/
def windowPackets (m : Manifest) (w : PlacementWindow) : Nat := (m.windowLength w + 127) / 128

/-- R143. W, the number of Write packets. -/
def writePackets (m : Manifest) : Nat := (m.windows.map (windowPackets m)).sum

/-- R143. B, the total window bytes. -/
def windowBytes (m : Manifest) : Nat := (m.windows.map m.windowLength).sum

/-! ## The budget (R170 to R173) -/

/-- The largest 32-bit quantity. -/
def satMax : Nat := 4294967295

/-- R172. A 32-bit sum that saturates. -/
def satAdd (a b : Nat) : Nat := min (a + b) satMax

/-- R172. A 32-bit product that saturates. -/
def satMul (a b : Nat) : Nat := min (a * b) satMax

/-- R2, R170. Probation seconds as used: below 30 as 30, above 600 as 600. -/
def probationUsed (t : Nat) : Nat := min (max t 30) 600

/-- R170. The guard seconds as used: 0 as 300, 1 to 59 as 60, above 1,800 as 1,800. -/
def guardUsed (g : Nat) : Nat := if g = 0 then 300 else min (max g 60) 1800

/-- R171. The byte time in µs at an effective rate. -/
def byteTime (rEff : Nat) : Nat := (9000000 + rEff - 1) / rEff

/-- R171. The line time in ms of W Write packets and as many Reads. -/
def lineTime (w byteUs : Nat) : Nat := (w * 2 * 134 * byteUs + 999) / 1000

/-- R172. D, from left to right. -/
def estimateD (l w hw s he t : Nat) : Nat := satAdd (satAdd (satAdd (satAdd l (satMul w hw)) (satMul s he)) (satMul t 1000)) 200

/-- R172. D′; once a partial result has saturated, every later sum built on it is saturated. -/
def marginedD (d : Nat) : Nat := if d = satMax then satMax else satAdd d (d / 8)

/-- R170 to R172. D′ for a unit, a manifest and a probation length as sent. -/
def budgetFor (c : Chip) (u : Identity) (m : Manifest) (probation : Nat) : Nat :=
  let w := writePackets m
  marginedD
    (estimateD (lineTime w (byteTime (effectiveRate c u.rate))) w u.pageTime (touchedSectors m u.sectorSize) u.eraseTime (probationUsed probation))

/-- R170. The guard seconds in force, as used. -/
def guardNow (c : Chip) : Nat := guardUsed (match c.port.config with | some r => r.guardSeconds | none => 0)

/-- R173. A_t; none is unlimited. -/
def availableTime (c : Chip) : Option Nat :=
  match c.departure.deadline with
  | some d => some (d - c.now - guardNow c * 1000)
  | none => if (match c.port.config with | some r => r.noRoster | none => false) then none else some 0

/-- R144. The gate passes: D′ does not exceed A_t, or A_t is unlimited. -/
def gatePasses (d : Nat) (a : Option Nat) : Bool :=
  match a with
  | none => true
  | some a => decide (d ≤ a)

/-! ## The packet list (R146, R147, R150) -/

/-- R147. The window in which the `i`-th piece of the job lies, with its place in that window. -/
def locatePiece (m : Manifest) : List PlacementWindow → Nat → Option (PlacementWindow × Nat)
  | [], _ => none
  | w :: ws, i => if i < windowPackets m w then some (w, i) else locatePiece m ws (i - windowPackets m w)

/-- R147. A length padded to the next multiple of the write granule. -/
def paddedLength (granule n : Nat) : Nat := (n + granule - 1) / granule * granule

/-- R146, R147. The Write or Read packet of the `i`-th piece. -/
def piecePacket (m : Manifest) (u : Identity) (command : CabinCommand) (index i : Nat) : Option Packet :=
  match locatePiece m m.windows i with
  | none => none
  | some (w, k) =>
    let n := min 128 (m.windowLength w - 128 * k)
    some
      { index := index
        command := command
        offset := w.offset + 128 * k
        length := paddedLength u.granule n
        segment := w.first + k / 64
        block := k % 64
        imageBytes := n
        reversed := w.bitOrder != u.bitOrder
        bytes := none }

/-- A packet that takes no bytes from the store. -/
def plainPacket (index : Nat) (command : CabinCommand) (offset length : Nat) : Packet :=
  { index := index, command := command, offset := offset, length := length, segment := 0, block := 0, imageBytes := 0, reversed := false,
    bytes := none }

/-- R146, R150. How many Erase packets and how many Write packets the list has. -/
def eraseCount (j : JobRecord) (u : Identity) : Nat := if j.shortcut then 0 else touchedSectors j.manifest u.sectorSize

def writeCount (j : JobRecord) : Nat := if j.shortcut then 0 else writePackets j.manifest

/-- R146, R150. The packet at place `i` of the packet list. -/
def packetAt (j : JobRecord) (u : Identity) (i : Nat) : Option Packet :=
  let s := eraseCount j u
  let w := writeCount j
  let r := writePackets j.manifest
  if i = 0 then some (plainPacket 0 .openBank (bankCode (j.newBank.getD .a)) 0)
  else if i < 1 + s then some (plainPacket i .erase (runsGet (touchedRuns j.manifest u.sectorSize) (i - 1) * u.sectorSize) 0)
  else if i < 1 + s + w then piecePacket j.manifest u .write i (i - 1 - s)
  else if i < 1 + s + w + r then piecePacket j.manifest u .read i (i - 1 - s - w)
  else if i = 1 + s + w + r then some (plainPacket i .seal j.manifest.length 2)
  else if i = 2 + s + w + r then some (plainPacket i .swap 0 0)
  else none

/-- R147. The prepared bytes of a packet whose source block holds `raw`. -/
def preparedBytes (p : Packet) (raw : List Byte) : List Byte :=
  let body := raw.take p.imageBytes
  (if p.reversed then body.map reverseByte else body) ++ List.replicate (p.length - p.imageBytes) 0xFF#8

end Sys2Proof.Machine
end

