-- ==== Sys2Proof/Machine/Jobs.lean ====
section
/-!
DEFINITION. The Unit Update Sequencer's flashing job (R131, R142 to R157): the unit arbiter, the attempt, the packet ring, and how an attempt or a job ends.
-/
namespace Sys2Proof.Machine

/-! ## Records (R131, R136) -/

/-- R131, R136. What a COMPLETED Identify outside a census does to an entry: a usable record of the same unit refreshes the condition fields; one of a
different unit leaves them, sets the changed mark, and the census becomes owed. -/
def takeIdentity (address : Nat) (r : Identity) (c : Chip) : Chip :=
  match findUnit c address with
  | none => c
  | some u =>
    if sameUnit u.identity r then updateUnit address (fun u => { u with identity := r }) c
    else { updateUnit address (fun u => { u with changed := true }) c with census.owed := true }

/-- R136. The latest end of a job or attempt is recorded with the local time. -/
def recordLast (address : Nat) (o : LastOutcome) (c : Chip) : Chip := updateUnit address (fun u => { u with last := some (o, c.now) }) c

def setUnitState (address : Nat) (s : JobState) (c : Chip) : Chip := updateUnit address (fun u => { u with state := s }) c

/-- Change the fields of the job record. -/
def updateJob (f : JobRecord → JobRecord) (c : Chip) : Chip := { c with seq.job := c.seq.job.map f }

/-- R139. The entry's job has ended: target selection runs for it. Its flashing or probation state is left by way of a waiting one. -/
def endJob (address : Nat) (c : Chip) : Chip := selectUnit address (setUnitState address .ready c)

/-! ## The unit arbiter (R132, R142 to R144) -/

/-- R132. What every beginning of a census asks for. -/
def censusPossible (c : Chip) : Bool :=
  c.role == .busStation && c.census.state == .idle && configured c && c.store.scanPhase == .done && !c.departure.departed && !anyFlashing c

/-- R132. An owed census may begin at this moment. -/
def censusMayBegin (c : Chip) : Bool :=
  censusPossible c && c.census.owed &&
    (match c.census.lastAbandon with
      | some t => reached c (t + 60000)
      | none => true)

/-- R142. The arbiter may choose. -/
def arbiterOpen (c : Chip) : Bool :=
  c.seq.job.isNone && !anyFlashing c && configured c && c.role == .busStation && !c.departure.departed && c.census.state == .idle &&
    !censusMayBegin c

/-- R142. The better of two READY entries: the lower target entry index, then the lower address. -/
def betterEntry (u v : UnitEntry) : UnitEntry :=
  let i := u.targetIndex.getD 255
  let j := v.targetIndex.getD 255
  if i < j then u else if j < i then v else if u.address ≤ v.address then u else v

def bestEntry : List UnitEntry → Option UnitEntry
  | [] => none
  | u :: us =>
    match bestEntry us with
    | none => some u
    | some v => some (betterEntry u v)

/-- R142. The entry the arbiter chooses. -/
def chooseEntry (c : Chip) : Option UnitEntry := bestEntry (c.seq.units.filter (fun u => u.state == .ready && !u.changed))

/-- R143. Job build has failed: the entry enters FAILED with attempts unchanged, for reason MISFIT. -/
def failMisfit (u : UnitEntry) (c : Chip) : Chip :=
  selectUnit u.address
    (report .jobFailed (.number u.address) FailReason.misfit.code
      (recordLast u.address (.failed .misfit) (setUnitState u.address .failed c)))

/-- R144. The entry is deferred for its budget. -/
def deferEntry (u : UnitEntry) (c : Chip) : Chip :=
  let c' :=
    updateUnit u.address (fun u => { u with deferred := true, deferralReported := true, state := .waitingTime .budget }) c
  if u.deferralReported then c' else report .budgetDeferred (.number u.address) (u.targetIndex.getD 0) c'

/-- R144. The job record at creation. -/
def newJob (u : UnitEntry) (k : ImageKey) (m : Manifest) (probation : Nat) : JobRecord :=
  { address := u.address, attempt := u.attempts + 1, image := k, manifest := m, probationSeconds := probation, oldBank := none, newBank := none,
    shortcut := false, cursor := 0, ring := [], retries := 0, pauses := 0, pausingUntil := none, identified := false, cancelAtBoundary := false,
    stopAtBoundary := false, sealDone := false, swapBegun := false, closing := false, closingAsked := false,
    readGone := false }

/-- R144. The gate has passed: the entry becomes the active job and enters ERASING. -/
def startJob (u : UnitEntry) (k : ImageKey) (m : Manifest) (probation : Nat) (c : Chip) : Chip :=
  report .jobStarted (.number u.address) (u.attempts + 1)
    { setUnitState u.address .erasing c with seq.job := some (newJob u k m probation) }

/-- R143, R144. Job build and the budget gate for a chosen entry. An entry whose image has no manifest is no longer READY and is evaluated again. -/
def tryEntry (u : UnitEntry) (c : Chip) : Chip :=
  let probation := match targetEntry c u with | some e => e.probation | none => 0
  match u.target with
  | none => evaluateWaiting c
  | some t =>
    match (findRecord c t.image).bind (fun r => r.manifest) with
    | none => evaluateWaiting c
    | some m =>
      if !windowsFit m u.identity.bankSize then failMisfit u c
      else if gatePasses (budgetFor c u.identity m probation) (availableTime c) then startJob u t.image m probation c
      else deferEntry u c

/-- R142. The arbiter, which chooses again at once among the entries still READY when build or gate has failed. -/
def arbiterSteps : Nat → Chip → Chip
  | 0, c => c
  | n + 1, c =>
    if !arbiterOpen c then c
    else
      match chooseEntry c with
      | none => c
      | some u => arbiterSteps n (tryEntry u c)

/-- R142. Each choice either starts a job or takes the entry out of READY, so one turn for each entry is enough. -/
def unitArbiter (c : Chip) : Chip := arbiterSteps c.seq.units.length c

/-! ## The ring (R148) -/

/-- R148. The ring filled from the builder cursor, by at most `n` packets. -/
def fillSteps (u : Identity) : Nat → JobRecord → JobRecord
  | 0, j => j
  | n + 1, j =>
    match packetAt j u j.cursor with
    | none => j
    | some p => fillSteps u n { j with ring := j.ring ++ [p], cursor := j.cursor + 1 }

/-- R148. The builder fills the ring up to 32 packets, or to the end of the list. -/
def fillRing (u : Identity) (j : JobRecord) : JobRecord := fillSteps u (32 - j.ring.length) j

/-- R147. The packet takes its bytes from the store. -/
def Packet.needsBytes (p : Packet) : Bool := p.command == .write || p.command == .read

/-- R148. The read for the earliest packet of the ring whose bytes are not yet in hand; none once a read of the job has been answered gone (log 60). -/
def nextFlashRead (c : Chip) : Option StoreOp :=
  match c.seq.job with
  | none => none
  | some j =>
    if j.readGone then none
    else (j.ring.find? (fun p => p.needsBytes && p.bytes.isNone)).map
      (fun p => .flashRead p.index j.image p.segment (heldSlot c j.image p.segment) p.block)

/-- The operation is the flasher reader's. -/
def StoreOp.isFlashRead : StoreOp → Bool
  | .flashRead _ _ _ _ _ => true
  | _ => false

/-- R148. The ring is emptied: a waiting read of the flasher reader is withdrawn, and one in progress brings nothing. -/
def dropFlashReads (c : Chip) : Chip :=
  { c with
    store.waiting := c.store.waiting.filter (fun w => !w.op.isFlashRead)
    store.current := c.store.current.map (fun o => if o.op.isFlashRead then { o with live := false } else o) }

/-- R148. A flasher read has completed with these bytes. -/
def flashReadDone (packet : Nat) (raw : List Byte) (c : Chip) : Chip :=
  updateJob
    (fun j => { j with ring := j.ring.map (fun p => if p.index = packet then { p with bytes := some (preparedBytes p raw) } else p) }) c

/-! ## Ends of an attempt and of a job (R154 to R156) -/

/-- The job record is given up: its waiting request is withdrawn, and the ring and the bytes in hand are emptied. -/
def dropJob (j : JobRecord) (c : Chip) : Chip := { dropFlashReads (withdrawLine .job j.address c) with seq.job := none }

/-- R154. The attempt has failed for the second time: FAILED. -/
def failJob (j : JobRecord) (r : FailReason) (c : Chip) : Chip :=
  selectUnit j.address
    (report .jobFailed (.number j.address) r.code (recordLast j.address (.failed r) (setUnitState j.address .failed c)))

/-- R154. An attempt fails: attempts rise, ATTEMPT_FAILED is reported, and the entry returns to READY, or enters FAILED at the second. -/
def failAttempt (j : JobRecord) (r : FailReason) (c : Chip) : Chip :=
  let c := updateUnit j.address (fun u => { u with attempts := u.attempts + 1 }) (dropJob j c)
  let c := report .attemptFailed (.number j.address) r.code (recordLast j.address (.attempt r) c)
  if (match findUnit c j.address with | some u => decide (u.attempts < 2) | none => false) then setUnitState j.address .ready c
  else failJob j r c

/-- R155. A job cancelled by a plan change ends without counting an attempt. -/
def finishCancel (j : JobRecord) (c : Chip) : Chip :=
  endJob j.address (report .jobCancelled (.number j.address) 1 (recordLast j.address .cancelledPlan (dropJob j c)))

/-- R156. A job stopped by departure returns to READY; when a plan change was pending as well, selection then runs (log 19). -/
def finishStop (j : JobRecord) (c : Chip) : Chip :=
  let c :=
    report .jobCancelled (.number j.address) 2
      (recordLast j.address .cancelledDeparture (setUnitState j.address .ready (dropJob j c)))
  if j.cancelAtBoundary then selectUnit j.address c else c

/-- A transaction of the job is in progress (R126: a request that waits to begin again counts as begun). -/
def jobOnLine (c : Chip) (j : JobRecord) : Bool := lineBegun c .job j.address

/-- R155. At a packet boundary a pending cancel is carried out: the waiting request is withdrawn, the ring is emptied, and either a further Open of the
new bank is to be made or the job ends. A Swap that ended ABSENT or CONTENDED and is to be tried again counts as begun: no further Open is made, and the
bank stays sealed (log 54). -/
def jobBoundary (c : Chip) : Chip :=
  match c.seq.job with
  | none => c
  | some j =>
    if !j.cancelAtBoundary || j.closing || jobOnLine c j then c
    else if j.sealDone && !j.swapBegun then
      updateJob (fun j => { j with closing := true, ring := [], pausingUntil := none }) (dropFlashReads (withdrawLine .job j.address c))
    else finishCancel j c

/-- R155. The job is to be cancelled at its next packet boundary. -/
def cancelJob (c : Chip) : Chip := jobBoundary (updateJob (fun j => { j with cancelAtBoundary := true }) c)

/-- R148, R155. A flasher read has been answered gone: the job is cancelled like one whose image the plan no longer names, and reads no more (log 60). -/
def flashReadGone (c : Chip) : Chip := cancelJob (updateJob (fun j => { j with readGone := true }) c)

/-- R155. A plan has been adopted: target selection looks at the active entry. -/
def replanJob (c : Chip) : Chip :=
  match c.seq.job with
  | none => c
  | some j =>
    match findUnit c j.address with
    | none => c
    | some u =>
      match choiceFor c u with
      | .target i e =>
        if u.target = some { image := e.image, crc := e.crc } then
          updateJob (fun j => { j with probationSeconds := e.probation })
            (updateUnit j.address (fun u => { u with targetIndex := some i }) c)
        else cancelJob c
      | .current => cancelJob c
      | .ahead => cancelJob c
      | .stranded => cancelJob c

/-- R156. The departure line is asserted: a waiting request is withdrawn and the job stops, at once or at the end of the transaction in progress. -/
def stopFlashing (c : Chip) : Chip :=
  match c.seq.job with
  | none => c
  | some j =>
    if jobOnLine c j then updateJob (fun j => { j with stopAtBoundary := true }) c else finishStop j c

/-! ## Presenting the job's request (R145, R149, R155) -/

/-- R149. The job state of the entry while a packet is presented. -/
def packetState : CabinCommand → JobState
  | .write => .writing
  | .read => .verifying
  | .seal => .sealing
  | .swap => .switching
  | _ => .erasing

/-- R146, R149. The request of a packet, at the unit's rate class and with the hold limit of its command. -/
def packetRequest (c : Chip) (j : JobRecord) (u : Identity) (p : Packet) : LineRequest :=
  let make := fun (lengthByte : Nat) (data : List Byte) (receive hold : Nat) =>
    lineRequest c .job j.address p.command p.offset lengthByte data receive u.rate hold
  match p.command with
  | .write => make p.length (p.bytes.getD []) 0 (holdUsed u.pageHold)
  | .read => make p.length [] p.length (holdUsed u.pageHold)
  | .erase => make 0 [] 0 (holdUsed u.eraseHold)
  | .seal => make 2 (put16 j.image.version) 0 50
  | _ => make 0 [] 0 50

/-- R149. The request the job has to present now, with the state it puts the entry in. -/
def jobRequest (c : Chip) (j : JobRecord) (u : UnitEntry) : Option (LineRequest × JobState) :=
  if j.closing then
    if j.closingAsked then none
    else some (packetRequest c j u.identity (plainPacket 0 .openBank (bankCode (j.newBank.getD .a)) 0), .sealing)
  else if j.pausingUntil.isSome then none
  else if !j.identified then some (identifyRequest c .job j.address u.identity.rate, .erasing)
  else
    match j.ring with
    | [] => none
    | p :: _ => if p.needsBytes && p.bytes.isNone then none else some (packetRequest c j u.identity p, packetState p.command)

/-- R149. The Sequencer presents the active job's flashing request when none waits or is in progress. -/
def jobPresent (c : Chip) : Chip :=
  match c.seq.job with
  | none => c
  | some j =>
    match findUnit c j.address with
    | none => c
    | some u =>
      if jobOnLine c j || lineWaits c .job j.address then c
      else
        match jobRequest c j u with
        | none => c
        | some (r, s) =>
          presentLine r (setUnitState j.address s (updateJob (fun j => { j with closingAsked := j.closing }) c))

/-! ## The outcome of a flashing request (R145, R149, R151 to R153) -/

/-- R157. The entry enters PROBATION and gains a probation record; UNIT_SWAPPED is reported and the job record is given up. -/
def enterProbation (j : JobRecord) (c : Chip) : Chip :=
  let record : ProbationRecord :=
    { address := j.address, oldBank := j.oldBank.getD .a, newBank := j.newBank.getD .b, length := probationUsed j.probationSeconds * 1000,
      swapTime := c.now, phase := .polling, nextPoll := some (c.now + 10000), unanswered := 0, inHand := none, repeatDue := none,
      confirmed := false, revertReason := none }
  let c := report .unitSwapped (.number j.address) j.image.version (setUnitState j.address .probation (dropJob j c))
  { c with seq.probations := c.seq.probations ++ [record] }

/-- R150. The record shows the new bank sealed with the target version. -/
def takesShortcut (r : Identity) (new : Bank) (version : Nat) : Bool := r.sealed new && r.version new == version

/-- R145. The attempt goes on: the banks and the shortcut are decided, and the builder fills the ring. -/
def beginPackets (j : JobRecord) (r : Identity) (c : Chip) : Chip :=
  let new := otherBank r.active
  { c with
    seq.job :=
      some
        (fillRing r
          { j with
            identified := true
            retries := 0
            oldBank := some r.active
            newBank := some new
            shortcut := takesShortcut r new j.image.version }) }

/-- R145. The attempt-start Identify has completed with these bytes. -/
def identifyDone (j : JobRecord) (bytes : List Byte) (c : Chip) : Chip :=
  match usableIdentity bytes, findUnit c j.address with
  | none, _ => failAttempt j .identity c
  | some _, none => dropJob j c
  | some r, some u =>
    let c := takeIdentity j.address r c
    if !sameUnit u.identity r then setUnitState j.address .ready (dropJob j c)
    else if r.version r.active = j.image.version then endJob j.address (dropJob j c)
    else beginPackets j r c

/-- R148, R149. The packet is executed: it leaves the ring, the retry count returns to 0, and a ring of 16 or fewer is filled again. -/
def executed (j : JobRecord) (u : Identity) : JobRecord :=
  let j := { j with ring := j.ring.drop 1, retries := 0 }
  if j.ring.length ≤ 16 then fillRing u j else j

/-- R149, R151. A packet's request has completed. -/
def packetDone (j : JobRecord) (command : CabinCommand) (bytes : List Byte) (c : Chip) : Chip :=
  match j.ring, findUnit c j.address with
  | p :: _, some u =>
    if command = .swap then enterProbation j c
    else if command = .read && p.bytes != some bytes then failAttempt j .verify c
    else { c with seq.job := some (executed { j with sealDone := j.sealDone || command == .seal } u.identity) }
  | _, _ => c

/-- R152. HOLD_TIMEOUT and ABSENT share one retry count; at 3 the attempt fails. -/
def retryOrFail (j : JobRecord) (r : FailReason) (c : Chip) : Chip :=
  if j.retries + 1 < 3 then { c with seq.job := some { j with retries := j.retries + 1 } } else failAttempt j r c

/-- R153. A CONTENDED outcome: a pause of 1,000 ms, or at the fourth the attempt's failure. -/
def pauseOrFail (j : JobRecord) (c : Chip) : Chip :=
  if j.pauses + 1 < 4 then { c with seq.job := some { j with pauses := j.pauses + 1, pausingUntil := some (c.now + 1000) } }
  else failAttempt { j with pauses := j.pauses + 1 } .lineBusy c

/-- R145, R149, R152. The outcome of a request of a job that nothing is about to end. -/
def plainOutcome (j : JobRecord) (command : CabinCommand) (o : LineOutcome) (c : Chip) : Chip :=
  match o with
  | .completed bytes => if command = .identify then identifyDone j bytes c else packetDone j command bytes c
  | .holdTimeout => if command = .swap then enterProbation j c else retryOrFail j .hold c
  | .absent => retryOrFail j .absent c
  | .refused => failAttempt j .refused c
  | .contended => pauseOrFail j c
  | .lineFault => failAttempt j .lineFault c

/-- R155, R156, R157. A Swap that ends COMPLETED or HOLD_TIMEOUT leads to PROBATION whatever else is pending. -/
def swapTaken (command : CabinCommand) (o : LineOutcome) : Bool :=
  command == .swap &&
    (match o with
      | .completed _ => true
      | .holdTimeout => true
      | _ => false)

/-- R131, R136, R155. What a pending cancel still takes from a COMPLETED outcome: the record of an Identify, and that the Seal has completed. -/
def noteCompleted (j : JobRecord) (command : CabinCommand) (o : LineOutcome) (c : Chip) : Chip :=
  match o with
  | .completed bytes =>
    if command = .identify then
      match usableIdentity bytes with
      | some r => takeIdentity j.address r c
      | none => c
    else if command = .seal then updateJob (fun j => { j with sealDone := true }) c
    else c
  | _ => c

/-- The outcome of the job's request, its transaction ended (R149 to R157). -/
def jobOutcome (command : CabinCommand) (o : LineOutcome) (c : Chip) : Chip :=
  match c.seq.job with
  | none => c
  | some j =>
    if swapTaken command o then enterProbation j c
    else if j.stopAtBoundary then finishStop j c
    else if j.closing then finishCancel j c
    else if j.cancelAtBoundary then jobBoundary (noteCompleted j command o c)
    else plainOutcome j command o c

/-- R153. The pause ends. -/
def jobPauseEnd (c : Chip) : Chip :=
  match c.seq.job with
  | some j => if due c j.pausingUntil then updateJob (fun j => { j with pausingUntil := none }) c else c
  | none => c

end Sys2Proof.Machine
end

