-- ==== Sys2Proof/Machine/Probation.lean ====
section
/-!
DEFINITION. Probation (R157 to R163): its schedule, the judging of a Health record, and its ends.
-/
namespace Sys2Proof.Machine

/-! ## Records -/

def findProbation (c : Chip) (address : Nat) : Option ProbationRecord := c.seq.probations.find? (fun p => p.address == address)

def updateProbation (address : Nat) (f : ProbationRecord → ProbationRecord) (c : Chip) : Chip :=
  { c with seq.probations := c.seq.probations.map (fun p => if p.address = address then f p else p) }

/-- R158. The end of the probation length. -/
def ProbationRecord.finish (p : ProbationRecord) : Nat := p.swapTime + p.length

/-- R157. A probation ends: its waiting request is withdrawn, and the outcome of one already begun is discarded. -/
def dropProbation (address : Nat) (c : Chip) : Chip :=
  let c := discardLine .probation address (withdrawLine .probation address c)
  { c with seq.probations := c.seq.probations.filter (fun p => p.address != address) }

/-- R131. The rate class of the unit at the address. -/
def unitRate (c : Chip) (address : Nat) : Nat :=
  match findUnit c address with
  | some u => u.identity.rate
  | none => 100000

/-- R139. The version of the entry's target image. -/
def targetVersion (c : Chip) (address : Nat) : Nat :=
  match (findUnit c address).bind (fun u => u.target) with
  | some t => t.image.version
  | none => 0

/-! ## Presenting (R158) -/

/-- The request of a probation. -/
def probationRequest (c : Chip) (address : Nat) (k : ProbationRequest) : LineRequest :=
  match k with
  | .poll => healthRequest c .probation address (unitRate c address)
  | .finalRead => healthRequest c .probation address (unitRate c address)
  | .keep => bareRequest c .probation .keep address (unitRate c address)
  | .revert => bareRequest c .probation .revert address (unitRate c address)
  | .confirm => identifyRequest c .probation address (unitRate c address)

/-- R158. A request of the probation is presented. -/
def presentProbation (address : Nat) (k : ProbationRequest) (c : Chip) : Chip :=
  presentLine (probationRequest c address k) (updateProbation address (fun p => { p with inHand := some k, repeatDue := none }) c)

/-- R158. Polls go on: the phase is POLLING and no Revert has been called for. -/
def polls (p : ProbationRecord) : Bool := p.phase == .polling && p.revertReason.isNone

/-- R158. A next-poll time is reached: a Health request is presented, or, while a request is in hand, the next poll becomes that request's end plus
10,000 ms. -/
def pollDue (address : Nat) (c : Chip) : Chip :=
  match findProbation c address with
  | none => c
  | some p =>
    match p.nextPoll with
    | none => c
    | some t =>
      if !reached c t || !polls p || decide (p.finish ≤ t) then c
      else if p.inHand.isSome then updateProbation address (fun p => { p with nextPoll := none }) c
      else presentProbation address .poll (updateProbation address (fun p => { p with nextPoll := some (t + 10000) }) c)

/-- R158. Swap time plus probation length is reached: FINAL, and the final read is presented, unless a request is in hand or a Revert is called for. -/
def finalDue (address : Nat) (c : Chip) : Chip :=
  match findProbation c address with
  | none => c
  | some p =>
    if p.phase ≠ .polling || !reached c p.finish then c
    else
      let c := updateProbation address (fun p => { p with phase := .final }) c
      if p.inHand.isSome || p.repeatDue.isSome || p.revertReason.isSome then c else presentProbation address .finalRead c

/-- R158, R160. The 10,000 ms before a repeated request have passed. -/
def repeatDue (address : Nat) (c : Chip) : Chip :=
  match findProbation c address with
  | none => c
  | some p =>
    match p.repeatDue with
    | some (t, k) => if reached c t && p.inHand.isNone then presentProbation address k c else c
    | none => c

/-- R158. A poll has ended and polling goes on: a next poll still to be set is set from now, and a FINAL phase brings the final read at once. -/
def afterPoll (address : Nat) (c : Chip) : Chip :=
  match findProbation c address with
  | none => c
  | some p =>
    if p.phase = .final then presentProbation address .finalRead c
    else updateProbation address (fun p => { p with nextPoll := some (p.nextPoll.getD (c.now + 10000)) }) c

/-- R158. A later request of the record, 10,000 ms after the end of the one before it. -/
def repeatLater (address : Nat) (k : ProbationRequest) (c : Chip) : Chip :=
  updateProbation address (fun p => { p with repeatDue := some (c.now + 10000, k) }) c

/-! ## Ends (R159 to R162) -/

/-- R159, R162. The probation ends in ROLLED_BACK. -/
def endRolledBack (address reason : Nat) (c : Chip) : Chip :=
  selectUnit address
    (report .unitRolledBack (.number address) reason
      (recordLast address .rolledBack (setUnitState address .rolledBack (dropProbation address c))))

/-- R161. The entry enters DONE. -/
def endDone (address : Nat) (c : Chip) : Chip :=
  selectUnit address
    (report .unitDone (.number address) (targetVersion c address)
      (recordLast address .done (setUnitState address .done (dropProbation address c))))

/-- R160. The probation ends in UNREACHABLE. -/
def endUnreachable (address : Nat) (c : Chip) : Chip :=
  selectUnit address
    (report .unitUnreachable (.number address) 0
      (recordLast address .unreachable (setUnitState address .unreachable (dropProbation address c))))

/-- R161. A version recorded for a bank. -/
def recordVersion (k : Bank) (v : Nat) (r : Identity) : Identity :=
  match k with
  | .a => { r with active := .a, versionA := v }
  | .b => { r with active := .b, versionB := v }

/-- R161. DONE without an answer to the confirming Identify: the new bank is recorded as active with the target version, and the census becomes owed. -/
def endConfirmed (address : Nat) (new : Bank) (c : Chip) : Chip :=
  let v := targetVersion c address
  endDone address
    { updateUnit address (fun u => { u with identity := recordVersion new v u.identity }) c with census.owed := true }

/-- R136, R159. The entry's active bank field. -/
def setActive (address : Nat) (k : Bank) (c : Chip) : Chip :=
  updateUnit address (fun u => { u with identity := { u.identity with active := k } }) c

/-! ## Judging (R159) -/

/-- R159. What the table makes of a Health record. -/
inductive HealthVerdict where
  | rolledBack (reason : Nat)
  | revert (reason : Nat)
  | continuePolling
  | keep
  | confirm
  | unaccepted
  deriving DecidableEq, Repr

/-- R159. The table, for a record read with the unit's old bank `old`; `final` is the column. -/
def judgeHealth (old : Bank) (final : Bool) (h : Health) : HealthVerdict :=
  if h.running = old then
    if h.trial then .unaccepted else if h.fallback then .rolledBack 1 else .rolledBack 2
  else if h.selfTest = 2 then .revert 3
  else if h.trial then
    if h.fallback then .unaccepted
    else if h.selfTest = 0 then (if final then .revert 4 else .continuePolling)
    else if final then .keep
    else .continuePolling
  else if h.selfTest = 1 then (if final then .confirm else .continuePolling)
  else if final then .revert 4
  else .continuePolling

/-- R160. What follows an unanswered request that does not end the probation. -/
def afterUnanswered (address : Nat) (k : ProbationRequest) (c : Chip) : Chip :=
  match k with
  | .poll => afterPoll address c
  | .finalRead => repeatLater address .finalRead c
  | .keep => repeatLater address .finalRead c
  | .confirm => repeatLater address .finalRead c
  | .revert => repeatLater address .revert c

/-- R160. An unanswered request: the third ends the probation, in DONE where the trial is confirmed and no Revert has been called for since. -/
def unansweredRequest (p : ProbationRecord) (k : ProbationRequest) (c : Chip) : Chip :=
  let c := updateProbation p.address (fun p => { p with unanswered := p.unanswered + 1 }) c
  if p.unanswered + 1 < 3 then afterUnanswered p.address k c
  else if p.confirmed && p.revertReason.isNone then endConfirmed p.address p.newBank c
  else endUnreachable p.address c

/-- R159. A judged Health record takes effect. -/
def actOnVerdict (p : ProbationRecord) (v : HealthVerdict) (c : Chip) : Chip :=
  match v with
  | .rolledBack reason => endRolledBack p.address reason c
  | .revert reason => presentProbation p.address .revert (updateProbation p.address (fun p => { p with revertReason := some reason }) c)
  | .continuePolling => afterPoll p.address c
  | .keep => presentProbation p.address .keep c
  | .confirm => presentProbation p.address .confirm (updateProbation p.address (fun p => { p with confirmed := true }) c)
  | .unaccepted => c

/-- R159. A Health request of the probation has completed with these bytes. -/
def healthDone (p : ProbationRecord) (k : ProbationRequest) (bytes : List Byte) (c : Chip) : Chip :=
  match healthOf bytes with
  | none => unansweredRequest p k c
  | some h =>
    let v := judgeHealth p.oldBank (k == .finalRead) h
    if v = .unaccepted then unansweredRequest p k c
    else actOnVerdict p v (setActive p.address h.running (updateProbation p.address (fun p => { p with unanswered := 0 }) c))

/-- R161. The confirming Identify has completed with these bytes. -/
def confirmDone (p : ProbationRecord) (bytes : List Byte) (c : Chip) : Chip :=
  match usableIdentity bytes with
  | none => unansweredRequest p .confirm c
  | some r => endDone p.address (takeIdentity p.address r c)

/-- R158 to R162. A request of the probation has completed with these bytes. -/
def probationDone (p : ProbationRecord) (k : ProbationRequest) (bytes : List Byte) (c : Chip) : Chip :=
  match k with
  | .poll => healthDone p .poll bytes c
  | .finalRead => healthDone p .finalRead bytes c
  | .keep => presentProbation p.address .confirm (updateProbation p.address (fun p => { p with confirmed := true }) c)
  | .confirm => confirmDone p bytes c
  | .revert => endRolledBack p.address (p.revertReason.getD 0) (setActive p.address p.oldBank c)

/-- R158 to R162. The outcome of the probation request in hand of the unit at an address. -/
def probationOutcome (address : Nat) (o : LineOutcome) (c : Chip) : Chip :=
  match findProbation c address with
  | none => c
  | some p =>
    match p.inHand with
    | none => c
    | some k =>
      let c := updateProbation address (fun p => { p with inHand := none }) c
      match o with
      | .completed bytes => probationDone p k bytes c
      | .absent => unansweredRequest p k c
      | .refused => unansweredRequest p k c
      | .contended => unansweredRequest p k c
      | .lineFault => unansweredRequest p k c
      | .holdTimeout => unansweredRequest p k c

end Sys2Proof.Machine
end

