-- ==== Sys2Proof/Machine/Plans.lean ====
section
/-!
DEFINITION. The Plan Store and catalog admission (R1 to R13): adoption, the plan copy of slot 1, asking and answering, and which images have records.
-/
namespace Sys2Proof.Machine

/-! ## The local port client's queue (R105, R185) -/

/-- R185. A user of the local port client asks for an operation; the users are served in the order in which they asked. -/
def pushPort (op : StoreOp) (owner : Option Owner) (c : Chip) : Chip :=
  { c with store.portQueue := c.store.portQueue ++ [{ op := op, owner := owner }] }

/-! ## The plan copy (R8) -/

/-- R8. The number of pieces of 128 bytes of a body. -/
def planPieces (body : List Byte) : Nat := (body.length + 127) / 128

/-- R8. Piece `i` of a body. -/
def planPiece (body : List Byte) (i : Nat) : List Byte := slice body (128 * i) 128

/-- R8. The program of a piece at a copy position is presented. -/
def presentPiece (body : List Byte) (position i : Nat) (c : Chip) : Chip :=
  pushPort (.planProgram position i (planPiece body i)) none
    { c with plans.persist := .writing body position i false }

/-- R8. The held body is persisted: into the next position, or after an erase of slot 1 when no position is left. -/
def startPersist (c : Chip) : Chip :=
  if c.plans.nextPosition < 16 then presentPiece c.plans.body c.plans.nextPosition 0 c
  else pushPort .planErase none { c with plans.persist := .writing c.plans.body 0 0 true }

/-- R8. Adoption asks for the held body to be persisted; in WRITING, and before R9 has set the next position (log 14), the request is noted. -/
def persistRequest (c : Chip) : Chip :=
  match c.plans.persist with
  | .writing _ _ _ _ => { c with plans.persistNoted := true }
  | .idle => if c.store.scanPhase = .system then { c with plans.persistNoted := true } else startPersist c

/-- R8. A write has ended: a request noted meanwhile persists the held body at once when its serial differs from the one of the write. -/
def persistEnded (written : Nat) (c : Chip) : Chip :=
  let noted := c.plans.persistNoted
  let c := { c with plans.persist := .idle, plans.persistNoted := false }
  if noted && heldSerial c != written then startPersist c else c

/-- R8. A piece has been programmed; after the last the next position advances by one. -/
def pieceProgrammed (c : Chip) : Chip :=
  match c.plans.persist with
  | .writing body position i false =>
    if i + 1 < planPieces body then presentPiece body position (i + 1) c
    else persistEnded (planSerial body) { c with plans.nextPosition := position + 1 }
  | _ => c

/-- R8. The erase of slot 1 has completed: position 0 is programmed. -/
def copyErased (c : Chip) : Chip :=
  match c.plans.persist with
  | .writing body position _ true => presentPiece body position 0 c
  | _ => c

/-- R8. A program (detail 1) or the erase (detail 3) has failed: the write ends with STORE_ERROR, and the next position is 16. -/
def copyFailed (detail : Nat) (c : Chip) : Chip :=
  match c.plans.persist with
  | .writing body _ _ _ => persistEnded (planSerial body) (report .storeError (.number 1) detail { c with plans.nextPosition := 16 })
  | .idle => c

/-! ## Removal of an image record (R12, R188) -/

/-- R188. The load ends: LOAD_DONE is appended, the load state becomes IDLE, and selection runs again (R186). -/
def endLoad (l : Load) (detail : Nat) (c : Chip) : Chip :=
  askSelection (report .loadDone (.segment l.image l.segment) detail { c with port.load := .idle })

/-- R12. An open fetch of the image is cancelled. -/
def cancelFetchOf (k : ImageKey) (i : Nat) (c : Chip) : Chip :=
  match fetchSlot c i with
  | .opened f => if f.image = k then cancelFetch i f c else c
  | _ => c

/-- R187, R188. A block program or the claim program of the load is pending: presented, and not yet ended. -/
def programPending (l : Load) : Bool := l.pending || !l.claimed

/-- R188. The slot of a load that has ended is released: at once, or once its pending program has ended. That program stays presented, on behalf of the
load, which owns the slot until then. -/
def releaseLoadSlot (l : Load) (c : Chip) : Chip := if programPending l then awaitEnd l.slot c else release l.slot c

/-- R186, R188. An OPEN load of the image ends at once, with detail 3. -/
def dropLoadOf (k : ImageKey) (c : Chip) : Chip :=
  match c.port.load with
  | .opened l => if l.image = k then endLoad l 3 (releaseLoadSlot l c) else c
  | _ => c

/-- The store slots of a record's HELD segments, in segment order. -/
def heldSlots (r : ImageRecord) : List Nat :=
  r.entries.filterMap (fun e => match e.state with | .held slot => some slot | _ => none)

/-- R12. A record that does not survive is removed, with all that goes with it. Its store slots are released in the order of log 23: cancelled fetches, HELD
segments, and last the slot of an OPEN load, unless a program of it is pending. -/
def removeRecord (r : ImageRecord) (c : Chip) : Chip :=
  let k := r.image
  let c := forEach [0, 1, 2, 3] (cancelFetchOf k) c
  let c :=
    { c with store.checkQueue := c.store.checkQueue.map (fun q => if q.image = k then { q with orphan := true } else q) }
  let c := forEach (heldSlots r) release (endServes (fun e => e.image == k) c)
  let c := { c with peers := c.peers.map (setRangeList k []) }
  askSelection (dropLoadOf k { c with catalog.records := c.catalog.records.filter (fun x => x.image != k) })

/-! ## Admission (R11, R13) -/

/-- R11. A candidate of an admission run: its place in the plan, its live entry and its need class. -/
structure Admitted where
  index : Nat
  entry : PlanEntry
  need : NeedClass
  deriving DecidableEq, Repr

/-- R11. The image is OWN. -/
def isOwn (c : Chip) (e : PlanEntry) : Bool := c.role == .origin || c.seq.units.any (fun u => u.identity.model == e.model)

/-- R11. An image that is not OWN may be carried as a courier. -/
def isCourier (c : Chip) (e : PlanEntry) : Bool :=
  !isOwn c e && !e.priv && (match c.port.config with | some r => r.courier | none => false)

/-- R11. The candidates in the order of the two passes. -/
def admissionOrder (c : Chip) : List Admitted :=
  ((liveEntries c).filter (fun x => isOwn c x.2)).map (fun x => { index := x.1, entry := x.2, need := .own }) ++
    ((liveEntries c).filter (fun x => isCourier c x.2)).map (fun x => { index := x.1, entry := x.2, need := .courier })

/-- R13. At start a bus station takes every image named by a live entry, in entry order, as OWN for the time being. -/
def startOrder (c : Chip) : List Admitted := (liveEntries c).map (fun x => { index := x.1, entry := x.2, need := .own })

/-- R11. The first 12 of the passes, put into the record order, which is the entry order of the plan. -/
def admittedSet (live : List (Nat × PlanEntry)) (order : List Admitted) : List Admitted :=
  live.filterMap (fun x => (order.take 12).find? (fun a => a.index == x.1))

/-- R12. The record survives beside the admitted image: the same manifest CRC and model, and not newly private. -/
def survives (r : ImageRecord) (a : Admitted) : Bool :=
  r.image == a.entry.image && r.manifestCrc == a.entry.crc && r.model == a.entry.model && !(!r.priv && a.entry.priv)

/-- R12. A new record. -/
def newRecord (a : Admitted) : ImageRecord :=
  { image := a.entry.image, need := a.need, priv := a.entry.priv, manifestCrc := a.entry.crc, model := a.entry.model, state := .needsManifest,
    manifest := none, entries := [{ state := .absent, holders := 0 }], spanCursor := 0 }

/-- R12. An admitted image's record: the surviving one with its class and flag updated, or a new one. -/
def recordFor (records : List ImageRecord) (a : Admitted) : ImageRecord :=
  match records.find? (fun r => survives r a) with
  | some r => { r with need := a.need, priv := a.entry.priv }
  | none => newRecord a

/-- R12. The admitted set takes effect: records that do not survive are removed, and the others stand in record order with new ones among them. -/
def applyAdmission (admitted : List Admitted) (c : Chip) : Chip :=
  let gone := c.catalog.records.filter (fun r => !admitted.any (survives r))
  let c := forEach gone removeRecord c
  askSelection { c with catalog.records := admitted.map (recordFor c.catalog.records) }

/-- R11. CATALOG_FULL, once for a run, with the number left out. -/
def reportFull (order : List Admitted) (c : Chip) : Chip :=
  if 12 < order.length then report .catalogFull .none (order.length - 12) c else c

/-- R11, R12. An admission run over candidates in the order of the passes; a target image's record may have left COMPLETE (R141). The order of what it
appends is the model's choice (log 61): LOAD_DONE as the record of the load's image is removed, CATALOG_FULL after every removal. -/
def takeIn (order : List Admitted) (c : Chip) : Chip :=
  evaluateWaiting (reportFull order (applyAdmission (admittedSet (liveEntries c) order) c))

/-- R11. The ordinary admission run. -/
def admission (c : Chip) : Chip := takeIn (admissionOrder c) c

/-- R13. The start admission of the role. -/
def startAdmission (c : Chip) : Chip := if c.role = .origin then admission c else takeIn (startOrder c) c

/-! ## Adoption (R4, R5, R10) -/

/-- R5, R139, R155. The Sequencer re-evaluates every unit: deferral reported is cleared, selection runs, and the active job is looked at, in this order
(log 61, the model's choice). -/
def replanUnits (c : Chip) : Chip :=
  replanJob (selectUnits { c with seq.units := c.seq.units.map (fun u => { u with deferralReported := false }) })

/-- R5. Adoption of a body, in the order of the rule. -/
def adoptPlan (body : List Byte) (c : Chip) : Chip :=
  let c := persistRequest { c with plans.body := body }
  let c := replanUnits (admission { c with plans.relayPending := true })
  report .planAdopted (.number (planAuthor body)) (inertCount c) c

/-- R4. A Plan frame is adopted: on a bus station, with its origin flag set, its plan CRC right and its serial greater than the held one. -/
def onPlan (originFlag : Bool) (payload : List Byte) (c : Chip) : Chip :=
  if c.role = .busStation && originFlag then
    match wholePlanBody payload with
    | some body => if heldSerial c < planSerial body then adoptPlan body c else c
    | none => c
  else c

/-! ## Asking and answering (R6, R7) -/

/-- R6. No PlanAsk has been queued within the last 5,000 ms. -/
def planAskFree (c : Chip) : Bool :=
  match c.plans.lastPlanAsk with
  | none => true
  | some t => decide (t + 5000 < c.now)

/-- R6. The comparison of an accepted frame's serial with the held serial. -/
def compareSerial (f : RxFrame) (c : Chip) : Chip :=
  if heldSerial c < f.serial && !f.departing && c.role == .busStation && planAskFree c then
    pushUrgent (.planAsk f.sender) { c with plans.lastPlanAsk := some c.now }
  else c

/-- R7. A PlanAsk naming this station sets relay pending when a plan is held. -/
def onPlanAsk (named : Nat) (c : Chip) : Chip :=
  if named = stationId c && heldSerial c ≠ 0 then { c with plans.relayPending := true } else c

/-! ## Restoring the copy at start (R9) -/

/-- R8. The bytes of copy position `n`. -/
def copyPosition (c : Chip) (n : Nat) : List Byte := Memory.readRange c.store.flash (dataAddress 1 (512 * n)) 512

/-- R8, logs 9 and 10. The program of a piece of a copy, `len` bytes, has failed or was cut off: free bytes where it was working, but never a whole copy,
since the next start restores the previous one. -/
def spoilPlanProgram (position piece len : Nat) (c : Chip) : Chip :=
  let d := spoilProgram (dataAddress 1 (512 * position + 128 * piece)) len c
  if (wholePlanBody (copyPosition d position)).isSome then { d with store.flash := c.store.flash } else d

/-- R8, logs 9 and 10. The erase of slot 1 has failed or was cut off: free bytes, but no whole copy, since a start that comes next then holds serial 0. -/
def spoilPlanErase (c : Chip) : Chip :=
  let d := spoilErase 1 c
  if (List.range 16).any (fun n => (wholePlanBody (copyPosition d n)).isSome) then eraseFlash 1 d else d

/-- R9. The whole copy with the greatest serial; among equals the later position (log 15). -/
def greatestCopy : List (List Byte) → Option (List Byte)
  | [] => none
  | p :: ps =>
    match greatestCopy ps, wholePlanBody p with
    | none, b => b
    | some a, none => some a
    | some a, some b => if planSerial a < planSerial b then some b else some a

/-- R9. One more than the highest-numbered position that is not erased, counting from `i`; 0 when every one is erased. -/
def nextAfterWritten (i : Nat) : List (List Byte) → Nat
  | [] => 0
  | p :: ps =>
    let later := nextAfterWritten (i + 1) ps
    if later ≠ 0 then later else if allErased p then 0 else i + 1

/-- R9. The next position. -/
def restoredPosition (copies : List (List Byte)) : Nat :=
  let next := nextAfterWritten 0 copies
  if (greatestCopy copies).isSome then next else if next = 0 then 0 else 16

/-- R9. PLAN_RESTORED. -/
def reportRestored (copies : List (List Byte)) (c : Chip) : Chip :=
  match greatestCopy copies with
  | some body => report .planRestored (.serial (planSerial body)) 0 c
  | none => report .planRestored .none (if nextAfterWritten 0 copies = 0 then 1 else 2) c

/-- R9. The Plan Store examines the 16 positions: the copy restored is the held body, and without one no plan is held. A restored plan is not relayed: the
mark is clear. A plan adopted before the copy was read gives way to it, with its relay and the persist noted for it (log 14). -/
def restorePlan (c : Chip) : Chip :=
  let copies := (List.range 16).map (copyPosition c)
  reportRestored copies
    { c with
      plans :=
        { c.plans with
          body := (greatestCopy copies).getD [], relayPending := false, nextPosition := restoredPosition copies, persist := .idle,
          persistNoted := false } }

end Sys2Proof.Machine
end

