-- ==== Sys2Proof/Machine/Census.lean ====
section
/-!
DEFINITION. The census (R132 to R135), and the handing of a request's outcome to its client (R119, R126).
-/
namespace Sys2Proof.Machine

/-! ## Surveying (R133) -/

/-- R133. The Identify of the next address is presented, at the 100,000 bit/s class. -/
def presentCensus (c : Chip) : Chip := presentLine (identifyRequest c .census c.census.next 100000) c

/-- R133. A census begins. -/
def startCensus (c : Chip) : Chip :=
  presentCensus { c with census := { c.census with state := .running, next := 1, pauses := 0, holds := 0, results := [] } }

/-- R132. An owed census begins when it may. -/
def censusBegin (c : Chip) : Chip := if censusMayBegin c then startCensus c else c

/-- R135. The census is abandoned, with detail 1 for contention, 2 for a line fault and 3 for departure. -/
def abandonCensus (detail : Nat) (c : Chip) : Chip :=
  report .censusAbandoned (.number c.census.next) detail
    { c with census := { c.census with state := .idle, results := [], lastAbandon := some c.now } }

/-- R135. The departure line is asserted: a census in RUNNING or PAUSED withdraws its request and is abandoned. -/
def departCensus (c : Chip) : Chip :=
  if c.census.state = .idle then c
  else abandonCensus 3 (discardLine .census 0 (withdrawLine .census 0 c))

/-! ## Completion (R134) -/

/-- R134. The new entry of a unit not in the old table. -/
def newUnit (address : Nat) (r : Identity) : UnitEntry :=
  { address := address, identity := r, state := .current, targetIndex := none, target := none, attempts := 0, deferralReported := false,
    deferred := false, changed := false, last := none }

/-- R134. The entry a result gives: the old one of the same unit, refreshed, or a new one. -/
def entryFor (old : List UnitEntry) (x : Nat × Identity) : UnitEntry :=
  match old.find? (fun u => u.address == x.1 && sameUnit u.identity x.2) with
  | some u => { u with identity := x.2, changed := false }
  | none => newUnit x.1 x.2

/-- R134. The old entries in PROBATION whose address gave no record, carried over unchanged. -/
def carriedEntries (old : List UnitEntry) (results : List (Nat × Identity)) : List UnitEntry :=
  old.filter (fun u => u.state == .probation && !results.any (fun x => x.1 == u.address))

/-- An entry in its place in ascending address order. -/
def insertUnit (u : UnitEntry) (us : List UnitEntry) : List UnitEntry :=
  us.filter (fun v => decide (v.address < u.address)) ++ (u :: us.filter (fun v => decide (u.address < v.address)))

/-- R134. The results that enter the new table: while it holds fewer than 24 entries. -/
def enteringResults (old : List UnitEntry) (results : List (Nat × Identity)) : List (Nat × Identity) :=
  results.take (24 - (carriedEntries old results).length)

/-- R134. The results that find the table full. -/
def leftResults (old : List UnitEntry) (results : List (Nat × Identity)) : List (Nat × Identity) :=
  results.drop (24 - (carriedEntries old results).length)

/-- R134. The new table, in ascending address order. -/
def newTable (old : List UnitEntry) (results : List (Nat × Identity)) : List UnitEntry :=
  ((enteringResults old results).map (entryFor old)).foldl (fun us u => insertUnit u us) (carriedEntries old results)

/-- R134, R163. A probation whose entry is not in the new table, or not in PROBATION there, ends with its entry. -/
def endLostProbations (units : List UnitEntry) (c : Chip) : Chip :=
  forEach
    ((c.seq.probations.filter (fun p => !units.any (fun u => u.address == p.address && u.state == .probation))).map (fun p => p.address))
    dropProbation c

/-- R134. CENSUS_OVERFLOW, once for the census. -/
def reportOverflow (l : List (Nat × Identity)) (c : Chip) : Chip :=
  match l with
  | [] => c
  | x :: _ => report .censusOverflow (.number x.1) l.length c

/-- R134, R13. A completed census: CENSUS_OVERFLOW and then CENSUS_DONE (log 61), the new table, admission, and target selection for every entry. -/
def completeCensus (c : Chip) : Chip :=
  let old := c.seq.units
  let results := c.census.results
  let units := newTable old results
  let c := endLostProbations units (reportOverflow (leftResults old results) c)
  let c :=
    { c with
      seq.units := units
      census := { c.census with state := .idle, owed := false, results := [], completedOnce := true } }
  selectUnits (askSelection (admission (report .censusDone .none units.length c)))

/-- R133. The next address is surveyed, or after address 31 the census completes. -/
def surveyNext (c : Chip) : Chip :=
  if c.census.next < 31 then presentCensus { c with census.next := c.census.next + 1, census.holds := 0 }
  else completeCensus { c with census.holds := 0 }

/-- R133. IDENTITY_BAD, with the address as subject. -/
def reportIdentity (detail : Nat) (c : Chip) : Chip := report .identityBad (.number c.census.next) detail c

/-- R133. The census acts on an outcome. -/
def censusOutcome (o : LineOutcome) (c : Chip) : Chip :=
  match o with
  | .completed bytes =>
    match usableIdentity bytes with
    | some r => surveyNext { c with census.results := c.census.results ++ [(c.census.next, r)] }
    | none => surveyNext (reportIdentity 1 c)
  | .absent => surveyNext c
  | .refused => surveyNext (reportIdentity 2 c)
  | .holdTimeout =>
    if c.census.holds < 2 then presentCensus { c with census.holds := c.census.holds + 1 } else surveyNext (reportIdentity 3 c)
  | .contended =>
    let c := { c with census.pauses := c.census.pauses + 1 }
    if c.census.pauses < 4 then { c with census.state := .paused (c.now + 1000) } else abandonCensus 1 c
  | .lineFault => abandonCensus 2 c

/-- R133. The pause of 1,000 ms has passed. -/
def censusPauseEnd (c : Chip) : Chip :=
  match c.census.state with
  | .paused t => if reached c t then presentCensus { c with census.state := .running } else c
  | _ => c

/-! ## Outcomes handed over (R119) -/

/-- R119, R126. The outcome of a request, handed to its client unless it is to be set aside. -/
def deliver (q : CurrentRequest) (o : LineOutcome) (c : Chip) : Chip :=
  if q.discarded then c
  else
    match q.request.client with
    | .census => censusOutcome o c
    | .job => jobOutcome q.request.command o c
    | .probation => probationOutcome q.request.address o c

/-- The current request while its transaction runs. -/
def running (c : Chip) : Option CurrentRequest := if c.line.state = .master then c.line.current else none

/-- R119. A transaction ends at its closing mark. -/
def transactionEnds (nak : Option Nat) (received : List Byte) (c : Chip) : Chip :=
  match running c with
  | none => c
  | some q => deliver q (transactionOutcome q.request nak received) (leaveLine (transactionSteps q.request nak received) c)

/-- R120, R121. Arbitration loss; at the eighth the request ends CONTENDED. -/
def arbitrationLoss (c : Chip) : Chip :=
  match running c with
  | none => c
  | some q => if q.losses + 1 < 8 then loseLine q c else deliver q .contended (loseLine q c)

/-- R122. A line fault. -/
def lineFault (wire : Wire) (c : Chip) : Chip :=
  match running c with
  | none => c
  | some q => deliver q .lineFault (reportLineFault q.request.address wire (abandonLine c))

/-- R123, R124. A hold that has reached the hold limit. -/
def holdTimeout (heldMs : Nat) (c : Chip) : Chip :=
  match running c with
  | none => c
  | some q => if q.request.holdLimit ≤ heldMs then deliver q .holdTimeout (recoverLine c) else c

/-- R124. The clock wire reads high in RECOVERING: the closing mark is made, and the line state becomes QUIET, now or as soon as the data wire is free. -/
def recovered (c : Chip) : Chip := if c.line.state = .recovering then closeRecovery (setWires true c.pins.data c) else c

end Sys2Proof.Machine
end

