-- ==== Sys2Proof/Machine/Access.lean ====
section
/-!
DEFINITION. The Yard Link Port (R76 to R95): routing of received frames, channel access, the transmitter's choice, the allowance and the offer round.
-/
namespace Sys2Proof.Machine

/-! ## Receiving (R78 to R80) -/

/-- R79, R80. A delivered frame of the kind of its row: dropped unless the port is ON and the checks pass, then presence, owner and serial in turn. A frame
whose bytes name another kind than its row is dropped (log 6). An Ask's serial too is compared after the Serve Engine has had it, as R6 and R80 say and
R64 does not (log 51). -/
def receive (kind : FrameKind) (owner : RxFrame → Chip → Chip) (frame : List Byte) (c : Chip) : Chip :=
  if c.yard.mode ≠ .on then c
  else
    match acceptFrame (stationId c) frame with
    | none => c
    | some f => if f.kind = kind then compareSerial f (owner f (presence f c)) else c

/-! ## Building frames (R77, R193) -/

/-- R77. A frame with its header as filled at the moment transmission begins. -/
def buildFrame (c : Chip) (kind : FrameKind) (payload : List Byte) : List Byte :=
  frameBytes kind (c.role == .origin || kind == .plan) (kind == .leave) (stationId c) (heldSerial c) payload

/-- R69, R193. The frame kind of a short reply. -/
def ReplyKind.frameKind : ReplyKind → FrameKind
  | .lacking => .lacking
  | .busy => .busy
  | .refused => .refused

/-- R77, R85. An urgent frame as built; a Beacon takes the yard time as its transmission begins. -/
def urgentBytes (c : Chip) : UrgentFrame → List Byte
  | .reply kind asker image segment => buildFrame c kind.frameKind (putReply asker image segment)
  | .planAsk station => buildFrame c .planAsk (put16 station)
  | .beacon depth => buildFrame c .beacon (put32 (yardNow c).toNat ++ put8 depth)
  | .leave => buildFrame c .leave []

/-- R84. The source of an urgent frame: only a Leave's end is told. -/
def urgentSource : UrgentFrame → TxSource
  | .leave => .leave
  | _ => .untold

/-! ## The allowance (R88, R89) -/

/-- R89. A scheduled frame of `len` bytes fits the current window. -/
def fits (c : Chip) (len : Nat) : Bool := decide (c.yard.airtimeUsed + airtime len ≤ c.yard.allowance * 1000)

/-- R88. A for P stations heard. -/
def allowanceFor (p : Nat) : Nat := max 40 (2000 / (p + 2))

/-- R88. A new allowance window opens. -/
def openWindow (c : Chip) : Chip :=
  if reached c (c.yard.windowOpen + 1000) then
    { c with yard := { c.yard with windowOpen := c.yard.windowOpen + 1000, allowance := allowanceFor (peersHeard c), airtimeUsed := 0 } }
  else c

/-- The lengths of scheduled frames (R193): an Ask, a Block, and by their counts a Plan and an Offer. -/
def askLength : Nat := 23

def blockLength : Nat := 150

def planLength (body : List Byte) : Nat := 12 + body.length

def offerLength (o : OfferBody) : Nat := 21 + 4 * o.ranges.length

/-! ## Eligibility (R81, R87) -/

/-- R87. The Ask source has a frame that fits. -/
def askEligible (c : Chip) : Bool := !c.fetch.asks.isEmpty && fits c askLength

/-- R72, R87. The Serve Engine offers a Block that fits. -/
def blockEligible (c : Chip) : Bool := (nextReady c).isSome && fits c blockLength

/-- R1, R87. A Plan relay is pending and fits. -/
def planEligible (c : Chip) : Bool := c.plans.relayPending && !c.plans.body.isEmpty && fits c (planLength c.plans.body)

/-- R87. The round Offer is unsent and fits. -/
def offerEligible (c : Chip) : Bool :=
  match c.yard.roundOffer with
  | some o => fits c (offerLength o)
  | none => false

/-- R78, R81. A frame is eligible. -/
def eligibleFrame (c : Chip) : Bool :=
  match c.yard.mode with
  | .off => false
  | .departed => !c.yard.urgent.isEmpty
  | .on => !c.yard.urgent.isEmpty || askEligible c || blockEligible c || planEligible c || offerEligible c

/-! ## The transmit opportunity (R83) -/

/-- R83. The frame is handed to the transceiver: SENDING. -/
def sendFrame (source : TxSource) (bytes : List Byte) (c : Chip) : Chip :=
  { c with yard := { c.yard with phase := .sending, onAir := some { source := source, bytes := bytes } } }

/-- R89. A scheduled frame is taken: its whole airtime is charged. -/
def sendScheduled (source : TxSource) (bytes : List Byte) (c : Chip) : Chip :=
  sendFrame source bytes { c with yard.airtimeUsed := c.yard.airtimeUsed + airtime bytes.length }

/-- R48. The Ask of fetch slot `i` with the mask fixed as it is built; none when no block is missing. -/
def takeAsk (i : Nat) (c : Chip) : Option Chip :=
  match fetchSlot c i with
  | .opened f =>
    let mask := missingMask c i f
    if mask = 0#16 then none
    else
      some
        (sendScheduled (.ask i f.image f.segment f.peer f.base mask)
          (buildFrame c .ask (putAsk f.peer f.image f.segment f.base mask)) (withdrawAsk i c))
  | _ => none

/-- R72. The Block of the READY serve slot in turn; the slot enters SENDING and the send rotation mark names it. -/
def takeBlock (n : Nat) (c : Chip) : Chip :=
  match serveSlot c (n - 1) with
  | .ready e p bytes =>
    let b : BlockBody :=
      { asker := e.asker, image := e.image, segment := e.segment, index := e.base + p, lastOfAsk := e.mask == 0#16, data := bytes }
    let c' := setServeSlot (n - 1) (.sending e) c
    sendScheduled (.block (n - 1) e.asker e.image e.segment) (buildFrame c .block (putBlock b)) { c' with serve.sendMark := n }
  | _ => c

/-- R87. The scheduled sources after the Asks, in order; when none has a frame that fits, nothing is sent and the procedure returns to IDLE. -/
def takeLater (c : Chip) : Chip :=
  match nextReady c, c.yard.roundOffer with
  | some n, _ =>
    if fits c blockLength then takeBlock n c
    else takeOther c
  | none, _ => takeOther c
where
  /-- R87. The Plan relay, then the round Offer. -/
  takeOther (c : Chip) : Chip :=
    if planEligible c then sendScheduled (.plan (heldSerial c)) (buildFrame c .plan c.plans.body) c
    else
      match c.yard.roundOffer with
      | some o => if fits c (offerLength o) then sendScheduled (.offer o) (buildFrame c .offer (putOffer o)) c else { c with yard.phase := .idle }
      | none => { c with yard.phase := .idle }

/-- R83, R87. The waiting Asks in order; one with no block missing is withdrawn and the next is looked at. -/
def takeAsks : List Nat → Chip → Chip
  | [], c => takeLater c
  | i :: is, c =>
    if !fits c askLength then takeLater c
    else
      match takeAsk i c with
      | some c' => c'
      | none => takeAsks is (withdrawAsk i c)

/-- R83. A transmit opportunity: the oldest urgent frame, otherwise the first scheduled frame that fits. -/
def opportunity (c : Chip) : Chip :=
  match c.yard.urgent with
  | f :: rest => sendFrame (urgentSource f) (urgentBytes c f) { c with yard.urgent := rest }
  | [] => if c.yard.mode = .on then takeAsks c.fetch.asks c else { c with yard.phase := .idle }

/-! ## Channel access (R81, R82) -/

/-- R81. DEFER: the quiet slot begins now, or when channel-busy next falls. -/
def enterDefer (c : Chip) : Chip := { c with yard.phase := .defer (if c.pins.channelBusy then none else some c.now) }

/-- R81. The procedure leaves IDLE when a frame is eligible. -/
def accessWake (c : Chip) : Chip :=
  if c.yard.phase = .idle && eligibleFrame c then
    match c.yard.lastEnd with
    | some t => if reached c (t + 5) then enterDefer c else { c with yard.phase := .gap }
    | none => enterDefer c
  else c

/-- R81. 5 ms have passed since the end of the last transmission. -/
def gapElapsed (c : Chip) : Chip :=
  if c.yard.phase = .gap && due c (c.yard.lastEnd.map (fun t => t + 5)) then enterDefer c else c

/-- R81. A count is drawn from 0 to CW − 1 (log 11). -/
def drawCount (c : Chip) : Nat := Config.freeDraw c.freeCount % c.yard.cw

/-- R81. A whole quiet slot has passed in DEFER: a count of 0 makes an opportunity at once, any other enters COUNTDOWN. -/
def deferElapsed (c : Chip) : Chip :=
  match c.yard.phase with
  | .defer (some s) =>
    if !reached c (s + 2) || c.pins.channelBusy then c
    else
      let n := drawCount c
      let c := { c with freeCount := c.freeCount + 1 }
      if n = 0 then opportunity c else { c with yard.phase := .countdown n (s + 2) }
  | _ => c

/-- R81. A quiet slot has passed in COUNTDOWN. -/
def countdownElapsed (c : Chip) : Chip :=
  match c.yard.phase with
  | .countdown n s =>
    if !reached c (s + 2) || c.pins.channelBusy then c
    else if n ≤ 1 then opportunity c
    else { c with yard.phase := .countdown (n - 1) (s + 2) }
  | _ => c

/-- R81, R82. Channel-busy rises: DEFER's slot begins again later; a countdown is interrupted and CW doubles up to 64. -/
def busyRise (c : Chip) : Chip :=
  let c := { c with pins.channelBusy := true }
  match c.yard.phase with
  | .defer _ => { c with yard.phase := .defer none }
  | .countdown _ _ => { c with yard := { c.yard with phase := .defer none, cw := min 64 (c.yard.cw * 2) } }
  | _ => c

/-- R81. Channel-busy falls: DEFER's 2 ms begin. -/
def busyFall (c : Chip) : Chip :=
  let c := { c with pins.channelBusy := false }
  match c.yard.phase with
  | .defer none => { c with yard.phase := .defer (some c.now) }
  | _ => c

/-- R84. The block whose frame was on the air is told, and acts when it still holds what was sent. -/
def tellSource (s : TxSource) (c : Chip) : Chip :=
  match s with
  | .ask i k seg peer base mask => askSent i k seg peer base mask c
  | .block i asker k seg => blockSent i asker k seg c
  | .plan serial => if heldSerial c = serial then { c with plans.relayPending := false } else c
  | .offer o => if c.yard.roundOffer = some o then { c with yard.roundOffer := none } else c
  | .leave => { c with departure.leaveCount := c.departure.leaveCount + 1 }
  | .untold => c

/-- R81, R84. The end of a transmission. -/
def transmissionEnds (c : Chip) : Chip :=
  match c.yard.onAir with
  | none => c
  | some a =>
    tellSource a.source
      { c with yard := { c.yard with phase := .idle, cw := 8, lastEnd := some c.now, onAir := none } }

/-! ## The offer round and the modes (R78, R90, R93, R94) -/

/-- R84, R90. An Offer on the air is no longer the round's once another is built. -/
def spendOnAir (c : Chip) : Chip :=
  { c with
    yard.onAir := c.yard.onAir.map (fun a => match a.source with | .offer _ => { a with source := .untold } | _ => a) }

/-- R90. The offer round timer is started. -/
def startRound (c : Chip) : Chip := { c with yard.offerRound := some (c.now + 2000) }

/-- R90. The offer round timer expires: the next expiry is set 2,000 ms later and the catalog builds the round's Offer. -/
def roundExpires (c : Chip) : Chip :=
  match c.yard.offerRound with
  | some t =>
    if reached c t && c.yard.mode = .on then buildRoundOffer (spendOnAir { c with yard.offerRound := some (t + 2000) }) else c
  | none => c

/-- R93. The port enters DEPARTED. -/
def portDeparted (c : Chip) : Chip :=
  spendOnAir { c with yard := { c.yard with mode := .departed, urgent := [], roundOffer := none, offerRound := none } }

/-- R94. The port returns to ON: Leaves in the lane are removed, CW becomes 8, and the offer round timer starts once the scan is complete (R90). -/
def portReturned (c : Chip) : Chip :=
  let c := { c with yard := { c.yard with mode := .on, urgent := c.yard.urgent.filter (fun f => f != .leave), cw := 8 } }
  if c.store.scanPhase = .done then startRound c else c

end Sys2Proof.Machine
end

