-- ==== Sys2Proof/Machine/Times.lean ====
section
/-!
DEFINITION. The Yard Clock (R164 to R168) and the Departure Monitor's line (R175 to R178).
-/
namespace Sys2Proof.Machine

/-! ## The Yard Clock -/

/-- R166. A pair of depth and station id is better: a lower depth, or an equal depth and a lower station id. -/
def betterPair (depth station depth' station' : Nat) : Bool := decide (depth < depth') || (depth == depth' && decide (station < station'))

/-- R166. A record whose Beacon lies within the last 15,000 ms has a better pair. -/
def heardBetter (c : Chip) (depth sender : Nat) : Bool :=
  c.peers.any
    (fun p =>
      match p.beacon with
      | some b => decide (c.now ≤ b.time + 15000) && betterPair b.depth p.id depth sender
      | none => false)

/-- R166. CLOCK_SYNCED, or CLOCK_STEP for a change of more than 1,000 ms, by the clock state before the adoption. -/
def reportAdoption (before : ClockState) (sender depth : Nat) (change : Int) (c : Chip) : Chip :=
  match before with
  | .unsynced => report .clockSynced (.number sender) depth c
  | _ => if 1000 < change.natAbs then report .clockStep (.number sender) (if 0 < change then 1 else 2) c else c

/-- R167. A relay Beacon of depth d + 1, at most once per 5,000 ms. -/
def relayBeacon (depth : Nat) (c : Chip) : Chip :=
  if depth < 3 && (match c.clock.lastRelay with | none => true | some t => reached c (t + 5000)) then
    pushUrgent (.beacon (depth + 1)) { c with clock.lastRelay := some c.now }
  else c

/-- R166. A Beacon is adopted. -/
def adoptBeacon (sender depth : Nat) (time : Word32) (c : Chip) : Chip :=
  let before := c.clock.state
  let change := yardDiff time (yardNow c)
  let c :=
    { c with
      clock :=
        { c.clock with
          state := .synced
          offset := time - BitVec.ofNat 32 c.now
          source := some sender
          depth := some depth
          lastAdoption := some c.now } }
  let c := reportAdoption before sender depth change c
  relayBeacon depth (if change ≠ 0 || before = .unsynced then evaluateWaiting c else c)

/-- R36, R166. An accepted Beacon: recorded against its sender, and adopted by a bus station when no better pair has been heard. One that carries the
departing flag is passed over; what an earlier Beacon has left in the sender's record stands (log 62, the model's choice). -/
def onBeacon (f : RxFrame) (c : Chip) : Chip :=
  if f.departing then c
  else
    let depth := byteAt f.payload 4
    let c := recordBeacon f.sender depth c
    if c.role = .origin || heardBetter c depth f.sender then c else adoptBeacon f.sender depth (BitVec.ofNat 32 (be32 f.payload 0)) c

/-- R165. The origin's beacon timer expires. -/
def beaconExpires (c : Chip) : Chip :=
  match c.clock.beaconTimer with
  | some t => if reached c t then pushUrgent (.beacon 0) { c with clock.beaconTimer := some (t + 5000) } else c
  | none => c

/-- R168. 60,000 ms have passed since the last adoption. -/
def freeRun (c : Chip) : Chip :=
  if c.clock.state = .synced && due c (c.clock.lastAdoption.map (fun t => t + 60000)) then
    report .clockFreeRunning (.number (c.clock.source.getD 0)) 0 { c with clock.state := .freeRunning }
  else c

/-- R141. The not-before time of the entry's target has been reached. -/
def notBeforePassed (c : Chip) (u : UnitEntry) : Bool :=
  match (targetEntry c u).bind (fun e => e.notBefore) with
  | some t => !yardEarlier (yardNow c) t
  | none => false

/-- R141. Yard time reaches the not-before time of an entry's target. -/
def notBeforeReached (address : Nat) (c : Chip) : Chip :=
  match findUnit c address with
  | some u => if notBeforePassed c u then updateUnit address (evaluateEntry c) c else c
  | none => c

/-! ## The departure line -/

/-- R175. The Monitor follows its line. -/
def followsLine (c : Chip) : Bool := configured c && c.role == .busStation

/-- R175. The line changes level: the 100 ms of a level not yet taken begin. -/
def lineEdge (asserted : Bool) (c : Chip) : Chip :=
  if c.pins.departure = asserted then c
  else
    let c := { c with pins.departure := asserted }
    if !followsLine c then c
    else { c with departure.edgeAt := if asserted = c.departure.levelTaken then none else some c.now }

/-- R176. What DEPARTED does to every block; the order of the reports is that of log 61. -/
def departBlocks (c : Chip) : Chip :=
  let c :=
    portDeparted
      { c with departure := { c.departure with departed := true, levelTaken := true, edgeAt := none, leaveCount := 0, leavesQueued := 0, nextLeave := none } }
  let c := suspendServing (departFetches c)
  departCensus (stopFlashing { c with plans.relayPending := false })

/-- R177. A Leave is queued, and the next is set 200 ms later until three have been queued. -/
def queueLeave (c : Chip) : Chip :=
  let n := c.departure.leavesQueued + 1
  pushUrgent .leave
    { c with
      departure := { c.departure with leavesQueued := n, nextLeave := if n < 3 then some (c.departure.nextLeave.getD c.now + 200) else none } }

/-- R176, R177. An asserted level held for 100 ms is taken. -/
def lineAsserted (c : Chip) : Chip :=
  if followsLine c && !c.departure.departed && c.pins.departure && due c (c.departure.edgeAt.map (fun t => t + 100)) then
    queueLeave (report .departed .none 0 (departBlocks c))
  else c

/-- R175. At start the line is read when the configuration has been found whole; no Leave is queued. -/
def readLineAtStart (c : Chip) : Chip :=
  if c.role = .busStation && c.pins.departure then report .departed .none 1 (departBlocks c) else c

/-- R177. 200 ms have passed since a Leave was queued. -/
def leaveExpires (c : Chip) : Chip := if c.departure.departed && due c c.departure.nextLeave then queueLeave c else c

/-- R35. The Peer Table is emptied. -/
def emptyPeers (c : Chip) : Chip := askSelection (recount { c with peers := [] })

/-- R178. A released level held for 100 ms is taken: PRESENT. -/
def lineReleased (c : Chip) : Chip :=
  if followsLine c && c.departure.departed && !c.pins.departure && due c (c.departure.edgeAt.map (fun t => t + 100)) then
    let c :=
      { c with
        departure := { c.departure with departed := false, levelTaken := false, edgeAt := none, deadline := none, leavesQueued := 0, nextLeave := none } }
    report .returned .none c.departure.leaveCount (noticeChanged (emptyPeers (portReturned c)))
  else c

end Sys2Proof.Machine
end

