-- ==== Sys2Proof/Machine/Arbiter.lean ====
section
/-!
DEFINITION. The store arbiter (R105, R106): what each client presents, which is granted, and what an operation answered gone means to its client.
-/
namespace Sys2Proof.Machine

/-! ## What the clients present (R105) -/

/-- R39, R105. The fetch writer's next operation: the head of the block buffer, its slot's claim program first when needed. -/
def fetchWriterOp (c : Chip) : Option WaitingOp :=
  match c.fetch.buffer with
  | [] => none
  | x :: _ =>
    match fetchSlot c x.fetch with
    | .opened f =>
      some
        { op := if f.claimed then .fetchBlock x.fetch f.storeSlot x.index x.data else .fetchClaim x.fetch f.storeSlot
          owner := some (.fetch x.fetch) }
    | _ => none

/-- R107. The owner on whose behalf a check's reads are made. -/
def readOwner (q : CheckRequest) : Owner :=
  match q.source with
  | some i => .fetch i
  | none => .load

/-- R107. The owner on whose behalf a check's header program is made. -/
def headerOwner (q : CheckRequest) : Owner :=
  match q.source with
  | some _ => .check q.image q.segment
  | none => .load

/-- R107. The checker's next operation, for the oldest request. -/
def checkerOp (c : Chip) : Option WaitingOp :=
  match c.store.checkQueue with
  | [] => none
  | q :: _ =>
    if q.header then some { op := .checkHeader q.slot (headerBytes q.image q.segment q.expected), owner := some (headerOwner q) }
    else some { op := .checkRead q.slot q.reads, owner := some (readOwner q) }

/-- R71. The server reader's next read, with the serve slot it is for: from the store slot as the catalog holds the segment now. -/
def serverOp (c : Chip) : Option (Nat × AskEntry × WaitingOp) :=
  match nextReading c with
  | none => none
  | some n =>
    match serveSlot c (n - 1) with
    | .reading e p =>
      match heldSlot c e.image e.segment with
      | some slot => some (n - 1, e, { op := .serveRead (n - 1) slot (e.base + p), owner := some (.segment e.image e.segment) })
      | none => none
    | _ => none

/-- R148. The flasher reader's next read. -/
def flasherOp (c : Chip) : Option WaitingOp :=
  match nextFlashRead c with
  | some op =>
    match op with
    | .flashRead _ k seg _ _ => some { op := op, owner := some (.segment k seg) }
    | _ => none
  | none => none

/-- R103. The background eraser's next operation: the erase mark of the slot in hand, then retired marks, then the head of the dirty queue. It presents
nothing until the scan has completed (R105). -/
def eraserOp (c : Chip) : Option WaitingOp :=
  if c.store.scanPhase ≠ .done then none
  else
    match c.store.eraseMarkDue, c.store.awaitingMark, c.store.dirtyQueue with
    | some slot, _, _ => some { op := .eraseMark slot, owner := none }
    | none, slot :: _, _ => some { op := .retiredMark slot, owner := none }
    | none, [], slot :: _ => some { op := .slotErase slot, owner := none }
    | none, [], [] => none

/-- R111. The first finding for segment 0. -/
def manifestFinding (c : Chip) : Option Finding := c.store.findings.find? (fun f => f.segment == 0)

/-- R110, R111. The start scanner's next read: of a manifest finding, its first block (the others follow one another, see `manifestRead`). Its reads of
slots 0 and 1 are system-area reads, which the local port client presents (R105, R185). -/
def scannerOp (c : Chip) : Option WaitingOp :=
  match c.store.scanPhase with
  | .system => none
  | .sweep => some { op := .scanSpare c.store.scanNext, owner := none }
  | .manifests =>
    match manifestFinding c with
    | some f => some { op := .scanManifest f.slot 0, owner := none }
    | none => none
  | .data => none
  | .done => none

/-- R105. The client has no operation that waits or runs. -/
def clientFree (c : Chip) (k : StoreClient) : Bool :=
  !c.store.waiting.any (fun w => w.op.client == k) &&
    (match c.store.current with
      | some o => o.op.client != k
      | none => true)

/-- An operation is presented to the arbiter. -/
def presentOp (w : WaitingOp) (c : Chip) : Chip := { c with store.waiting := c.store.waiting ++ [w] }

/-- R105. A client without an operation presents its next one, if it has one. -/
def presentFor (k : StoreClient) (next : Chip → Option WaitingOp) (c : Chip) : Chip :=
  if clientFree c k then
    match next c with
    | some w => presentOp w c
    | none => c
  else c

/-- R71, R98. The server reader presents its next read; one from a serve-locked area is refused, and the next slot is looked at. -/
def presentServer : Nat → Chip → Chip
  | 0, c => c
  | n + 1, c =>
    if !clientFree c .serverReader then c
    else
      match serverOp c with
      | none => c
      | some (i, e, w) =>
        match w.op.slot? with
        | some slot => if slotServeLocked c slot then presentServer n (refuseRead i e c) else presentOp w c
        | none => c

/-- R185. The local port client presents the operation whose user asked first. -/
def presentPort (c : Chip) : Chip :=
  if clientFree c .localPort then
    match c.store.portQueue with
    | w :: rest => presentOp w { c with store.portQueue := rest }
    | [] => c
  else c

/-- R105. Every client presents what it has. -/
def presentAll (c : Chip) : Chip :=
  let c := presentFor .checker checkerOp (presentFor .fetchWriter fetchWriterOp c)
  let c := presentFor .flasherReader flasherOp (presentServer 3 c)
  presentFor .scanner scannerOp (presentFor .eraser eraserOp (presentPort c))

/-! ## Granting (R105, R106) -/

/-- R105. The ring, beginning after a client. -/
def ringAfter : StoreClient → List StoreClient
  | .fetchWriter => [.checker, .serverReader, .flasherReader, .localPort, .eraser, .scanner, .fetchWriter]
  | .checker => [.serverReader, .flasherReader, .localPort, .eraser, .scanner, .fetchWriter, .checker]
  | .serverReader => [.flasherReader, .localPort, .eraser, .scanner, .fetchWriter, .checker, .serverReader]
  | .flasherReader => [.localPort, .eraser, .scanner, .fetchWriter, .checker, .serverReader, .flasherReader]
  | .localPort => [.eraser, .scanner, .fetchWriter, .checker, .serverReader, .flasherReader, .localPort]
  | .eraser => [.scanner, .fetchWriter, .checker, .serverReader, .flasherReader, .localPort, .eraser]
  | .scanner => [.fetchWriter, .checker, .serverReader, .flasherReader, .localPort, .eraser, .scanner]

/-- R105. The waiting operation of the first client of a list that has one. -/
def firstWaiting (waiting : List WaitingOp) : List StoreClient → Option WaitingOp
  | [] => none
  | k :: ks =>
    match waiting.find? (fun w => w.op.client == k) with
    | some w => some w
    | none => firstWaiting waiting ks

/-- R105. The operation to grant: the first waiting client round the ring, the background eraser only when no other waits. -/
def chooseOp (c : Chip) : Option WaitingOp :=
  let ring := ringAfter c.store.lastGranted
  match firstWaiting c.store.waiting (ring.filter (fun k => k != .eraser)) with
  | some w => some w
  | none => firstWaiting c.store.waiting [.eraser]

/-- R106. The slot still has the owner the operation is presented for. -/
def ownerStands (c : Chip) (w : WaitingOp) : Bool :=
  match w.owner with
  | none => true
  | some o =>
    match w.op.slot? with
    | some slot => (slotInfo c slot).owner == some o
    | none => false

/-- R71. The read rotation mark names the serve slot whose read is granted. -/
def noteGrant (op : StoreOp) (c : Chip) : Chip :=
  match op with
  | .serveRead i _ _ => { c with serve.readMark := i + 1 }
  | _ => c

/-- R106. What gone means to the client: the fetch writer's block is discarded, the flasher reader's job is cancelled (R148), a check ends without result,
and a serve slot, whose reads are withdrawn before they could be answered so, goes on without it. A load owns its slot until its programs have ended (R188),
so that none is answered gone. -/
def answerGone (op : StoreOp) (c : Chip) : Chip :=
  match op with
  | .fetchClaim i _ => { c with fetch.buffer := c.fetch.buffer.filter (fun x => x.fetch != i) }
  | .fetchBlock i _ b _ => { c with fetch.buffer := c.fetch.buffer.filter (fun x => !(x.fetch == i && x.index == b)) }
  | .flashRead _ _ _ _ _ => flashReadGone c
  | .checkRead slot _ => { c with store.checkQueue := c.store.checkQueue.filter (fun q => q.slot != slot) }
  | .checkHeader slot _ => { c with store.checkQueue := c.store.checkQueue.filter (fun q => q.slot != slot) }
  | _ => c

/-- R105, R106. The operation chosen is granted: performed when its owner stands, otherwise answered gone (which counts as the grant, log 18). -/
def grant (w : WaitingOp) (c : Chip) : Chip :=
  let c := { c with store.waiting := c.store.waiting.erase w, store.lastGranted := w.op.client }
  if ownerStands c w then noteGrant w.op { c with store.current := some { op := w.op, live := true } } else answerGone w.op c

/-- R105. The operation to grant now: none while one is in progress. -/
def nextGrant (c : Chip) : Option WaitingOp := if c.store.current.isSome then none else chooseOp c

/-- R105. An operation is granted and every client presents what it then has. -/
def grantTurn (w : WaitingOp) (c : Chip) : Chip := presentAll (grant w c)

/-- R105. Granting until an operation runs or none waits; each turn that does not start one answers one as gone. -/
def storeSteps : Nat → Chip → Chip
  | 0, c => c
  | n + 1, c =>
    match nextGrant c with
    | none => c
    | some w => storeSteps n (grantTurn w c)

/-- R105. The store's part of a step. -/
def storeRound (c : Chip) : Chip := storeSteps 8 (presentAll c)

end Sys2Proof.Machine
end

