-- ==== Sys2Proof/Machine/Device.lean ====
section
/-!
DEFINITION. The ends of store operations (R50, R58 to R60, R71, R101 to R104, R107, R148, R185, R187, R188), each acting only when the operation it ends is
in progress (log 5).
-/
namespace Sys2Proof.Machine

/-- The device is free. -/
def freeDevice (c : Chip) : Chip := { c with store.current := none }

/-- The OPEN fetch of slot `i` when it still fills this store slot; a fetch that has ended meanwhile disregards the result (R50). -/
def liveFetch (c : Chip) (i slot : Nat) : Option OpenFetch :=
  match fetchSlot c i with
  | .opened f => if f.storeSlot = slot then some f else none
  | _ => none

/-- The load when it is OPEN in this slot. -/
def liveLoad (c : Chip) (slot : Nat) : Option Load :=
  match c.port.load with
  | .opened l => if l.slot = slot then some l else none
  | _ => none

/-! ## The fetch writer and claims (R50, R101) -/

/-- R50. A block of a fetch has been programmed. -/
def fetchBlockDone (c : Chip) : Chip :=
  match c.store.current with
  | some { op := .fetchBlock i slot b data, live := _ } =>
    let c := programFlash (dataAddress slot (b * 128)) data (freeDevice c)
    match liveFetch c i slot with
    | some _ => finishRelease slot (blockProgrammed i b c)
    | none => finishRelease slot c
  | _ => c

/-- R50. The program of a block has failed: the slot is retired and the fetch, if it still stands, is cancelled. -/
def fetchBlockFailed (c : Chip) : Chip :=
  match c.store.current with
  | some { op := .fetchBlock i slot b data, live := _ } =>
    let c := spoilProgram (dataAddress slot (b * 128)) data.length (freeDevice c)
    match liveFetch c i slot with
    | some f => failFetch i 1 f c
    | none => retire slot 1 c
  | _ => c

/-- R187. A load ends with its slot retired, LOAD_DONE detail 2. -/
def failLoad (l : Load) (detail : Nat) (c : Chip) : Chip := endLoad l 2 (retire l.slot detail c)

/-- R101. A claim mark has been programmed: block programs may follow. -/
def claimDone (c : Chip) : Chip :=
  match c.store.current with
  | some { op := .fetchClaim i slot, live := _ } =>
    let c := programFlash (spareAddress slot 2) claimMarkBytes (freeDevice c)
    match liveFetch c i slot with
    | some _ => updateOpen i (fun f => { f with claimed := true }) c
    | none => finishRelease slot c
  | some { op := .loadClaim slot, live := _ } =>
    let c := programFlash (spareAddress slot 2) claimMarkBytes (freeDevice c)
    match liveLoad c slot with
    | some l => { c with port.load := .opened { l with claimed := true } }
    | none => finishRelease slot c
  | _ => c

/-- R101, R187. A failed claim program is treated as a failed block program of the slot's owner. -/
def claimFailed (c : Chip) : Chip :=
  match c.store.current with
  | some { op := .fetchClaim i slot, live := _ } =>
    let c := spoilProgram (spareAddress slot 2) 2 (freeDevice c)
    match liveFetch c i slot with
    | some f => failFetch i 2 f c
    | none => retire slot 2 c
  | some { op := .loadClaim slot, live := _ } =>
    let c := spoilProgram (spareAddress slot 2) 2 (freeDevice c)
    match liveLoad c slot with
    | some l => failLoad l 2 c
    | none => retire slot 2 c
  | _ => c

/-! ## The checker (R58 to R60, R107, R188) -/

/-- R58, R107. The reads of a fetch's check have ended: the fetch slot becomes FREE and the check request becomes the store slot's owner. -/
def freeChecked (q : CheckRequest) (c : Chip) : Chip :=
  match q.source with
  | none => c
  | some i =>
    match fetchSlot c i with
    | .checking f =>
      setSlot q.slot { cond := .filling, owner := some (.check q.image q.segment) } (freeFetch i f.peer f.counted c)
    | _ => c

/-- R60. The peer of the fetch that a check is for, when it is still counted. -/
def checkedPeer (c : Chip) (q : CheckRequest) : Option Nat :=
  match q.source with
  | none => none
  | some i =>
    match fetchSlot c i with
    | .checking f => if f.counted then some f.peer else none
    | _ => none

/-- R188. The load that a check is for ends with this detail. -/
def endCheckedLoad (q : CheckRequest) (detail : Nat) (c : Chip) : Chip :=
  if q.source.isSome then c
  else
    match c.port.load with
    | .checking l => endLoad l detail c
    | _ => c

/-- R107. The request leaves the check queue. -/
def dropCheck (q : CheckRequest) (c : Chip) : Chip := { c with store.checkQueue := c.store.checkQueue.filter (fun x => x.slot != q.slot) }

/-- R60. A strike to the peer of a mismatched fetch, and SEGMENT_SPOILED with its station id or 0. -/
def reportSpoiled (q : CheckRequest) (peer : Option Nat) (c : Chip) : Chip :=
  if q.source.isNone then c
  else
    match peer with
    | some id => report .segmentSpoiled (.segment q.image q.segment) id (strike id true c)
    | none => report .segmentSpoiled (.segment q.image q.segment) 0 c

/-- R60, R107, R188. The CRC does not match. -/
def checkMismatch (q : CheckRequest) (peer : Option Nat) (c : Chip) : Chip :=
  endCheckedLoad q 1 (reportSpoiled q peer (setSegState q.image q.segment .absent (release q.slot (dropCheck q c))))

/-- R58, R107. The 64 reads have ended: the comparison, unless the image record has been removed. -/
def compareCheck (q : CheckRequest) (c : Chip) : Chip :=
  let peer := checkedPeer c q
  let c := freeChecked q c
  if q.orphan then endCheckedLoad q 3 (release q.slot (dropCheck q c))
  else if ~~~q.crc = q.expected then
    { c with store.checkQueue := c.store.checkQueue.map (fun x => if x.slot = q.slot then { x with header := true } else x) }
  else checkMismatch q peer c

/-- R107. A block read of the check has ended with these bytes. -/
def feedCheck (bytes : List Byte) (q : CheckRequest) (c : Chip) : Chip :=
  let q := { q with reads := q.reads + 1, crc := crc32Feed q.crc bytes }
  let c := { c with store.checkQueue := c.store.checkQueue.map (fun x => if x.slot = q.slot then q else x) }
  if 64 ≤ q.reads then compareCheck q c else c

/-- R107. A check read has completed; the read of a cancelled check brings only the release that waited for it. -/
def checkReadDone (c : Chip) : Chip :=
  match c.store.current with
  | some { op := .checkRead slot b, live := _ } =>
    let c := freeDevice c
    match c.store.checkQueue.find? (fun q => q.slot == slot) with
    | some q => feedCheck (readBlock c slot b) q c
    | none => finishRelease slot c
  | _ => c

/-- R59, R107, R188. The header program has completed: HELD, unless the record has been removed. -/
def headerDone (c : Chip) : Chip :=
  match c.store.current with
  | some { op := .checkHeader slot bytes, live := _ } =>
    let c := programFlash (spareAddress slot 4) bytes (freeDevice c)
    match c.store.checkQueue.find? (fun q => q.slot == slot) with
    | some q =>
      let c := dropCheck q c
      if q.orphan then endCheckedLoad q 3 (release slot c) else endCheckedLoad q 0 (holdSegment q.image q.segment slot c)
    | none => finishRelease slot c
  | _ => c

/-- R59, R104, R188. The header program has failed: the slot is retired and the segment returns to ABSENT with no strike. -/
def headerFailed (c : Chip) : Chip :=
  match c.store.current with
  | some { op := .checkHeader slot bytes, live := _ } =>
    let c := spoilProgram (spareAddress slot 4) bytes.length (freeDevice c)
    match c.store.checkQueue.find? (fun q => q.slot == slot) with
    | some q =>
      let c := retire slot 2 (dropCheck q c)
      if q.orphan then endCheckedLoad q 3 c else endCheckedLoad q 2 (setSegState q.image q.segment .absent c)
    | none => retire slot 2 c
  | _ => c

/-! ## The readers (R71, R148) -/

/-- R71. A serve slot's read has completed, unless the slot has given it up. -/
def serveRead (c : Chip) : Chip :=
  match c.store.current with
  | some { op := .serveRead i slot b, live := live } =>
    let c := freeDevice c
    finishRelease slot (if live then serveReadDone i (readBlock c slot b) c else c)
  | _ => c

/-- R148. A flasher read has completed, unless the job has given it up. -/
def flasherRead (c : Chip) : Chip :=
  match c.store.current with
  | some { op := .flashRead packet _ _ slot b, live := live } =>
    let c := freeDevice c
    match slot with
    | some slot => finishRelease slot (if live then flashReadDone packet (readBlock c slot b) c else c)
    | none => c
  | _ => c

/-! ## The background eraser (R103, R104) -/

/-- R103. A dirty slot's erase has completed; its erase mark is due. -/
def slotErased (c : Chip) : Chip :=
  match c.store.current with
  | some { op := .slotErase slot, live := _ } => { eraseFlash slot (freeDevice c) with store.eraseMarkDue := some slot }
  | _ => c

/-- R104. A slot erase has failed. -/
def slotEraseFailed (c : Chip) : Chip :=
  match c.store.current with
  | some { op := .slotErase slot, live := _ } => retire slot 3 (spoilErase slot (freeDevice c))
  | _ => c

/-- R103. The erase mark is programmed: the slot leaves the dirty queue and is ERASED, and selection runs. -/
def eraseMarked (c : Chip) : Chip :=
  match c.store.current with
  | some { op := .eraseMark slot, live := _ } =>
    let c := setSlot slot { cond := .erased, owner := none } (programFlash (spareAddress slot 0) eraseMarkBytes (freeDevice c))
    askSelection
      { c with
        store.eraseMarkDue := none
        store.dirtyQueue := c.store.dirtyQueue.filter (fun s => s != slot) }
  | _ => c

/-- R104. An erase mark program has failed. -/
def eraseMarkFailed (c : Chip) : Chip :=
  match c.store.current with
  | some { op := .eraseMark slot, live := _ } => retire slot 2 (spoilProgram (spareAddress slot 0) 2 (freeDevice c))
  | _ => c

/-- R104. A retired mark program has ended; a failure has no further report and no second attempt. -/
def retiredMarkEnded (completed : Bool) (c : Chip) : Chip :=
  match c.store.current with
  | some { op := .retiredMark slot, live := _ } =>
    let c := freeDevice c
    let c := if completed then programFlash (spareAddress slot 60) retiredMarkBytes c else spoilProgram (spareAddress slot 60) 4 c
    { c with store.awaitingMark := c.store.awaitingMark.filter (fun s => s != slot) }
  | _ => c

/-! ## The local port client (R8, R185, R187) -/

/-- R8. A piece of the plan copy has been programmed. -/
def planProgrammed (c : Chip) : Chip :=
  match c.store.current with
  | some { op := .planProgram position piece data, live := _ } =>
    pieceProgrammed (programFlash (dataAddress 1 (512 * position + 128 * piece)) data (freeDevice c))
  | _ => c

/-- R8. A plan copy program has failed; it leaves no new whole copy. -/
def planProgramFailed (c : Chip) : Chip :=
  match c.store.current with
  | some { op := .planProgram position piece data, live := _ } =>
    copyFailed 1 (spoilPlanProgram position piece data.length (freeDevice c))
  | _ => c

/-- R8. Slot 1 has been erased. -/
def planErased (c : Chip) : Chip :=
  match c.store.current with
  | some { op := .planErase, live := _ } => copyErased (eraseFlash 1 (freeDevice c))
  | _ => c

/-- R8. The erase of slot 1 has failed; it leaves no whole copy. -/
def planEraseFailed (c : Chip) : Chip :=
  match c.store.current with
  | some { op := .planErase, live := _ } => copyFailed 3 (spoilPlanErase (freeDevice c))
  | _ => c

/-- R185. Slot 0 has been erased: the record's program is presented. -/
def commissionErased (c : Chip) : Chip :=
  match c.store.current with
  | some { op := .commissionErase, live := _ } => pushPort (.commissionProgram c.port.commissionRecord) none (eraseFlash 0 (freeDevice c))
  | _ => c

/-- R185. A commission write ends by a failure. -/
def failCommission (detail : Nat) (c : Chip) : Chip := report .storeError (.number 0) detail { c with port.commission := .failed }

/-- R185. The erase of slot 0 has failed. -/
def commissionEraseFailed (c : Chip) : Chip :=
  match c.store.current with
  | some { op := .commissionErase, live := _ } => failCommission 3 (spoilErase 0 (freeDevice c))
  | _ => c

/-- R185. The record has been programmed: COMMISSIONED, with the new station id. -/
def commissioned (c : Chip) : Chip :=
  match c.store.current with
  | some { op := .commissionProgram data, live := _ } =>
    report .commissioned (.number (be16 data 4)) 0
      { programFlash (dataAddress 0 0) data (freeDevice c) with port.commission := .done }
  | _ => c

/-- R185. The record's program has failed. -/
def commissionProgramFailed (c : Chip) : Chip :=
  match c.store.current with
  | some { op := .commissionProgram data, live := _ } => failCommission 1 (spoilProgram (dataAddress 0 0) data.length (freeDevice c))
  | _ => c

/-- R187. A block of the load has been programmed: its mark is set. -/
def loadBlockDone (c : Chip) : Chip :=
  match c.store.current with
  | some { op := .loadBlock slot b data, live := _ } =>
    let c := programFlash (dataAddress slot (b * 128)) data (freeDevice c)
    match liveLoad c slot with
    | some l => { c with port.load := .opened { l with marks := l.marks ||| (1#64 <<< b), pending := false } }
    | none => finishRelease slot c
  | _ => c

/-- R187. The program of a block of the load has failed. -/
def loadBlockFailed (c : Chip) : Chip :=
  match c.store.current with
  | some { op := .loadBlock slot b data, live := _ } =>
    let c := spoilProgram (dataAddress slot (b * 128)) data.length (freeDevice c)
    match liveLoad c slot with
    | some l => failLoad l 1 c
    | none => retire slot 1 c
  | _ => c

end Sys2Proof.Machine
end

