-- ==== Sys2Proof/Machine/Scan.lean ====
section
/-!
DEFINITION. The start (R184) and the start scan (R108 to R112).
-/
namespace Sys2Proof.Machine

/-! ## The start (R184) -/

/-- R110, R184. The store operation in progress is cut off (log 10): a program or an erase leaves free bytes where it was working; a header program never
leaves a whole held stamp, since R110 takes an interrupted header as DIRTY. -/
def cutOff (c : Chip) : Chip :=
  match c.store.current with
  | none => c
  | some o =>
    match o.op with
    | .fetchClaim _ slot => spoilProgram (spareAddress slot 2) 2 c
    | .loadClaim slot => spoilProgram (spareAddress slot 2) 2 c
    | .fetchBlock _ slot b data => spoilProgram (dataAddress slot (b * 128)) data.length c
    | .loadBlock slot b data => spoilProgram (dataAddress slot (b * 128)) data.length c
    | .checkHeader slot bytes => spoilProgram (spareAddress slot 4) (bytes.length - 1) c
    | .planProgram position piece data => spoilPlanProgram position piece data.length c
    | .planErase => spoilPlanErase c
    | .commissionErase => spoilErase 0 c
    | .commissionProgram data => spoilProgram (dataAddress 0 0) data.length c
    | .slotErase slot => spoilErase slot c
    | .eraseMark slot => spoilProgram (spareAddress slot 0) 2 c
    | .retiredMark slot => spoilProgram (spareAddress slot 60) 4 c
    | .checkRead _ _ => c
    | .serveRead _ _ _ => c
    | .flashRead _ _ _ _ _ => c
    | .scanConfig => c
    | .scanPlan _ => c
    | .scanSpare _ => c
    | .scanManifest _ _ => c

/-- R185. "A start that comes before the program has completed finds slot 0 without a whole record … The same holds after a failed write": where slot 0
would still read whole, it is taken as erased (log 10). -/
def voidRecord (c : Chip) : Chip :=
  if (c.port.commission == .writing || c.port.commission == .failed) && (judgeConfig (readBlock c 0 0)).isSome then eraseFlash 0 c else c

/-- R184. A start, with detail 0 for power-on and 1 for RESTART: all work is abandoned, every block takes its after-start values, and STARTED is the first
record of the emptied ring. -/
def startPart (pins : Pins) (detail : Nat) (c : Chip) : Chip :=
  let c := voidRecord (cutOff c)
  report .started .none detail (Chip.afterStart pins c.store.flash c.freeCount)

/-! ## SYSTEM (R108, R183) -/

/-- R180, R183. No whole record: the part becomes UNCONFIGURED. -/
def unconfigure (c : Chip) : Chip := { c with port.part := .unconfigured }

/-- R108, R165, R175, R184. A whole record takes effect: the port enters ON, an origin's beacon timer starts, the Monitor reads its line, and slot 1 is to
be read. -/
def takeConfig (r : ConfigRecord) (c : Chip) : Chip :=
  readLineAtStart
    { pushPort (.scanPlan 0) none c with
      port.config := some r
      yard.mode := .on
      clock.beaconTimer := if c.role = .origin then some (c.now + 5000) else none }

/-- R108. The read of slot 0 has completed. -/
def configRead (c : Chip) : Chip :=
  match c.store.current with
  | some { op := .scanConfig, live := _ } =>
    let c := freeDevice c
    match judgeConfig (readBlock c 0 0) with
    | some r => takeConfig r c
    | none => unconfigure c
  | _ => c

/-- R108, R109. A read of slot 1 has completed, and the next of its 64 blocks is asked for (R105, R185). After the last the plan is restored, start
admission runs, and the sweep begins. -/
def planCopyRead (c : Chip) : Chip :=
  match c.store.current with
  | some { op := .scanPlan index, live := _ } =>
    let c := freeDevice c
    if index < 63 then pushPort (.scanPlan (index + 1)) none c
    else
      let c := startAdmission (restorePlan c)
      { c with store.scanPhase := .sweep, store.scanNext := 8 }
  | _ => c

/-! ## DONE (R112) -/

/-- R112. IMAGE_COMPLETE for an image that became COMPLETE during the scan. -/
def reportComplete (r : ImageRecord) (c : Chip) : Chip := if r.state = .complete then report .imageComplete (.image r.image) 0 c else c

/-- R112. The scan is complete; the images are reported in record order (log 61). -/
def scanDone (c : Chip) : Chip :=
  let c := forEach c.catalog.records reportComplete { c with store.scanPhase := .done, store.findings := [] }
  let c := askSelection { c with port.part := .running }
  if c.yard.mode = .on then startRound c else c

/-! ## Findings (R13, R111) -/

/-- R111. On a bus station a private record's finding is not offered from an area that is not serve-locked. -/
def misplaced (c : Chip) (r : ImageRecord) (f : Finding) : Bool := c.role == .busStation && r.priv && !serveLocked c (areaOf c f.slot)

/-- R13, R111. The catalog will consider a finding for segment 0. -/
def considersManifest (c : Chip) (f : Finding) : Bool :=
  match findRecord c f.image with
  | some r => !misplaced c r f && r.state == .needsManifest && r.manifestCrc == f.crc
  | none => false

/-- R13, R111. The catalog accepts a finding for a data segment. -/
def acceptsData (c : Chip) (f : Finding) : Bool :=
  match findRecord c f.image with
  | some r =>
    match r.manifest with
    | some m =>
      !misplaced c r f && decide (1 ≤ f.segment) && decide (f.segment ≤ m.count) && m.crcs[f.segment - 1]? == some f.crc &&
        (r.entries[f.segment]?).map (fun e => e.state) == some .absent
    | none => false
  | none => false

/-- R111. A finding leaves the list. -/
def dropFinding (f : Finding) (c : Chip) : Chip := { c with store.findings := c.store.findings.filter (fun x => x.slot != f.slot) }

/-- R111. A data-segment finding is offered: accepted as HELD in its slot, or released. -/
def offerData (f : Finding) (c : Chip) : Chip :=
  if acceptsData c f then
    completeIfHeld f.image
      (setSegState f.image f.segment (.held f.slot)
        (setSlot f.slot { cond := .full, owner := some (.segment f.image f.segment) } c))
  else release f.slot c

/-- R111. The DATA phase, worked through without reads. -/
def dataPhase (c : Chip) : Chip := scanDone (forEach c.store.findings offerData { c with store.scanPhase := .data })

/-- R111. The MANIFESTS phase goes on: findings the catalog will not consider are released, up to one that is to be read; after the last, DATA. -/
def manifestSteps : Nat → Chip → Chip
  | 0, c => c
  | n + 1, c =>
    match manifestFinding c with
    | none => dataPhase c
    | some f => if considersManifest c f then c else manifestSteps n (release f.slot (dropFinding f c))

def manifestPhase (c : Chip) : Chip := manifestSteps (c.store.findings.length + 1) { c with store.scanPhase := .manifests }

/-- R111. A read of a segment 0 finding has completed, and the scanner presents the next of the slot's 64 blocks (R105). After the last its bytes are given
to the catalog for validation. -/
def manifestRead (c : Chip) : Chip :=
  match c.store.current with
  | some { op := .scanManifest slot index, live := _ } =>
    let c := freeDevice c
    if index < 63 then presentOp { op := .scanManifest slot (index + 1), owner := none } c
    else
      match c.store.findings.find? (fun f => f.slot == slot) with
      | none => c
      | some f =>
        let c' := dropFinding f c
        manifestPhase (if considersManifest c f then holdSegment f.image 0 slot c' else release slot c')
  | _ => c

/-! ## SWEEP (R110) -/

/-- R110. A swept slot is classified. -/
def classifySlot (slot : Nat) (k : SpareClass) (c : Chip) : Chip :=
  match k with
  | .retired => setSlot slot { cond := .retired, owner := none } c
  | .finding image segment crc =>
    let c := setSlot slot { cond := .full, owner := none } c
    { c with store.findings := c.store.findings ++ [{ slot := slot, image := image, segment := segment, crc := crc }] }
  | .erased => setSlot slot { cond := .erased, owner := none } c
  | .dirty => joinDirty slot c

/-- R110. A spare area has been read: the slot is classified and the next is swept; after the last, MANIFESTS. -/
def sweepRead (c : Chip) : Chip :=
  match c.store.current with
  | some { op := .scanSpare slot, live := _ } =>
    let c := freeDevice c
    let c := classifySlot slot (classifySpare (readSpare c slot)) c
    let c := { c with store.scanNext := slot + 1 }
    if slot + 1 < segmentEnd c then c else manifestPhase c
  | _ => c

end Sys2Proof.Machine
end

