-- ==== Sys2Proof/Machine/Commands.lean ====
section
/-!
DEFINITION. The commands of the local port (R10, R132, R169, R179 to R190).
-/
namespace Sys2Proof.Machine

/-! ## The part-state test (R180) -/

/-- R180. How a command is tested against the part state. -/
inductive CommandClass where
  | always
  | reports
  | other
  deriving DecidableEq, Repr

/-- R180. The answer the part state gives a command before its own rule; none when the command is handled. -/
def stateAnswer (part : PartState) (k : CommandClass) : Option Status :=
  match part, k with
  | .running, _ => none
  | _, .always => none
  | .unconfigured, _ => some .refused
  | .starting, .reports => none
  | .starting, .other => some .starting

/-- R180. A command handled by `f` when the part state allows it, otherwise answered without effect. -/
def handled (k : CommandClass) (code : Nat) (f : Chip → Chip) (c : Chip) : Chip :=
  match stateAnswer c.port.part k with
  | some st => answer st (BitVec.ofNat 8 code) [] c
  | none => f c

/-- An answer without a result. -/
def say (status : Status) (code : Nat) (c : Chip) : Chip := answer status (BitVec.ofNat 8 code) [] c

/-! ## STATUS (R181, R196) -/

def PartState.code : PartState → Nat
  | .starting => 0
  | .unconfigured => 1
  | .running => 2

def ClockState.code : ClockState → Nat
  | .unsynced => 0
  | .synced => 1
  | .freeRunning => 2

def ScanPhase.code : ScanPhase → Nat
  | .system => 0
  | .sweep => 1
  | .manifests => 2
  | .data => 3
  | .done => 4

def CensusState.code : CensusState → Nat
  | .idle => 0
  | .running => 1
  | .paused _ => 2

def LoadState.code : LoadState → Nat
  | .idle => 0
  | .opened _ => 1
  | .checking _ => 2

def CommissionState.code : CommissionState → Nat
  | .idle => 0
  | .writing => 1
  | .done => 2
  | .failed => 3

/-- R169, R181. Seconds remaining to the deadline, rounded down, 0 once it has passed; 0xFFFFFFFF when no notice is held. -/
def secondsRemaining (c : Chip) : Nat :=
  match c.departure.deadline with
  | some d => (d - c.now) / 1000
  | none => 0xFFFFFFFF

/-- R196. The sequence number of a report, 0 for none. -/
def sequenceOf (r : Option Report) : Nat :=
  match r with
  | some r => r.sequence.toNat
  | none => 0

/-- R196. STATUS offsets 0 to 8: part state, role, store size, station id, held serial. -/
def statusIdentity (c : Chip) : List Byte :=
  put8 c.port.part.code ++ put8 (if c.role = .origin then 1 else 0) ++
    put8 (if c.total = 8192 then 2 else if c.total = 4096 then 1 else 0) ++ put16 (stationId c) ++ put32 (heldSerial c)

/-- R196. STATUS offsets 9 to 16: clock state, source, depth, yard time. -/
def statusClock (c : Chip) : List Byte :=
  put8 c.clock.state.code ++ put16 (c.clock.source.getD 0) ++ put8 (c.clock.depth.getD 0xFF) ++ put32 (yardNow c).toNat

/-- R196. STATUS offsets 17 to 25: departure, seconds remaining, peers, origin present, image records, complete images. -/
def statusYard (c : Chip) : List Byte :=
  putFlag c.departure.departed ++ put32 (secondsRemaining c) ++ put8 c.peers.length ++ putFlag (originPresent c) ++
    put8 c.catalog.records.length ++ put8 (c.catalog.records.countP (fun r => r.state == .complete))

/-- R196. STATUS offsets 26 to 34: the store's slots, the scan phase, the census. -/
def statusStore (c : Chip) : List Byte :=
  put16 (countCond c .erased) ++ put16 (countDirty c) ++ put16 (countCond c .retired) ++ put8 c.store.scanPhase.code ++
    put8 c.census.state.code ++ putFlag c.census.owed

/-- R181. The address of the active job, or 0. -/
def jobAddress (c : Chip) : Nat :=
  match c.seq.job with
  | some j => j.address
  | none => 0

/-- R196. STATUS offsets 35 to 44: the job, the probations, the load, the commission write, the report ring. -/
def statusWork (c : Chip) : List Byte :=
  put8 (jobAddress c) ++ put8 (c.seq.units.countP (fun u => u.state == .probation)) ++ put8 c.port.load.code ++ put8 c.port.commission.code ++
    put8 c.port.reports.length ++ put16 (sequenceOf c.port.reports.head?) ++ put16 (sequenceOf c.port.reports.getLast?) ++
    put8 (c.port.reports.countP (fun r => r.unread))

/-- R196. The 45 bytes of the STATUS result. -/
def statusBytes (c : Chip) : List Byte := statusIdentity c ++ (statusClock c ++ (statusYard c ++ (statusStore c ++ statusWork c)))

/-- R181. STATUS. -/
def onStatus (c : Chip) : Chip := answer .ok 0x01#8 (statusBytes c) c

/-! ## READ_UNITS and READ_CATALOG (R182, R196) -/

/-- R182. READ_UNITS. -/
def onReadUnits (c : Chip) : Chip :=
  handled .other 0x02 (fun c => answer .ok 0x02#8 (put8 c.seq.units.length ++ c.seq.units.flatMap putUnit) c) c

/-- R182. The segment entries of a record from a first segment on, at most 256. -/
def entriesFrom (r : Option ImageRecord) (first : Nat) : List SegEntry :=
  match r with
  | some r => (r.entries.drop first).take 256
  | none => []

/-- R182. The result of READ_CATALOG. -/
def catalogBytes (position first : Nat) (c : Chip) : List Byte :=
  if position = 0 then put8 c.catalog.records.length ++ c.catalog.records.flatMap putRecord
  else
    let es := entriesFrom (c.catalog.records[position - 1]?) first
    put8 position ++ put16 first ++ put16 es.length ++ es.flatMap (fun e => put8 e.state.code ++ put8 e.holders)

/-- R182. READ_CATALOG. -/
def onReadCatalog (position : Byte) (first : BitVec 16) (c : Chip) : Chip :=
  handled .other 0x03 (fun c => answer .ok 0x03#8 (catalogBytes position.toNat first.toNat c) c) c

/-! ## READ_REPORTS (R190) -/

/-- R190. How many records stand before the first one returned; none when none is returned. -/
def reportsBefore (n : BitVec 16) (ring : List Report) : Option Nat :=
  let a := (nextSequence ring - n).toNat
  if a = 0 then none else if a ≤ ring.length then some (ring.length - a) else some 0

/-- R190. The records returned. -/
def reportsReturned (n : BitVec 16) (ring : List Report) : List Report :=
  match reportsBefore n ring with
  | some k => (ring.drop k).take 16
  | none => []

/-- R190. The first `n` records have their unread mark cleared. -/
def clearFirst : Nat → List Report → List Report
  | 0, l => l
  | _, [] => []
  | n + 1, r :: rs => { r with unread := false } :: clearFirst n rs

/-- R190. The ring after the reply: every record returned and every older one is read. -/
def ringAfterRead (n : BitVec 16) (ring : List Report) : List Report :=
  match reportsBefore n ring with
  | some k => clearFirst (k + (reportsReturned n ring).length) ring
  | none => ring

/-- R190, R196. The result of READ_REPORTS. -/
def reportBytes (n : BitVec 16) (ring : List Report) : List Byte :=
  let next := nextSequence ring
  let out := reportsReturned n ring
  put16 next.toNat ++ put16 (match ring.head? with | some r => r.sequence.toNat | none => next.toNat) ++ put8 out.length ++ out.flatMap putReport

/-- R190. READ_REPORTS. -/
def onReadReports (n : BitVec 16) (c : Chip) : Chip :=
  handled .reports 0x04
    (fun c => answer .ok 0x04#8 (reportBytes n c.port.reports) { c with port.reports := ringAfterRead n c.port.reports }) c

/-! ## The notice, CENSUS and RESTART (R132, R169, R184) -/

/-- R169. SET_DEPARTURE. -/
def onSetDeparture (seconds : Word32) (c : Chip) : Chip :=
  handled .other 0x05
    (fun c =>
      if c.role = .origin then say .refused 0x05 c
      else say .ok 0x05 (noticeChanged { c with departure.deadline := some (c.now + min seconds.toNat 86400 * 1000) })) c

/-- R169. CLEAR_DEPARTURE; it is a change of notice only when a deadline is removed. -/
def onClearDeparture (c : Chip) : Chip :=
  handled .other 0x06
    (fun c =>
      if c.role = .origin then say .refused 0x06 c
      else if c.departure.deadline.isSome then say .ok 0x06 (noticeChanged { c with departure.deadline := none })
      else say .ok 0x06 c) c

/-- R132. CENSUS. -/
def onCensus (c : Chip) : Chip :=
  handled .other 0x07
    (fun c =>
      if c.role = .origin then say .refused 0x07 c
      else if c.census.state ≠ .idle then say .busy 0x07 c
      else if anyFlashing c then say .busy 0x07 c
      else if c.departure.departed then say .busy 0x07 c
      else say .ok 0x07 (startCensus c)) c

/-- R184. RESTART: the start follows at the release of the select. -/
def onRestart (c : Chip) : Chip := say .ok 0x08 { c with port.restartArmed := true }

/-! ## COMMISSION (R185) -/

/-- R179, R185. COMMISSION with its argument bytes; an argument length other than 18 is BAD. -/
def onCommission (record : List Byte) (c : Chip) : Chip :=
  if record.length ≠ 18 then say .bad 0x09 c
  else if !stationOk (be16 record 0) then say .bad 0x09 c
  else if c.port.commission = .writing then say .busy 0x09 c
  else
    say .ok 0x09
      (pushPort .commissionErase none { c with port := { c.port with commission := .writing, commissionRecord := commissionBytes record } })

/-! ## Loading at the origin (R10, R186 to R188) -/

/-- R180. A command only an origin takes. -/
def originOnly (code : Nat) (f : Chip → Chip) (c : Chip) : Chip :=
  handled .other code (fun c => if c.role = .busStation then say .refused code c else f c) c

/-- R10. LOAD_PLAN. -/
def onLoadPlan (serial : Word32) (count : Byte) (entries : List Byte) (c : Chip) : Chip :=
  originOnly 0x10
    (fun c =>
      if 16 < count.toNat || entries.length ≠ 26 * count.toNat then say .bad 0x10 c
      else if serial.toNat ≤ heldSerial c then say .stale 0x10 c
      else say .ok 0x10 (adoptPlan (buildPlanBody (stationId c) serial.toNat count.toNat entries) c)) c

/-- R186. The answer to LOAD_SEGMENT_OPEN: the first row that holds. -/
def openAnswer (k : ImageKey) (seg slot : Nat) (c : Chip) : Status :=
  if !inSegmentArea c slot then .bad
  else if c.port.load ≠ .idle then .busy
  else
    match findRecord c k with
    | none => .refused
    | some r =>
      if (if seg = 0 then r.state ≠ .needsManifest else r.state ≠ .gathering) then .refused
      else
        match r.entries[seg]? with
        | none => .refused
        | some e =>
          match e.state with
          | .held _ => .refused
          | .fetching _ => .busy
          | .checking _ => .busy
          | .cooling _ => .busy
          | .absent => if (slotInfo c slot).cond = .erased then .ok else .refused

/-- R186. The load as opened. -/
def openLoad (k : ImageKey) (seg slot : Nat) (c : Chip) : Chip :=
  pushPort (.loadClaim slot) (some .load)
    { allocate slot .load c with
      port.load :=
        .opened
          { image := k, segment := seg, slot := slot, expected := expectedCrc c k seg, marks := 0, claimed := false, pending := false } }

/-- R186. LOAD_SEGMENT_OPEN. -/
def onLoadOpen (id version segment slot : BitVec 16) (c : Chip) : Chip :=
  originOnly 0x11
    (fun c =>
      let k : ImageKey := ⟨id.toNat, version.toNat⟩
      let st := openAnswer k segment.toNat slot.toNat c
      say st 0x11 (if st = .ok then openLoad k segment.toNat slot.toNat c else c)) c

/-- R187. LOAD_BLOCK; an argument length other than 129 is BAD (R179). -/
def onLoadBlock (index : Byte) (data : List Byte) (c : Chip) : Chip :=
  if data.length ≠ 128 then say .bad 0x12 c
  else
    originOnly 0x12
      (fun c =>
        if 63 < index.toNat then say .bad 0x12 c
        else
          match c.port.load with
          | .opened l =>
            if programPending l then say .busy 0x12 c
            else if l.marks.getLsbD index.toNat then say .refused 0x12 c
            else
              say .ok 0x12
                (pushPort (.loadBlock l.slot index.toNat data) (some .load) { c with port.load := .opened { l with pending := true } })
          | .idle => say .refused 0x12 c
          | .checking _ => say .refused 0x12 c) c

/-- R188. A load closed with CHECK goes to the checker. -/
def closeCheck (l : Load) (c : Chip) : Chip :=
  let c := setSegState l.image l.segment (.checking l.slot) { c with port.load := .checking l }
  { c with
    store.checkQueue :=
      c.store.checkQueue ++
        [{ source := none, image := l.image, segment := l.segment, slot := l.slot, expected := l.expected, reads := 0, crc := crc32Start,
           header := false, orphan := false }] }

/-- R188. A load closed with DISCARD. -/
def closeDiscard (l : Load) (c : Chip) : Chip := endLoad l 4 (release l.slot c)

/-- R188, R196. LOAD_SEGMENT_CLOSE. A mode that is neither CHECK nor DISCARD is BAD before the load state or a pending program is looked at (log 32). -/
def onLoadClose (mode : Byte) (c : Chip) : Chip :=
  originOnly 0x13
    (fun c =>
      if mode ≠ 0 && mode ≠ 1 then say .bad 0x13 c
      else
        match c.port.load with
        | .opened l =>
          if programPending l then say .busy 0x13 c
          else if mode = 1 then say .ok 0x13 (closeDiscard l c)
          else if l.marks ≠ BitVec.allOnes 64 then say .refused 0x13 c
          else say .ok 0x13 (closeCheck l c)
        | .idle => say .refused 0x13 c
        | .checking _ => say .refused 0x13 c) c

/-! ## Bad frames (R179) -/

/-- R179. A whole command frame: its length is the one its length field implies. -/
def commandFrameWhole (frame : List Byte) : Bool := decide (5 ≤ frame.length) && frame.length == be16 frame 1 + 5

/-- R179. A whole frame that is not good is answered BAD with no effect. -/
def onBadFrame (frame : List Byte) (c : Chip) : Chip :=
  if commandFrameWhole frame && !commandFrameGood frame then say .bad (byteAt frame 0) c else c

end Sys2Proof.Machine
end

