-- ==== Sys2Proof/Machine/Settle.lean ====
section
/-!
DEFINITION. What a step sets off in the other blocks (95, "each whole and indivisible"; log 13), and the shape of every command's meaning.
-/
namespace Sys2Proof.Machine

/-- One pass over the blocks that act on what now stands: serve slots take entries (R70), selection runs if asked (R40), an owed census begins (R132), the
unit arbiter chooses (R142), the store is granted (R105), the job presents its request (R149), a cabin transaction begins (R114), and channel access is
begun (R81). -/
def settlePass (c : Chip) : Chip :=
  let c := serveTake (runSelection (serveTake c))
  let c := storeRound (unitArbiter (censusBegin c))
  accessWake (watchLine (lineBegin (jobPresent c)))

/-- Two passes: the second for what a gone answer or an eviction of the first brings (log 13); then the attention line (R191). -/
def settle (c : Chip) : Chip := driveAttention (settlePass (settlePass c))

/-- A command's meaning: its effect on the part and all it sets off; the queue is left as it is. -/
def run (f : Chip → Chip) (s : State) : Host.Outcome State Fault Refusal := .next { s with chip := settle (f s.chip) }

end Sys2Proof.Machine
end

