-- ==== Sys2Proof/Machine/CabinEvents.lean ====
section
/-!
DEFINITION. The meanings of the events of the cabin line, the census, the job and the probations.
-/
namespace Sys2Proof.Machine

/-- R113. LINE_WIRE_CHANGE. -/
def execLineWireChange (clock data : Bool) (s : State) : Host.Outcome State Fault Refusal := run (wireChange clock data) s

/-- R113. LINE_QUIET_ELAPSED. -/
def execLineQuietElapsed (s : State) : Host.Outcome State Fault Refusal := run quietElapsed s

/-- R119. CABIN_TRANSACTION_END. -/
def execCabinTransactionEnd (unacknowledged : Option Nat) (received : List Byte) (s : State) : Host.Outcome State Fault Refusal := run (transactionEnds unacknowledged received) s

/-- R120. ARBITRATION_LOSS. -/
def execArbitrationLoss (s : State) : Host.Outcome State Fault Refusal := run arbitrationLoss s

/-- R122. LINE_FAULT. -/
def execLineFault (wire : Wire) (s : State) : Host.Outcome State Fault Refusal := run (lineFault wire) s

/-- R124. HOLD_TIMEOUT. -/
def execHoldTimeout (heldMs : Nat) (s : State) : Host.Outcome State Fault Refusal := run (holdTimeout heldMs) s

/-- R124. RECOVERING_CLOCK_RELEASED. -/
def execRecoveringClockReleased (s : State) : Host.Outcome State Fault Refusal := run recovered s

/-- R125. LINE_STUCK_TIMEOUT. -/
def execLineStuckTimeout (s : State) : Host.Outcome State Fault Refusal := run reportStuck s

/-- R133. CENSUS_PAUSE_END. -/
def execCensusPauseEnd (s : State) : Host.Outcome State Fault Refusal := run censusPauseEnd s

/-- R132. CENSUS_HOLDOFF_END: an owed census may begin. -/
def execCensusHoldoffEnd (s : State) : Host.Outcome State Fault Refusal := run censusBegin s

/-- R153. JOB_PAUSE_END. -/
def execJobPauseEnd (s : State) : Host.Outcome State Fault Refusal := run jobPauseEnd s

/-- R158. PROBATION_POLL_DUE. -/
def execProbationPollDue (address : Nat) (s : State) : Host.Outcome State Fault Refusal := run (pollDue address) s

/-- R158. FINAL_READ_DUE. -/
def execFinalReadDue (address : Nat) (s : State) : Host.Outcome State Fault Refusal := run (finalDue address) s

/-- R160. PROBATION_REPEAT_DUE. -/
def execProbationRepeatDue (address : Nat) (s : State) : Host.Outcome State Fault Refusal := run (repeatDue address) s

end Sys2Proof.Machine
end

