-- ==== Sys2Proof/Machine/Frames.lean ====
section
/-!
DEFINITION. The meanings of the ten received frames (R79, R80).
-/
namespace Sys2Proof.Machine

/-- R53. A Lacking at the Fetch Engine. -/
def onLacking (f : RxFrame) (c : Chip) : Chip :=
  let (asker, k, seg) := replyOf f.payload
  onReply (withdrawSegment f.sender k seg) f.sender asker k seg c

/-- R54. A Refused at the Fetch Engine. -/
def onRefused (f : RxFrame) (c : Chip) : Chip :=
  let (asker, k, seg) := replyOf f.payload
  onReply (withdrawImage f.sender k) f.sender asker k seg c

/-- R32, R55. A Busy at the Fetch Engine. One from a sender that had no record before presence (`unknown`), its expiry having been taken first, marks the
record that presence created though no slot names it any more (log 46). -/
def onBusy (unknown : Bool) (f : RxFrame) (c : Chip) : Chip :=
  let (asker, k, seg) := replyOf f.payload
  onReply (markBusy f.sender) f.sender asker k seg (if unknown && asker == stationId c then markBusy f.sender c else c)

/-- R26. OFFER: presence, then the merge into the sender's range list. -/
def execOffer (frame : List Byte) (s : State) : Host.Outcome State Fault Refusal := run (receive .offer (fun f => mergeOffer f.sender (offerOf f.payload)) frame) s

/-- R64, R65. ASK: screened, then answered, replaced in place or queued. -/
def execAsk (frame : List Byte) (s : State) : Host.Outcome State Fault Refusal := run (receive .ask (fun f => onAsk (askOf f.sender f.payload).1 (askOf f.sender f.payload).2) frame) s

/-- R49. BLOCK: accepted into the buffer or dropped; a flagged block may end the window. -/
def execBlock (frame : List Byte) (s : State) : Host.Outcome State Fault Refusal := run (receive .block (fun f => onBlock f.sender (blockOf f.payload)) frame) s

/-- R53. LACKING: the segment leaves the peer's coverage and the slot switches. -/
def execLacking (frame : List Byte) (s : State) : Host.Outcome State Fault Refusal := run (receive .lacking onLacking frame) s

/-- R54. REFUSED: the image leaves the peer's coverage and the slot switches. -/
def execRefused (frame : List Byte) (s : State) : Host.Outcome State Fault Refusal := run (receive .refused onRefused frame) s

/-- R55. BUSY: the peer takes the Busy mark and the slot switches. -/
def execBusy (frame : List Byte) (s : State) : Host.Outcome State Fault Refusal :=
  run (fun c => receive .busy (fun f => onBusy (findPeer c f.sender).isNone f) frame c) s

/-- R4. PLAN: adopted or dropped. -/
def execPlan (frame : List Byte) (s : State) : Host.Outcome State Fault Refusal := run (receive .plan (fun f => onPlan f.originFlag f.payload) frame) s

/-- R7. PLAN_ASK: relay pending is set when it names this station and a plan is held. -/
def execPlanAsk (frame : List Byte) (s : State) : Host.Outcome State Fault Refusal := run (receive .planAsk (fun f => onPlanAsk (be16 f.payload 0)) frame) s

/-- R166. BEACON: recorded against its sender and perhaps adopted. -/
def execBeacon (frame : List Byte) (s : State) : Host.Outcome State Fault Refusal := run (receive .beacon onBeacon frame) s

/-- R30. LEAVE: the sender's record takes the departing attribute. -/
def execLeave (frame : List Byte) (s : State) : Host.Outcome State Fault Refusal := run (receive .leave (fun f => announceDeparture f.sender) frame) s

end Sys2Proof.Machine
end

