-- ==== Sys2Proof/Machine/PortCommands.lean ====
section
/-!
DEFINITION. The meanings of the local port's commands.
-/
namespace Sys2Proof.Machine

/-- R181. STATUS. -/
def execStatus (s : State) : Host.Outcome State Fault Refusal := run onStatus s

/-- R182. READ_UNITS. -/
def execReadUnits (s : State) : Host.Outcome State Fault Refusal := run onReadUnits s

/-- R182. READ_CATALOG. -/
def execReadCatalog (position : Byte) (firstSegment : BitVec 16) (s : State) : Host.Outcome State Fault Refusal := run (onReadCatalog position firstSegment) s

/-- R190. READ_REPORTS. -/
def execReadReports (sequence : BitVec 16) (s : State) : Host.Outcome State Fault Refusal := run (onReadReports sequence) s

/-- R169. SET_DEPARTURE. -/
def execSetDeparture (seconds : Word32) (s : State) : Host.Outcome State Fault Refusal := run (onSetDeparture seconds) s

/-- R169. CLEAR_DEPARTURE. -/
def execClearDeparture (s : State) : Host.Outcome State Fault Refusal := run onClearDeparture s

/-- R132. CENSUS. -/
def execCensus (s : State) : Host.Outcome State Fault Refusal := run onCensus s

/-- R184. RESTART. -/
def execRestart (s : State) : Host.Outcome State Fault Refusal := run onRestart s

/-- R185. COMMISSION. -/
def execCommission (record : List Byte) (s : State) : Host.Outcome State Fault Refusal := run (onCommission record) s

/-- R10. LOAD_PLAN. -/
def execLoadPlan (serial : Word32) (count : Byte) (entries : List Byte) (s : State) : Host.Outcome State Fault Refusal := run (onLoadPlan serial count entries) s

/-- R186. LOAD_SEGMENT_OPEN. -/
def execLoadSegmentOpen (id version segment slot : BitVec 16) (s : State) : Host.Outcome State Fault Refusal := run (onLoadOpen id version segment slot) s

/-- R187. LOAD_BLOCK. -/
def execLoadBlock (index : Byte) (data : List Byte) (s : State) : Host.Outcome State Fault Refusal := run (onLoadBlock index data) s

/-- R188. LOAD_SEGMENT_CLOSE. -/
def execLoadSegmentClose (mode : Byte) (s : State) : Host.Outcome State Fault Refusal := run (onLoadClose mode) s

/-- R179. BAD_COMMAND_FRAME. -/
def execBadCommandFrame (frame : List Byte) (s : State) : Host.Outcome State Fault Refusal := run (onBadFrame frame) s

/-- R179. EXCHANGE_DISCARDED: without effect and without reply. -/
def execExchangeDiscarded (s : State) : Host.Outcome State Fault Refusal := run id s

end Sys2Proof.Machine
end

