-- ==== Sys2Proof/Machine/StoreEvents.lean ====
section
/-!
DEFINITION. The meanings of the ends of store operations.
-/
namespace Sys2Proof.Machine

/-- R50. FETCH_BLOCK_PROGRAM_COMPLETE. -/
def execFetchBlockProgramComplete (s : State) : Host.Outcome State Fault Refusal := run fetchBlockDone s

/-- R50. FETCH_BLOCK_PROGRAM_FAILED. -/
def execFetchBlockProgramFailed (s : State) : Host.Outcome State Fault Refusal := run fetchBlockFailed s

/-- R101. CLAIM_PROGRAM_COMPLETE. -/
def execClaimProgramComplete (s : State) : Host.Outcome State Fault Refusal := run claimDone s

/-- R101. CLAIM_PROGRAM_FAILED. -/
def execClaimProgramFailed (s : State) : Host.Outcome State Fault Refusal := run claimFailed s

/-- R107. CHECK_READ_COMPLETE. -/
def execCheckReadComplete (s : State) : Host.Outcome State Fault Refusal := run checkReadDone s

/-- R59. HEADER_PROGRAM_COMPLETE. -/
def execHeaderProgramComplete (s : State) : Host.Outcome State Fault Refusal := run headerDone s

/-- R59. HEADER_PROGRAM_FAILED. -/
def execHeaderProgramFailed (s : State) : Host.Outcome State Fault Refusal := run headerFailed s

/-- R71. SERVE_READ_COMPLETE. -/
def execServeReadComplete (s : State) : Host.Outcome State Fault Refusal := run serveRead s

/-- R103. SLOT_ERASE_COMPLETE. -/
def execSlotEraseComplete (s : State) : Host.Outcome State Fault Refusal := run slotErased s

/-- R104. SLOT_ERASE_FAILED. -/
def execSlotEraseFailed (s : State) : Host.Outcome State Fault Refusal := run slotEraseFailed s

/-- R103. SLOT_ERASE_MARK_PROGRAM_COMPLETE. -/
def execSlotEraseMarkProgramComplete (s : State) : Host.Outcome State Fault Refusal := run eraseMarked s

/-- R104. SLOT_ERASE_MARK_PROGRAM_FAILED. -/
def execSlotEraseMarkProgramFailed (s : State) : Host.Outcome State Fault Refusal := run eraseMarkFailed s

/-- R104. RETIRED_MARK_PROGRAM_END, completed or failed. -/
def execRetiredMarkProgramEnd (completed : Bool) (s : State) : Host.Outcome State Fault Refusal := run (retiredMarkEnded completed) s

/-- R108. CONFIG_READ_COMPLETE. -/
def execConfigReadComplete (s : State) : Host.Outcome State Fault Refusal := run configRead s

/-- R9. PLAN_COPY_READ_COMPLETE. -/
def execPlanCopyReadComplete (s : State) : Host.Outcome State Fault Refusal := run planCopyRead s

/-- R110. SWEEP_READ_COMPLETE. -/
def execSweepReadComplete (s : State) : Host.Outcome State Fault Refusal := run sweepRead s

/-- R111. MANIFEST_READ_COMPLETE. -/
def execManifestReadComplete (s : State) : Host.Outcome State Fault Refusal := run manifestRead s

/-- R8. PLAN_COPY_PROGRAM_COMPLETE. -/
def execPlanCopyProgramComplete (s : State) : Host.Outcome State Fault Refusal := run planProgrammed s

/-- R8. PLAN_COPY_PROGRAM_FAILED. -/
def execPlanCopyProgramFailed (s : State) : Host.Outcome State Fault Refusal := run planProgramFailed s

/-- R8. PLAN_COPY_ERASE_COMPLETE. -/
def execPlanCopyEraseComplete (s : State) : Host.Outcome State Fault Refusal := run planErased s

/-- R8. PLAN_COPY_ERASE_FAILED. -/
def execPlanCopyEraseFailed (s : State) : Host.Outcome State Fault Refusal := run planEraseFailed s

/-- R185. COMMISSION_ERASE_COMPLETE. -/
def execCommissionEraseComplete (s : State) : Host.Outcome State Fault Refusal := run commissionErased s

/-- R185. COMMISSION_ERASE_FAILED. -/
def execCommissionEraseFailed (s : State) : Host.Outcome State Fault Refusal := run commissionEraseFailed s

/-- R185. COMMISSION_PROGRAM_COMPLETE. -/
def execCommissionProgramComplete (s : State) : Host.Outcome State Fault Refusal := run commissioned s

/-- R185. COMMISSION_PROGRAM_FAILED. -/
def execCommissionProgramFailed (s : State) : Host.Outcome State Fault Refusal := run commissionProgramFailed s

/-- R187. LOAD_BLOCK_PROGRAM_COMPLETE. -/
def execLoadBlockProgramComplete (s : State) : Host.Outcome State Fault Refusal := run loadBlockDone s

/-- R187. LOAD_BLOCK_PROGRAM_FAILED. -/
def execLoadBlockProgramFailed (s : State) : Host.Outcome State Fault Refusal := run loadBlockFailed s

/-- R148. FLASHER_READ_COMPLETE. -/
def execFlasherReadComplete (s : State) : Host.Outcome State Fault Refusal := run flasherRead s

end Sys2Proof.Machine
end

