-- ==== Sys2Proof/Machine/YardEvents.lean ====
section
/-!
DEFINITION. The meanings of the starts, and of the events of the fetch slots, the yard link, the Peer Table, the Yard Clock and the departure line.
-/
namespace Sys2Proof.Machine

/-- R51. The timer of fetch slot `i` runs out. -/
def fetchTimerExpires (i : Nat) (c : Chip) : Chip :=
  match fetchSlot c i with
  | .opened f => if due c f.timer then endWindow i c else c
  | _ => c

/-- R18. Cooling-until is reached: the segment returns to ABSENT. -/
def coolingEnds (k : ImageKey) (seg : Nat) (c : Chip) : Chip :=
  match segState c k seg with
  | some (.cooling t) => if reached c t then setSegState k seg .absent c else c
  | _ => c

/-- R23. A record 30,000 ms past its last-heard is removed; the fetches that named it then switch with no strike. -/
def peerExpires (id : Nat) (c : Chip) : Chip :=
  match findPeer c id with
  | some p => if reached c (p.lastHeard + 30000) then switchAway id (removePeer id c) else c
  | none => c

/-- R31. Shunned-until is reached: it becomes absent and selection runs. -/
def shunEnds (id : Nat) (c : Chip) : Chip :=
  match findPeer c id with
  | some p => if due c p.shunnedUntil then askSelection (updatePeer id (fun p => { p with shunnedUntil := none }) c) else c
  | none => c

/-- R32. Busy-until is reached: it becomes absent and selection runs. -/
def busyMarkEnds (id : Nat) (c : Chip) : Chip :=
  match findPeer c id with
  | some p => if due c p.busyUntil then askSelection (updatePeer id (fun p => { p with busyUntil := none }) c) else c
  | none => c

/-- R184. POWER_ON, with the levels at the pins: a start. -/
def execPowerOn (pins : Pins) (s : State) : Host.Outcome State Fault Refusal := run (startPart pins 0) s

/-- R184. RESTART_SELECT_RELEASE: the start of an answered RESTART. -/
def execRestartSelectRelease (s : State) : Host.Outcome State Fault Refusal := run (fun c => if c.port.restartArmed then startPart c.pins 1 c else c) s

/-- R51. FETCH_TIMER_EXPIRY. -/
def execFetchTimerExpiry (slot : Nat) (s : State) : Host.Outcome State Fault Refusal := run (fetchTimerExpires slot) s

/-- R18. COOLING_END. -/
def execCoolingEnd (image : ImageKey) (segment : Nat) (s : State) : Host.Outcome State Fault Refusal := run (coolingEnds image segment) s

/-- R84. TRANSMISSION_END. -/
def execTransmissionEnd (s : State) : Host.Outcome State Fault Refusal := run transmissionEnds s

/-- R82. CHANNEL_BUSY_RISE. -/
def execChannelBusyRise (s : State) : Host.Outcome State Fault Refusal := run busyRise s

/-- R81. CHANNEL_BUSY_FALL. -/
def execChannelBusyFall (s : State) : Host.Outcome State Fault Refusal := run busyFall s

/-- R81. GAP_ELAPSED. -/
def execGapElapsed (s : State) : Host.Outcome State Fault Refusal := run gapElapsed s

/-- R81. DEFER_SLOT_ELAPSED. -/
def execDeferSlotElapsed (s : State) : Host.Outcome State Fault Refusal := run deferElapsed s

/-- R81. COUNTDOWN_SLOT_ELAPSED. -/
def execCountdownSlotElapsed (s : State) : Host.Outcome State Fault Refusal := run countdownElapsed s

/-- R88. ALLOWANCE_WINDOW_OPEN. -/
def execAllowanceWindowOpen (s : State) : Host.Outcome State Fault Refusal := run openWindow s

/-- R90. OFFER_ROUND_EXPIRY. -/
def execOfferRoundExpiry (s : State) : Host.Outcome State Fault Refusal := run roundExpires s

/-- R23. PEER_EXPIRY. -/
def execPeerExpiry (station : Nat) (s : State) : Host.Outcome State Fault Refusal := run (peerExpires station) s

/-- R31. SHUN_END. -/
def execShunEnd (station : Nat) (s : State) : Host.Outcome State Fault Refusal := run (shunEnds station) s

/-- R32. BUSY_MARK_END. -/
def execBusyMarkEnd (station : Nat) (s : State) : Host.Outcome State Fault Refusal := run (busyMarkEnds station) s

/-- R165. BEACON_TIMER_EXPIRY. -/
def execBeaconTimerExpiry (s : State) : Host.Outcome State Fault Refusal := run beaconExpires s

/-- R168. FREE_RUNNING_TIMEOUT. -/
def execFreeRunningTimeout (s : State) : Host.Outcome State Fault Refusal := run freeRun s

/-- R141. NOT_BEFORE_REACHED. -/
def execNotBeforeReached (address : Nat) (s : State) : Host.Outcome State Fault Refusal := run (notBeforeReached address) s

/-- R175. DEPARTURE_LINE_EDGE. -/
def execDepartureLineEdge (asserted : Bool) (s : State) : Host.Outcome State Fault Refusal := run (lineEdge asserted) s

/-- R176. DEPARTURE_LINE_ASSERTED. -/
def execDepartureLineAsserted (s : State) : Host.Outcome State Fault Refusal := run lineAsserted s

/-- R177. LEAVE_TIMER_EXPIRY. -/
def execLeaveTimerExpiry (s : State) : Host.Outcome State Fault Refusal := run leaveExpires s

/-- R178. DEPARTURE_LINE_RELEASED. -/
def execDepartureLineReleased (s : State) : Host.Outcome State Fault Refusal := run lineReleased s

end Sys2Proof.Machine
end

