-- ==== Sys2Proof/Machine/Dispatch.lean ====
section
/-!
DEFINITION. The dispatch of commands: one arm for each constructor of Instr, each a direct call of that command's meaning.
-/
namespace Sys2Proof.Machine

def exec (i : Instr) (s : State) : Host.Outcome State Fault Refusal :=
  match i with
  | .powerOn pins => Sys2Proof.Machine.execPowerOn pins s
  | .restartSelectRelease => Sys2Proof.Machine.execRestartSelectRelease s
  | .offer frame => Sys2Proof.Machine.execOffer frame s
  | .ask frame => Sys2Proof.Machine.execAsk frame s
  | .block frame => Sys2Proof.Machine.execBlock frame s
  | .lacking frame => Sys2Proof.Machine.execLacking frame s
  | .refused frame => Sys2Proof.Machine.execRefused frame s
  | .busy frame => Sys2Proof.Machine.execBusy frame s
  | .plan frame => Sys2Proof.Machine.execPlan frame s
  | .planAsk frame => Sys2Proof.Machine.execPlanAsk frame s
  | .beacon frame => Sys2Proof.Machine.execBeacon frame s
  | .leave frame => Sys2Proof.Machine.execLeave frame s
  | .fetchTimerExpiry slot => Sys2Proof.Machine.execFetchTimerExpiry slot s
  | .fetchBlockProgramComplete => Sys2Proof.Machine.execFetchBlockProgramComplete s
  | .fetchBlockProgramFailed => Sys2Proof.Machine.execFetchBlockProgramFailed s
  | .claimProgramComplete => Sys2Proof.Machine.execClaimProgramComplete s
  | .claimProgramFailed => Sys2Proof.Machine.execClaimProgramFailed s
  | .coolingEnd image segment => Sys2Proof.Machine.execCoolingEnd image segment s
  | .checkReadComplete => Sys2Proof.Machine.execCheckReadComplete s
  | .headerProgramComplete => Sys2Proof.Machine.execHeaderProgramComplete s
  | .headerProgramFailed => Sys2Proof.Machine.execHeaderProgramFailed s
  | .serveReadComplete => Sys2Proof.Machine.execServeReadComplete s
  | .slotEraseComplete => Sys2Proof.Machine.execSlotEraseComplete s
  | .slotEraseFailed => Sys2Proof.Machine.execSlotEraseFailed s
  | .slotEraseMarkProgramComplete => Sys2Proof.Machine.execSlotEraseMarkProgramComplete s
  | .slotEraseMarkProgramFailed => Sys2Proof.Machine.execSlotEraseMarkProgramFailed s
  | .retiredMarkProgramEnd completed => Sys2Proof.Machine.execRetiredMarkProgramEnd completed s
  | .configReadComplete => Sys2Proof.Machine.execConfigReadComplete s
  | .planCopyReadComplete => Sys2Proof.Machine.execPlanCopyReadComplete s
  | .sweepReadComplete => Sys2Proof.Machine.execSweepReadComplete s
  | .manifestReadComplete => Sys2Proof.Machine.execManifestReadComplete s
  | .planCopyProgramComplete => Sys2Proof.Machine.execPlanCopyProgramComplete s
  | .planCopyProgramFailed => Sys2Proof.Machine.execPlanCopyProgramFailed s
  | .planCopyEraseComplete => Sys2Proof.Machine.execPlanCopyEraseComplete s
  | .planCopyEraseFailed => Sys2Proof.Machine.execPlanCopyEraseFailed s
  | .commissionEraseComplete => Sys2Proof.Machine.execCommissionEraseComplete s
  | .commissionEraseFailed => Sys2Proof.Machine.execCommissionEraseFailed s
  | .commissionProgramComplete => Sys2Proof.Machine.execCommissionProgramComplete s
  | .commissionProgramFailed => Sys2Proof.Machine.execCommissionProgramFailed s
  | .loadBlockProgramComplete => Sys2Proof.Machine.execLoadBlockProgramComplete s
  | .loadBlockProgramFailed => Sys2Proof.Machine.execLoadBlockProgramFailed s
  | .transmissionEnd => Sys2Proof.Machine.execTransmissionEnd s
  | .channelBusyRise => Sys2Proof.Machine.execChannelBusyRise s
  | .channelBusyFall => Sys2Proof.Machine.execChannelBusyFall s
  | .gapElapsed => Sys2Proof.Machine.execGapElapsed s
  | .deferSlotElapsed => Sys2Proof.Machine.execDeferSlotElapsed s
  | .countdownSlotElapsed => Sys2Proof.Machine.execCountdownSlotElapsed s
  | .allowanceWindowOpen => Sys2Proof.Machine.execAllowanceWindowOpen s
  | .offerRoundExpiry => Sys2Proof.Machine.execOfferRoundExpiry s
  | .peerExpiry station => Sys2Proof.Machine.execPeerExpiry station s
  | .shunEnd station => Sys2Proof.Machine.execShunEnd station s
  | .busyMarkEnd station => Sys2Proof.Machine.execBusyMarkEnd station s
  | .beaconTimerExpiry => Sys2Proof.Machine.execBeaconTimerExpiry s
  | .freeRunningTimeout => Sys2Proof.Machine.execFreeRunningTimeout s
  | .notBeforeReached address => Sys2Proof.Machine.execNotBeforeReached address s
  | .departureLineEdge asserted => Sys2Proof.Machine.execDepartureLineEdge asserted s
  | .departureLineAsserted => Sys2Proof.Machine.execDepartureLineAsserted s
  | .leaveTimerExpiry => Sys2Proof.Machine.execLeaveTimerExpiry s
  | .departureLineReleased => Sys2Proof.Machine.execDepartureLineReleased s
  | .lineWireChange clock data => Sys2Proof.Machine.execLineWireChange clock data s
  | .lineQuietElapsed => Sys2Proof.Machine.execLineQuietElapsed s
  | .cabinTransactionEnd unacknowledged received => Sys2Proof.Machine.execCabinTransactionEnd unacknowledged received s
  | .arbitrationLoss => Sys2Proof.Machine.execArbitrationLoss s
  | .lineFault wire => Sys2Proof.Machine.execLineFault wire s
  | .holdTimeout heldMs => Sys2Proof.Machine.execHoldTimeout heldMs s
  | .recoveringClockReleased => Sys2Proof.Machine.execRecoveringClockReleased s
  | .lineStuckTimeout => Sys2Proof.Machine.execLineStuckTimeout s
  | .censusPauseEnd => Sys2Proof.Machine.execCensusPauseEnd s
  | .censusHoldoffEnd => Sys2Proof.Machine.execCensusHoldoffEnd s
  | .jobPauseEnd => Sys2Proof.Machine.execJobPauseEnd s
  | .flasherReadComplete => Sys2Proof.Machine.execFlasherReadComplete s
  | .probationPollDue address => Sys2Proof.Machine.execProbationPollDue address s
  | .finalReadDue address => Sys2Proof.Machine.execFinalReadDue address s
  | .probationRepeatDue address => Sys2Proof.Machine.execProbationRepeatDue address s
  | .status => Sys2Proof.Machine.execStatus s
  | .readUnits => Sys2Proof.Machine.execReadUnits s
  | .readCatalog position firstSegment => Sys2Proof.Machine.execReadCatalog position firstSegment s
  | .readReports sequence => Sys2Proof.Machine.execReadReports sequence s
  | .setDeparture seconds => Sys2Proof.Machine.execSetDeparture seconds s
  | .clearDeparture => Sys2Proof.Machine.execClearDeparture s
  | .census => Sys2Proof.Machine.execCensus s
  | .restart => Sys2Proof.Machine.execRestart s
  | .commission record => Sys2Proof.Machine.execCommission record s
  | .loadPlan serial count entries => Sys2Proof.Machine.execLoadPlan serial count entries s
  | .loadSegmentOpen id version segment slot => Sys2Proof.Machine.execLoadSegmentOpen id version segment slot s
  | .loadBlock index data => Sys2Proof.Machine.execLoadBlock index data s
  | .loadSegmentClose mode => Sys2Proof.Machine.execLoadSegmentClose mode s
  | .badCommandFrame frame => Sys2Proof.Machine.execBadCommandFrame frame s
  | .exchangeDiscarded => Sys2Proof.Machine.execExchangeDiscarded s

end Sys2Proof.Machine
end

