-- ==== Sys2Proof/Machine/Timers.lean ====
section
/-!
DEFINITION. The part's own clock (log 3): a millisecond of local time, and the commands that local time then makes due (log 4).
-/
namespace Sys2Proof.Machine

/-- The commands of a list for which `f` holds. -/
def dueOf {α : Type} (l : List α) (f : α → Bool) (g : α → Instr) : List Instr := (l.filter f).map g

/-- A command, if its time has come. -/
def dueIf (b : Bool) (i : Instr) : List Instr := if b then [i] else []

/-- R51. The fetch slot's timer has run out. -/
def fetchTimerDue (c : Chip) (i : Nat) : Bool :=
  match fetchSlot c i with
  | .opened f => due c f.timer
  | _ => false

/-- R18. The COOLING segments of a record whose time has come. -/
def coolingDue (c : Chip) (r : ImageRecord) : List Instr :=
  (r.entries.zipIdx.filter (fun e => match e.1.state with | .cooling t => reached c t | _ => false)).map (fun e => .coolingEnd r.image e.2)

/-- R81. The access procedure's own event is due. -/
def accessDue (c : Chip) : List Instr :=
  match c.yard.phase with
  | .gap => dueIf (due c (c.yard.lastEnd.map (fun t => t + 5))) .gapElapsed
  | .defer (some s) => dueIf (reached c (s + 2) && !c.pins.channelBusy) .deferSlotElapsed
  | .countdown _ s => dueIf (reached c (s + 2) && !c.pins.channelBusy) .countdownSlotElapsed
  | _ => []

/-- R175. This level of the departure line has stood for 100 ms. -/
def levelDue (c : Chip) (level : Bool) : Bool := c.pins.departure == level && due c (c.departure.edgeAt.map (fun t => t + 100))

/-- R123, R124. A hold of the transaction in progress that has reached the request's hold limit. -/
def holdDue (c : Chip) : List Instr :=
  match transaction c, c.line.heldSince with
  | some r, some t => dueIf (reached c (t + r.holdLimit)) (.holdTimeout (c.now - t))
  | _, _ => []

/-- R113, R123, R125. The cabin line's own events. -/
def cabinDue (c : Chip) : List Instr :=
  (match c.line.state with
    | .quiet since => dueIf (reached c (since + 2)) .lineQuietElapsed
    | _ => []) ++
    holdDue c ++
    dueIf (lineBlocked c && !c.line.stuckReported && (stuckRequest c).isSome) .lineStuckTimeout

/-- R132, R133, R153. The pauses of the census and of the job, and an owed census after its hold-off. -/
def pausesDue (c : Chip) : List Instr :=
  (match c.census.state with
    | .paused t => dueIf (reached c t) .censusPauseEnd
    | _ => []) ++
    dueIf (censusMayBegin c) .censusHoldoffEnd ++
    dueIf (match c.seq.job with | some j => due c j.pausingUntil | none => false) .jobPauseEnd

/-- R158, R160. The times of the probations. -/
def probationsDue (c : Chip) : List Instr :=
  dueOf c.seq.probations (fun p => polls p && due c p.nextPoll && decide (p.nextPoll.getD 0 < p.finish)) (fun p => .probationPollDue p.address) ++
    dueOf c.seq.probations (fun p => p.phase == .polling && reached c p.finish) (fun p => .finalReadDue p.address) ++
    dueOf c.seq.probations (fun p => p.inHand.isNone && (match p.repeatDue with | some (t, _) => reached c t | none => false))
      (fun p => .probationRepeatDue p.address)

/-- R141. The entry waits for a not-before time that has been reached. -/
def notBeforeDue (c : Chip) (u : UnitEntry) : Bool := u.state == .waitingTime .notBefore && notBeforePassed c u

/-- The commands that local time has made due, in the order of the table's rows; those of one row in the order of fetch slot, of record and segment, of
rising station id, of rising unit address, or of the beginning of the probations (log 4). -/
def dueCommands (c : Chip) : List Instr :=
  dueOf [0, 1, 2, 3] (fetchTimerDue c) .fetchTimerExpiry ++
    c.catalog.records.flatMap (coolingDue c) ++
    accessDue c ++
    dueIf (reached c (c.yard.windowOpen + 1000)) .allowanceWindowOpen ++
    dueIf (due c c.yard.offerRound) .offerRoundExpiry ++
    dueOf c.peers (fun p => reached c (p.lastHeard + 30000)) (fun p => .peerExpiry p.id) ++
    dueOf c.peers (fun p => due c p.shunnedUntil) (fun p => .shunEnd p.id) ++
    dueOf c.peers (fun p => due c p.busyUntil) (fun p => .busyMarkEnd p.id) ++
    dueIf (due c c.clock.beaconTimer) .beaconTimerExpiry ++
    dueIf (c.clock.state == .synced && due c (c.clock.lastAdoption.map (fun t => t + 60000))) .freeRunningTimeout ++
    dueOf c.seq.units (notBeforeDue c) (fun u => .notBeforeReached u.address) ++
    dueIf (levelDue c true) .departureLineAsserted ++
    dueIf (c.departure.departed && due c c.departure.nextLeave) .leaveTimerExpiry ++
    dueIf (levelDue c false) .departureLineReleased ++
    cabinDue c ++
    pausesDue c ++
    probationsDue c

/-- Log 3. One millisecond of local time passes; what it makes due is queued. -/
def tick (s : State) : State :=
  let c := { s.chip with now := s.chip.now + 1 }
  { chip := c, pending := s.pending ++ dueCommands c }

end Sys2Proof.Machine
end

