-- ==== Sys2Proof/Safety.lean ====
section
/-!
DEFINITION. The terms in which claims are stated: what a step that only sets other blocks going leaves standing, what a command reports and queues, what
an accepted frame is, and the invariants.
-/
namespace Sys2Proof.Machine

/-! ## What stands -/

/-- The part of the chip that no block touches when it is merely set going by a command (log 13): a command's frame is said over these. -/
structure Standing where
  pins : Pins
  role : Role
  total : Nat
  now : Nat
  freeCount : Nat
  plans : PlanStore
  lastOffered : Option ImageKey
  mode : PortMode
  cw : Nat
  lastEnd : Option Nat
  windowOpen : Nat
  allowance : Nat
  airtimeUsed : Nat
  offerRound : Option Nat
  roundOffer : Option OfferBody
  onAir : Option OnAir
  flash : List Host.Cell
  retiredList : List Nat
  awaitingMark : List Nat
  eraseMarkDue : Option Nat
  scanPhase : ScanPhase
  scanNext : Nat
  findings : List Finding
  probations : List ProbationRecord
  clock : Clock
  departure : Departure
  part : PartState
  config : Option ConfigRecord
  reply : Option Reply
  restartArmed : Bool
  commission : CommissionState
  commissionRecord : List Byte
  load : LoadState
  deriving DecidableEq, Repr

/-- The standing part of a chip. -/
def standing (c : Chip) : Standing where
  pins := c.pins
  role := c.role
  total := c.total
  now := c.now
  freeCount := c.freeCount
  plans := c.plans
  lastOffered := c.catalog.lastOffered
  mode := c.yard.mode
  cw := c.yard.cw
  lastEnd := c.yard.lastEnd
  windowOpen := c.yard.windowOpen
  allowance := c.yard.allowance
  airtimeUsed := c.yard.airtimeUsed
  offerRound := c.yard.offerRound
  roundOffer := c.yard.roundOffer
  onAir := c.yard.onAir
  flash := c.store.flash
  retiredList := c.store.retiredList
  awaitingMark := c.store.awaitingMark
  eraseMarkDue := c.store.eraseMarkDue
  scanPhase := c.store.scanPhase
  scanNext := c.store.scanNext
  findings := c.store.findings
  probations := c.seq.probations
  clock := c.clock
  departure := c.departure
  part := c.port.part
  config := c.port.config
  reply := c.port.reply
  restartArmed := c.port.restartArmed
  commission := c.port.commission
  commissionRecord := c.port.commissionRecord
  load := c.port.load

/-! ## What is reported and queued -/

/-- The kinds of report that a block appends when it is set going by another's command: the Fetch Engine's STORE_FULL (R45), an admission run's
CATALOG_FULL (R11), the end of a load (R188) and the Sequencer's. -/
def setOffKinds : List ReportKind := [.storeFull, .catalogFull, .loadDone, .jobStarted, .budgetDeferred, .jobFailed, .jobCancelled, .unitAhead, .unitStranded]

/-- Records appended one after another (R189). -/
def pushReports (ring rs : List Report) : List Report := rs.foldl (fun l r => pushReport r l) ring

/-- Going from one ring to another, an unread record of this kind, subject and detail was appended at local time `now`; after it only records of
blocks that were set going. -/
def Reported (before after : List Report) (kind : ReportKind) (subject : Subject) (detail now : Nat) : Prop :=
  ∃ (earlier later : List Report) (r : Report),
    after = pushReports before (earlier ++ r :: later) ∧ r.kind = kind ∧ r.subject = subject ∧ r.detail = BitVec.ofNat 16 detail ∧ r.unread = true ∧
      r.localTime = BitVec.ofNat 32 now ∧ ∀ x ∈ later, x.kind ∈ setOffKinds

/-- Going from one ring to another, such a record was appended at local time `now`, whatever came after it. -/
def Appended (before after : List Report) (kind : ReportKind) (subject : Subject) (detail now : Nat) : Prop :=
  ∃ (earlier later : List Report) (r : Report),
    after = pushReports before (earlier ++ r :: later) ∧ r.kind = kind ∧ r.subject = subject ∧ r.detail = BitVec.ofNat 16 detail ∧ r.unread = true ∧
      r.localTime = BitVec.ofNat 32 now

/-- R188. Going from one chip to another, the load has ended: no load stands, and LOAD_DONE was appended with this detail. -/
def LoadEnded (before after : Chip) (l : Load) (detail : Nat) : Prop :=
  after.port.load = .idle ∧ Reported before.port.reports after.port.reports .loadDone (.segment l.image l.segment) detail before.now

/-- Going from one urgent lane to another, this frame was taken right behind what was there. -/
def Queued (before after : List UrgentFrame) (f : UrgentFrame) : Prop := ∃ later : List UrgentFrame, after = before ++ f :: later

/-- A command that has no effect of its own: the step is one in which only what already waited goes on. -/
def NoEffect (i : Instr) (s : State) : Prop := exec i s = .next { s with chip := settle s.chip }

/-! ## Received frames -/

/-- R79. The row's frame reaches its owner: the port is ON, the bytes pass the checks at this station, and they are of the row's kind. -/
def Accepts (c : Chip) (kind : FrameKind) (frame : List Byte) (f : RxFrame) : Prop :=
  c.yard.mode = .on ∧ acceptFrame (stationId c) frame = some f ∧ f.kind = kind

/-- The row of a received frame of each kind. -/
def frameRow : FrameKind → List Byte → Instr
  | .offer, frame => .offer frame
  | .ask, frame => .ask frame
  | .block, frame => .block frame
  | .lacking, frame => .lacking frame
  | .busy, frame => .busy frame
  | .refused, frame => .refused frame
  | .plan, frame => .plan frame
  | .planAsk, frame => .planAsk frame
  | .beacon, frame => .beacon frame
  | .leave, frame => .leave frame

/-- R6. The frame's serial causes no PlanAsk beside this held serial. -/
def NoAsk (c : Chip) (f : RxFrame) : Prop := f.serial ≤ heldSerial c ∨ f.departing = true ∨ c.role = .origin ∨ planAskFree c = false

/-! ## The flash, byte by byte (R96) -/

/-- R96. From the first flash to the second, `bs` was programmed at address `a`: a byte within that read 0xFF takes the value given, another keeps its
value, and no byte elsewhere changes. -/
def Programmed (before after : List Host.Cell) (a : Nat) (bs : List Byte) : Prop :=
  (∀ i < bs.length, Memory.read after (a + i) = if Memory.read before (a + i) = erasedByte then bs.getD i erasedByte else Memory.read before (a + i)) ∧
    ∀ x, (x < a ∨ a + bs.length ≤ x) → Memory.read after x = Memory.read before x

/-- R96. From the first flash to the second, the slot was erased: its bytes read 0xFF, and no byte elsewhere changes. -/
def Erased (before after : List Host.Cell) (slot : Nat) : Prop :=
  (∀ x, slot * slotBytes ≤ x → x < slot * slotBytes + slotBytes → Memory.read after x = erasedByte) ∧
    ∀ x, (x < slot * slotBytes ∨ slot * slotBytes + slotBytes ≤ x) → Memory.read after x = Memory.read before x

/-- Log 9. A program of `n` bytes at address `a` has failed: what it leaves in bytes that read 0xFF is open, and every other byte of the flash stands. -/
def ProgramFailed (before after : List Host.Cell) (a n : Nat) : Prop :=
  ∀ x, (x < a ∨ a + n ≤ x ∨ Memory.read before x ≠ erasedByte) → Memory.read after x = Memory.read before x

/-- Log 9. An erase of the slot has failed: every byte outside the slot stands. -/
def EraseFailed (before after : List Host.Cell) (slot : Nat) : Prop :=
  ∀ x, (x < slot * slotBytes ∨ slot * slotBytes + slotBytes ≤ x) → Memory.read after x = Memory.read before x

/-! ## The store (06) -/

/-- R105. How far round the ring a client stands after the one last granted: 0 for the next, 6 for itself. -/
def ringDistance (last k : StoreClient) : Nat :=
  let place := fun (x : StoreClient) =>
    match x with
    | .fetchWriter => 0
    | .checker => 1
    | .serverReader => 2
    | .flasherReader => 3
    | .localPort => 4
    | .eraser => 5
    | .scanner => 6
  (place k + 6 - place last) % 7

/-- R104. The row by which an operation on a segment-area slot ends in failure, with the slot, STORE_ERROR's detail, and the first and the number of the
bytes it was working on. -/
def failureOf : StoreOp → Option (Instr × Nat × Nat × Nat × Nat)
  | .fetchBlock _ slot b data => some (.fetchBlockProgramFailed, slot, 1, dataAddress slot (b * 128), data.length)
  | .fetchClaim _ slot => some (.claimProgramFailed, slot, 2, spareAddress slot 2, 2)
  | .loadClaim slot => some (.claimProgramFailed, slot, 2, spareAddress slot 2, 2)
  | .loadBlock slot b data => some (.loadBlockProgramFailed, slot, 1, dataAddress slot (b * 128), data.length)
  | .checkHeader slot bytes => some (.headerProgramFailed, slot, 2, spareAddress slot 4, bytes.length)
  | .slotErase slot => some (.slotEraseFailed, slot, 3, slot * slotBytes, slotBytes)
  | .eraseMark slot => some (.slotEraseMarkProgramFailed, slot, 2, spareAddress slot 0, 2)
  | _ => none

/-- R111, R112. The scan has gone on from its MANIFESTS phase: it stands at a finding for segment 0 that is to be read, or it is DONE. -/
def ScanMovedOn (c : Chip) : Prop :=
  (c.store.scanPhase = .manifests ∧ ∃ g, manifestFinding c = some g ∧ considersManifest c g = true) ∨
    (c.store.scanPhase = .done ∧ c.store.findings = [] ∧ c.port.part = .running ∧ (c.yard.mode = .on → c.yard.offerRound = some (c.now + 2000)))

/-- R184, log 10. Where an operation cut off by a start was working: the first of its bytes, their number, and whether it was an erase; none for a read.
Of a header program the last byte is not counted (R194). -/
def cutRange : StoreOp → Option (Nat × Nat × Bool)
  | .fetchClaim _ slot => some (spareAddress slot 2, 2, false)
  | .loadClaim slot => some (spareAddress slot 2, 2, false)
  | .fetchBlock _ slot b data => some (dataAddress slot (b * 128), data.length, false)
  | .loadBlock slot b data => some (dataAddress slot (b * 128), data.length, false)
  | .checkHeader slot bytes => some (spareAddress slot 4, bytes.length - 1, false)
  | .planProgram position piece data => some (dataAddress 1 (512 * position + 128 * piece), data.length, false)
  | .planErase => some (dataAddress 1 0, slotBytes, true)
  | .commissionErase => some (dataAddress 0 0, slotBytes, true)
  | .commissionProgram data => some (dataAddress 0 0, data.length, false)
  | .slotErase slot => some (dataAddress slot 0, slotBytes, true)
  | .eraseMark slot => some (spareAddress slot 0, 2, false)
  | .retiredMark slot => some (spareAddress slot 60, 4, false)
  | _ => none

/-- R99. The slot map is whole: its slots rise, and all lie in the segment area. -/
def MapWhole (c : Chip) : Prop :=
  c.store.slotMap.Pairwise (fun x y => x.1 < y.1) ∧ ∀ x ∈ c.store.slotMap, 8 ≤ x.1 ∧ x.1 < segmentEnd c

/-! ## Membership of the catalog (01) -/

/-- R11, R14. What an image record takes from the live entry that names its image. -/
def recordKey (r : ImageRecord) : ImageKey × NeedClass × Bool × Word32 × Nat := (r.image, r.need, r.priv, r.manifestCrc, r.model)

/-- R11. The station needs an entry's image as OWN: it is an origin, or some unit has the entry's model code. -/
def ownFor (role : Role) (units : List UnitEntry) (x : Nat × PlanEntry) : Bool := role == .origin || units.any (fun u => u.identity.model == x.2.model)

/-- R11. The candidates of an admission run in the order of its two passes. -/
def admissionPasses (role : Role) (units : List UnitEntry) (config : Option ConfigRecord) (live : List (Nat × PlanEntry)) : List (Nat × PlanEntry) :=
  let own := ownFor role units
  let carries := match config with | some r => r.courier | none => false
  live.filter own ++ live.filter (fun x => !own x && carries && !x.2.priv)

/-- R11. What a run admits: the first 12 of the passes, in the order in which their entries stand in the plan. -/
def admittedKeys (role : Role) (units : List UnitEntry) (config : Option ConfigRecord) (live : List (Nat × PlanEntry)) :
    List (ImageKey × NeedClass × Bool × Word32 × Nat) :=
  let admitted := (admissionPasses role units config live).take 12
  (live.filter (fun x => admitted.contains x)).map
    (fun x => (x.2.image, if ownFor role units x then NeedClass.own else NeedClass.courier, x.2.priv, x.2.crc, x.2.model))

/-- R12, R14. The record of an image newly taken into the catalog for a live entry. -/
def freshRecord (e : PlanEntry) (need : NeedClass) : ImageRecord :=
  { image := e.image, need := need, priv := e.priv, manifestCrc := e.crc, model := e.model, state := .needsManifest, manifest := none,
    entries := [{ state := .absent, holders := 0 }], spanCursor := 0 }

/-- R12. The record survives beside an admitted image. -/
def Stays (r : ImageRecord) (a : Admitted) : Prop :=
  r.image = a.entry.image ∧ r.manifestCrc = a.entry.crc ∧ r.model = a.entry.model ∧ ¬(r.priv = false ∧ a.entry.priv = true)

/-- Going from one chip to another, every program of the local port client on the slot is still presented, and the slot's condition and owner stand. -/
def ProgramsStand (before after : Chip) (slot : Nat) : Prop :=
  slotInfo after slot = slotInfo before slot ∧
    ∀ w, w.op.client = .localPort → w.op.slot? = some slot →
      (w ∈ before.store.waiting → w ∈ after.store.waiting) ∧ (w ∈ before.store.portQueue → w ∈ after.store.portQueue)

/-- No segment of a record is HELD in the slot, and no open fetch fills it. -/
def SlotApart (c : Chip) (slot : Nat) : Prop :=
  (∀ r ∈ c.catalog.records, ∀ e ∈ r.entries, e.state ≠ .held slot) ∧ ∀ i < 4, ∀ f, fetchSlot c i = .opened f → f.storeSlot ≠ slot

/-- R12, R188. Going from one chip to another, the image's record has been removed with all that goes with it: its fetches are cancelled, its checks have
lost their record, its slots are on their way to the dirty queue, no peer list or serve slot names it, and an open load of it has ended, whose pending
program goes on where the slot is the load's alone. -/
def RecordRemoved (before after : Chip) (r : ImageRecord) : Prop :=
  let goes := fun (slot : Nat) => slot ∈ after.store.dirtyQueue ∨ slot ∈ after.store.releasing
  (∀ p ∈ after.peers, rangeList p r.image = []) ∧
    (∀ e ∈ r.entries, ∀ slot, e.state = .held slot → goes slot) ∧
    (∀ i < 4, ∀ f, fetchSlot before i = .opened f → f.image = r.image → fetchSlot after i = .free ∧ goes f.storeSlot) ∧
    (∀ q ∈ after.store.checkQueue, q.image = r.image → q.orphan = true) ∧
    (∀ i < 3, ∀ e, (serveSlot after i).entry? = some e → e.image ≠ r.image) ∧
    ∀ l, before.port.load = .opened l → l.image = r.image →
      LoadEnded before after l 3 ∧ goes l.slot ∧ (l.pending ∨ ¬l.claimed → SlotApart before l.slot → ProgramsStand before after l.slot)

/-! ## Peers (02) -/

/-- A peer's record but for its open fetches, which the Fetch Engine raises and lowers as it goes (R33). -/
def peerBody (p : PeerRecord) : PeerRecord := { p with openFetches := 0 }

/-- R25. Every holder count equals the number of peer records whose list for the image covers the segment. -/
def HoldersExact (c : Chip) : Prop :=
  ∀ r ∈ c.catalog.records, ∀ i e, r.entries[i]? = some e → e.holders = c.peers.countP (fun p => covers (rangeList p r.image) i)

/-- R24. A peer holds a list only for an image of the catalog. -/
def ListsTracked (c : Chip) : Prop := ∀ p ∈ c.peers, ∀ k, rangeList p k ≠ [] → (findRecord c k).isSome

/-- Every record of the second table but those of `station` stood in the first, its open fetches aside. -/
def OthersStand (before after : List PeerRecord) (station : Nat) : Prop :=
  ∀ q ∈ after, q.id ≠ station → ∃ p ∈ before, peerBody q = peerBody p

/-- The records of a peer table but those of `station`, their open fetches aside. -/
def otherBodies (station : Nat) (peers : List PeerRecord) : List PeerRecord := (peers.filter (fun p => p.id != station)).map peerBody

/-- The first fetch slot whose OPEN fetch `hit` picks. -/
def firstOpen (c : Chip) (hit : OpenFetch → Bool) : Option Nat :=
  [0, 1, 2, 3].find? (fun j => match fetchSlot c j with | .opened f => hit f | _ => false)

/-- R56, R57. The fetch has left its peer: where slot `i` is still open on the segment, it is by a switch to another peer. -/
def LeftPeer (c : Chip) (i : Nat) (x : OpenFetch) : Prop :=
  ∀ g, fetchSlot c i = .opened g → g.image = x.image → g.segment = x.segment →
    g.peer ≠ x.peer ∧ g.switches = x.switches + 1 ∧ g.base = x.base ∧ g.bitmap = x.bitmap ∧ g.reask = false ∧ g.switchOwed = false ∧
      g.timer = none ∧ g.windowStart = none

/-- R30. No fetch stays open on the station but one that owes its switch. -/
def SwitchedFrom (c : Chip) (station : Nat) : Prop :=
  ∀ i < 4, ∀ f, fetchSlot c i = .opened f → f.peer = station → f.switchOwed = true

/-! ## Units (08) -/

/-- R154. Going from one chip to another, the job's attempt has failed for this reason: the job record and its waiting request are gone, and a first
failure leaves the entry READY. -/
def AttemptFailed (before after : Chip) (j : JobRecord) (r : FailReason) : Prop :=
  after.seq.job = none ∧ (∀ x ∈ after.line.requests, x.client ≠ .job) ∧
    Appended before.port.reports after.port.reports .attemptFailed (.number j.address) r.code before.now ∧
    ∀ u, findUnit before j.address = some u →
      (u.attempts = 0 →
        findUnit after j.address = some { u with attempts := 1, last := some (.attempt r, before.now), state := .ready }) ∧
        (1 ≤ u.attempts → Appended before.port.reports after.port.reports .jobFailed (.number j.address) r.code before.now)

/-- R158, R160. The probation record with a request of this kind presented. -/
def asking (k : ProbationRequest) (p : ProbationRecord) : ProbationRecord := { p with inHand := some k, repeatDue := none }

/-! ## Manifests (R16) -/

/-- R16. The nine conditions on a manifest segment, by reason number. -/
def manifestCondition (image : ImageKey) (model : Nat) (bs : List Byte) (reason : Nat) : Prop :=
  let count := be16 bs 6
  let length := be32 bs 8
  let ws := windowsAt bs 32 (byteAt bs 12)
  match reason with
  | 1 => crc32 (bs.take 28 ++ bs.drop 32) = BitVec.ofNat 32 (be32 bs 28)
  | 2 => (⟨be16 bs 0, be16 bs 2⟩ : ImageKey) = image
  | 3 => be16 bs 4 = model
  | 4 => 1 ≤ count ∧ count ≤ 2024
  | 5 => (count - 1) * 8192 + 1 ≤ length ∧ length ≤ count * 8192
  | 6 => 1 ≤ byteAt bs 12 ∧ byteAt bs 12 ≤ 4
  | 7 => (∀ w ∈ ws, 1 ≤ w.first ∧ w.first ≤ w.last ∧ w.last ≤ count) ∧ ws.Pairwise (fun v w => v.last < w.first)
  | 8 => ∀ w ∈ ws, w.offset % 4096 = 0
  | 9 =>
    ws.Pairwise
      (fun v w =>
        ∀ x, ¬(v.offset ≤ x ∧ x < v.offset + windowLength count length v ∧ w.offset ≤ x ∧ x < w.offset + windowLength count length w))
  | _ => True

/-! ## Invariants -/

/-- R136. The unit table is in ascending order of address. -/
def UnitsInOrder (c : Chip) : Prop := c.seq.units.Pairwise (fun u v => u.address < v.address)

/-- R137, R142. An entry in a flashing state is the active job's. -/
def OnlyJobFlashes (c : Chip) : Prop := ∀ u ∈ c.seq.units, u.state.flashing = true → ∃ j, c.seq.job = some j ∧ j.address = u.address

/-- R89. The airtime used, in µs, does not exceed the allowance, in ms. -/
def AirtimeWithin (c : Chip) : Prop := c.yard.airtimeUsed ≤ c.yard.allowance * 1000

/-- R189, R38, R39, R62, R136, R85, R20, R11. The sizes of the report ring, the fetch slots, the block buffer, the serve slots, the ask queue, the unit
table, the urgent lane, the peer table and the catalog. -/
def WithinCapacities (c : Chip) : Prop :=
  c.port.reports.length ≤ 64 ∧ c.fetch.slots.length = 4 ∧ c.fetch.buffer.length ≤ 16 ∧ c.serve.slots.length = 3 ∧ c.serve.queue.length ≤ 8 ∧
    c.seq.units.length ≤ 24 ∧ c.yard.urgent.length ≤ 8 ∧ c.peers.length ≤ 48 ∧ c.catalog.records.length ≤ 12

end Sys2Proof.Machine
end

