-- ==== Sys2Proof/Certificates/Slice0/Obligations.lean ====
section
/-!
DEFINITION. The statements for the provers. `t` is the next state throughout; `standing` is the part of the chip that no block touches when it is merely
set going (log 13), and serves as the frame.
-/
open Sys2Proof Sys2Proof.Machine

/-! ## Steps -/

/-- A step carries out the command at the front of the queue, with the queue's rest. -/
def Obligations.StepRunsFrontCommand : Prop :=
  ∀ (c : Chip) (i : Instr) (rest : List Instr), step { chip := c, pending := i :: rest } = exec i { chip := c, pending := rest }

/-- The model's choice (log 3): on an empty queue a millisecond of local time passes, nothing else changes, and what is then due is queued. -/
def Obligations.StepTicksOnEmptyQueue : Prop :=
  ∀ c : Chip, ∃ t, step { chip := c, pending := [] } = .next t ∧ t.chip = { c with now := c.now + 1 } ∧
    (∀ p ∈ c.peers, p.lastHeard + 30000 ≤ c.now + 1 → Instr.peerExpiry p.id ∈ t.pending) ∧
    (c.yard.windowOpen + 1000 ≤ c.now + 1 → Instr.allowanceWindowOpen ∈ t.pending) ∧
    ∀ since, c.line.state = .quiet since → (Instr.lineQuietElapsed ∈ t.pending ↔ since + 2 ≤ c.now + 1)

/-! ## Plans (01) -/

/-- R3. What is live and what is inert in a plan body, and that live entries differ in image, and in model or version. -/
def Obligations.LiveEntriesOfPlan : Prop :=
  ∀ body : List Byte,
    let es := planEntries body
    let live := liveOf body
    live.Pairwise (fun x y => x.1 < y.1 ∧ x.2.image ≠ y.2.image ∧ ¬(x.2.model = y.2.model ∧ x.2.image.version = y.2.image.version)) ∧
      (∀ x ∈ live, es[x.1]? = some x.2 ∧ x.2.image.id ≠ 0) ∧
      ∀ i e, es[i]? = some e → (i, e) ∉ live →
        e.image.id = 0 ∨
          ∃ x ∈ live, x.1 < i ∧
            ((x.2.image = e.image ∧ (x.2.model ≠ e.model ∨ x.2.crc ≠ e.crc)) ∨ (x.2.model = e.model ∧ x.2.image.version = e.image.version))

/-- R4, R5, R8, R11. A Plan frame that reaches the Plan Store is adopted or dropped: the held body, the relay, the persist, the records admitted with
CATALOG_FULL, and PLAN_ADOPTED. That a persist is only noted while slot 1 is unread (`scanPhase = .system`) is the model's choice (log 14). -/
def Obligations.PlanFrameAdoptedOrDropped : Prop :=
  ∀ (s : State) (frame : List Byte) (f : RxFrame), Accepts s.chip .plan frame f →
    let body := f.payload
    let old := s.chip.plans
    ∃ t, exec (.plan frame) s = .next t ∧ t.pending = s.pending ∧
      standing t.chip = { standing s.chip with plans := t.chip.plans, load := t.chip.port.load } ∧
      if s.chip.role = .busStation ∧ f.originFlag = true ∧
          crc32 (body.take (body.length - 4)) = BitVec.ofNat 32 (be32 body (body.length - 4)) ∧ heldSerial s.chip < be32 body 2 then
        t.chip.plans.body = body ∧ t.chip.plans.relayPending = true ∧ t.chip.plans.nextPosition = old.nextPosition ∧
          Reported s.chip.port.reports t.chip.port.reports .planAdopted (.number (be16 body 0)) (inertCount t.chip) s.chip.now ∧
          t.chip.catalog.records.map recordKey = admittedKeys s.chip.role s.chip.seq.units s.chip.port.config (liveOf body) ∧
          (let passes := admissionPasses s.chip.role s.chip.seq.units s.chip.port.config (liveOf body)
           12 < passes.length → Appended s.chip.port.reports t.chip.port.reports .catalogFull .none (passes.length - 12) s.chip.now) ∧
          (match old.persist with
            | .writing b p i e => t.chip.plans.persist = .writing b p i e ∧ t.chip.plans.persistNoted = true
            | .idle =>
              if s.chip.store.scanPhase = .system then t.chip.plans.persist = .idle ∧ t.chip.plans.persistNoted = true
              else
                t.chip.plans.persist =
                  if old.nextPosition < 16 then .writing body old.nextPosition 0 false else .writing body 0 0 true)
      else t.chip.plans = { old with lastPlanAsk := t.chip.plans.lastPlanAsk } ∧ t.chip.port.load = s.chip.port.load

/-- R6 (log 26 for the ends of the 5,000 ms). A frame other than a Plan whose serial is greater than the held one causes a PlanAsk under the rule's
four conditions and at no other time. -/
def Obligations.GreaterSerialCausesPlanAsk : Prop :=
  ∀ (s : State) (kind : FrameKind) (frame : List Byte) (f : RxFrame), kind ≠ .plan → Accepts s.chip kind frame f →
    let asks :=
      heldSerial s.chip < f.serial ∧ f.departing = false ∧ s.chip.role = .busStation ∧ ∀ q, s.chip.plans.lastPlanAsk = some q → q + 5000 < s.chip.now
    ∃ t, exec (frameRow kind frame) s = .next t ∧
      (asks → t.chip.plans.lastPlanAsk = some s.chip.now ∧ (s.chip.yard.urgent.length < 7 → .planAsk f.sender ∈ t.chip.yard.urgent)) ∧
      (¬asks → t.chip.plans.lastPlanAsk = s.chip.plans.lastPlanAsk)

/-- R7. A PlanAsk at the station it names, and at another. -/
def Obligations.PlanAskSetsRelayPending : Prop :=
  ∀ (s : State) (frame : List Byte) (f : RxFrame), Accepts s.chip .planAsk frame f →
    ∃ t, exec (.planAsk frame) s = .next t ∧ t.pending = s.pending ∧
      standing t.chip =
        { standing s.chip with
          plans :=
            { s.chip.plans with
              relayPending := s.chip.plans.relayPending || (be16 f.payload 0 == stationId s.chip && decide (0 < heldSerial s.chip))
              lastPlanAsk := t.chip.plans.lastPlanAsk } }

/-- R8, R96. The ends of the operations on the plan copy. What a failed program or erase leaves in the bytes it worked on, and that every other byte
stands, is the model's choice (log 9); that a failed write leaves no whole copy that was not there before is R8's. -/
def Obligations.PlanCopyWriteProceeds : Prop :=
  (∀ (s : State) (pos piece : Nat) (data body : List Byte) (live : Bool),
    s.chip.store.current = some { op := .planProgram pos piece data, live := live } → s.chip.plans.persist = .writing body pos piece false →
    let again := s.chip.plans.persistNoted && heldSerial s.chip != planSerial body
    let a := dataAddress 1 (512 * pos + 128 * piece)
    (∃ t, exec .planCopyProgramComplete s = .next t ∧ t.pending = s.pending ∧
      Programmed s.chip.store.flash t.chip.store.flash a data ∧
      standing t.chip = { standing s.chip with flash := t.chip.store.flash, plans := t.chip.plans } ∧
      t.chip.plans.body = s.chip.plans.body ∧
      if piece + 1 < (body.length + 127) / 128 then
        t.chip.plans = { s.chip.plans with persist := .writing body pos (piece + 1) false }
      else
        t.chip.plans.nextPosition = pos + 1 ∧ t.chip.plans.persistNoted = false ∧
          t.chip.plans.persist =
            if again then (if pos + 1 < 16 then .writing s.chip.plans.body (pos + 1) 0 false else .writing s.chip.plans.body 0 0 true) else .idle) ∧
    ∃ t, exec .planCopyProgramFailed s = .next t ∧ t.pending = s.pending ∧
      ProgramFailed s.chip.store.flash t.chip.store.flash a data.length ∧
      ((wholePlanBody (copyPosition t.chip pos)).isSome → (wholePlanBody (copyPosition s.chip pos)).isSome) ∧
      standing t.chip = { standing s.chip with flash := t.chip.store.flash, plans := t.chip.plans, freeCount := t.chip.freeCount } ∧
      t.chip.plans =
        { s.chip.plans with
          nextPosition := 16
          persistNoted := false
          persist := if again then .writing s.chip.plans.body 0 0 true else .idle } ∧
      Reported s.chip.port.reports t.chip.port.reports .storeError (.number 1) 1 s.chip.now) ∧
  ∀ (s : State) (pos piece : Nat) (body : List Byte) (live : Bool),
    s.chip.store.current = some { op := .planErase, live := live } → s.chip.plans.persist = .writing body pos piece true →
    let again := s.chip.plans.persistNoted && heldSerial s.chip != planSerial body
    (∃ t, exec .planCopyEraseComplete s = .next t ∧ t.pending = s.pending ∧ Erased s.chip.store.flash t.chip.store.flash 1 ∧
      standing t.chip =
        { standing s.chip with flash := t.chip.store.flash, plans := { s.chip.plans with persist := .writing body pos 0 false } }) ∧
    ∃ t, exec .planCopyEraseFailed s = .next t ∧ t.pending = s.pending ∧ EraseFailed s.chip.store.flash t.chip.store.flash 1 ∧
      (∀ n < 16, wholePlanBody (copyPosition t.chip n) = none) ∧
      standing t.chip =
        { standing s.chip with
          flash := t.chip.store.flash
          freeCount := t.chip.freeCount
          plans :=
            { s.chip.plans with
              nextPosition := 16
              persistNoted := false
              persist := if again then .writing s.chip.plans.body 0 0 true else .idle } } ∧
      Reported s.chip.port.reports t.chip.port.reports .storeError (.number 1) 3 s.chip.now

/-- R9, R11, R12, R13, R188 (log 14, the model's choice, for a plan adopted before the copy is read; log 7 for the 64 reads of slot 1). What the reads of slot 1
restore, and what the start admits, in a part whose catalog has no record yet; what an admitted set makes of the records; and what a run admits. -/
def Obligations.PlanCopyRestored : Prop :=
  (∀ (s : State) (index : Nat) (live : Bool), s.chip.store.current = some { op := .scanPlan index, live := live } → index < 63 →
    ∃ t c', exec .planCopyReadComplete s = .next t ∧ t = { s with chip := settle c' } ∧ standing t.chip = standing s.chip ∧
      c'.store.portQueue = s.chip.store.portQueue ++ [{ op := .scanPlan (index + 1), owner := none }]) ∧
  (∀ (s : State) (live : Bool), s.chip.store.current = some { op := .scanPlan 63, live := live } → s.chip.catalog.records = [] →
    let copy := copyPosition s.chip
    let restored := Reported s.chip.port.reports
    ∃ t, exec .planCopyReadComplete s = .next t ∧ t.pending = s.pending ∧
      standing t.chip =
        { standing s.chip with
          scanPhase := .sweep
          scanNext := 8
          plans :=
            { s.chip.plans with
              relayPending := false, persist := .idle, persistNoted := false, body := t.chip.plans.body, nextPosition := t.chip.plans.nextPosition } } ∧
      ((∀ n < 16, wholePlanBody (copy n) = none) →
        t.chip.plans.body = [] ∧
          if (List.range 16).all (fun n => allErased (copy n)) then
            t.chip.plans.nextPosition = 0 ∧ restored t.chip.port.reports .planRestored .none 1 s.chip.now
          else t.chip.plans.nextPosition = 16 ∧ restored t.chip.port.reports .planRestored .none 2 s.chip.now) ∧
      ((∃ n < 16, (wholePlanBody (copy n)).isSome) →
        (∃ n < 16, wholePlanBody (copy n) = some t.chip.plans.body) ∧
          (∀ n < 16, ∀ b, wholePlanBody (copy n) = some b → planSerial b ≤ planSerial t.chip.plans.body) ∧
          (∃ n < 16, allErased (copy n) = false ∧ (∀ m < 16, n < m → allErased (copy m) = true) ∧ t.chip.plans.nextPosition = n + 1) ∧
          restored t.chip.port.reports .planRestored (.serial (planSerial t.chip.plans.body)) 0 s.chip.now) ∧
      (let live := liveOf t.chip.plans.body
       t.chip.catalog.records = (live.take 12).map (fun x => freshRecord x.2 .own) ∧
         (12 < live.length → Appended s.chip.port.reports t.chip.port.reports .catalogFull .none (live.length - 12) s.chip.now))) ∧
  (∀ (c : Chip) (admitted : List Admitted), (c.catalog.records.map (fun r => r.image)).Nodup →
    let d := applyAdmission admitted c
    d.fetch.selectionAsked = true ∧ d.catalog.records.length = admitted.length ∧
      (∀ (i : Nat) (a : Admitted), admitted[i]? = some a →
        (∀ r ∈ c.catalog.records, Stays r a → d.catalog.records[i]? = some { r with need := a.need, priv := a.entry.priv }) ∧
          ((∀ r ∈ c.catalog.records, ¬Stays r a) → d.catalog.records[i]? = some (freshRecord a.entry a.need))) ∧
      ∀ r ∈ c.catalog.records, (∀ a ∈ admitted, ¬Stays r a) → RecordRemoved c d r) ∧
  ∀ c : Chip, (admission c).catalog.records.map recordKey = admittedKeys c.role c.seq.units c.port.config (liveEntries c)

/-- R10, R2, R5, R8, R11, R193. LOAD_PLAN on a running part: refused, bad, stale, or the plan adopted with this station as its author. That the pads of its
entries and the unnamed bits of their flags are zero whatever the host gave is deduced (log 57); that a persist is only noted while slot 1 is unread is the
model's choice (log 14), and nothing is said of it here. -/
def Obligations.LoadPlanAnswers : Prop :=
  ∀ (s : State) (serial : Word32) (count : Byte) (entries : List Byte), s.chip.port.part = .running →
    ∃ t, exec (.loadPlan serial count entries) s = .next t ∧ t.pending = s.pending ∧
      if s.chip.role = .busStation then standing t.chip = { standing s.chip with reply := some ⟨.refused, 0x10#8, []⟩ }
      else if 16 < count.toNat ∨ entries.length ≠ 26 * count.toNat then standing t.chip = { standing s.chip with reply := some ⟨.bad, 0x10#8, []⟩ }
      else if serial.toNat ≤ heldSerial s.chip then standing t.chip = { standing s.chip with reply := some ⟨.stale, 0x10#8, []⟩ }
      else
        let body := t.chip.plans.body
        let next := s.chip.plans.nextPosition
        standing t.chip = { standing s.chip with reply := some ⟨.ok, 0x10#8, []⟩, plans := t.chip.plans, load := t.chip.port.load } ∧
          heldSerial t.chip = serial.toNat ∧ t.chip.plans.relayPending = true ∧ wholePlanBody body = some body ∧
          body.take 7 = put16 (stationId s.chip) ++ put32 serial.toNat ++ [count] ∧
          (∀ i < 26 * count.toNat, body[7 + i]? = some (if i % 26 = 12 then entries.getD i 0 &&& 7 else if i % 26 < 19 then entries.getD i 0 else 0)) ∧
          t.chip.plans.nextPosition = next ∧
          (∀ b p i e, s.chip.plans.persist = .writing b p i e → t.chip.plans.persist = .writing b p i e ∧ t.chip.plans.persistNoted = true) ∧
          (s.chip.plans.persist = .idle → s.chip.store.scanPhase ≠ .system →
            t.chip.plans.persist = if next < 16 then .writing body next 0 false else .writing body 0 0 true) ∧
          t.chip.catalog.records.map recordKey = admittedKeys s.chip.role s.chip.seq.units s.chip.port.config (liveOf body) ∧
          Reported s.chip.port.reports t.chip.port.reports .planAdopted (.number (stationId s.chip % 65536)) (inertCount t.chip) s.chip.now

/-! ## Manifests and segments (01) -/

/-- R16. Validation reports the first of the nine conditions that fails, and otherwise records what the manifest gives. -/
def Obligations.ManifestValidationReasons : Prop :=
  ∀ (image : ImageKey) (model : Nat) (bs : List Byte),
    match validateManifest image model bs with
    | .error r =>
      1 ≤ r ∧ r ≤ 9 ∧ ¬manifestCondition image model bs r ∧ ∀ q, 1 ≤ q → q < r → manifestCondition image model bs q
    | .ok m =>
      (∀ q, 1 ≤ q → q ≤ 9 → manifestCondition image model bs q) ∧ m.count = be16 bs 6 ∧ m.length = be32 bs 8 ∧
        m.windows = windowsAt bs 32 (byteAt bs 12) ∧ m.crcs.length = m.count ∧
        ∀ i < m.count, m.crcs.getD i 0 = BitVec.ofNat 32 (be32 bs (96 + 4 * i))

/-! ## Peers (02) -/

/-- R27, R28, R24. A merge gives the Offer's coverage inside the span and keeps the old outside it; pruning leaves 24 runs, and every run it
drops is shorter than every run it keeps, or as long and later. -/
def Obligations.RangeListsMergedAndPruned : Prop :=
  (∀ (a b : Nat) (new old : List SegRun), a ≤ b → runsApart old = true → (∀ r ∈ new, a ≤ r.first ∧ r.first ≤ r.last ∧ r.last ≤ b) →
     let merged := addRuns (removeSpan a b old) new
     runsApart merged = true ∧
       (∀ seg, covers merged seg = if a ≤ seg ∧ seg ≤ b then covers new seg else covers old seg) ∧
       mergeRuns a b new old = prune merged) ∧
  ∀ l : List SegRun, runsApart l = true →
    let kept := prune l
    kept.length = min l.length 24 ∧ kept.Sublist l ∧ runsApart kept = true ∧
      ∀ r ∈ l, r ∉ kept → ∀ q ∈ kept, r.last - r.first < q.last - q.first ∨ (r.last - r.first = q.last - q.first ∧ q.first < r.first)

/-- R21, R30. What an accepted frame of any kind does to its sender's record, and what a Leave leaves as it was. That a frame with the departing flag leaves
the origin attribute as it was is deduced (log 40). -/
def Obligations.PresenceOfSender : Prop :=
  ∀ (s : State) (kind : FrameKind) (frame : List Byte) (f : RxFrame), Accepts s.chip kind frame f →
    ∃ t, exec (frameRow kind frame) s = .next t ∧ t.pending = s.pending ∧
      match findPeer s.chip f.sender with
      | some p =>
        ∃ q, findPeer t.chip f.sender = some q ∧ q.lastHeard = s.chip.now ∧ q.departing = (f.departing || kind == .leave) ∧
          q.originAttr = (if kind = .plan ∨ f.departing then p.originAttr else f.originFlag) ∧
          (q.departing = true → p.departing = false → q.lists = [] ∧ SwitchedFrom t.chip f.sender ∧ (kind = .leave → HoldersExact t.chip)) ∧
          (kind ≠ .block → q.strikes = p.strikes ∧ q.shunnedUntil = p.shunnedUntil) ∧ (kind ≠ .busy → q.busyUntil = p.busyUntil) ∧
          (kind = .leave →
            standing t.chip = { standing s.chip with plans := { s.chip.plans with lastPlanAsk := t.chip.plans.lastPlanAsk } } ∧
              otherBodies f.sender t.chip.peers = otherBodies f.sender s.chip.peers)
      | none =>
        if f.departing then findPeer t.chip f.sender = none
        else
          ∃ q, findPeer t.chip f.sender = some q ∧ q.lastHeard = s.chip.now ∧ q.departing = (kind == .leave) ∧
            (kind ≠ .plan → q.originAttr = f.originFlag) ∧ q.estimate = 2000

/-- R26, R27, R25. An Offer from a sender that is not leaving: merged into the sender's list when it is well formed and its image is tracked, and then
every holder count is exact. -/
def Obligations.OfferMergedIntoList : Prop :=
  ∀ (s : State) (frame : List Byte) (f : RxFrame), Accepts s.chip .offer frame f → f.departing = false →
    let o := offerOf f.payload
    let wellFormed := o.spanFirst ≤ o.spanLast ∧ o.spanLast ≤ 2024 ∧ ∀ r ∈ o.ranges, r.first ≤ r.last ∧ o.spanFirst ≤ r.first ∧ r.last ≤ o.spanLast
    ∃ t q, exec (.offer frame) s = .next t ∧ t.pending = s.pending ∧
      standing t.chip = { standing s.chip with plans := { s.chip.plans with lastPlanAsk := t.chip.plans.lastPlanAsk } } ∧
      findPeer t.chip f.sender = some q ∧ OthersStand s.chip.peers t.chip.peers f.sender ∧
      ((findPeer s.chip f.sender).isSome ∨ s.chip.peers.length < 48 → OthersStand t.chip.peers s.chip.peers f.sender) ∧
      (∀ k, k ≠ o.image → rangeList q k = heldList s.chip f.sender k) ∧
      ((findRecord s.chip o.image).isSome → wellFormed →
        rangeList q o.image = mergeRuns o.spanFirst o.spanLast o.ranges (heldList s.chip f.sender o.image) ∧ HoldersExact t.chip) ∧
      (¬((findRecord s.chip o.image).isSome ∧ wellFormed) → rangeList q o.image = heldList s.chip f.sender o.image)

/-- R23, R31, R32. A peer's expiry, the end of its shunning and the end of its Busy mark; that a command before the time has no effect is the model's
choice (log 5). -/
def Obligations.PeerTimesEnd : Prop :=
  ∀ (s : State) (id : Nat) (p : PeerRecord), findPeer s.chip id = some p →
    let bodies := fun (c : Chip) => c.peers.map peerBody
    (if p.lastHeard + 30000 ≤ s.chip.now then
      ∃ t, exec (.peerExpiry id) s = .next t ∧ t.pending = s.pending ∧ standing t.chip = standing s.chip ∧ findPeer t.chip id = none ∧
        bodies t.chip = (bodies s.chip).filter (fun q => q.id != id) ∧ SwitchedFrom t.chip id ∧ HoldersExact t.chip
    else NoEffect (.peerExpiry id) s) ∧
    (if ∃ u ∈ p.shunnedUntil, u ≤ s.chip.now then
      ∃ t, exec (.shunEnd id) s = .next t ∧ t.pending = s.pending ∧ standing t.chip = standing s.chip ∧
        bodies t.chip = (bodies s.chip).map (fun q => if q.id = id then { q with shunnedUntil := none } else q)
    else NoEffect (.shunEnd id) s) ∧
    (if ∃ u ∈ p.busyUntil, u ≤ s.chip.now then
      ∃ t, exec (.busyMarkEnd id) s = .next t ∧ t.pending = s.pending ∧ standing t.chip = standing s.chip ∧
        bodies t.chip = (bodies s.chip).map (fun q => if q.id = id then { q with busyUntil := none } else q)
    else NoEffect (.busyMarkEnd id) s)

/-- R31, R34. What a strike does by the strikes before it; and the sample of a window with the smoothed estimate, which stays in 0 to 1,000,000. -/
def Obligations.StrikesAndEstimates : Prop :=
  (∀ (now : Nat) (p : PeerRecord),
     (p.strikes < 2 → struck now p = { p with strikes := p.strikes + 1 }) ∧
       (p.strikes = 2 → ∃ u, struck now p = { p with strikes := 0, shunnedUntil := some u } ∧ now + 60000 ≤ u ∧
         (p.shunnedUntil = none → u = now + 60000) ∧ ∀ v, p.shunnedUntil = some v → u = max (now + 60000) v)) ∧
  ∀ bytes elapsed e : Nat, e ≤ 1000000 →
    let sample := sampleOf bytes elapsed
    smooth e sample = e - e / 4 + sample / 4 ∧ smooth e sample ≤ 1000000 ∧
      (elapsed = 0 → sample = min (bytes * 1000) 1000000) ∧ (0 < elapsed → sample = min (bytes * 1000 / elapsed) 1000000)

/-! ## Fetching (03) -/

/-- R49, R51. A Block frame at the slot it is for: accepted or dropped, and the window's end by a flagged block. -/
def Obligations.BlockAcceptedOrDropped : Prop :=
  ∀ (s : State) (frame : List Byte) (f : RxFrame) (i : Nat) (x : OpenFetch), Accepts s.chip .block frame f → f.departing = false →
    let b := blockOf f.payload
    firstOpen s.chip (blockMatches s.chip f.sender b) = some i → fetchSlot s.chip i = .opened x →
    let c := s.chip
    let room := missing c i x b.index ∧ c.fetch.buffer.length < 16
    let got : OpenFetch :=
      { x with
        lastAccept := some c.now
        accepted := x.accepted + (if x.windowStart.isSome then 1 else 0)
        timer := if i ∈ c.fetch.asks then x.timer else some (c.now + 150) }
    let flagged :=
      b.lastOfAsk = true ∧ i ∉ c.fetch.asks ∧
        ∃ base mask, x.lastAsk = some (base, mask) ∧ ∃ p < 16, mask.getLsbD p = true ∧ (∀ q < 16, p < q → mask.getLsbD q = false) ∧ base + p = b.index
    let stillMissing := ∃ p < 16, missing c i x (x.base + p) = true ∧ (room → x.base + p ≠ b.index)
    ∃ t c', exec (.block frame) s = .next t ∧ t = { s with chip := settle c' } ∧
      standing t.chip = { standing c with plans := { c.plans with lastPlanAsk := t.chip.plans.lastPlanAsk } } ∧
      (¬flagged →
        (room → fetchSlot t.chip i = .opened got) ∧ (¬room → fetchSlot t.chip i = .opened x) ∧
          (room →
            c'.fetch.buffer.filter (fun z => z.fetch == i) =
              c.fetch.buffer.filter (fun z => z.fetch == i) ++ [{ fetch := i, index := b.index, data := b.data }]) ∧
          (¬room → c'.fetch.buffer.filter (fun z => z.fetch == i) = c.fetch.buffer.filter (fun z => z.fetch == i))) ∧
      (flagged →
        (¬stillMissing → fetchSlot t.chip i = .opened { (if room then got else x) with timer := none }) ∧
          (stillMissing → x.reask = false →
            i ∈ t.chip.fetch.asks ∧ fetchSlot t.chip i = .opened { (if room then got else x) with timer := none, reask := true }) ∧
          (stillMissing → x.reask = true → LeftPeer t.chip i x))

/-- R53, R54, R55, R32. Lacking, Refused and Busy: what each does to the peer's record, and the slot's switch unless the window has no missing block. That a
Busy for this station from a sender without a record marks the new record, though no slot matches it, is deduced (log 46). -/
def Obligations.ShortRepliesSwitchFetch : Prop :=
  ∀ (s : State) (kind : FrameKind) (frame : List Byte) (f : RxFrame), kind = .lacking ∨ kind = .refused ∨ kind = .busy →
    Accepts s.chip kind frame f → f.departing = false →
    let c := s.chip
    let k := imageAt f.payload 2
    let seg := be16 f.payload 6
    let hit := firstOpen c (fun g => be16 f.payload 0 == stationId c && g.image == k && g.segment == seg && g.peer == f.sender)
    ∃ t q, exec (frameRow kind frame) s = .next t ∧ t.pending = s.pending ∧
      standing t.chip = { standing c with plans := { c.plans with lastPlanAsk := t.chip.plans.lastPlanAsk } } ∧ findPeer t.chip f.sender = some q ∧
      (∀ p, findPeer c f.sender = some p → q.strikes = p.strikes ∧ q.estimate = p.estimate) ∧
      (∀ m, m ≠ k → rangeList q m = heldList c f.sender m) ∧
      (hit = none →
        rangeList q k = heldList c f.sender k ∧ (∀ p, findPeer c f.sender = some p → q.busyUntil = p.busyUntil) ∧
          (findPeer c f.sender = none →
            q.strikes = 0 ∧ q.busyUntil = if kind = .busy ∧ be16 f.payload 0 = stationId c then some (c.now + 1000) else none)) ∧
      ∀ i x, hit = some i → fetchSlot c i = .opened x →
        (kind = .lacking → rangeList q k = withdrawOne seg (heldList c f.sender k) ∧ HoldersExact t.chip) ∧
          (kind = .refused → rangeList q k = [] ∧ HoldersExact t.chip) ∧
          (kind = .busy → rangeList q k = heldList c f.sender k ∧ q.busyUntil = some (c.now + 1000)) ∧
          ((∀ p < 16, missing c i x (x.base + p) = false) → fetchSlot t.chip i = .opened x) ∧
          ((∃ p < 16, missing c i x (x.base + p) = true) → LeftPeer t.chip i x)

/-- R51, R56, R57, R31, R18. The timer of a fetch slot runs out: nothing missing, the one re-ask, or a strike and then a switch or abandonment. And the
end of a segment's cooling. That either command has no effect before its time is the model's choice (log 5), as is the detail 1 where R57's two conditions
meet (log 47). -/
def Obligations.FetchTimesReached : Prop :=
  (∀ (s : State) (i : Nat) (x : OpenFetch) (u : Nat), i < 4 → fetchSlot s.chip i = .opened x → x.timer = some u →
     let c := s.chip
     let struckPeers := strike x.peer x.counted c
     let other := if x.switches < 3 then chooseHolder struckPeers x.image x.segment (some x.peer) else none
     (c.now < u → NoEffect (.fetchTimerExpiry i) s) ∧
     (u ≤ c.now →
       ∃ t, exec (.fetchTimerExpiry i) s = .next t ∧ t.pending = s.pending ∧ standing t.chip = standing c ∧
         ((∀ p < 16, missing c i x (x.base + p) = false) →
           fetchSlot t.chip i = .opened { x with timer := none } ∧ t.chip.peers.map peerBody = c.peers.map peerBody) ∧
         ((∃ p < 16, missing c i x (x.base + p) = true) → x.reask = false →
           fetchSlot t.chip i = .opened { x with timer := none, reask := true } ∧ (c.yard.mode = .on → i ∈ t.chip.fetch.asks) ∧
             t.chip.peers.map peerBody = c.peers.map peerBody) ∧
         ((∃ p < 16, missing c i x (x.base + p) = true) → x.reask = true →
           t.chip.peers.map peerBody = struckPeers.peers.map peerBody ∧
             match other with
             | some p =>
               fetchSlot t.chip i =
                   .opened
                     { x with
                       peer := p.id, counted := true, switches := x.switches + 1, reask := false, switchOwed := false, timer := none,
                       windowStart := none, accepted := 0 } ∧
                 (c.yard.mode = .on → i ∈ t.chip.fetch.asks)
             | none =>
               Reported c.port.reports t.chip.port.reports .fetchAbandoned (.segment x.image x.segment) (if x.switches < 3 then 2 else 1) c.now ∧
                 ((segState c x.image x.segment).isSome → segState t.chip x.image x.segment = some (.cooling (c.now + 30000)))))) ∧
  ∀ (s : State) (k : ImageKey) (seg : Nat),
    (∀ u, segState s.chip k seg = some (.cooling u) → u ≤ s.chip.now →
      ∃ t c', exec (.coolingEnd k seg) s = .next t ∧ t = { s with chip := settle c' } ∧ standing t.chip = standing s.chip ∧
        segState c' k seg = some .absent ∧ c'.fetch.selectionAsked = true ∧ c'.peers = s.chip.peers) ∧
    ((∀ u, segState s.chip k seg = some (.cooling u) → s.chip.now < u) → NoEffect (.coolingEnd k seg) s)

/-- R33, R40 to R47. Selection: what a candidate is and which comes first; the holder chosen; the lowest ERASED slot of a kind; a shortage, what is
evictable and what eviction does; the opening of a fetch; and the run. That a fetch fills the lowest-numbered FREE slot is the model's choice (log 50);
that a STORE_FULL exactly 3,600,000 ms ago still holds the next one back is deduced (log 26). -/
def Obligations.SelectionPreferences : Prop :=
  let fit := fun (c : Chip) (k : ImageKey) (seg : Nat) (p : PeerRecord) =>
    p ∈ c.peers ∧ p.departing = false ∧ p.shunnedUntil = none ∧ p.busyUntil = none ∧ p.openFetches < 2 ∧ covers (rangeList p k) seg = true
  let ofKind := fun (c : Chip) (priv : Bool) (slot : Nat) =>
    8 ≤ slot ∧ slot < segmentEnd c ∧ writeLocked c (areaOf c slot) = false ∧ serveLocked c (areaOf c slot) = priv
  let opened := fun (slot : Nat) (x : Candidate) (p : PeerRecord) =>
    ({ image := x.image, segment := x.segment, peer := p.id, counted := true, base := 0, bitmap := 0, reask := false, switches := 0,
       switchOwed := false, lastAsk := none, timer := none, windowStart := none, lastAccept := none, accepted := 0, storeSlot := slot,
       claimed := false } : OpenFetch)
  (∀ (c : Chip) (k : ImageKey) (seg : Nat) (besides : Option Nat),
     match chooseHolder c k seg besides with
     | none => ∀ p, fit c k seg p → some p.id = besides
     | some p =>
       fit c k seg p ∧ some p.id ≠ besides ∧
         ∀ q, fit c k seg q → some q.id ≠ besides → q.estimate < p.estimate ∨ (q.estimate = p.estimate ∧ p.id ≤ q.id)) ∧
  (∀ (l : List Candidate) (x : Candidate), firstCandidate l = some x →
    let key := fun (y : Candidate) => ((if y.need = .own then 0 else 1), (if y.segment = 0 then 0 else 1), y.holders)
    let before := fun (a b : Nat × Nat × Nat) => a.1 < b.1 ∨ (a.1 = b.1 ∧ (a.2.1 < b.2.1 ∨ (a.2.1 = b.2.1 ∧ a.2.2 < b.2.2)))
    ∃ l₁ l₂, l = l₁ ++ x :: l₂ ∧ (∀ y ∈ l₁, before (key x) (key y)) ∧ ∀ y ∈ l₂, ¬before (key y) (key x)) ∧
  (∀ c : Chip, ∃ g : ImageRecord → List Candidate, candidates c = c.catalog.records.flatMap g ∧
    ∀ r ∈ c.catalog.records, (g r).Pairwise (fun x y => x.segment < y.segment) ∧
      ∀ x, x ∈ g r ↔
        ∃ e, r.entries[x.segment]? = some e ∧ e.state = .absent ∧ r.state = (if x.segment = 0 then .needsManifest else .gathering) ∧
          (∃ p, fit c r.image x.segment p) ∧
          (∀ l, (c.port.load = .opened l ∨ c.port.load = .checking l) → ¬(l.image = r.image ∧ l.segment = x.segment)) ∧
          x.image = r.image ∧ x.need = r.need ∧ x.holders = e.holders ∧ (x.privKind = true ↔ r.need = .own ∧ r.priv = true)) ∧
  (∀ (c : Chip) (priv : Bool), MapWhole c →
    let erased := fun (slot : Nat) => ofKind c priv slot ∧ (slotInfo c slot).cond = .erased
    (match lowestErased c priv with
      | none => ∀ slot, ¬erased slot
      | some slot => erased slot ∧ ∀ x, erased x → slot ≤ x) ∧
      (someDirty c priv = true ↔ ∃ slot, ofKind c priv slot ∧ (slotInfo c slot).cond = .dirty)) ∧
  ((∀ (c : Chip) (priv : Bool), (∀ r ∈ c.catalog.records, ∀ e ∈ r.entries, ∀ slot, e.state = .held slot → inSegmentArea c slot = true) →
     ∃ g : ImageRecord → List Evictable, evictables c priv = c.catalog.records.flatMap g ∧
       ∀ r ∈ c.catalog.records, (g r).Pairwise (fun x y => x.segment < y.segment) ∧
         ∀ v, v ∈ g r ↔
           r.need = .courier ∧ 1 ≤ v.segment ∧
             ∃ e, r.entries[v.segment]? = some e ∧ e.state = .held v.slot ∧ ofKind c priv v.slot ∧ v.image = r.image ∧ v.holders = e.holders) ∧
   ∀ (l : List Evictable),
     (evictChoice l = none ↔ l = []) ∧
       ∀ v, evictChoice l = some v → ∃ l₁ l₂, l = l₁ ++ v :: l₂ ∧ (∀ y ∈ l₁, y.holders ≤ v.holders) ∧ ∀ y ∈ l₂, y.holders < v.holders) ∧
  (∀ (c : Chip) (x : Candidate),
    let d := dealShort x c
    let toEvict := if x.need = .own then evictChoice (evictables c x.privKind) else none
    (someDirty c x.privKind = true → d = c) ∧
      (someDirty c x.privKind = false → ∀ v, toEvict = some v →
        imageComplete d v.image = false ∧ d.port.reports = c.port.reports ∧ (v.slot ∈ d.store.dirtyQueue ∨ v.slot ∈ d.store.releasing) ∧
          (∀ i < 3, ∀ e, (serveSlot d i).entry? = some e → ¬(e.image = v.image ∧ e.segment = v.segment)) ∧
          ((segState c v.image v.segment).isSome → segState d v.image v.segment = some .absent)) ∧
      (someDirty c x.privKind = false → toEvict = none →
        (∀ u, c.fetch.storeFullAt = some u → c.now ≤ u + 3600000 → d = c) ∧
          ((∀ u, c.fetch.storeFullAt = some u → u + 3600000 < c.now) →
            d.fetch.storeFullAt = some c.now ∧
              Reported c.port.reports d.port.reports .storeFull (.segment x.image x.segment) (if x.privKind then 1 else 0) c.now))) ∧
  (∀ (c : Chip) (i slot : Nat) (x : Candidate) (p : PeerRecord), i < c.fetch.slots.length →
    let d := openFetch i slot x p c
    fetchSlot d i = .opened (opened slot x p) ∧ slotInfo d slot = ⟨.filling, some (.fetch i)⟩ ∧
      ((segState c x.image x.segment).isSome → segState d x.image x.segment = some (.fetching slot)) ∧
      d.peers = c.peers.map (fun q => if q.id = p.id then { q with openFetches := q.openFetches + 1 } else q) ∧
      (c.yard.mode = .on → i ∈ d.fetch.asks)) ∧
  ∀ c : Chip, c.fetch.slots.length = 4 →
    let d := runSelection c
    let runs := c.port.config.isSome ∧ c.store.scanPhase = .done ∧ (c.role = .origin ∨ (c.census.completedOnce = true ∧ c.departure.departed = false))
    (∀ i, freeSlot c = some i ↔ i < 4 ∧ fetchSlot c i = .free ∧ ∀ j < i, fetchSlot c j ≠ .free) ∧
      (c.fetch.selectionAsked = false → d = c) ∧
      (c.fetch.selectionAsked = true → ¬runs → d = { c with fetch := { c.fetch with selectionAsked := false } }) ∧
      (c.fetch.selectionAsked = true → runs →
        d.fetch.selectionAsked = false ∧
          ((∀ i < 4, fetchSlot d i ≠ .free) ∨ ∀ x ∈ candidates d, lowestErased d x.privKind = none) ∧
          ∀ i x slot p, freeSlot c = some i → firstCandidate (candidates c) = some x → lowestErased c x.privKind = some slot →
            chooseHolder c x.image x.segment none = some p → (c.catalog.records.map (fun r => r.image)).Nodup →
            fetchSlot d i = .opened (opened slot x p) ∧ segState d x.image x.segment = some (.fetching slot)) ∧
      (c.fetch.selectionAsked = true → runs → ∀ i x y slot p, freeSlot c = some i → firstCandidate (candidates c) = some x →
        lowestErased c x.privKind = none →
        let e := dealShort x c
        firstCandidate ((candidates e).filter (fun z => z.privKind != x.privKind)) = some y → lowestErased e y.privKind = some slot →
          chooseHolder e y.image y.segment none = some p → (c.catalog.records.map (fun r => r.image)).Nodup →
          fetchSlot d i = .opened (opened slot y p) ∧ segState d y.image y.segment = some (.fetching slot))

/-! ## Serving (04) -/

/-- R63 to R70. What an Ask from a sender that is not leaving makes of the Serve Engine and the urgent lane (the serial is compared after it, log 51); what a
serve slot holds when an Ask is repeated while it works (R67), a given-up read that still waits being withdrawn (deduced, log 53); and how FREE serve slots
take entries from the head of the queue (R70). -/
def Obligations.AskAnswered : Prop :=
  (∀ (s : State) (frame : List Byte) (f : RxFrame), Accepts s.chip .ask frame f → f.departing = false → s.chip.port.config.isSome →
     let c := s.chip
     let server := (askOf f.sender f.payload).1
     let e := (askOf f.sender f.payload).2
     let screened := server = stationId c ∧ (e.base = 0 ∨ e.base = 16 ∨ e.base = 32 ∨ e.base = 48) ∧ e.mask ≠ 0#16
     let room := c.yard.urgent.length < 8
     let dropped := { c.serve with queue := c.serve.queue.filter (fun q => !(q.asker == f.sender && q.image == e.image && q.segment == e.segment)) }
     let queuedAlready := ∃ q ∈ c.serve.queue, q.asker = f.sender ∧ q.image = e.image ∧ q.segment = e.segment
     let serves := fun (i : Nat) => ∃ q, (serveSlot c i).entry? = some q ∧ q.asker = f.sender ∧ q.image = e.image ∧ q.segment = e.segment
     let inSlot := ∃ i < 3, serves i
     ∃ t c', exec (.ask frame) s = .next t ∧ t = { s with chip := settle c' } ∧
       standing t.chip = { standing c with plans := { c.plans with lastPlanAsk := t.chip.plans.lastPlanAsk } } ∧
       (¬screened → c'.serve = c.serve) ∧
       (screened →
         if c.store.scanPhase ≠ .done then
           c'.serve = dropped ∧ (room → Queued c.yard.urgent t.chip.yard.urgent (.reply .lacking f.sender e.image e.segment))
         else
           match heldSlot c e.image e.segment with
           | none => c'.serve = dropped ∧ (room → Queued c.yard.urgent t.chip.yard.urgent (.reply .lacking f.sender e.image e.segment))
           | some slot =>
             if serveLocked c (areaOf c slot) then
               c'.serve = dropped ∧ (room → Queued c.yard.urgent t.chip.yard.urgent (.reply .refused f.sender e.image e.segment))
             else
               (queuedAlready → c'.serve.slots = c.serve.slots ∧ c'.serve.queue =
                 c.serve.queue.map (fun q => if q.asker = f.sender ∧ q.image = e.image ∧ q.segment = e.segment then e else q)) ∧
               (¬queuedAlready → ¬inSlot → c.serve.queue.length < 8 → c'.serve = { c.serve with queue := c.serve.queue ++ [e] }) ∧
               (¬queuedAlready → ¬inSlot → 8 ≤ c.serve.queue.length →
                 c'.serve = c.serve ∧ (room → Queued c.yard.urgent t.chip.yard.urgent (.reply .busy f.sender e.image e.segment))) ∧
               ∀ i < 3, ¬queuedAlready → serves i → (∀ j < i, ¬serves j) → c'.serve = (replaceInSlot i e c).serve)) ∧
  (∀ (c : Chip) (i : Nat) (e old : AskEntry), i < c.serve.slots.length → e.mask ≠ 0#16 →
    let d := replaceInSlot i e c
    let after := serveSlot d i
    let keeps := fun p => old.base = e.base ∧ e.mask.getLsbD p = true
    d.serve.queue = c.serve.queue ∧ d.serve.sendMark = c.serve.sendMark ∧ d.serve.readMark = c.serve.readMark ∧ d.yard = c.yard ∧
      (∀ j, j ≠ i → serveSlot d j = serveSlot c j) ∧
      (serveSlot c i = .sending old → after = .sending { old with base := e.base, mask := e.mask }) ∧
      (∀ p, serveSlot c i = .reading old p →
        (keeps p → after = .reading { e with mask := clearMark e.mask p } p) ∧
          (¬keeps p →
            (∃ q < 16, e.mask.getLsbD q = true ∧ (∀ r < q, e.mask.getLsbD r = false) ∧ after = .reading { e with mask := clearMark e.mask q } q) ∧
              (∀ w ∈ d.store.waiting, w ∈ c.store.waiting ∧ ∀ slot b, w.op ≠ .serveRead i slot b) ∧
              ∀ o slot b, d.store.current = some o → o.op = .serveRead i slot b → o.live = false)) ∧
      ∀ p bytes, serveSlot c i = .ready old p bytes →
        (keeps p → after = .ready { e with mask := clearMark e.mask p } p bytes) ∧
          (¬keeps p → ∃ q < 16, e.mask.getLsbD q = true ∧ (∀ r < q, e.mask.getLsbD r = false) ∧ after = .reading { e with mask := clearMark e.mask q } q)) ∧
  ∀ c : Chip,
    (c.serve.queue = [] ∨ (∀ x ∈ c.serve.slots, x ≠ .free) → serveTake c = c) ∧
      ((serveTake c).serve.queue = [] ∨ ∀ x ∈ (serveTake c).serve.slots, x ≠ .free) ∧
      ∀ (e : AskEntry) (rest : List AskEntry) (i : Nat),
        c.serve.queue = e :: rest → i < c.serve.slots.length → serveSlot c i = .free → (∀ j < i, serveSlot c j ≠ .free) →
        let left : Chip := { c with serve := { c.serve with queue := rest } }
        let replied := fun (k : ReplyKind) => pushUrgent (.reply k e.asker e.image e.segment) left
        match heldSlot c e.image e.segment with
        | none => serveTake c = serveTake (replied .lacking)
        | some slot =>
          (serveLocked c (areaOf c slot) = true → serveTake c = serveTake (replied .refused)) ∧
            (serveLocked c (areaOf c slot) = false →
              ((∃ p, findPeer c e.asker = some p ∧ p.departing = true) → serveTake c = serveTake left) ∧
                ((∀ p, findPeer c e.asker = some p → p.departing = false) →
                  ∀ p < 16, e.mask.getLsbD p = true → (∀ q < p, e.mask.getLsbD q = false) →
                    serveTake c = serveTake (setServeSlot i (.reading { e with mask := clearMark e.mask p } p) left)))

/-! ## The yard link (05, 11) -/

/-- R77, R79, R193. A frame as a station builds it is accepted by every other station, with the kind, flags, sender, serial and payload it was built
from. -/
def Obligations.BuiltFrameIsAccepted : Prop :=
  ∀ (own : Nat) (kind : FrameKind) (originFlag departing : Bool) (sender serial : Nat) (payload : List Byte),
    1 ≤ sender → sender ≤ 65534 → sender ≠ own → serial < 4294967296 → payload.length < 65536 → payloadLengthOk kind payload = true →
    (kind = .beacon → byteAt payload 4 ≤ 3) →
      acceptFrame own (frameBytes kind originFlag departing sender serial payload) =
        some { kind := kind, originFlag := originFlag, departing := departing, sender := sender, serial := serial, payload := payload }

/-- R193. The payloads of an Offer, an Ask, a Block and a short reply, read back from the bytes they are sent as. -/
def Obligations.PayloadsReadBack : Prop :=
  (∀ o : OfferBody, o.image.id < 65536 → o.image.version < 65536 → o.spanFirst < 65536 → o.spanLast < 65536 → o.ranges.length ≤ 24 →
    (∀ r ∈ o.ranges, r.first < 65536 ∧ r.last < 65536) → offerOf (putOffer o) = o ∧ payloadLengthOk .offer (putOffer o) = true) ∧
  (∀ (server sender seg base : Nat) (k : ImageKey) (mask : BitVec 16), server < 65536 → k.id < 65536 → k.version < 65536 → seg < 65536 → base < 256 →
    askOf sender (putAsk server k seg base mask) = (server, { asker := sender, image := k, segment := seg, base := base, mask := mask })) ∧
  (∀ b : BlockBody, b.asker < 65536 → b.image.id < 65536 → b.image.version < 65536 → b.segment < 65536 → b.index < 256 → b.data.length = 128 →
    blockOf (putBlock b) = b ∧ payloadLengthOk .block (putBlock b) = true) ∧
  ∀ (asker seg : Nat) (k : ImageKey), asker < 65536 → k.id < 65536 → k.version < 65536 → seg < 65536 → replyOf (putReply asker k seg) = (asker, k, seg)

/-- R79 (log 6 for a frame of another kind than its row). A delivered frame passes exactly when the six checks hold, and one that does not pass, or
arrives while the port is not ON, has no effect. -/
def Obligations.FrameChecksDropFrames : Prop :=
  (∀ (own : Nat) (frame : List Byte),
    (acceptFrame own frame).isSome ↔
      crc16 (frame.take (frame.length - 2)) = BitVec.ofNat 16 (be16 frame (frame.length - 2)) ∧
        (∃ kind, frameKindOf (byteAt frame 0) = some kind ∧ frame.length = 10 + be16 frame 8 + 2 ∧
          payloadLengthOk kind ((frame.take (frame.length - 2)).drop 10) = true ∧ (kind = .beacon → byteAt frame 14 ≤ 3)) ∧
        1 ≤ be16 frame 2 ∧ be16 frame 2 ≤ 65534 ∧ be16 frame 2 ≠ own) ∧
    ∀ (s : State) (kind : FrameKind) (frame : List Byte), (∀ f, ¬Accepts s.chip kind frame f) → NoEffect (frameRow kind frame) s

/-- R81, R82 (log 11 for the draw). The phases of channel access outside SENDING; an opportunity is `opportunity`. That an elapsed event has no effect before
its time or on a busy channel is the model's choice (log 5). -/
def Obligations.ChannelAccessPhases : Prop :=
  ∀ s : State,
    let c := s.chip
    let quiet := c.pins.channelBusy = false
    (∀ e, c.yard.phase = .gap → c.yard.lastEnd = some e →
      (c.now < e + 5 → NoEffect .gapElapsed s) ∧
        (e + 5 ≤ c.now →
          ∃ t, exec .gapElapsed s = .next t ∧ t.pending = s.pending ∧ standing t.chip = standing c ∧
            t.chip.yard.phase = .defer (if c.pins.channelBusy then none else some c.now))) ∧
    (∀ b, c.yard.phase = .defer (some b) → (c.now < b + 2 ∨ ¬quiet → NoEffect .deferSlotElapsed s) ∧
      (b + 2 ≤ c.now → quiet → 0 < c.yard.cw →
        ∃ t n c', exec .deferSlotElapsed s = .next t ∧ t = { s with chip := settle c' } ∧ n < c.yard.cw ∧
          (n ≠ 0 → standing t.chip = { standing c with freeCount := c.freeCount + 1 } ∧ t.chip.yard.phase = .countdown n (b + 2)) ∧
          (n = 0 → c' = opportunity { c with freeCount := c.freeCount + 1 }))) ∧
    (∀ n b, c.yard.phase = .countdown n b → (c.now < b + 2 ∨ ¬quiet → NoEffect .countdownSlotElapsed s) ∧
      (b + 2 ≤ c.now → quiet →
        (1 < n →
          ∃ t, exec .countdownSlotElapsed s = .next t ∧ t.pending = s.pending ∧ standing t.chip = standing c ∧
            t.chip.yard.phase = .countdown (n - 1) (b + 2)) ∧
        (n ≤ 1 → exec .countdownSlotElapsed s = .next { s with chip := settle (opportunity c) }))) ∧
    (∃ t, exec .channelBusyRise s = .next t ∧ t.pending = s.pending ∧
      standing t.chip =
        { standing c with
          pins := { c.pins with channelBusy := true }
          cw := match c.yard.phase with | .countdown _ _ => min 64 (c.yard.cw * 2) | _ => c.yard.cw } ∧
      ∀ m b q, (c.yard.phase = .defer q ∨ c.yard.phase = .countdown m b → t.chip.yard.phase = .defer none) ∧
        (c.yard.phase = .gap ∨ c.yard.phase = .sending → t.chip.yard.phase = c.yard.phase)) ∧
    ∃ t, exec .channelBusyFall s = .next t ∧ t.pending = s.pending ∧
      standing t.chip = { standing c with pins := { c.pins with channelBusy := false } } ∧
      (c.yard.phase = .defer none → t.chip.yard.phase = .defer (some c.now)) ∧
      ∀ m b q, (c.yard.phase = .defer (some q) ∨ c.yard.phase = .countdown m b ∨ c.yard.phase = .gap ∨ c.yard.phase = .sending →
        t.chip.yard.phase = c.yard.phase)

/-- R83, R87, R89, R72. What a transmit opportunity sends: the oldest urgent frame, or the first scheduled frame that fits, its airtime charged; a Block is
that of the first READY serve slot after the send rotation mark, counting 1, 2, 3, 1. -/
def Obligations.OpportunitySendsFirstFrame : Prop :=
  ∀ c : Chip,
    let d := opportunity c
    let left := fun len => c.yard.airtimeUsed + (len + 8) * 32 ≤ c.yard.allowance * 1000
    let sends := fun (source : TxSource) (bytes : List Byte) =>
      d.yard.phase = .sending ∧ d.yard.onAir = some { source := source, bytes := bytes } ∧
        d.yard.airtimeUsed = c.yard.airtimeUsed + (bytes.length + 8) * 32
    let askable := c.fetch.asks.find? (fun i => match fetchSlot c i with | .opened f => missingMask c i f != 0#16 | _ => false)
    let turns := if c.serve.sendMark = 1 then [2, 3, 1] else if c.serve.sendMark = 2 then [3, 1, 2] else [1, 2, 3]
    let ready := fun (n : Nat) => ∃ e p bytes, serveSlot c (n - 1) = .ready e p bytes
    (∀ n, nextReady c = some n ↔ ∃ l₁ l₂, turns = l₁ ++ n :: l₂ ∧ ready n ∧ ∀ m ∈ l₁, ¬ready m) ∧
    (∀ f rest, c.yard.urgent = f :: rest →
      d.yard = { c.yard with urgent := rest, phase := .sending, onAir := some { source := urgentSource f, bytes := urgentBytes c f } }) ∧
    (c.yard.urgent = [] → c.yard.mode = .on →
      (∀ i f, left 23 → askable = some i → fetchSlot c i = .opened f →
        sends (.ask i f.image f.segment f.peer f.base (missingMask c i f))
          (buildFrame c .ask (putAsk f.peer f.image f.segment f.base (missingMask c i f)))) ∧
      ((left 23 → askable = none) →
        (∀ n e p bytes, left 150 → nextReady c = some n → serveSlot c (n - 1) = .ready e p bytes →
          d.serve.sendMark = n ∧
            sends (.block (n - 1) e.asker e.image e.segment)
              (buildFrame c .block
                (putBlock
                  { asker := e.asker, image := e.image, segment := e.segment, index := e.base + p, lastOfAsk := e.mask == 0#16, data := bytes }))) ∧
        ((left 150 → nextReady c = none) →
          (c.plans.relayPending = true → c.plans.body ≠ [] → left (12 + c.plans.body.length) →
            sends (.plan (heldSerial c)) (buildFrame c .plan c.plans.body)) ∧
          (¬(c.plans.relayPending = true ∧ c.plans.body ≠ [] ∧ left (12 + c.plans.body.length)) →
            (∀ o, c.yard.roundOffer = some o → left (21 + 4 * o.ranges.length) → sends (.offer o) (buildFrame c .offer (putOffer o))) ∧
              ((∀ o, c.yard.roundOffer = some o → ¬left (21 + 4 * o.ranges.length)) →
                d.yard.phase = .idle ∧ d.yard.onAir = c.yard.onAir ∧ d.yard.airtimeUsed = c.yard.airtimeUsed ∧ d.yard.cw = c.yard.cw)))))

/-- R81, R84. The end of a transmission: the port's own fields, and what the frame's source does. No effect with nothing on the air is the model's choice
(log 5); that a Leave's end counts in every state (log 31), and that R74's attribute is looked at when the block's transmission ends (log 52), are deduced. -/
def Obligations.TransmissionEndTold : Prop :=
  ∀ s : State,
    let c := s.chip
    (c.yard.onAir = none → NoEffect .transmissionEnd s) ∧
    ∀ a, c.yard.onAir = some a →
      let ended := { standing c with cw := 8, lastEnd := some c.now, onAir := none }
      ∃ t c', exec .transmissionEnd s = .next t ∧ t = { s with chip := settle c' } ∧ c'.yard.phase = .idle ∧
        (t.chip.yard.phase = .idle ∨ t.chip.yard.phase = .gap) ∧
        match a.source with
        | .ask i k seg peer base mask =>
          standing t.chip = ended ∧
            (∀ f, fetchSlot c i = .opened f → f.image = k → f.segment = seg → f.peer = peer → f.base = base →
              fetchSlot t.chip i =
                .opened
                  { f with
                    lastAsk := some (base, mask)
                    timer := if i ∈ c.fetch.asks then none else some (c.now + 400)
                    windowStart := some (f.windowStart.getD c.now)
                    accepted := if f.windowStart.isSome then f.accepted else 0 }) ∧
            ((∀ f, fetchSlot c i = .opened f → ¬(f.image = k ∧ f.segment = seg ∧ f.peer = peer ∧ f.base = base)) → c'.fetch = c.fetch)
        | .block i asker k seg =>
          standing t.chip = ended ∧
            (∀ e, i < c.serve.slots.length → serveSlot c i = .sending e → e.asker = asker → e.image = k → e.segment = seg →
              (e.mask = 0#16 ∨ askerDeparting c asker = true → serveSlot c' i = .free) ∧
                (e.mask ≠ 0#16 → askerDeparting c asker = false →
                  ∃ p < 16, e.mask.getLsbD p = true ∧ (∀ q < p, e.mask.getLsbD q = false) ∧
                    serveSlot c' i = .reading { e with mask := clearMark e.mask p } p)) ∧
            ((∀ e, serveSlot c i = .sending e → ¬(e.asker = asker ∧ e.image = k ∧ e.segment = seg)) → c'.serve = c.serve)
        | .plan serial =>
          standing t.chip =
            { ended with plans := { c.plans with relayPending := c.plans.relayPending && decide (heldSerial c ≠ serial) } }
        | .offer o => standing t.chip = { ended with roundOffer := if c.yard.roundOffer = some o then none else c.yard.roundOffer }
        | .leave => standing t.chip = { ended with departure := { c.departure with leaveCount := c.departure.leaveCount + 1 } }
        | .untold => standing t.chip = ended

/-- R88, R37. The allowance windows: the first from local time 0, each as the one before it ends, A fixed as it opens from the stations then heard; and
a window that opens with a frame eligible brings the access procedure out of IDLE. That a peer heard exactly 10,000 ms ago counts is deduced (log 26); that
the command has no effect before the window's end is the model's choice (log 5). -/
def Obligations.AllowanceWindowOpens : Prop :=
  (∀ s : State,
    let c := s.chip
    let p := (c.peers.filter (fun q => decide (c.now ≤ q.lastHeard + 10000) && !q.departing)).length
    (c.now < c.yard.windowOpen + 1000 → NoEffect .allowanceWindowOpen s) ∧
    (c.yard.windowOpen + 1000 ≤ c.now →
      ∃ t, exec .allowanceWindowOpen s = .next t ∧ t.pending = s.pending ∧
        standing t.chip =
          { standing c with windowOpen := c.yard.windowOpen + 1000, allowance := max 40 (2000 / (p + 2)), airtimeUsed := 0 } ∧
        (eligibleFrame t.chip = true → t.chip.yard.phase ≠ .idle))) ∧
  (∀ (i : Instr) (s t : State), exec i s = .next t → i ≠ .allowanceWindowOpen → (∀ pins, i ≠ .powerOn pins) → i ≠ .restartSelectRelease →
    t.chip.yard.windowOpen = s.chip.yard.windowOpen ∧ t.chip.yard.allowance = s.chip.yard.allowance) ∧
  ∀ (pins : Pins) (flash : List Host.Cell) (n : Nat),
    (Chip.afterStart pins flash n).yard.windowOpen = 0 ∧ (Chip.afterStart pins flash n).now = 0 ∧
      (Chip.afterStart pins flash n).yard.allowance = max 40 (2000 / (0 + 2)) ∧ (Chip.afterStart pins flash n).yard.airtimeUsed = 0

/-- R90, R91, R92. The offer round: the Offer of the first record in that order with a HELD segment, a span inside which an Offer names exactly what is HELD; and the order in which the records have their turn: those after
the last offered one, wrapping round to it. No effect before the time or while not ON is the model's choice (log 5), and so is the source of a frame on the
air whose Offer has been replaced (log 33). -/
def Obligations.OfferRoundBuildsOffer : Prop :=
  (∀ (s : State) (u : Nat), s.chip.yard.offerRound = some u →
     let c := s.chip
     let held := fun (r : ImageRecord) (seg : Nat) => ∃ e slot, r.entries[seg]? = some e ∧ e.state = .held slot
     (c.now < u ∨ c.yard.mode ≠ .on → NoEffect .offerRoundExpiry s) ∧
     (u ≤ c.now → c.yard.mode = .on →
       ∃ t o, exec .offerRoundExpiry s = .next t ∧ t.pending = s.pending ∧
         standing t.chip =
           { standing c with
             offerRound := some (u + 2000)
             roundOffer := some o
             lastOffered := t.chip.catalog.lastOffered
             onAir := t.chip.yard.onAir } ∧
         t.chip.yard.onAir.map (fun a => a.bytes) = c.yard.onAir.map (fun a => a.bytes) ∧
         ((∀ r ∈ c.catalog.records, ∀ seg, ¬held r seg) → o = presenceOffer ∧ t.chip.catalog.lastOffered = c.catalog.lastOffered) ∧
         ((∃ r ∈ c.catalog.records, ∃ seg, held r seg) →
           ∃ l₁ r l₂, offerOrder c.catalog.records c.catalog.lastOffered = l₁ ++ r :: l₂ ∧ (∀ x ∈ l₁, ∀ seg, ¬held x seg) ∧
             (∃ seg, held r seg) ∧ o.image = r.image ∧ t.chip.catalog.lastOffered = some r.image ∧
             o.spanFirst = r.spanCursor ∧ o.ranges.length ≤ 24 ∧ runsApart o.ranges = true ∧
             (∀ seg, o.spanFirst ≤ seg → seg ≤ o.spanLast → (covers o.ranges seg = true ↔ held r seg)) ∧
             ((o.spanLast = r.entries.length - 1 ∧ ∀ r' ∈ t.chip.catalog.records, r'.image = r.image → r'.spanCursor = 0) ∨
               (o.spanLast < r.entries.length - 1 ∧ o.ranges.length = 24 ∧
                 ∀ r' ∈ t.chip.catalog.records, r'.image = r.image → r'.spanCursor = o.spanLast + 1))))) ∧
  ∀ (records : List ImageRecord) (last : Option ImageKey),
    let order := offerOrder records last
    ((∀ k, last = some k → ∀ r ∈ records, r.image ≠ k) → order = records) ∧
      ∀ k l₁ r l₂, last = some k → records = l₁ ++ r :: l₂ → r.image = k → (∀ x ∈ l₁, x.image ≠ k) → order = l₂ ++ (l₁ ++ [r])

/-! ## The store (06) -/

/-- R105, R106, R71, R98, R148, R155. The operation the arbiter grants: the first waiting client's round the ring, the eraser's only alone; performed when
its owner stands. The read the server reader presents: that of the first READING slot after the read rotation mark. That an operation answered gone counts as
its client's grant is deduced (log 18), as is that a job presents no further read once one has been answered so (log 60). -/
def Obligations.ArbiterGrantsRoundRing : Prop :=
  (∀ (c : Chip) (w : WaitingOp), nextGrant c = some w →
    c.store.current = none ∧ w ∈ c.store.waiting ∧
      (w.op.client = .eraser → ∀ v ∈ c.store.waiting, v.op.client = .eraser) ∧
      (w.op.client ≠ .eraser →
        ∀ v ∈ c.store.waiting, v.op.client ≠ .eraser →
          ringDistance c.store.lastGranted w.op.client ≤ ringDistance c.store.lastGranted v.op.client)) ∧
  (∀ c : Chip, c.store.current = none → nextGrant c = none → c.store.waiting = []) ∧
  (∀ (c : Chip) (n p slot : Nat) (e : AskEntry) (l₁ l₂ : List Nat),
    (∀ w ∈ c.store.waiting, w.op.client ≠ .serverReader) → (∀ o, c.store.current = some o → o.op.client ≠ .serverReader) →
    (if c.serve.readMark = 1 then [2, 3, 1] else if c.serve.readMark = 2 then [3, 1, 2] else [1, 2, 3]) = l₁ ++ n :: l₂ →
    (∀ m ∈ l₁, ∀ e' p', serveSlot c (m - 1) ≠ .reading e' p') → serveSlot c (n - 1) = .reading e p → heldSlot c e.image e.segment = some slot →
    let d := presentServer 3 c
    (serveLocked c (areaOf c slot) = false →
      d = { c with
        store := { c.store with
          waiting := c.store.waiting ++ [{ op := .serveRead (n - 1) slot (e.base + p), owner := some (.segment e.image e.segment) }] } }) ∧
      (serveLocked c (areaOf c slot) = true →
        serveSlot d (n - 1) = .free ∧
          (c.yard.mode = .on → c.yard.urgent.length < 8 → Queued c.yard.urgent d.yard.urgent (.reply .refused e.asker e.image e.segment)))) ∧
  ∀ (c : Chip) (w : WaitingOp), c.store.current = none →
    let d := grant w c
    d.store.lastGranted = w.op.client ∧ d.store.flash = c.store.flash ∧
      ((∀ o, w.owner = some o → ∃ slot, w.op.slot? = some slot ∧ (slotInfo c slot).owner = some o) →
        d.store.current = some { op := w.op, live := true } ∧ d.store.waiting = c.store.waiting.erase w ∧
          d.serve = (match w.op with | .serveRead i _ _ => { c.serve with readMark := i + 1 } | _ => c.serve)) ∧
      (∀ o, w.owner = some o → (∀ slot, w.op.slot? = some slot → (slotInfo c slot).owner ≠ some o) →
        d.store.current = none ∧
          ∀ place k seg slot b, w.op = .flashRead place k seg slot b →
            nextFlashRead d = none ∧ ∀ j g, c.seq.job = some j → d.seq.job = some g → g.address = j.address ∧ g.cancelAtBoundary = true) ∧
      (∀ o slot, w.owner = some o → w.op.slot? = some slot → (slotInfo c slot).owner ≠ some o →
        d.store.current = none ∧
          ∀ i b data, w.op = .fetchBlock i slot b data →
            d = { c with
              store := { c.store with waiting := c.store.waiting.erase w, lastGranted := .fetchWriter }
              fetch.buffer := c.fetch.buffer.filter (fun x => !(x.fetch == i && x.index == b)) })

/-- R50, R52, R34. A block of a fetch has been programmed: its mark, and with the window's last mark the next window or the check. That the sample goes to
whatever record then has the peer's id is deduced (log 17). -/
def Obligations.FetchBlockProgrammed : Prop :=
  ∀ (s : State) (i slot b : Nat) (data : List Byte) (live : Bool),
    s.chip.store.current = some { op := .fetchBlock i slot b data, live := live } →
    let c := s.chip
    ∃ t c', exec .fetchBlockProgramComplete s = .next t ∧ t = { s with chip := settle c' } ∧
      Programmed c.store.flash t.chip.store.flash (dataAddress slot (b * 128)) data ∧
      standing t.chip = { standing c with flash := t.chip.store.flash } ∧
      (slot ∈ c.store.releasing → slot ∈ t.chip.store.dirtyQueue) ∧
      (liveFetch c i slot = none → c'.fetch = c.fetch ∧ c'.peers = c.peers) ∧
      ∀ f, liveFetch c i slot = some f →
        let got := { f with bitmap := f.bitmap ||| (1#64 <<< b) }
        let next := { got with base := f.base + 16, reask := false, windowStart := none, timer := none, lastAccept := none, accepted := 0 }
        let whole := ∀ p < 16, got.bitmap.getLsbD (f.base + p) = true
        (¬whole → fetchSlot t.chip i = .opened got ∧ t.chip.peers.map peerBody = c.peers.map peerBody) ∧
          (whole → ∀ u a, f.windowStart = some u → f.lastAccept = some a → 0 < f.accepted →
            t.chip.peers.map peerBody =
              c.peers.map (fun p => peerBody (if p.id = f.peer then { p with estimate := smooth p.estimate (sampleOf (128 * f.accepted) (a - u)) } else p))) ∧
          (whole → f.base < 48 → f.switchOwed = false →
            fetchSlot t.chip i = .opened next ∧ (c.yard.mode = .on → i ∈ t.chip.fetch.asks)) ∧
          (whole → f.base < 48 → f.switchOwed = true → LeftPeer t.chip i next) ∧
          (whole → 48 ≤ f.base →
            fetchSlot t.chip i =
                .checking { image := f.image, segment := f.segment, peer := f.peer, counted := f.counted, storeSlot := f.storeSlot } ∧
              ((segState c f.image f.segment).isSome → segState t.chip f.image f.segment = some (.checking f.storeSlot)) ∧
              c'.store.checkQueue =
                c.store.checkQueue ++
                  [{ source := some i, image := f.image, segment := f.segment, slot := f.storeSlot, expected := expectedCrc c f.image f.segment,
                     reads := 0, crc := crc32Start, header := false, orphan := false }])

/-- R101, R187, R188, R103, R104, R71, R74, R148. The ends of claim programs, of a load's block programs, of the background eraser's operations, and of the reads
of a serve slot and of the flashing job. What a failed retired mark leaves is the model's choice (log 9); that the mark is a program of four
zero bytes (log 37), and that R74's attribute is looked at when the read ends (log 52), are deduced. -/
def Obligations.StoreOperationsEnd : Prop :=
  ((∀ (s : State) (i slot : Nat) (live : Bool), s.chip.store.current = some { op := .fetchClaim i slot, live := live } →
     ∃ t c', exec .claimProgramComplete s = .next t ∧ t = { s with chip := settle c' } ∧
       Programmed s.chip.store.flash t.chip.store.flash (spareAddress slot 2) [0x3C#8, 0x5A#8] ∧
       standing t.chip = { standing s.chip with flash := t.chip.store.flash } ∧
       (∀ f, liveFetch s.chip i slot = some f → fetchSlot t.chip i = .opened { f with claimed := true }) ∧
       (liveFetch s.chip i slot = none → c'.fetch = s.chip.fetch ∧ (slot ∈ s.chip.store.releasing → slot ∈ t.chip.store.dirtyQueue))) ∧
   ∀ (s : State) (op : StoreOp) (row : Instr) (slot a : Nat) (bytes : List Byte) (live : Bool) (f : Load → Load),
     s.chip.store.current = some { op := op, live := live } →
     (op = .loadClaim slot ∧ row = .claimProgramComplete ∧ a = spareAddress slot 2 ∧ bytes = [0x3C#8, 0x5A#8] ∧ f = (fun l => { l with claimed := true }) ∨
       ∃ b, op = .loadBlock slot b bytes ∧ row = .loadBlockProgramComplete ∧ a = dataAddress slot (b * 128) ∧
         f = (fun l => { l with marks := l.marks ||| (1#64 <<< b), pending := false })) →
     ∃ t, exec row s = .next t ∧ t.pending = s.pending ∧ Programmed s.chip.store.flash t.chip.store.flash a bytes ∧
       standing t.chip =
         { standing s.chip with
           flash := t.chip.store.flash
           load := match liveLoad s.chip slot with | some l => .opened (f l) | none => s.chip.port.load } ∧
       (liveLoad s.chip slot = none → slot ∈ s.chip.store.releasing → slot ∈ t.chip.store.dirtyQueue)) ∧
  ((∀ (s : State) (slot : Nat) (live : Bool), s.chip.store.current = some { op := .slotErase slot, live := live } →
     ∃ t, exec .slotEraseComplete s = .next t ∧ t.pending = s.pending ∧ Erased s.chip.store.flash t.chip.store.flash slot ∧
       standing t.chip = { standing s.chip with flash := t.chip.store.flash, eraseMarkDue := some slot }) ∧
   (∀ (s : State) (slot : Nat) (live : Bool), s.chip.store.current = some { op := .eraseMark slot, live := live } →
     ∃ t c', exec .slotEraseMarkProgramComplete s = .next t ∧ t = { s with chip := settle c' } ∧
       Programmed s.chip.store.flash t.chip.store.flash (spareAddress slot 0) [0xA5#8, 0xC3#8] ∧
       standing t.chip = { standing s.chip with flash := t.chip.store.flash, eraseMarkDue := none } ∧
       slotInfo c' slot = ⟨.erased, none⟩ ∧ (∀ x, x ≠ slot → slotInfo c' x = slotInfo s.chip x) ∧
       c'.store.dirtyQueue = s.chip.store.dirtyQueue.filter (fun x => x != slot) ∧ c'.fetch.selectionAsked = true) ∧
   ∀ (s : State) (slot : Nat) (live completed : Bool), s.chip.store.current = some { op := .retiredMark slot, live := live } →
     ∃ t, exec (.retiredMarkProgramEnd completed) s = .next t ∧ t.pending = s.pending ∧
       (completed = true → Programmed s.chip.store.flash t.chip.store.flash (spareAddress slot 60) [0#8, 0#8, 0#8, 0#8]) ∧
       (completed = false → ProgramFailed s.chip.store.flash t.chip.store.flash (spareAddress slot 60) 4) ∧
       standing t.chip =
         { standing s.chip with
           flash := t.chip.store.flash
           freeCount := if completed then s.chip.freeCount else s.chip.freeCount + 4
           awaitingMark := s.chip.store.awaitingMark.filter (fun x => x != slot) }) ∧
  (∀ (s : State) (i slot b : Nat) (live : Bool), s.chip.store.current = some { op := .serveRead i slot b, live := live } → i < s.chip.serve.slots.length →
    ∃ t c', exec .serveReadComplete s = .next t ∧ t = { s with chip := settle c' } ∧ standing t.chip = standing s.chip ∧
      c'.serve.queue = s.chip.serve.queue ∧
      (∀ e p, live = true → serveSlot s.chip i = .reading e p →
        serveSlot c' i = if askerDeparting s.chip e.asker then .free else .ready e p (readBlock s.chip slot b)) ∧
      (live = false → c'.serve = s.chip.serve)) ∧
  ∀ (s : State) (place : Nat) (k : ImageKey) (seg slot b : Nat) (live : Bool),
    s.chip.store.current = some { op := .flashRead place k seg (some slot) b, live := live } →
    ∃ t c', exec .flasherReadComplete s = .next t ∧ t = { s with chip := settle c' } ∧ standing t.chip = standing s.chip ∧
      (live = false → c'.seq = s.chip.seq) ∧
      ∀ j, live = true → s.chip.seq.job = some j →
        c'.seq.job =
          some
            { j with
              ring := j.ring.map (fun p => if p.index = place then { p with bytes := some (preparedBytes p (readBlock s.chip slot b)) } else p) }

/-- R59, R14, R16, R107, R188. The header program of a check has completed: the segment is HELD, and what that brings. -/
def Obligations.HeaderProgramHoldsSegment : Prop :=
  ∀ (s : State) (slot : Nat) (bytes : List Byte) (live : Bool) (q : CheckRequest),
    s.chip.store.current = some { op := .checkHeader slot bytes, live := live } → s.chip.store.checkQueue.find? (fun x => x.slot == slot) = some q →
    let c := s.chip
    ∃ t c', exec .headerProgramComplete s = .next t ∧ t = { s with chip := settle c' } ∧
      Programmed c.store.flash t.chip.store.flash (spareAddress slot 4) bytes ∧
      standing t.chip = { standing c with flash := t.chip.store.flash, load := t.chip.port.load } ∧
      c'.store.checkQueue = c.store.checkQueue.filter (fun x => x.slot != slot) ∧
      (∀ l, q.source = none → c.port.load = .checking l → LoadEnded c t.chip l (if q.orphan then 3 else 0)) ∧
      ((q.source.isSome ∨ ∀ l, c.port.load ≠ .checking l) → t.chip.port.load = c.port.load) ∧
      (q.orphan = true → slotInfo c' slot = ⟨.dirty, none⟩) ∧
      (q.orphan = false → ∀ r, findRecord c q.image = some r →
        (0 < q.segment → q.segment < r.entries.length →
          segState c' q.image q.segment = some (.held slot) ∧ slotInfo c' slot = ⟨.full, some (.segment q.image q.segment)⟩ ∧
            (r.state = .gathering → c.store.scanPhase = .done →
              (∀ j e, r.entries[j]? = some e → 0 < j → j ≠ q.segment → e.state.code = 3) →
              imageComplete c' q.image = true ∧ Reported c.port.reports t.chip.port.reports .imageComplete (.image q.image) 0 c.now)) ∧
        (q.segment = 0 → 0 < r.entries.length →
          match validateManifest q.image r.model (readData c slot) with
          | .ok m =>
            ∃ r', findRecord c' q.image = some r' ∧ r'.state = .gathering ∧ r'.manifest = some m ∧ r'.entries.length = m.count + 1 ∧
              segState c' q.image 0 = some (.held slot) ∧ slotInfo c' slot = ⟨.full, some (.segment q.image 0)⟩ ∧
              ∀ j, 1 ≤ j → j ≤ m.count → segState c' q.image j = some .absent
          | .error reason =>
            ∃ r', findRecord c' q.image = some r' ∧ r'.state = .rejected ∧ segState c' q.image 0 = some .absent ∧
              slotInfo c' slot = ⟨.dirty, none⟩ ∧
              Reported c.port.reports t.chip.port.reports .manifestRejected (.image q.image) reason c.now))

/-- R104, R50, R59, R101, R187, R188 (log 9 for the bytes left). A failed program or erase on a segment-area slot: RETIRED, STORE_ERROR, and what its
owner does. That a load whose record was removed ends with 3 when its header program fails is deduced (log 36). -/
def Obligations.FailedOperationRetiresSlot : Prop :=
  ∀ (s : State) (op : StoreOp) (live : Bool) (row : Instr) (slot detail a n : Nat),
    s.chip.store.current = some { op := op, live := live } → failureOf op = some (row, slot, detail, a, n) →
    let c := s.chip
    ∃ t c', exec row s = .next t ∧ t = { s with chip := settle c' } ∧
      (∀ x, x < a ∨ a + n ≤ x → Memory.read t.chip.store.flash x = Memory.read c.store.flash x) ∧
      (row ≠ .slotEraseFailed → ProgramFailed c.store.flash t.chip.store.flash a n) ∧
      standing t.chip =
        { standing c with
          flash := t.chip.store.flash
          freeCount := c.freeCount + n
          retiredList := c.store.retiredList ++ [slot]
          awaitingMark := c.store.awaitingMark ++ [slot]
          eraseMarkDue := if c.store.eraseMarkDue = some slot then none else c.store.eraseMarkDue
          load := t.chip.port.load } ∧
      slotInfo c' slot = ⟨.retired, none⟩ ∧ slot ∉ c'.store.dirtyQueue ∧
      Reported c.port.reports t.chip.port.reports .storeError (.number slot) detail c.now ∧
      t.chip.peers.map peerBody = c.peers.map peerBody ∧
      (t.chip.port.load = c.port.load ∨ ∃ l d, (c.port.load = .opened l ∨ c.port.load = .checking l) ∧ LoadEnded c t.chip l d) ∧
      (∀ i f, (op = .fetchClaim i slot ∨ ∃ b data, op = .fetchBlock i slot b data) → liveFetch c i slot = some f →
        fetchSlot c' i = .free ∧ ((segState c f.image f.segment).isSome → segState c' f.image f.segment = some .absent)) ∧
      (∀ l, (op = .loadClaim slot ∨ ∃ b data, op = .loadBlock slot b data) → liveLoad c slot = some l → LoadEnded c t.chip l 2) ∧
      ∀ bytes q, op = .checkHeader slot bytes → c.store.checkQueue.find? (fun x => x.slot == slot) = some q →
        (q.orphan = false → (segState c q.image q.segment).isSome → segState c' q.image q.segment = some .absent) ∧
          ∀ l, q.source = none → c.port.load = .checking l → LoadEnded c t.chip l (if q.orphan then 3 else 2)

/-- R107, R58, R60, R188. A read of a check: the CRC goes on, and after the 64th the header program is asked for, or the check ends. -/
def Obligations.CheckReadCompared : Prop :=
  ∀ (s : State) (slot b : Nat) (live : Bool) (q : CheckRequest), s.chip.store.current = some { op := .checkRead slot b, live := live } →
    s.chip.store.checkQueue.find? (fun x => x.slot == slot) = some q →
    let c := s.chip
    let crc := crc32Feed q.crc (readBlock c slot b)
    let whole := 64 ≤ q.reads + 1
    let fetching := ∃ i f, q.source = some i ∧ fetchSlot c i = .checking f
    let peer := match q.source with
      | none => none
      | some i => match fetchSlot c i with | .checking f => if f.counted then some f.peer else none | _ => none
    let queue := fun (q' : CheckRequest) => c.store.checkQueue.map (fun x => if x.slot = slot then q' else x)
    ∃ t c', exec .checkReadComplete s = .next t ∧ t = { s with chip := settle c' } ∧
      standing t.chip = { standing c with load := t.chip.port.load } ∧
      (¬whole → c'.store.checkQueue = queue { q with reads := q.reads + 1, crc := crc } ∧ c'.fetch = c.fetch ∧ t.chip.port.load = c.port.load) ∧
      (whole → ∀ i f, q.source = some i → fetchSlot c i = .checking f → fetchSlot c' i = .free) ∧
      (whole → q.orphan = false → ~~~crc = q.expected →
        c'.store.checkQueue = queue { q with reads := q.reads + 1, crc := crc, header := true } ∧ t.chip.port.load = c.port.load ∧
          (fetching → slotInfo c' slot = ⟨.filling, some (.check q.image q.segment)⟩)) ∧
      (whole → (q.orphan = true ∨ ~~~crc ≠ q.expected) →
        c'.store.checkQueue = c.store.checkQueue.filter (fun x => x.slot != slot) ∧ slotInfo c' slot = ⟨.dirty, none⟩ ∧
          ∀ l, q.source = none → c.port.load = .checking l → LoadEnded c t.chip l (if q.orphan then 3 else 1)) ∧
      (whole → q.orphan = false → ~~~crc ≠ q.expected →
        ((segState c q.image q.segment).isSome → segState c' q.image q.segment = some .absent) ∧
          (q.source.isSome → Reported c.port.reports t.chip.port.reports .segmentSpoiled (.segment q.image q.segment) (peer.getD 0) c.now) ∧
          ∀ id, peer = some id → t.chip.peers.map peerBody = c.peers.map (fun p => peerBody (if p.id = id then struck c.now p else p)))

/-- R108, R175, R183. The read of slot 0: the configuration record takes effect, or the part is UNCONFIGURED. -/
def Obligations.ConfigurationTakesEffect : Prop :=
  ∀ (s : State) (live : Bool), s.chip.store.current = some { op := .scanConfig, live := live } →
    let c := s.chip
    match judgeConfig (readBlock c 0 0) with
    | none =>
      ∃ t, exec .configReadComplete s = .next t ∧ t.pending = s.pending ∧ standing t.chip = { standing c with part := .unconfigured }
    | some r =>
      let away := c.role = .busStation ∧ c.pins.departure = true
      let timer := if c.role = .origin then some (c.now + 5000) else none
      ∃ t, exec .configReadComplete s = .next t ∧ t.pending = s.pending ∧
        (¬away → standing t.chip = { standing c with config := some r, mode := .on, clock := { c.clock with beaconTimer := timer } }) ∧
        (away → t.chip.port.config = some r ∧ t.chip.yard.mode = .departed ∧ t.chip.departure.departed = true ∧ t.chip.departure.levelTaken = true ∧
          t.chip.yard.urgent = [] ∧ t.chip.clock = { c.clock with beaconTimer := none } ∧
          Reported c.port.reports t.chip.port.reports .departed .none 1 c.now)

/-- R110, R111, R112. A slot's spare area has been swept: its classification, and after the last slot the next phase, which leaves a finding as it is,
accepts it or releases it. -/
def Obligations.SweepClassifiesSlot : Prop :=
  ∀ (s : State) (slot : Nat) (live : Bool), s.chip.store.current = some { op := .scanSpare slot, live := live } →
    let c := s.chip
    let sp := fun (i : Nat) => Memory.read c.store.flash (spareAddress slot i)
    let erased := fun (a n : Nat) => ∀ i < n, sp (a + i) = 0xFF#8
    let eraseMark := sp 0 = 0xA5#8 ∧ sp 1 = 0xC3#8
    let retired := ¬erased 60 4
    let held := eraseMark ∧ sp 2 = 0x3C#8 ∧ sp 3 = 0x5A#8 ∧ sp 14 = 0x6C#8 ∧ sp 15 = 0x3A#8 ∧ sp 16 = 0x95#8 ∧ sp 17 = 0xD2#8
    let clean := eraseMark ∧ erased 2 16
    let found : Finding :=
      { slot := slot, image := ⟨be16 (readSpare c slot) 4, be16 (readSpare c slot) 6⟩, segment := be16 (readSpare c slot) 8,
        crc := BitVec.ofNat 32 (be32 (readSpare c slot) 10) }
    ∃ t c', exec .sweepReadComplete s = .next t ∧ t = { s with chip := settle c' } ∧
      (slot + 1 < segmentEnd c →
        standing t.chip = { standing c with scanNext := slot + 1, findings := t.chip.store.findings } ∧
          (retired → slotInfo c' slot = ⟨.retired, none⟩ ∧ c'.store.dirtyQueue = c.store.dirtyQueue) ∧
          (¬retired → held → slotInfo c' slot = ⟨.full, none⟩ ∧ c'.store.dirtyQueue = c.store.dirtyQueue ∧
            t.chip.store.findings = c.store.findings ++ [found]) ∧
          (retired ∨ ¬held → t.chip.store.findings = c.store.findings) ∧
          (¬retired → clean → slotInfo c' slot = ⟨.erased, none⟩ ∧ c'.store.dirtyQueue = c.store.dirtyQueue) ∧
          (¬retired → ¬held → ¬clean →
            slotInfo c' slot = ⟨.dirty, none⟩ ∧ (slot ∉ c.store.dirtyQueue → c'.store.dirtyQueue = c.store.dirtyQueue ++ [slot]))) ∧
      (segmentEnd c ≤ slot + 1 →
        ScanMovedOn c' ∧
          ((∀ x ∈ c.store.findings, x.slot ≠ slot) →
            (retired → slotInfo c' slot = ⟨.retired, none⟩) ∧
              (¬retired → held →
                (slotInfo c' slot = ⟨.full, none⟩ ∧ found ∈ c'.store.findings) ∨
                  (slotInfo c' slot = ⟨.full, some (.segment found.image found.segment)⟩ ∧
                    segState c' found.image found.segment = some (.held slot)) ∨
                  (slotInfo c' slot = ⟨.dirty, none⟩ ∧ slot ∈ c'.store.dirtyQueue)) ∧
              (¬retired → clean → slotInfo c' slot = ⟨.erased, none⟩) ∧
              (¬retired → ¬held → ¬clean → slotInfo c' slot = ⟨.dirty, none⟩ ∧ slot ∈ c'.store.dirtyQueue)))

/-- R13, R14, R16, R105, R111, R112 (log 7 for the 64 reads of a slot). The bytes of a manifest finding are read block by block; after the last they make it
HELD or REJECTED by its validation, and the scan goes on. -/
def Obligations.ManifestFindingJudged : Prop :=
  (∀ (s : State) (slot index : Nat) (live : Bool), s.chip.store.current = some { op := .scanManifest slot index, live := live } → index < 63 →
    ∃ t c', exec .manifestReadComplete s = .next t ∧ t = { s with chip := settle c' } ∧ standing t.chip = standing s.chip ∧
      c'.catalog = s.chip.catalog ∧ c'.store.waiting = s.chip.store.waiting ++ [{ op := .scanManifest slot (index + 1), owner := none }]) ∧
  ∀ (s : State) (slot : Nat) (live : Bool) (f : Finding) (r : ImageRecord), s.chip.store.current = some { op := .scanManifest slot 63, live := live } →
    s.chip.store.findings.find? (fun x => x.slot == slot) = some f → findRecord s.chip f.image = some r → considersManifest s.chip f = true →
    0 < r.entries.length →
    ∃ t c', exec .manifestReadComplete s = .next t ∧ t = { s with chip := settle c' } ∧ t.chip.store.flash = s.chip.store.flash ∧ ScanMovedOn c' ∧
      (∀ x ∈ c'.store.findings, x.slot ≠ slot ∧ x ∈ s.chip.store.findings) ∧
      ∃ r', findRecord c' f.image = some r' ∧
        match validateManifest f.image r.model (readData s.chip slot) with
        | .ok m =>
          r'.manifest = some m ∧ (r'.state = .gathering ∨ r'.state = .complete) ∧ r'.entries.length = m.count + 1 ∧
            segState c' f.image 0 = some (.held slot)
        | .error reason =>
          r'.state = .rejected ∧ segState c' f.image 0 = some .absent ∧
            Appended s.chip.port.reports t.chip.port.reports .manifestRejected (.image f.image) reason s.chip.now

/-! ## The cabin line (07) -/

/-- R113, R114, R124, R125 (log 25 for the period of waiting). The line state follows the wires outside MASTER and RECOVERING; after 2 ms of quiet a
transaction begins: the request that waits to begin again, else the oldest probation request, else the census's. A request that has waited 10,000 ms on a
blocked line is reported, once in a period. The clauses without effect are the model's choice (log 5), and so is that in RECOVERING the line frees when
both wires read high (log 24). -/
def Obligations.LineFollowsWires : Prop :=
  (∀ s : State,
     let c := s.chip
     let outside := c.line.state ≠ .master ∧ c.line.state ≠ .recovering
     (∀ clock data, ∃ t, exec (.lineWireChange clock data) s = .next t ∧ t.pending = s.pending ∧
       standing t.chip = { standing c with pins := { c.pins with clock := clock, data := data } } ∧
       (c.line.state = .master → t.chip.line.state = .master) ∧
       (c.line.state = .recovering →
         (clock = false ∨ data = false → t.chip.line.state = .recovering) ∧
           (clock = true → data = true → t.chip.line.state = .quiet c.now ∧ t.chip.line.steps = c.line.steps ++ [.closing])) ∧
       (outside → (clock = false ∨ data = false) → t.chip.line.state = .busy) ∧
       (clock = true → data = true → c.line.state = .busy → t.chip.line.state = .quiet c.now) ∧
       ∀ q, clock = true → data = true → c.line.state = .quiet q → t.chip.line.state = .quiet q) ∧
     ((∀ q, c.line.state ≠ .quiet q) → NoEffect .lineQuietElapsed s) ∧
     (∀ q, c.line.state = .quiet q →
       (c.now < q + 2 → NoEffect .lineQuietElapsed s) ∧
         (q + 2 ≤ c.now →
           let fresh := fun (r : LineRequest) => some { request := r, losses := 0, waiting := false, discarded := false }
           let probation := c.line.requests.find? (fun r => r.client == .probation)
           let census := c.line.requests.find? (fun r => r.client == .census)
           ∃ t, exec .lineQuietElapsed s = .next t ∧ t.pending = s.pending ∧ standing t.chip = standing c ∧
             (∀ r, c.line.current = some r → t.chip.line.state = .master ∧ t.chip.line.current = some { r with waiting := false }) ∧
             (c.line.current = none →
               (∀ r, probation = some r → t.chip.line.state = .master ∧ t.chip.line.current = fresh r) ∧
                 ∀ r, probation = none → census = some r → t.chip.line.state = .master ∧ t.chip.line.current = fresh r))) ∧
     (c.line.state ≠ .recovering → NoEffect .recoveringClockReleased s) ∧
     (c.line.state = .recovering →
       ∃ t, exec .recoveringClockReleased s = .next t ∧ t.pending = s.pending ∧
         standing t.chip = { standing c with pins := { c.pins with clock := true } } ∧
         (c.pins.data = true → t.chip.line.state = .quiet c.now ∧ t.chip.line.steps = c.line.steps ++ [.closing]) ∧
         (c.pins.data = false → t.chip.line.state = .recovering ∧ t.chip.line.steps = c.line.steps))) ∧
  ∀ s : State,
    let c := s.chip
    let blocked := c.line.state = .busy ∨ c.line.state = .recovering
    let again := match c.line.current with | some q => if q.waiting then [q.request] else [] | none => []
    let stuck := fun (b : Nat) => (again ++ c.line.requests).find? (fun r => decide (max r.presented b + 10000 ≤ c.now))
    (¬blocked ∨ c.line.stuckReported = true ∨ (∀ b, c.line.blockedSince = some b → stuck b = none) → NoEffect .lineStuckTimeout s) ∧
      ∀ b r, blocked → c.line.stuckReported = false → c.line.blockedSince = some b → stuck b = some r →
        ∃ t, exec .lineStuckTimeout s = .next t ∧ t.pending = s.pending ∧ standing t.chip = standing c ∧ t.chip.line.stuckReported = true ∧
          Reported c.port.reports t.chip.port.reports .lineStuck (.number r.address) (if c.line.state = .recovering then 2 else 1) c.now

/-- R116 to R124, R126. How a transaction begins and ends: the opening mark, what has then been put on the line, what the line becomes, and which client is
told which outcome; and how a hold is timed. The levels at which the wires are then taken to read (log 24) and the clauses without effect (log 5) are the
model's choices. -/
def Obligations.TransactionsEnd : Prop :=
  (∀ c : Chip, c.line.state = .idle → (c.line.current.isSome ∨ c.line.requests ≠ []) →
    let d := lineBegin c
    d.line.state = .master ∧ d.line.drive = ⟨true, true⟩ ∧ d.line.steps = [.opening] ∧ d.line.heldSince = none ∧
      wireReads d .clock = false ∧ wireReads d .data = false ∧ d.pins = c.pins) ∧
  ∀ s : State,
    let c := s.chip
    (c.line.state ≠ .master ∨ c.line.current = none →
      ∀ nak bytes wire ms,
        NoEffect (.cabinTransactionEnd nak bytes) s ∧ NoEffect .arbitrationLoss s ∧ NoEffect (.lineFault wire) s ∧ NoEffect (.holdTimeout ms) s) ∧
    ∀ q, c.line.state = .master → c.line.current = some q →
      let r := q.request
      let left := fun (clock data : Bool) (st : LineState) (current : Option CurrentRequest) (steps : List LineStep) =>
        { c with
          pins := { c.pins with clock := clock, data := data }
          line := { c.line with state := st, current := current, drive := ⟨false, false⟩, steps := steps, heldSince := none } }
      let closed := fun (steps : List LineStep) => left true true (.quiet c.now) none ([.opening] ++ steps ++ [.closing])
      let told := fun (o : LineOutcome) (d : Chip) =>
        if q.discarded then d
        else
          match r.client with
          | .census => censusOutcome o d
          | .job => jobOutcome r.command o d
          | .probation => probationOutcome r.address o d
      let first := BitVec.ofNat 8 (r.address * 8)
      let second := BitVec.ofNat 8 (r.address * 8 + 4)
      let sent : List Byte :=
        [first, BitVec.ofNat 8 r.command.code, BitVec.ofNat 8 (r.offset / 65536), BitVec.ofNat 8 (r.offset / 256), BitVec.ofNat 8 r.offset,
         BitVec.ofNat 8 r.lengthByte] ++ r.data
      let upTo := fun (n : Nat) => (sent.take n).map LineStep.byte ++ (if sent.length < n then [.reopen, .byte second] else [])
      let acknowledged := sent.length + (if r.receive = 0 then 0 else 1)
      (∀ bytes, exec (.cabinTransactionEnd (some 0) bytes) s = .next { s with chip := settle (told .absent (closed [.byte first])) }) ∧
        (∀ k bytes, 1 ≤ k → k < acknowledged →
          exec (.cabinTransactionEnd (some k) bytes) s = .next { s with chip := settle (told .refused (closed (upTo (k + 1)))) }) ∧
        (∀ nak bytes, (nak = none ∨ ∃ k, nak = some k ∧ acknowledged ≤ k) →
          let received := bytes.take r.receive ++ List.replicate (r.receive - bytes.length) 0xFF#8
          exec (.cabinTransactionEnd nak bytes) s =
            .next
              { s with chip := settle (told (.completed received) (closed (upTo acknowledged ++ received.map LineStep.received))) }) ∧
        (q.losses < 7 →
          exec .arbitrationLoss s =
            .next { s with chip := settle (left true false .busy (some { q with losses := q.losses + 1, waiting := true }) c.line.steps) }) ∧
        (7 ≤ q.losses → exec .arbitrationLoss s = .next { s with chip := settle (told .contended (left true false .busy none c.line.steps)) }) ∧
        (∀ wire, ∃ t d, exec (.lineFault wire) s = .next t ∧ t = { s with chip := settle (told .lineFault d) } ∧
          d =
            { left c.pins.clock c.pins.data (if c.pins.clock && c.pins.data then .quiet c.now else .busy) none c.line.steps with
              port := { c.port with reports := d.port.reports } } ∧
          Appended c.port.reports d.port.reports .lineFault (.number r.address) (match wire with | .data => 1 | .clock => 2) c.now) ∧
        (∀ ms, ms < r.holdLimit → NoEffect (.holdTimeout ms) s) ∧
        (∀ ms, r.holdLimit ≤ ms →
          exec (.holdTimeout ms) s = .next { s with chip := settle (told .holdTimeout (left false c.pins.data .recovering none c.line.steps)) }) ∧
        (∀ clock data, ∃ t, exec (.lineWireChange clock data) s = .next t ∧ t.pending = s.pending ∧ t.chip.line.state = .master ∧
          t.chip.line.heldSince = if clock then none else some (c.line.heldSince.getD c.now)) ∧
        ∀ h, c.line.heldSince = some h → h + r.holdLimit ≤ c.now + 1 →
          ∃ t, step { chip := c, pending := [] } = .next t ∧ .holdTimeout (c.now + 1 - h) ∈ t.pending

/-- R132, R133, R135. When a census begins and goes on after a pause, and what it makes of each outcome. That the hold-off's and the pause's end have no
effect when nothing may begin or before the time is the model's choice (log 5). -/
def Obligations.CensusGoesThroughAddresses : Prop :=
  (∀ s : State,
    let c := s.chip
    let ask := fun (n : Nat) => identifyRequest c .census n 100000
    let started := { c.census with state := .running, next := 1, pauses := 0, holds := 0, results := [] }
    let flashing := ∃ u ∈ c.seq.units, u.state = .erasing ∨ u.state = .writing ∨ u.state = .verifying ∨ u.state = .sealing ∨ u.state = .switching
    let free := c.census.state = .idle ∧ ¬flashing ∧ c.departure.departed = false
    let begins := fun (t : State) (c' : Chip) =>
      t = { s with chip := settle c' } ∧ t.chip.census = started ∧ (lineAccepts c → c'.line.requests = c.line.requests ++ [ask 1])
    (c.port.part = .running → c.role = .busStation →
      (¬free → ∃ t, exec .census s = .next t ∧ t.pending = s.pending ∧ standing t.chip = { standing c with reply := some ⟨.busy, 0x07#8, []⟩ }) ∧
        (free → ∃ t c', exec .census s = .next t ∧ begins t c' ∧ standing t.chip = { standing c with reply := some ⟨.ok, 0x07#8, []⟩ })) ∧
      (let owing := c.role = .busStation ∧ c.port.config.isSome ∧ c.store.scanPhase = .done ∧ free ∧ c.census.owed = true ∧
          ∀ a, c.census.lastAbandon = some a → a + 60000 ≤ c.now
       (¬owing → NoEffect .censusHoldoffEnd s) ∧
        (owing → ∃ t c', exec .censusHoldoffEnd s = .next t ∧ begins t c' ∧ standing t.chip = standing c)) ∧
      ((∀ u, c.census.state ≠ .paused u) → NoEffect .censusPauseEnd s) ∧
      ∀ u, c.census.state = .paused u →
        (c.now < u → NoEffect .censusPauseEnd s) ∧
          (u ≤ c.now →
            ∃ t c', exec .censusPauseEnd s = .next t ∧ t = { s with chip := settle c' } ∧ standing t.chip = standing c ∧
              t.chip.census = { c.census with state := .running } ∧ (lineAccepts c → c'.line.requests = c.line.requests ++ [ask c.census.next]))) ∧
  ∀ (c : Chip) (bytes : List Byte),
    let at_ := c.census
    let ask := fun (n : Nat) => identifyRequest c .census n 100000
    let onward := fun (d : Chip) (results : List (Nat × Identity)) =>
      d.census = { at_ with next := at_.next + 1, holds := 0, results := results } ∧ (lineAccepts c → d.line.requests = c.line.requests ++ [ask (at_.next + 1)])
    let bad := fun (d : Chip) (detail : Nat) => Appended c.port.reports d.port.reports .identityBad (.number at_.next) detail c.now
    let quiet := fun (d : Chip) => d.port.reports = c.port.reports
    let ended := fun (d : Chip) (detail pauses : Nat) =>
      d.census = { at_ with state := .idle, results := [], lastAbandon := some c.now, pauses := pauses } ∧
        Appended c.port.reports d.port.reports .censusAbandoned (.number at_.next) detail c.now ∧ d.seq = c.seq
    (at_.next < 31 →
      (∀ r, usableIdentity bytes = some r →
        onward (censusOutcome (.completed bytes) c) (at_.results ++ [(at_.next, r)]) ∧ quiet (censusOutcome (.completed bytes) c)) ∧
        (usableIdentity bytes = none → onward (censusOutcome (.completed bytes) c) at_.results ∧ bad (censusOutcome (.completed bytes) c) 1) ∧
        (onward (censusOutcome .absent c) at_.results ∧ quiet (censusOutcome .absent c)) ∧
        (onward (censusOutcome .refused c) at_.results ∧ bad (censusOutcome .refused c) 2) ∧
        (2 ≤ at_.holds → onward (censusOutcome .holdTimeout c) at_.results ∧ bad (censusOutcome .holdTimeout c) 3)) ∧
      (at_.holds < 2 →
        (censusOutcome .holdTimeout c).census = { at_ with holds := at_.holds + 1 } ∧ quiet (censusOutcome .holdTimeout c) ∧
          (lineAccepts c → (censusOutcome .holdTimeout c).line.requests = c.line.requests ++ [ask at_.next])) ∧
      (at_.pauses < 3 →
        (censusOutcome .contended c).census = { at_ with pauses := at_.pauses + 1, state := .paused (c.now + 1000) } ∧ quiet (censusOutcome .contended c)) ∧
      (3 ≤ at_.pauses → ended (censusOutcome .contended c) 1 (at_.pauses + 1)) ∧
      ended (censusOutcome .lineFault c) 2 at_.pauses

/-- R134, R11. The table a completed census builds, and what else its completion does, whichever outcome ends address 31. -/
def Obligations.CensusBuildsTable : Prop :=
  (∀ (old : List UnitEntry) (results : List (Nat × Identity)),
    old.Pairwise (fun u v => u.address < v.address) → results.Pairwise (fun x y => x.1 < y.1) → old.length ≤ 24 →
    let table := newTable old results
    let carried := fun (u : UnitEntry) => u ∈ old ∧ u.state = .probation ∧ ∀ x ∈ results, x.1 ≠ u.address
    let room := 24 - (old.filter (fun u => u.state == .probation && !results.any (fun x => x.1 == u.address))).length
    let same := fun (u : UnitEntry) (x : Nat × Identity) =>
      u ∈ old ∧ u.address = x.1 ∧ u.identity.model = x.2.model ∧ u.identity.revision = x.2.revision ∧ u.identity.serial = x.2.serial
    let entry := fun (v : UnitEntry) (x : Nat × Identity) =>
      (∃ u, same u x ∧ v = { u with identity := x.2, changed := false }) ∨ ((∀ u, ¬same u x) ∧ v = newUnit x.1 x.2)
    table.Pairwise (fun u v => u.address < v.address) ∧ table.length ≤ 24 ∧
      ∀ v, v ∈ table ↔ carried v ∨ ∃ x ∈ results.take room, entry v x) ∧
  ∀ c : Chip, c.census.next = 31 →
    let completes := fun (o : LineOutcome) (results : List (Nat × Identity)) =>
      let d := censusOutcome o c
      let table := newTable c.seq.units results
      let room := 24 - (c.seq.units.filter (fun u => u.state == .probation && !results.any (fun x => x.1 == u.address))).length
      let without := results.drop room
      d.census = { c.census with state := .idle, owed := false, holds := 0, results := [], completedOnce := true } ∧
        d.seq.units.map (fun u => (u.address, u.identity)) = table.map (fun u => (u.address, u.identity)) ∧
        d.catalog.records.map recordKey = admittedKeys c.role table c.port.config (liveEntries c) ∧
        d.fetch.selectionAsked = true ∧ Appended c.port.reports d.port.reports .censusDone .none table.length c.now ∧
        (∀ x rest, without = x :: rest → Appended c.port.reports d.port.reports .censusOverflow (.number x.1) without.length c.now) ∧
        (without = [] → ∃ rs, d.port.reports = pushReports c.port.reports rs ∧ ∀ r ∈ rs, r.kind ≠ .censusOverflow) ∧
        ∀ p ∈ d.seq.probations, p ∈ c.seq.probations ∧ ∃ u ∈ table, u.address = p.address ∧ u.state = .probation
    let bad := fun (o : LineOutcome) (detail : Nat) =>
      completes o c.census.results ∧ Appended c.port.reports (censusOutcome o c).port.reports .identityBad (.number 31) detail c.now
    completes .absent c.census.results ∧ bad .refused 2 ∧ (2 ≤ c.census.holds → bad .holdTimeout 3) ∧
      ∀ bytes,
        (usableIdentity bytes = none → bad (.completed bytes) 1) ∧
          ∀ r, usableIdentity bytes = some r → completes (.completed bytes) (c.census.results ++ [(31, r)])

/-! ## Cabin units (08) -/

/-- R138 to R140. Target selection, case by case, for live entries that differ in version within the model (R3); selection applied to an entry that is
neither flashing nor in PROBATION; and the six tests, in order, that evaluate an entry with a target. That an entry in CURRENT, AHEAD or STRANDED begins a
new job when its last target image is named again is deduced (log 21). -/
def Obligations.TargetsSelected : Prop :=
  (∀ (live : List (Nat × PlanEntry)) (model v : Nat),
     let mine := fun (x : Nat × PlanEntry) => x ∈ live ∧ x.2.model = model
     live.Pairwise (fun x y => ¬(x.2.model = y.2.model ∧ x.2.image.version = y.2.image.version)) →
     ((∀ x, ¬mine x) → chooseTarget live model v = .current) ∧
       ∀ f, mine f → (∀ x, mine x → x.2.image.version ≤ f.2.image.version) →
         let final := f.2.image.version
         let step := fun (x : Nat × PlanEntry) => mine x ∧ v < x.2.image.version ∧ x.2.floor ≤ v
         (v = final → chooseTarget live model v = .current) ∧
           (final < v → f.2.allowDowngrade = false → chooseTarget live model v = .ahead) ∧
           (final < v → f.2.allowDowngrade = true → chooseTarget live model v = .target f.1 f.2) ∧
           (v < final → f.2.floor ≤ v → chooseTarget live model v = .target f.1 f.2) ∧
           (v < final → v < f.2.floor →
             ((∀ x, ¬step x) → chooseTarget live model v = .stranded) ∧
               ∀ x, step x → (∀ y, step y → y.2.image.version ≤ x.2.image.version) → chooseTarget live model v = .target x.1 x.2)) ∧
  (∀ (c : Chip) (u : UnitEntry),
     let complete := ∃ t r, u.target = some t ∧ findRecord c t.image = some r ∧ r.state = .complete
     let notBefore := fun (n : Word32) => ∃ i e, u.targetIndex = some i ∧ (heldEntries c)[i]? = some e ∧ e.notBefore = some n
     let unsynced := (∃ n, notBefore n) ∧ c.clock.state = .unsynced
     let early := ∃ n, notBefore n ∧ ((BitVec.ofNat 32 c.now + c.clock.offset) - n : Word32).toInt < 0
     let noNotice := c.departure.deadline = none ∧ ∀ r, c.port.config = some r → r.noRoster = false
     let state := evaluatedState c u
     (¬complete → state = .waitingImage) ∧ (complete → unsynced → state = .waitingTime .unsynced) ∧
       (complete → ¬unsynced → early → state = .waitingTime .notBefore) ∧
       (complete → ¬unsynced → ¬early → noNotice → state = .waitingTime .noNotice) ∧
       (complete → ¬unsynced → ¬early → ¬noNotice → u.deferred = true → state = .waitingTime .budget) ∧
       (complete → ¬unsynced → ¬early → ¬noNotice → u.deferred = false → state = .ready)) ∧
  ∀ (c : Chip) (address : Nat) (u : UnitEntry), findUnit c address = some u →
    let d := selectUnit address c
    let busy := u.state = .probation ∨ u.state.flashing = true
    (busy → d = c) ∧
      (¬busy → ∃ w, findUnit d address = some w ∧ w.address = u.address ∧ w.identity = u.identity ∧ w.changed = u.changed ∧ w.last = u.last ∧
        match choiceFor c u with
        | .current => w = { u with targetIndex := none, state := if u.state = .done then .done else .current } ∧ d.port = c.port
        | .ahead =>
          w = { u with targetIndex := none, state := .ahead } ∧ (u.state = .ahead → d.port = c.port) ∧
            (u.state ≠ .ahead → Reported c.port.reports d.port.reports .unitAhead (.number u.address) 0 c.now)
        | .stranded =>
          w = { u with targetIndex := none, state := .stranded } ∧ (u.state = .stranded → d.port = c.port) ∧
            (u.state ≠ .stranded → Reported c.port.reports d.port.reports .unitStranded (.number u.address) 0 c.now)
        | .target i e =>
          let v : UnitEntry :=
            if u.target = some ⟨e.image, e.crc⟩ ∧ u.state ≠ .current ∧ u.state ≠ .ahead ∧ u.state ≠ .stranded then { u with targetIndex := some i }
            else
              { u with
                targetIndex := some i, target := some ⟨e.image, e.crc⟩, attempts := 0, deferralReported := false, deferred := false }
          d.port = c.port ∧
            w =
              if u.target = some ⟨e.image, e.crc⟩ ∧ (u.state = .done ∨ u.state = .failed ∨ u.state = .rolledBack ∨ u.state = .unreachable) then v
              else { v with state := evaluatedState c v })

/-- R142 to R144, R146, R147, R150, R170 to R173. The touched sectors and the budget of a job, the available time, and the packet list of an attempt; the
unit the arbiter chooses, and what job build and the budget gate make of it. -/
def Obligations.JobBuiltAndBudgeted : Prop :=
  (∀ c : Chip,
     let ready := fun (u : UnitEntry) => u ∈ c.seq.units ∧ u.state = .ready ∧ u.changed = false
     let flashing := ∃ u ∈ c.seq.units, u.state = .erasing ∨ u.state = .writing ∨ u.state = .verifying ∨ u.state = .sealing ∨ u.state = .switching
     let surveys := c.census.owed = true ∧ c.store.scanPhase = .done ∧ ∀ a, c.census.lastAbandon = some a → a + 60000 ≤ c.now
     let chooses := c.seq.job = none ∧ ¬flashing ∧ c.port.config.isSome ∧ c.role = .busStation ∧ c.departure.departed = false ∧
       c.census.state = .idle ∧ ¬surveys
     (match chooseEntry c with
       | none => ∀ u, ¬ready u
       | some u =>
         ready u ∧
           ∀ v, ready v → ∀ i j, u.targetIndex = some i → v.targetIndex = some j → i < j ∨ (i = j ∧ u.address ≤ v.address)) ∧
       (¬chooses → unitArbiter c = c) ∧ ((∀ u, ¬ready u) → unitArbiter c = c) ∧
       (∀ u, chooses → chooseEntry c = some u → unitArbiter c = arbiterSteps (c.seq.units.length - 1) (tryEntry u c)) ∧
       ∀ (u : UnitEntry) (t : TargetImage) (m : Manifest), findUnit c u.address = some u → u.target = some t →
         (findRecord c t.image).bind (fun r => r.manifest) = some m →
         let d := tryEntry u c
         let probation := match u.targetIndex.bind (fun i => (heldEntries c)[i]?) with | some e => e.probation | none => 0
         let fit := ∀ w ∈ m.windows, w.offset + windowLength m.count m.length w ≤ u.identity.sectorSize * u.identity.sectors
         let gate := ∀ a, availableTime c = some a → budgetFor c u.identity m probation ≤ a
         (¬fit → d.seq.job = c.seq.job ∧ Reported c.port.reports d.port.reports .jobFailed (.number u.address) 7 c.now ∧
           ∀ i e, choiceFor c u = .target i e → t = ⟨e.image, e.crc⟩ →
             findUnit d u.address = some { u with state := .failed, targetIndex := some i, last := some (.failed .misfit, c.now) }) ∧
           (fit → gate →
             findUnit d u.address = some { u with state := .erasing } ∧
               Reported c.port.reports d.port.reports .jobStarted (.number u.address) (u.attempts + 1) c.now ∧
               d.seq.job =
                 some
                   { address := u.address, attempt := u.attempts + 1, image := t.image, manifest := m, probationSeconds := probation, oldBank := none,
                     newBank := none, shortcut := false, cursor := 0, ring := [], retries := 0, pauses := 0, pausingUntil := none,
                     identified := false, cancelAtBoundary := false, stopAtBoundary := false, sealDone := false, swapBegun := false,
                     closing := false, closingAsked := false, readGone := false } ∧
               (chooses → chooseEntry c = some u → unitArbiter c = d)) ∧
           (fit → ¬gate →
             findUnit d u.address = some { u with deferred := true, deferralReported := true, state := .waitingTime .budget } ∧
               d.seq.job = c.seq.job ∧ (u.deferralReported = true → d.port.reports = c.port.reports) ∧
               ∀ i, u.deferralReported = false → u.targetIndex = some i →
                 Reported c.port.reports d.port.reports .budgetDeferred (.number u.address) i c.now)) ∧
  (∀ (c : Chip) (u : Identity) (m : Manifest) (t : Nat),
     let top := 4294967295
     let d := match c.port.config with | some r => r.derate | none => 0
     let used := if d = 0 then 0 else if d ≤ 10 then 10 else if d ≤ 20 then 20 else 30
     let rate := u.rate * (100 - used) / 100
     let byte := (9000000 + rate - 1) / rate
     let w := (m.windows.map (fun x => (windowLength m.count m.length x + 127) / 128)).sum
     let line := (w * 2 * 134 * byte + 999) / 1000
     let exact := line + w * u.pageTime + touchedSectors m u.sectorSize * u.eraseTime + min (max t 30) 600 * 1000 + 200
     let g := match c.port.config with | some r => r.guardSeconds | none => 0
     let guard := if g = 0 then 300 else min (max g 60) 1800
     budgetFor c u m t = min (min exact top + min exact top / 8) top ∧
       (∀ q, c.departure.deadline = some q → ∃ a, availableTime c = some a ∧ ((a : Int) = max ((q : Int) - c.now - guard * 1000) 0)) ∧
       (c.departure.deadline = none →
         availableTime c = if (match c.port.config with | some r => r.noRoster | none => false) = true then none else some 0) ∧
       ((∀ x ∈ m.windows, 0 < windowLength m.count m.length x) →
         let touched := fun (n : Nat) =>
           ∃ x ∈ m.windows, x.offset / u.sectorSize ≤ n ∧ n ≤ (x.offset + windowLength m.count m.length x - 1) / u.sectorSize
         runsApart (touchedRuns m u.sectorSize) = true ∧ (∀ n, covers (touchedRuns m u.sectorSize) n = true ↔ touched n) ∧
           (∃ sectors : List Nat, sectors.Pairwise (fun a b => a < b) ∧ ∀ n, n ∈ sectors ↔ touched n) ∧
           ∀ sectors : List Nat, sectors.Pairwise (fun a b => a < b) → (∀ n, n ∈ sectors ↔ touched n) →
             touchedSectors m u.sectorSize = sectors.length ∧
               ∀ j : JobRecord, j.manifest = m → j.shortcut = false → ∀ i n, sectors[i]? = some n →
                 packetAt j u (1 + i) = some (plainPacket (1 + i) .erase (n * u.sectorSize) 0))) ∧
  (∀ (p : Packet) (raw : List Byte), p.imageBytes ≤ raw.length → p.imageBytes ≤ p.length →
     let bytes := preparedBytes p raw
     bytes.length = p.length ∧ (∀ i, p.imageBytes ≤ i → i < p.length → bytes[i]? = some 0xFF#8) ∧
       ∀ i < p.imageBytes, ∃ b, bytes[i]? = some b ∧ ∀ k < 8, b.getLsbD k = (raw.getD i 0).getLsbD (if p.reversed then 7 - k else k)) ∧
  ∀ (j : JobRecord) (u : Identity),
    let m := j.manifest
    let pieces := (m.windows.map (fun x => (windowLength m.count m.length x + 127) / 128)).sum
    let s := if j.shortcut then 0 else touchedSectors m u.sectorSize
    let w := if j.shortcut then 0 else pieces
    let kind := fun (i : Nat) => (packetAt j u i).map (fun p => p.command)
    kind 0 = some .openBank ∧ (∀ i, 1 ≤ i → i < 1 + s → kind i = some .erase) ∧ (∀ i, 1 + s ≤ i → i < 1 + s + w → kind i = some .write) ∧
      (∀ i, 1 + s + w ≤ i → i < 1 + s + w + pieces → kind i = some .read) ∧ kind (1 + s + w + pieces) = some .seal ∧
      kind (2 + s + w + pieces) = some .swap ∧ (∀ i, 2 + s + w + pieces < i → kind i = none) ∧
      packetAt j u 0 = some (plainPacket 0 .openBank (match j.newBank with | some .b => 1 | _ => 0) 0) ∧
      packetAt j u (1 + s + w + pieces) = some (plainPacket (1 + s + w + pieces) .seal m.length 2) ∧
      (∀ (c : Chip) (p : Packet),
        let r := packetRequest c j u p
        let bare := r.data = [] ∧ r.receive = 0
        r.client = .job ∧ r.address = j.address ∧ r.command = p.command ∧ r.offset = p.offset ∧
          (p.command = .openBank ∨ p.command = .erase ∨ p.command = .swap → r.lengthByte = 0 ∧ bare) ∧
          (p.command = .seal → r.lengthByte = 2 ∧ r.data = [BitVec.ofNat 8 (j.image.version / 256), BitVec.ofNat 8 j.image.version] ∧ r.receive = 0) ∧
          (p.command = .write → r.lengthByte = p.length ∧ (∀ bs, p.bytes = some bs → r.data = bs) ∧ r.receive = 0) ∧
          (p.command = .read → r.lengthByte = p.length ∧ r.data = [] ∧ r.receive = p.length)) ∧
      (∀ i p, j.shortcut = false → i < pieces → packetAt j u (1 + s + i) = some p →
        ∃ r, packetAt j u (1 + s + w + i) = some r ∧ r.offset = p.offset ∧ r.length = p.length ∧ r.segment = p.segment ∧ r.block = p.block) ∧
      ∀ (ws₁ ws₂ : List PlacementWindow) (x : PlacementWindow) (k : Nat), m.windows = ws₁ ++ x :: ws₂ → j.shortcut = false →
        let length := windowLength m.count m.length x
        128 * k < length →
        ∃ p, packetAt j u (1 + s + (ws₁.map (fun y => (windowLength m.count m.length y + 127) / 128)).sum + k) = some p ∧
          p.command = .write ∧ p.offset = x.offset + 128 * k ∧ p.segment = x.first + k / 64 ∧ p.block = k % 64 ∧
          p.imageBytes = min 128 (length - 128 * k) ∧ p.reversed = (x.bitOrder != u.bitOrder) ∧
          (0 < u.granule → u.granule ∣ p.length ∧ p.imageBytes ≤ p.length ∧ p.length < p.imageBytes + u.granule)

/-- R145, R148 to R157. What the outcome of a flashing request does to the job and its entry, the first boundary of a pending cancel, and the end of a
pause. The model's choices: a departure stop goes before a cancel, and a cancel before a failure (log 19); the probation seconds kept in the job record
(log 20); no effect of a pause's end before its time (log 5). That a Swap tried once has begun is deduced (log 54). -/
def Obligations.JobActsOnOutcome : Prop :=
  (∀ (c : Chip) (j : JobRecord) (command : CabinCommand) (o : LineOutcome), c.seq.job = some j →
    let d := jobOutcome command o c
    let swapped := command = .swap ∧ (o = .holdTimeout ∨ ∃ bs, o = .completed bs)
    let plain := ¬swapped ∧ j.stopAtBoundary = false ∧ j.closing = false ∧ j.cancelAtBoundary = false
    let cancelled := d.seq.job = none ∧ Appended c.port.reports d.port.reports .jobCancelled (.number j.address) 1 c.now ∧
      ∀ u, findUnit c j.address = some u → ∃ w, findUnit d j.address = some w ∧ w.last = some (.cancelledPlan, c.now) ∧ w.attempts ≤ u.attempts
    (swapped →
      d.seq.job = none ∧ Appended c.port.reports d.port.reports .unitSwapped (.number j.address) j.image.version c.now ∧
        (∀ u, findUnit c j.address = some u → findUnit d j.address = some { u with state := .probation }) ∧
        ∃ p, d.seq.probations = c.seq.probations ++ [p] ∧ p.address = j.address ∧ p.length = min (max j.probationSeconds 30) 600 * 1000 ∧
          p.swapTime = c.now ∧ p.phase = .polling ∧ p.nextPoll = some (c.now + 10000) ∧ p.unanswered = 0 ∧ p.inHand = none ∧
          (∀ k, j.oldBank = some k → p.oldBank = k) ∧ ∀ k, j.newBank = some k → p.newBank = k) ∧
      (¬swapped → j.stopAtBoundary = true →
        d.seq.job = none ∧ Appended c.port.reports d.port.reports .jobCancelled (.number j.address) 2 c.now ∧
          (j.cancelAtBoundary = false → ∀ u, findUnit c j.address = some u →
            findUnit d j.address = some { u with state := .ready, last := some (.cancelledDeparture, c.now) })) ∧
      (¬swapped → j.stopAtBoundary = false → j.closing = true → cancelled) ∧
      (¬swapped → j.stopAtBoundary = false → j.closing = false → j.cancelAtBoundary = true → c.line.current = none →
        let unsealing := (j.sealDone = true ∨ (command = .seal ∧ ∃ bs, o = .completed bs)) ∧ j.swapBegun = false
        (unsealing → d.seq.job = some { j with closing := true, ring := [], pausingUntil := none, sealDone := true }) ∧ (¬unsealing → cancelled)) ∧
      (plain → o = .holdTimeout ∨ o = .absent →
        (j.retries < 2 → d = { c with seq.job := some { j with retries := j.retries + 1 } }) ∧
          (2 ≤ j.retries → AttemptFailed c d j (if o = .absent then .absent else .hold))) ∧
      (plain → o = .refused → AttemptFailed c d j .refused) ∧ (plain → o = .lineFault → AttemptFailed c d j .lineFault) ∧
      (plain → o = .contended →
        (j.pauses < 3 → d = { c with seq.job := some { j with pauses := j.pauses + 1, pausingUntil := some (c.now + 1000) } }) ∧
          (3 ≤ j.pauses → AttemptFailed c d j .lineBusy)) ∧
      (∀ bs, plain → o = .completed bs → command = .identify →
        (usableIdentity bs = none → AttemptFailed c d j .identity) ∧
          ∀ r u, usableIdentity bs = some r → findUnit c j.address = some u →
            (sameUnit u.identity r = false →
              d.seq.job = none ∧ d.census.owed = true ∧ findUnit d j.address = some { u with changed := true, state := .ready }) ∧
              (sameUnit u.identity r = true → r.version r.active = j.image.version →
                d.seq.job = none ∧ ∃ w, findUnit d j.address = some w ∧ w.identity = r) ∧
              (sameUnit u.identity r = true → r.version r.active ≠ j.image.version →
                findUnit d j.address = some { u with identity := r } ∧
                  ∃ g, d.seq.job = some g ∧ g.oldBank = some r.active ∧ g.newBank = some (otherBank r.active) ∧ g.identified = true ∧ g.retries = 0 ∧
                    (g.shortcut = true ↔ r.sealed (otherBank r.active) = true ∧ r.version (otherBank r.active) = j.image.version) ∧
                    (j.ring = [] → j.cursor = 0 → ∀ i < 32, g.ring[i]? = packetAt g r i))) ∧
      ∀ bs p rest u, plain → o = .completed bs → command ≠ .identify → j.ring = p :: rest → findUnit c j.address = some u →
        (command = .read → p.bytes ≠ some bs → AttemptFailed c d j .verify) ∧
          ((command = .read → p.bytes = some bs) →
            ∃ more, d.seq.job =
                some
                  { j with
                    ring := rest ++ more, cursor := j.cursor + more.length, retries := 0, sealDone := j.sealDone || command == .seal } ∧
              (16 < rest.length → more = []) ∧
              (rest.length ≤ 16 →
                (rest ++ more).length ≤ 32 ∧ (∀ i < more.length, more[i]? = packetAt j u.identity (j.cursor + i)) ∧
                  ((rest ++ more).length = 32 ∨ packetAt j u.identity (j.cursor + more.length) = none)))) ∧
  (∀ (c : Chip) (j : JobRecord) (u : UnitEntry), c.seq.job = some j → j.closing = true → j.closingAsked = false →
    findUnit c j.address = some u → lineAccepts c = true → c.line.current = none → (∀ r ∈ c.line.requests, r.client ≠ .job) →
    let d := jobPresent c
    d.seq.job = some { j with closingAsked := true } ∧ findUnit d j.address = some { u with state := .sealing } ∧
      ∃ r, d.line.requests = c.line.requests ++ [r] ∧ r.client = .job ∧ r.address = j.address ∧ r.command = .openBank ∧
        r.offset = (match j.newBank with | some .b => 1 | _ => 0)) ∧
  ∀ s : State,
    ((∀ j u, s.chip.seq.job = some j → j.pausingUntil = some u → s.chip.now < u) → NoEffect .jobPauseEnd s) ∧
      ∀ j u, s.chip.seq.job = some j → j.pausingUntil = some u → u ≤ s.chip.now →
        ∃ t c', exec .jobPauseEnd s = .next t ∧ t = { s with chip := settle c' } ∧ standing t.chip = standing s.chip ∧
          c'.seq.job = some { j with pausingUntil := none }

/-- R158, R160. The times of a probation: a poll, the final read, and a request put off. That no poll and no final read follow once a Revert is called for
is deduced (log 29); the clauses without effect are the model's choice (log 5). -/
def Obligations.ProbationTimesReached : Prop :=
  ∀ (s : State) (a : Nat) (p : ProbationRecord), findProbation s.chip a = some p →
    let c := s.chip
    let health := healthRequest c .probation a (match findUnit c a with | some u => u.identity.rate | none => 100000)
    let finish := p.swapTime + p.length
    let pollDue := ∃ u, p.nextPoll = some u ∧ u ≤ c.now ∧ u < finish ∧ p.phase = .polling ∧ p.revertReason = none
    let finalDue := p.phase = .polling ∧ finish ≤ c.now
    let waits := p.inHand = none ∧ p.repeatDue = none ∧ p.revertReason = none
    let again := ∃ u k, p.repeatDue = some (u, k) ∧ u ≤ c.now ∧ p.inHand = none
    let after := fun (t : State) (q : ProbationRecord) =>
      findProbation t.chip a = some q ∧ standing t.chip = { standing c with probations := t.chip.seq.probations }
    (¬pollDue → NoEffect (.probationPollDue a) s) ∧
      (pollDue → ∃ t c', exec (.probationPollDue a) s = .next t ∧ t = { s with chip := settle c' } ∧
        (p.inHand = none → (∀ u, p.nextPoll = some u → after t (asking .poll { p with nextPoll := some (u + 10000) })) ∧
          (lineAccepts c → c'.line.requests = c.line.requests ++ [health])) ∧
        (p.inHand ≠ none → after t { p with nextPoll := none } ∧ c'.line = c.line)) ∧
      (¬finalDue → NoEffect (.finalReadDue a) s) ∧
      (finalDue → ∃ t c', exec (.finalReadDue a) s = .next t ∧ t = { s with chip := settle c' } ∧
        (waits → after t (asking .finalRead { p with phase := .final }) ∧ (lineAccepts c → c'.line.requests = c.line.requests ++ [health])) ∧
        (¬waits → after t { p with phase := .final } ∧ c'.line = c.line)) ∧
      (¬again → NoEffect (.probationRepeatDue a) s) ∧
      ∀ u k, again → p.repeatDue = some (u, k) →
        ∃ t c', exec (.probationRepeatDue a) s = .next t ∧ t = { s with chip := settle c' } ∧ after t (asking k p) ∧
          (lineAccepts c → ∃ r, c'.line.requests = c.line.requests ++ [r] ∧ r.client = .probation ∧ r.address = a)

/-- R159 to R162. What the outcome of a probation's request in hand does. That a usable record of any unit at the confirming Identify ends in DONE is
deduced (log 35). -/
def Obligations.ProbationJudgesOutcome : Prop :=
  ∀ (c : Chip) (p : ProbationRecord) (k : ProbationRequest) (o : LineOutcome), findProbation c p.address = some p → p.inHand = some k →
    let d := probationOutcome p.address o c
    let now := fun (q : ProbationRecord) => findProbation d p.address = some q
    let ended := fun (kind : ReportKind) (detail : Nat) =>
      findProbation d p.address = none ∧ Reported c.port.reports d.port.reports kind (.number p.address) detail c.now
    let goOn := fun (q : ProbationRecord) =>
      if q.phase = .final then asking .finalRead q else { q with nextPoll := some (q.nextPoll.getD (c.now + 10000)) }
    let later := fun (r : ProbationRequest) (q : ProbationRecord) => { q with repeatDue := some (c.now + 10000, r) }
    let free := { p with inHand := none }
    let version := match findUnit c p.address with
      | some u => match u.target with | some t => t.image.version | none => 0
      | none => 0
    let unanswered :=
      let q := { free with unanswered := p.unanswered + 1 }
      (p.unanswered < 2 →
        (k = .poll → now (goOn q)) ∧ (k = .revert → now (later .revert q)) ∧ (k ≠ .poll → k ≠ .revert → now (later .finalRead q))) ∧
        (2 ≤ p.unanswered → p.confirmed = true → p.revertReason = none → ended .unitDone version ∧ d.census.owed = true) ∧
        (2 ≤ p.unanswered → ¬(p.confirmed = true ∧ p.revertReason = none) → ended .unitUnreachable 0)
    ((∀ bs, o ≠ .completed bs) → unanswered) ∧
      (∀ bs, o = .completed bs → k = .keep → now (asking .confirm { free with confirmed := true })) ∧
      (∀ bs, o = .completed bs → k = .revert → ended .unitRolledBack (p.revertReason.getD 0)) ∧
      (∀ bs, o = .completed bs → k = .confirm →
        (usableIdentity bs = none → unanswered) ∧ ((usableIdentity bs).isSome → ended .unitDone version)) ∧
      ∀ bs, o = .completed bs → k = .poll ∨ k = .finalRead →
        (healthOf bs = none → unanswered) ∧
          ∀ h, healthOf bs = some h →
            let old := h.running = p.oldBank
            let final := k = .finalRead
            let q := { free with unanswered := 0 }
            let revert := fun (reason : Nat) => now (asking .revert { q with revertReason := some reason })
            (old → h.trial = true → unanswered) ∧
              (old → h.trial = false → h.fallback = true → ended .unitRolledBack 1) ∧
              (old → h.trial = false → h.fallback = false → ended .unitRolledBack 2) ∧
              (¬old → h.selfTest = 2 → revert 3) ∧
              (¬old → h.selfTest ≠ 2 → h.trial = true → h.fallback = true → unanswered) ∧
              (¬old → h.trial = true → h.fallback = false → h.selfTest = 0 → final → revert 4) ∧
              (¬old → h.trial = true → h.fallback = false → h.selfTest = 1 → final → now (asking .keep q)) ∧
              (¬old → h.trial = false → h.selfTest = 1 → final → now (asking .confirm { q with confirmed := true })) ∧
              (¬old → h.trial = false → h.selfTest = 0 → final → revert 4) ∧
              (¬old → h.selfTest ≠ 2 → (h.trial = false ∨ h.fallback = false) → ¬final → now (goOn q))

/-! ## Yard time and departure (09) -/

/-- R36, R166, R167. A Beacon: recorded against its sender, adopted by a bus station when no better pair has been heard within 15,000 ms, and relayed. The
ends of the 15,000 ms (inclusive) and of the relay's 5,000 ms are deduced (log 26). -/
def Obligations.BeaconAdopted : Prop :=
  ∀ (s : State) (frame : List Byte) (f : RxFrame), Accepts s.chip .beacon frame f →
    let c := s.chip
    let depth := byteAt f.payload 4
    let time : Word32 := BitVec.ofNat 32 (be32 f.payload 0)
    ∃ t, exec (.beacon frame) s = .next t ∧ t.pending = s.pending ∧
      standing t.chip =
        { standing c with clock := t.chip.clock, plans := { c.plans with lastPlanAsk := t.chip.plans.lastPlanAsk } } ∧
      (f.departing = true → t.chip.clock = c.clock) ∧
      (f.departing = false →
        let better := ∃ p ∈ t.chip.peers, ∃ b, p.beacon = some b ∧ c.now ≤ b.time + 15000 ∧ (b.depth < depth ∨ (b.depth = depth ∧ p.id < f.sender))
        let adopted := c.role = .busStation ∧ ¬better
        let relayed := depth < 3 ∧ ∀ r, c.clock.lastRelay = some r → r + 5000 ≤ c.now
        let change := (time - (BitVec.ofNat 32 c.now + c.clock.offset)).toInt
        (∃ p, findPeer t.chip f.sender = some p ∧ p.beacon = some ⟨depth, c.now⟩) ∧
          (¬adopted → t.chip.clock = c.clock) ∧
          (adopted →
            { t.chip.clock with lastRelay := c.clock.lastRelay } =
                { c.clock with
                  state := .synced, offset := time - BitVec.ofNat 32 c.now, source := some f.sender, depth := some depth, lastAdoption := some c.now } ∧
              (relayed → t.chip.clock.lastRelay = some c.now ∧ (c.yard.urgent.length < 8 → .beacon (depth + 1) ∈ t.chip.yard.urgent)) ∧
              (¬relayed → t.chip.clock.lastRelay = c.clock.lastRelay) ∧
              (c.clock.state = .unsynced → Reported c.port.reports t.chip.port.reports .clockSynced (.number f.sender) depth c.now) ∧
              (c.clock.state ≠ .unsynced → 1000 < change →
                Reported c.port.reports t.chip.port.reports .clockStep (.number f.sender) 1 c.now) ∧
              (c.clock.state ≠ .unsynced → change < -1000 →
                Reported c.port.reports t.chip.port.reports .clockStep (.number f.sender) 2 c.now)))

/-- R165, R168, R141, R169. The origin's beacon timer, 60,000 ms without an adoption, the not-before time of an entry's target; and a change of notice on
a running bus station. That the timed commands have no effect before their time is the model's choice (log 5). -/
def Obligations.ClockTimesAndNotice : Prop :=
  (∀ s : State,
     let c := s.chip
     ((∀ u, c.clock.beaconTimer = some u → c.now < u) → NoEffect .beaconTimerExpiry s) ∧
       (∀ u, c.clock.beaconTimer = some u → u ≤ c.now →
         ∃ t, exec .beaconTimerExpiry s = .next t ∧ t.pending = s.pending ∧
           standing t.chip = { standing c with clock := { c.clock with beaconTimer := some (u + 5000) } } ∧
           (c.yard.mode = .on → c.yard.urgent.length < 8 → Queued c.yard.urgent t.chip.yard.urgent (.beacon 0))) ∧
       (let ends := c.clock.state = .synced ∧ ∃ a, c.clock.lastAdoption = some a ∧ a + 60000 ≤ c.now
        (¬ends → NoEffect .freeRunningTimeout s) ∧
         (ends → ∃ t, exec .freeRunningTimeout s = .next t ∧ t.pending = s.pending ∧
           standing t.chip = { standing c with clock := { c.clock with state := .freeRunning } } ∧
           Reported c.port.reports t.chip.port.reports .clockFreeRunning (.number (c.clock.source.getD 0)) 0 c.now)) ∧
       ∀ a : Nat,
         let passed := fun (u : UnitEntry) =>
           ∃ i e n, u.targetIndex = some i ∧ (heldEntries c)[i]? = some e ∧ e.notBefore = some n ∧
             0 ≤ ((BitVec.ofNat 32 c.now + c.clock.offset) - n : Word32).toInt
         ((∀ u, findUnit c a = some u → ¬passed u) → NoEffect (.notBeforeReached a) s) ∧
           ∀ u, findUnit c a = some u → passed u →
             ∃ t c', exec (.notBeforeReached a) s = .next t ∧ t = { s with chip := settle c' } ∧ standing t.chip = standing c ∧
               findUnit c' a = some (if u.state.waiting then { u with state := evaluatedState c u } else u)) ∧
  ∀ s : State, s.chip.port.part = .running → s.chip.role = .busStation →
    let c := s.chip
    let changed := fun (d : Chip) (deadline : Option Nat) =>
      d.departure = { c.departure with deadline := deadline } ∧
        d.seq.units = c.seq.units.map (fun u => let v := { u with deferred := false }; if u.state.waiting then { v with state := evaluatedState d v } else v)
    (∀ n : Word32, ∃ t c', exec (.setDeparture n) s = .next t ∧ t = { s with chip := settle c' } ∧
      changed c' (some (c.now + min n.toNat 86400 * 1000)) ∧
      standing t.chip = { standing c with departure := c'.departure, reply := some ⟨.ok, 0x05#8, []⟩ }) ∧
    ∃ t c', exec .clearDeparture s = .next t ∧ t = { s with chip := settle c' } ∧
      (c.departure.deadline.isSome → changed c' none) ∧ (c.departure.deadline = none → c'.seq = c.seq) ∧
      standing t.chip = { standing c with departure := { c.departure with deadline := none }, reply := some ⟨.ok, 0x06#8, []⟩ }

/-- R175 to R178, R135. The departure line: its edges, the taking of an asserted and of a released level, and the Leaves. That an edge to the same level, a level
or a Leave time not reached has no effect is the model's choice (log 5). -/
def Obligations.DepartureLineTaken : Prop :=
  ∀ s : State,
    let c := s.chip
    let follows := c.port.config.isSome ∧ c.role = .busStation
    let held := ∃ e, c.departure.edgeAt = some e ∧ e + 100 ≤ c.now
    (∀ level, (c.pins.departure = level → NoEffect (.departureLineEdge level) s) ∧
      (c.pins.departure ≠ level → ∃ t, exec (.departureLineEdge level) s = .next t ∧ t.pending = s.pending ∧
        (¬follows → standing t.chip = { standing c with pins := { c.pins with departure := level } }) ∧
        (follows → standing t.chip =
          { standing c with
            pins := { c.pins with departure := level }
            departure := { c.departure with edgeAt := if level = c.departure.levelTaken then none else some c.now } }))) ∧
    (let leaves := follows ∧ c.departure.departed = false ∧ c.pins.departure = true ∧ held
     (¬leaves → NoEffect .departureLineAsserted s) ∧
      (leaves → ∃ t, exec .departureLineAsserted s = .next t ∧ t.pending = s.pending ∧
        t.chip.departure =
          { departed := true, levelTaken := true, edgeAt := none, deadline := c.departure.deadline, leaveCount := 0, leavesQueued := 1,
            nextLeave := some (c.now + 200) } ∧
        t.chip.yard.mode = .departed ∧ t.chip.yard.urgent = [.leave] ∧ t.chip.yard.roundOffer = none ∧ t.chip.yard.offerRound = none ∧
        t.chip.plans = { c.plans with relayPending := false } ∧ t.chip.clock = c.clock ∧ t.chip.fetch.buffer = [] ∧ t.chip.serve.queue = [] ∧
        (∀ i < 4, fetchSlot t.chip i = .free) ∧ (∀ i < 3, serveSlot t.chip i = .free) ∧ t.chip.census.state = .idle ∧
        (c.census.state = .idle → t.chip.census = c.census) ∧
        (c.census.state ≠ .idle →
          t.chip.census = { c.census with state := .idle, results := [], lastAbandon := some c.now } ∧
            Appended c.port.reports t.chip.port.reports .censusAbandoned (.number c.census.next) 3 c.now ∧
            (∀ r ∈ t.chip.line.requests, r.client ≠ .census) ∧
            ∀ q, t.chip.line.current = some q → q.request.client = .census → q.discarded = true) ∧
        t.chip.peers.map peerBody = c.peers.map peerBody ∧
        (∀ j, c.seq.job = some j → (∀ q, c.line.current = some q → q.request.client ≠ .job ∨ q.discarded = true) → t.chip.seq.job = none) ∧
        Reported c.port.reports t.chip.port.reports .departed .none 0 c.now)) ∧
    (let next := c.departure.departed = true ∧ ∃ u, c.departure.nextLeave = some u ∧ u ≤ c.now
     (¬next → NoEffect .leaveTimerExpiry s) ∧
      ∀ u, next → c.departure.nextLeave = some u →
        ∃ t, exec .leaveTimerExpiry s = .next t ∧ t.pending = s.pending ∧
          standing t.chip =
            { standing c with
              departure :=
                { c.departure with
                  leavesQueued := c.departure.leavesQueued + 1
                  nextLeave := if c.departure.leavesQueued + 1 < 3 then some (u + 200) else none } } ∧
          (c.yard.mode ≠ .off → c.yard.urgent.length < 8 → Queued c.yard.urgent t.chip.yard.urgent .leave)) ∧
    (let returns := follows ∧ c.departure.departed = true ∧ c.pins.departure = false ∧ held
     (¬returns → NoEffect .departureLineReleased s) ∧
      (returns → ∃ t c', exec .departureLineReleased s = .next t ∧ t = { s with chip := settle c' } ∧
        t.chip.departure =
          { c.departure with
            departed := false, levelTaken := false, edgeAt := none, deadline := none, leavesQueued := 0, nextLeave := none } ∧
        t.chip.yard.mode = .on ∧ t.chip.yard.cw = 8 ∧ c'.yard.urgent = c.yard.urgent.filter (fun f => f != .leave) ∧ t.chip.peers = [] ∧
        (∀ r ∈ t.chip.catalog.records, ∀ e ∈ r.entries, e.holders = 0) ∧
        (c.store.scanPhase = .done → t.chip.yard.offerRound = some (c.now + 2000)) ∧ (∀ u ∈ c'.seq.units, u.deferred = false) ∧
        c'.fetch.selectionAsked = true ∧ Reported c.port.reports t.chip.port.reports .returned .none c.departure.leaveCount c.now))

/-! ## The local port (10) -/

/-- R179, R180, R132, R169, R186. The answers a part state or a role gives before a command's own rule, with no effect; and a whole command frame that is
not good is answered BAD, an exchange broken off as if it had not been. That BAD_COMMAND_FRAME has no effect with a broken or a good frame is the model's
choice (log 38). -/
def Obligations.PartStateAnswers : Prop :=
  (∀ (s : State) (i : Instr) (code : Byte),
     let c := s.chip
     let originOnly :=
       (∃ a b e, i = .loadPlan a b e ∧ code = 0x10#8) ∨ (∃ a b d e, i = .loadSegmentOpen a b d e ∧ code = 0x11#8) ∨
         (∃ a d, i = .loadBlock a d ∧ d.length = 128 ∧ code = 0x12#8) ∨ ∃ m, i = .loadSegmentClose m ∧ code = 0x13#8
     let busOnly := (∃ n, i = .setDeparture n ∧ code = 0x05#8) ∨ (i = .clearDeparture ∧ code = 0x06#8) ∨ (i = .census ∧ code = 0x07#8)
     let others := originOnly ∨ busOnly ∨ (i = .readUnits ∧ code = 0x02#8) ∨ ∃ p f, i = .readCatalog p f ∧ code = 0x03#8
     let answered := fun (st : Status) => ∃ t, exec i s = .next t ∧ t.pending = s.pending ∧ standing t.chip = { standing c with reply := some ⟨st, code, []⟩ }
     (others → c.port.part = .unconfigured → answered .refused) ∧ (others → c.port.part = .starting → answered .starting) ∧
       (∀ n, i = .readReports n → code = 0x04#8 → c.port.part = .unconfigured → answered .refused) ∧
       (originOnly → c.port.part = .running → c.role = .busStation → answered .refused) ∧
       (busOnly → c.port.part = .running → c.role = .origin → answered .refused)) ∧
  ∀ s : State,
    NoEffect .exchangeDiscarded s ∧
      ∀ frame : List Byte,
        let whole := 5 ≤ frame.length ∧ frame.length = be16 frame 1 + 5
        let checked := crc16 (frame.take (frame.length - 2)) = BitVec.ofNat 16 (be16 frame (frame.length - 2))
        (¬whole → NoEffect (.badCommandFrame frame) s) ∧
          (whole → ¬checked ∨ argumentLengthOk (byteAt frame 0) (be16 frame 1) = false →
            ∃ t, exec (.badCommandFrame frame) s = .next t ∧ t.pending = s.pending ∧
              standing t.chip = { standing s.chip with reply := some ⟨.bad, BitVec.ofNat 8 (byteAt frame 0), []⟩ }) ∧
          (whole → checked → argumentLengthOk (byteAt frame 0) (be16 frame 1) = true → NoEffect (.badCommandFrame frame) s)

/-- R181, R182, R196. What STATUS, READ_UNITS and READ_CATALOG return. -/
def Obligations.PartReadsBack : Prop :=
  ∀ s : State,
    let c := s.chip
    let returns := fun (i : Instr) (code : Byte) (result : List Byte) =>
      ∃ t, exec i s = .next t ∧ t.pending = s.pending ∧ standing t.chip = { standing c with reply := some ⟨.ok, code, result⟩ }
    (∃ bs, returns .status 0x01#8 bs ∧ bs.length = 45 ∧
      byteAt bs 0 = (match c.port.part with | .starting => 0 | .unconfigured => 1 | .running => 2) ∧
      byteAt bs 1 = (match c.role with | .busStation => 0 | .origin => 1) ∧
      be16 bs 3 = stationId c % 65536 ∧ be32 bs 5 = heldSerial c % 4294967296 ∧
      byteAt bs 9 = (match c.clock.state with | .unsynced => 0 | .synced => 1 | .freeRunning => 2) ∧
      BitVec.ofNat 32 (be32 bs 13) = BitVec.ofNat 32 c.now + c.clock.offset ∧
      byteAt bs 17 = (if c.departure.departed then 1 else 0) ∧
      (c.departure.deadline = none → be32 bs 18 = 4294967295) ∧
      (∀ d, c.departure.deadline = some d → d < c.now + 4294967295 → be32 bs 18 = (d - c.now) / 1000) ∧
      byteAt bs 22 = c.peers.length % 256 ∧ byteAt bs 24 = c.catalog.records.length % 256 ∧
      byteAt bs 32 = (match c.store.scanPhase with | .system => 0 | .sweep => 1 | .manifests => 2 | .data => 3 | .done => 4) ∧
      byteAt bs 33 = (match c.census.state with | .idle => 0 | .running => 1 | .paused _ => 2) ∧
      byteAt bs 35 = (match c.seq.job with | some j => j.address | none => 0) % 256 ∧
      byteAt bs 37 = (match c.port.load with | .idle => 0 | .opened _ => 1 | .checking _ => 2) ∧
      byteAt bs 38 = (match c.port.commission with | .idle => 0 | .writing => 1 | .done => 2 | .failed => 3) ∧
      byteAt bs 44 = (c.port.reports.filter (fun r => r.unread)).length % 256) ∧
    (c.port.part = .running →
      (∃ rows : List (List Byte), returns .readUnits 0x02#8 (BitVec.ofNat 8 c.seq.units.length :: rows.flatten) ∧ rows.length = c.seq.units.length ∧
        ∀ (i : Nat) (u : UnitEntry) (row : List Byte), c.seq.units[i]? = some u → rows[i]? = some row →
          row.length = 51 ∧ byteAt row 0 = u.address % 256 ∧ be16 row 1 = u.identity.model % 65536) ∧
      (∀ first, ∃ rows : List (List Byte), returns (.readCatalog 0 first) 0x03#8 (BitVec.ofNat 8 c.catalog.records.length :: rows.flatten) ∧
        rows.length = c.catalog.records.length ∧
        ∀ (i : Nat) (r : ImageRecord) (row : List Byte), c.catalog.records[i]? = some r → rows[i]? = some row →
          row.length = 23 ∧ be16 row 0 = r.image.id % 65536 ∧ be16 row 2 = r.image.version % 65536) ∧
      ∀ (position : Byte) (first : BitVec 16), position ≠ 0 →
        let es := match c.catalog.records[position.toNat - 1]? with | some r => (r.entries.drop first.toNat).take 256 | none => []
        ∃ rows : List (List Byte),
          returns (.readCatalog position first) 0x03#8
            ([position, BitVec.ofNat 8 (first.toNat / 256), BitVec.ofNat 8 first.toNat, BitVec.ofNat 8 (es.length / 256), BitVec.ofNat 8 es.length] ++
              rows.flatten) ∧
          rows = es.map (fun e => [BitVec.ofNat 8 e.state.code, BitVec.ofNat 8 e.holders]))

/-- R189, R190, R191. What is appended to the ring, what READ_REPORTS returns and marks as read, and the attention line after every command. -/
def Obligations.ReportsKeptAndRead : Prop :=
  ((∀ (c : Chip) (kind : ReportKind) (subject : Subject) (detail : Nat),
     let d := report kind subject detail c
     ∃ r, d = { c with port := { c.port with reports := (if c.port.reports.length < 64 then c.port.reports else c.port.reports.drop 1) ++ [r] } } ∧
       r.unread = true ∧ r.kind = kind ∧ r.subject = subject ∧ r.detail = BitVec.ofNat 16 detail ∧ r.localTime = BitVec.ofNat 32 c.now ∧
       r.yardTime = BitVec.ofNat 32 c.now + c.clock.offset ∧ (r.synced = true ↔ c.clock.state ≠ .unsynced) ∧
       (c.port.reports = [] → r.sequence = 0) ∧ ∀ l q, c.port.reports = l ++ [q] → r.sequence = q.sequence + 1) ∧
   ∀ (s : State) (n : BitVec 16), s.chip.port.part ≠ .unconfigured →
     let ring := s.chip.port.reports
     let next : BitVec 16 := match ring.getLast? with | some q => q.sequence + 1 | none => 0
     let a := (next - n).toNat
     let start := if a ≤ ring.length then ring.length - a else 0
     let out := if a = 0 then [] else (ring.drop start).take 16
     let oldest := match ring.head? with | some q => q.sequence | none => next
     ∃ t c' rows, exec (.readReports n) s = .next t ∧ t = { s with chip := settle c' } ∧
       standing t.chip =
         { standing s.chip with
           reply := some ⟨.ok, 0x04#8, put16 next.toNat ++ put16 oldest.toNat ++ put8 out.length ++ rows⟩ } ∧
       rows = out.flatMap putReport ∧
       c'.port.reports.length = ring.length ∧
       ∀ i r, ring[i]? = some r → c'.port.reports[i]? = some (if a ≠ 0 ∧ i < start + out.length then { r with unread := false } else r)) ∧
  ∀ (i : Instr) (s t : State), exec i s = .next t →
    (t.chip.port.attention = true ↔
      ∃ r, t.chip.port.config = some r ∧ ∃ x ∈ t.chip.port.reports, x.unread = true ∧ r.attentionMask.getLsbD x.kind.code = true)

/-- R184, R97, R8, R185. RESTART, the release of its select, and the start that it and power-on make. What an operation cut off leaves in the bytes it
worked on is the model's choice (logs 9 and 10), as are the after-start values of log 45 and a release without RESTART (log 5). -/
def Obligations.StartsBeginAfresh : Prop :=
  ∀ s : State,
    let c := s.chip
    let broken := c.port.commission = .writing ∨ c.port.commission = .failed
    let wholeCopy := fun (d : Chip) (n : Nat) => (wholePlanBody (copyPosition d n)).isSome = true
    let starts := fun (i : Instr) (pins : Pins) (detail : Nat) =>
      ∃ t, exec i s = .next t ∧ t.pending = s.pending ∧
        standing t.chip = standing (Chip.afterStart pins t.chip.store.flash t.chip.freeCount) ∧
        t.chip.now = 0 ∧ t.chip.role = pins.role ∧
        t.chip.total = (match pins.size with | .slots2048 => 2048 | .slots4096 => 4096 | .slots8192 => 8192 | .fourth => 2048) ∧
        (∃ r, t.chip.port.reports = [r] ∧ r.sequence = 0 ∧ r.kind = .started ∧ r.detail = BitVec.ofNat 16 detail ∧ r.unread = true) ∧
        t.chip.peers = [] ∧ t.chip.catalog.records = [] ∧ t.chip.seq.units = [] ∧ t.chip.seq.job = none ∧ t.chip.plans.body = [] ∧
        t.chip.port.load = .idle ∧ t.chip.departure.deadline = none ∧ t.chip.yard.mode = .off ∧ t.chip.line.requests = [] ∧
        t.chip.store.current = some { op := .scanConfig, live := true } ∧
        (∀ o a n erases, c.store.current = some o → cutRange o.op = some (a, n, erases) →
          ∀ x, (x < a ∨ a + n ≤ x ∨ (erases = false ∧ Memory.read c.store.flash x ≠ erasedByte)) → (broken → slotBytes ≤ x) →
            Memory.read t.chip.store.flash x = Memory.read c.store.flash x) ∧
        ((∀ o, c.store.current = some o → cutRange o.op = none) →
          t.chip.store.flash =
            if broken ∧ (judgeConfig (readBlock c 0 0)).isSome then Memory.eraseSlot c.store.flash 0 else c.store.flash) ∧
        (broken → judgeConfig (readBlock t.chip 0 0) = none) ∧
        (∀ o, c.store.current = some o → o.op = .planErase → ∀ n < 16, ¬wholeCopy t.chip n) ∧
        ∀ o n piece data, c.store.current = some o → o.op = .planProgram n piece data → wholeCopy t.chip n → wholeCopy c n
    (∀ pins, starts (.powerOn pins) pins 0) ∧
      (∃ t, exec .restart s = .next t ∧ t.pending = s.pending ∧
        standing t.chip = { standing c with restartArmed := true, reply := some ⟨.ok, 0x08#8, []⟩ }) ∧
      (c.port.restartArmed = true → starts .restartSelectRelease c.pins 1) ∧
      (c.port.restartArmed = false → NoEffect .restartSelectRelease s)

/-- R185, R183, R194 (log 9 for the bytes a failure leaves). COMMISSION's answers; the record it writes is one that a start finds whole; and the erase of
slot 0 and the program of the record, with their failures. -/
def Obligations.CommissionWritesRecord : Prop :=
  ((∀ (s : State) (record : List Byte),
     let c := s.chip
     let answered := fun (st : Status) => ∃ t, exec (.commission record) s = .next t ∧ t.pending = s.pending ∧
       standing t.chip = { standing c with reply := some ⟨st, 0x09#8, []⟩ }
     let whole := record.length = 18 ∧ 1 ≤ be16 record 0 ∧ be16 record 0 ≤ 65534
     (¬whole → answered .bad) ∧ (whole → c.port.commission = .writing → answered .busy) ∧
       (whole → c.port.commission ≠ .writing →
         ∃ t c', exec (.commission record) s = .next t ∧ t = { s with chip := settle c' } ∧
           standing t.chip =
             { standing c with reply := some ⟨.ok, 0x09#8, []⟩, commission := .writing, commissionRecord := t.chip.port.commissionRecord } ∧
           t.chip.port.commissionRecord.length = 26 ∧
           c'.store.portQueue = c.store.portQueue ++ [{ op := .commissionErase, owner := none }])) ∧
   ∀ (record rest : List Byte), record.length = 18 → 1 ≤ be16 record 0 → be16 record 0 ≤ 65534 →
     ∃ r, judgeConfig (commissionBytes record ++ rest) = some r ∧ r.station = be16 record 0 ∧ r.guardSeconds = be16 record 2 ∧
       r.derate = byteAt record 4 ∧ (r.courier = true ↔ byteAt record 5 % 2 = 1) ∧ (r.noRoster = true ↔ byteAt record 5 / 2 % 2 = 1) ∧
       r.attentionMask = BitVec.ofNat 64 (be64 record 6) ∧ r.writeLocks = BitVec.ofNat 16 (be16 record 14) ∧ r.serveLocks = BitVec.ofNat 16 (be16 record 16)) ∧
  (∀ (s : State) (live : Bool), s.chip.store.current = some { op := .commissionErase, live := live } →
    (∃ t c', exec .commissionEraseComplete s = .next t ∧ t = { s with chip := settle c' } ∧ Erased s.chip.store.flash t.chip.store.flash 0 ∧
      standing t.chip = { standing s.chip with flash := t.chip.store.flash } ∧
      c'.store.portQueue = s.chip.store.portQueue ++ [{ op := .commissionProgram s.chip.port.commissionRecord, owner := none }]) ∧
    ∃ t, exec .commissionEraseFailed s = .next t ∧ t.pending = s.pending ∧ EraseFailed s.chip.store.flash t.chip.store.flash 0 ∧
      standing t.chip =
        { standing s.chip with flash := t.chip.store.flash, freeCount := s.chip.freeCount + slotBytes, commission := .failed } ∧
      Reported s.chip.port.reports t.chip.port.reports .storeError (.number 0) 3 s.chip.now) ∧
  ∀ (s : State) (data : List Byte) (live : Bool), s.chip.store.current = some { op := .commissionProgram data, live := live } →
    (∃ t, exec .commissionProgramComplete s = .next t ∧ t.pending = s.pending ∧ Programmed s.chip.store.flash t.chip.store.flash 0 data ∧
      standing t.chip = { standing s.chip with flash := t.chip.store.flash, commission := .done } ∧
      Reported s.chip.port.reports t.chip.port.reports .commissioned (.number (be16 data 4)) 0 s.chip.now) ∧
    ∃ t, exec .commissionProgramFailed s = .next t ∧ t.pending = s.pending ∧ ProgramFailed s.chip.store.flash t.chip.store.flash 0 data.length ∧
      standing t.chip =
        { standing s.chip with flash := t.chip.store.flash, freeCount := s.chip.freeCount + data.length, commission := .failed } ∧
      Reported s.chip.port.reports t.chip.port.reports .storeError (.number 0) 1 s.chip.now

/-- R186, R187, R188, R101, R196. The load commands on a running origin. That LOAD_SEGMENT_CLOSE answers BAD to a mode that is neither 0 nor 1 (R196) before it
looks at the load's state and a pending program is deduced (log 32). -/
def Obligations.LoadCommandsAnswered : Prop :=
  ∀ s : State, s.chip.port.part = .running → s.chip.role = .origin →
    let c := s.chip
    let answered := fun (i : Instr) (st : Status) (code : Byte) => ∃ t, exec i s = .next t ∧ t.pending = s.pending ∧
      standing t.chip = { standing c with reply := some ⟨st, code, []⟩ }
    (∀ id version segment slot : BitVec 16,
      let k : ImageKey := ⟨id.toNat, version.toNat⟩
      let i := Instr.loadSegmentOpen id version segment slot
      let inside := 8 ≤ slot.toNat ∧ slot.toNat < 8 + 16 * ((c.total - 8) / 16)
      let fits := fun (r : ImageRecord) => if segment = 0 then r.state = .needsManifest else r.state = .gathering
      (¬inside → answered i .bad 0x11#8) ∧ (inside → c.port.load ≠ .idle → answered i .busy 0x11#8) ∧
        (inside → c.port.load = .idle → findRecord c k = none → answered i .refused 0x11#8) ∧
        ∀ r, inside → c.port.load = .idle → findRecord c k = some r →
          (¬fits r ∨ r.entries.length ≤ segment.toNat → answered i .refused 0x11#8) ∧
            ∀ e, fits r → r.entries[segment.toNat]? = some e →
              (∀ x, e.state = .held x → answered i .refused 0x11#8) ∧
                (∀ x, e.state = .fetching x ∨ e.state = .checking x ∨ e.state = .cooling x → answered i .busy 0x11#8) ∧
                (e.state = .absent → (slotInfo c slot.toNat).cond ≠ .erased → answered i .refused 0x11#8) ∧
                (e.state = .absent → (slotInfo c slot.toNat).cond = .erased →
                  ∃ t c', exec i s = .next t ∧ t = { s with chip := settle c' } ∧
                    standing t.chip =
                      { standing c with
                        reply := some ⟨.ok, 0x11#8, []⟩
                        load :=
                          .opened
                            { image := k, segment := segment.toNat, slot := slot.toNat, expected := expectedCrc c k segment.toNat, marks := 0,
                              claimed := false, pending := false } } ∧
                    slotInfo c' slot.toNat = ⟨.filling, some .load⟩ ∧
                    c'.store.portQueue = c.store.portQueue ++ [{ op := .loadClaim slot.toNat, owner := some .load }])) ∧
    (∀ (index : Byte) (data : List Byte),
      let i := Instr.loadBlock index data
      (data.length ≠ 128 ∨ 63 < index.toNat → answered i .bad 0x12#8) ∧
        (data.length = 128 → index.toNat ≤ 63 →
          ((∀ l, c.port.load ≠ .opened l) → answered i .refused 0x12#8) ∧
            ∀ l, c.port.load = .opened l →
              (l.pending = true ∨ l.claimed = false → answered i .busy 0x12#8) ∧
                (l.pending = false → l.claimed = true → l.marks.getLsbD index.toNat = true → answered i .refused 0x12#8) ∧
                (l.pending = false → l.claimed = true → l.marks.getLsbD index.toNat = false →
                  ∃ t c', exec i s = .next t ∧ t = { s with chip := settle c' } ∧
                    standing t.chip = { standing c with reply := some ⟨.ok, 0x12#8, []⟩, load := .opened { l with pending := true } } ∧
                    c'.store.portQueue = c.store.portQueue ++ [{ op := .loadBlock l.slot index.toNat data, owner := some .load }]))) ∧
    ∀ mode : Byte,
      let i := Instr.loadSegmentClose mode
      (mode ≠ 0 → mode ≠ 1 → answered i .bad 0x13#8) ∧
        (mode = 0 ∨ mode = 1 →
          ((∀ l, c.port.load ≠ .opened l) → answered i .refused 0x13#8) ∧
            ∀ l, c.port.load = .opened l →
              (l.pending = true ∨ l.claimed = false → answered i .busy 0x13#8) ∧
                (l.pending = false → l.claimed = true →
                  (mode = 1 → ∃ t, exec i s = .next t ∧ t.pending = s.pending ∧ LoadEnded c t.chip l 4 ∧
                    standing t.chip = { standing c with reply := some ⟨.ok, 0x13#8, []⟩, load := .idle }) ∧
                    (mode = 0 → l.marks ≠ BitVec.allOnes 64 → answered i .refused 0x13#8) ∧
                    (mode = 0 → l.marks = BitVec.allOnes 64 →
                      ∃ t c', exec i s = .next t ∧ t = { s with chip := settle c' } ∧
                        standing t.chip = { standing c with reply := some ⟨.ok, 0x13#8, []⟩, load := .checking l } ∧
                        ((segState c l.image l.segment).isSome → segState t.chip l.image l.segment = some (.checking l.slot)) ∧
                        c'.store.checkQueue =
                          c.store.checkQueue ++
                            [{ source := none, image := l.image, segment := l.segment, slot := l.slot, expected := l.expected, reads := 0,
                               crc := crc32Start, header := false, orphan := false }])))

/-! ## Invariants -/

/-- The canonical form of the store's memory is kept by every step. -/
def Obligations.FlashStaysCanonical : Prop :=
  ∀ s t : State, Memory.wf s.chip.store.flash → step s = .next t → Memory.wf t.chip.store.flash

/-- R25, R24. Every step keeps each holder count equal to the number of covering records, and lists only for images of the catalog. -/
def Obligations.HolderCountsStayExact : Prop :=
  ∀ s t : State, HoldersExact s.chip → ListsTracked s.chip → step s = .next t → HoldersExact t.chip ∧ ListsTracked t.chip

/-- R142, R137. Every step keeps the unit table in ascending address order, with no entry flashing but the active job's, and so at most one. -/
def Obligations.OneUnitFlashes : Prop :=
  ∀ s t : State, UnitsInOrder s.chip → OnlyJobFlashes s.chip → step s = .next t → UnitsInOrder t.chip ∧ OnlyJobFlashes t.chip

/-- R189, R38, R62, R39, R136, R85, R20, R11, R89. Every step keeps the report ring, the fetch and serve slots, the ask queue, the block buffer, the unit
table, the urgent lane, the peer table and the catalog within their sizes, and the airtime used within the allowance. -/
def Obligations.CapacitiesAndAirtimeKept : Prop :=
  (∀ s t : State, WithinCapacities s.chip → step s = .next t → WithinCapacities t.chip) ∧
  ∀ s t : State, AirtimeWithin s.chip → step s = .next t → AirtimeWithin t.chip

/-- The state after reset meets every invariant that the steps keep. -/
def Obligations.ResetMeetsInvariants : Prop :=
  let c := State.reset.chip
  Memory.wf c.store.flash ∧ HoldersExact c ∧ ListsTracked c ∧ UnitsInOrder c ∧ OnlyJobFlashes c ∧ AirtimeWithin c ∧ WithinCapacities c
end

