-- ==== Sys2Proof/Laws/Line.lean ====
section
/-!
SUPPORT. What the end of RECOVERING can do (R124).
-/
namespace Sys2Proof.Machine

/-- R124. The closing mark is made when both wires read high, and otherwise nothing happens yet. -/
theorem closeRecovery_does (c : Chip) :
    (c.pins.clock = true ∧ c.pins.data = true ∧ closeRecovery c = lineQuiet { c with line.steps := c.line.steps ++ [.closing] }) ∨
      ((c.pins.clock = false ∨ c.pins.data = false) ∧ closeRecovery c = c) := by
  unfold closeRecovery
  cases hc : c.pins.clock <;> cases hd : c.pins.data <;> simp

end Sys2Proof.Machine
end

