-- ==== Sys2Proof/Laws/Memory.lean ====
section
/-!
SUPPORT. The store flash as memory: what a write, a program and an erase do to the byte at each address, and that each keeps the canonical form.
-/
namespace Sys2Proof.Machine

/-! ## Reading a listed memory -/

theorem lookup_append_cells (x : Nat) (l m : List Host.Cell) : (l ++ m).lookup x = (l.lookup x).or (m.lookup x) := by
  induction l with
  | nil => simp
  | cons c cs ih =>
    obtain ⟨k, v⟩ := c
    by_cases h : x = k
    · simp [h]
    · simp [List.lookup_cons, beq_false_of_ne h, ih]

theorem lookup_filter_key (p : Nat → Bool) (x : Nat) (m : List Host.Cell) :
    (m.filter (fun c => p c.1)).lookup x = if p x then m.lookup x else none := by
  induction m with
  | nil => simp
  | cons c cs ih =>
    obtain ⟨k, v⟩ := c
    by_cases hk : x = k
    · subst hk
      by_cases hp : p x <;> simp [hp, ih]
    · by_cases hp : p k <;> simp [hp, List.lookup_cons, beq_false_of_ne hk, ih]

theorem cells_key (a : Nat) (bs : List Byte) : ∀ c ∈ Memory.cells a bs, a ≤ c.1 ∧ c.1 < a + bs.length ∧ c.2 ≠ erasedByte := by
  induction bs generalizing a with
  | nil => simp [Memory.cells]
  | cons b bs ih =>
    intro c hc
    unfold Memory.cells at hc
    split at hc
    · have := ih (a + 1) c hc
      simp only [List.length_cons]
      exact ⟨by omega, by omega, this.2.2⟩
    · rcases List.mem_cons.mp hc with h | h
      · subst h
        simp_all
      · have := ih (a + 1) c h
        simp only [List.length_cons]
        exact ⟨by omega, by omega, this.2.2⟩

theorem lookup_none_of_keys (x : Nat) (m : List Host.Cell) (h : ∀ c ∈ m, c.1 ≠ x) : m.lookup x = none := by
  induction m with
  | nil => rfl
  | cons c cs ih =>
    obtain ⟨k, v⟩ := c
    have hk : x ≠ k := fun e => h (k, v) (by simp) e.symm
    simp only [List.lookup_cons, beq_false_of_ne hk]
    exact ih (fun c hc => h c (by simp [hc]))

theorem cells_lookup (a : Nat) (bs : List Byte) (i : Nat) (hi : i < bs.length) :
    ((Memory.cells a bs).lookup (a + i)).getD erasedByte = bs[i] := by
  induction bs generalizing a i with
  | nil => simp at hi
  | cons b bs ih =>
    have later : ∀ x, x ≤ a → (Memory.cells (a + 1) bs).lookup x = none := fun x hx =>
      lookup_none_of_keys x _ (fun c hc => by have := (cells_key (a + 1) bs c hc).1; omega)
    unfold Memory.cells
    cases i with
    | zero =>
      split
      · rename_i hb
        simp [later a (Nat.le_refl a), hb]
      · simp
    | succ i =>
      have hi' : i < bs.length := by simpa using hi
      have key : a + (i + 1) = (a + 1) + i := by omega
      rw [key]
      split
      · simpa using ih (a + 1) i hi'
      · have hne : (a + 1) + i ≠ a := by omega
        simpa [List.lookup_cons, beq_false_of_ne hne] using ih (a + 1) i hi'

/-! ## Write, program, erase: the byte at an address -/

/-- A write leaves every byte outside it as it was. -/
theorem read_write_outside (m : List Host.Cell) (a : Nat) (bs : List Byte) (x : Nat) (h : x < a ∨ a + bs.length ≤ x) :
    Memory.read (Memory.write m a bs) x = Memory.read m x := by
  have hc : (Memory.cells a bs).lookup x = none :=
    lookup_none_of_keys x _ (fun c hc => by have := cells_key a bs c hc; omega)
  unfold Memory.read Memory.write
  rw [lookup_append_cells, lookup_append_cells, hc, lookup_filter_key (fun k => decide (k < a)),
    lookup_filter_key (fun k => decide (a + bs.length ≤ k))]
  rcases h with h | h
  · have : ¬ a + bs.length ≤ x := by omega
    simp [h, this]
  · have : ¬ x < a := by omega
    simp [h, this]

/-- A write gives each byte within it the value written. -/
theorem read_write_inside (m : List Host.Cell) (a : Nat) (bs : List Byte) (i : Nat) (hi : i < bs.length) :
    Memory.read (Memory.write m a bs) (a + i) = bs[i] := by
  unfold Memory.read Memory.write
  rw [lookup_append_cells, lookup_append_cells, lookup_filter_key (fun k => decide (k < a)),
    lookup_filter_key (fun k => decide (a + bs.length ≤ k))]
  have h1 : ¬ a + i < a := by omega
  have h2 : ¬ a + bs.length ≤ a + i := by omega
  simpa [h1, h2] using cells_lookup a bs i hi

@[simp] theorem readRange_length (m : List Host.Cell) (a n : Nat) : (Memory.readRange m a n).length = n := by
  induction n generalizing a with
  | zero => rfl
  | succ n ih => simp [Memory.readRange, ih]

theorem readRange_getElem (m : List Host.Cell) (a n i : Nat) (hi : i < (Memory.readRange m a n).length) :
    (Memory.readRange m a n)[i] = Memory.read m (a + i) := by
  induction n generalizing a i with
  | zero => simp at hi
  | succ n ih =>
    cases i with
    | zero => simp [Memory.readRange]
    | succ i =>
      have key : a + (i + 1) = (a + 1) + i := by omega
      simp only [Memory.readRange, List.getElem_cons_succ, key]
      exact ih (a + 1) i _

/-- Reading a run of bytes back after they were written gives what was written. -/
theorem readRange_write (m : List Host.Cell) (a : Nat) (bs : List Byte) : Memory.readRange (Memory.write m a bs) a bs.length = bs := by
  apply List.ext_getElem (by simp)
  intro i h1 h2
  rw [readRange_getElem, read_write_inside m a bs i h2]

@[simp] theorem programBytes_length (o n : List Byte) : (programBytes o n).length = min o.length n.length := by
  simp [programBytes]

/-- R96. A program leaves every byte outside it as it was. -/
theorem read_program_outside (m : List Host.Cell) (a : Nat) (bs : List Byte) (x : Nat) (h : x < a ∨ a + bs.length ≤ x) :
    Memory.read (Memory.program m a bs) x = Memory.read m x := by
  unfold Memory.program
  exact read_write_outside _ _ _ _ (by simpa using h)

/-- R96. A program sets the bytes within it that read as erased and keeps the others. -/
theorem read_program_inside (m : List Host.Cell) (a : Nat) (bs : List Byte) (i : Nat) (hi : i < bs.length) :
    Memory.read (Memory.program m a bs) (a + i) = if Memory.read m (a + i) = erasedByte then bs[i] else Memory.read m (a + i) := by
  unfold Memory.program
  have hl : i < (programBytes (Memory.readRange m a bs.length) bs).length := by simpa using hi
  rw [read_write_inside _ _ _ i hl]
  simp [programBytes, readRange_getElem]

/-- R96. A program of bytes that read as erased puts them there. -/
theorem readRange_program_erased (m : List Host.Cell) (a : Nat) (bs : List Byte)
    (h : ∀ i < bs.length, Memory.read m (a + i) = erasedByte) : Memory.readRange (Memory.program m a bs) a bs.length = bs := by
  apply List.ext_getElem (by simp)
  intro i h1 h2
  rw [readRange_getElem, read_program_inside m a bs i h2, h i h2]
  simp

/-- R96. After an erase every byte of the slot reads as erased. -/
theorem read_eraseSlot_inside (m : List Host.Cell) (slot x : Nat) (h1 : slot * slotBytes ≤ x) (h2 : x < slot * slotBytes + slotBytes) :
    Memory.read (Memory.eraseSlot m slot) x = erasedByte := by
  unfold Memory.read Memory.eraseSlot
  rw [lookup_filter_key (fun k => decide (k < slot * slotBytes) || decide (slot * slotBytes + slotBytes ≤ k))]
  have a1 : ¬ x < slot * slotBytes := by omega
  have a2 : ¬ slot * slotBytes + slotBytes ≤ x := by omega
  simp [a1, a2]

/-- R96. An erase leaves every other slot as it was. -/
theorem read_eraseSlot_outside (m : List Host.Cell) (slot x : Nat) (h : x < slot * slotBytes ∨ slot * slotBytes + slotBytes ≤ x) :
    Memory.read (Memory.eraseSlot m slot) x = Memory.read m x := by
  unfold Memory.read Memory.eraseSlot
  rw [lookup_filter_key (fun k => decide (k < slot * slotBytes) || decide (slot * slotBytes + slotBytes ≤ k))]
  rcases h with h | h <;> simp [h]

/-! ## The canonical form is kept -/

theorem cells_pairwise (a : Nat) (bs : List Byte) : (Memory.cells a bs).Pairwise (fun c d => c.1 < d.1) := by
  induction bs generalizing a with
  | nil => simp [Memory.cells]
  | cons b bs ih =>
    unfold Memory.cells
    split
    · exact ih (a + 1)
    · refine List.pairwise_cons.mpr ⟨fun c hc => ?_, ih (a + 1)⟩
      have := (cells_key (a + 1) bs c hc).1
      simp only
      omega

theorem write_wf (m : List Host.Cell) (a : Nat) (bs : List Byte) (h : Memory.wf m) : Memory.wf (Memory.write m a bs) := by
  obtain ⟨hp, hv⟩ := h
  constructor
  · unfold Memory.write
    refine List.pairwise_append.mpr ⟨hp.filter _, List.pairwise_append.mpr ⟨cells_pairwise a bs, hp.filter _, ?_⟩, ?_⟩
    · intro c hc d hd
      have h1 := cells_key a bs c hc
      have h2 : a + bs.length ≤ d.1 := by simpa using (List.mem_filter.mp hd).2
      omega
    · intro c hc d hd
      have h1 : c.1 < a := by simpa using (List.mem_filter.mp hc).2
      rcases List.mem_append.mp hd with h | h
      · have := cells_key a bs d h
        omega
      · have h2 : a + bs.length ≤ d.1 := by simpa using (List.mem_filter.mp h).2
        omega
  · intro c hc
    unfold Memory.write at hc
    rcases List.mem_append.mp hc with h | h
    · exact hv c (List.mem_filter.mp h).1
    · rcases List.mem_append.mp h with h | h
      · exact (cells_key a bs c h).2.2
      · exact hv c (List.mem_filter.mp h).1

theorem program_wf (m : List Host.Cell) (a : Nat) (bs : List Byte) (h : Memory.wf m) : Memory.wf (Memory.program m a bs) :=
  write_wf m a _ h

theorem eraseSlot_wf (m : List Host.Cell) (slot : Nat) (h : Memory.wf m) : Memory.wf (Memory.eraseSlot m slot) :=
  ⟨h.1.filter _, fun c hc => h.2 c (List.mem_filter.mp hc).1⟩

/-- R8. A failed or cut-off program of a copy's piece changes the flash only as a failed program does, or not at all. -/
theorem spoilPlanProgram_does (position piece len : Nat) (c : Chip) :
    ∃ f, spoilPlanProgram position piece len c = { c with store := { c.store with flash := f }, freeCount := c.freeCount + len } ∧
      (f = c.store.flash ∨ f = (spoilProgram (dataAddress 1 (512 * position + 128 * piece)) len c).store.flash) := by
  unfold spoilPlanProgram
  dsimp only
  split
  · exact ⟨_, rfl, .inl rfl⟩
  · exact ⟨_, rfl, .inr rfl⟩

/-- R8. A failed or cut-off erase of slot 1 changes the flash only as a failed erase does, or erases the slot. -/
theorem spoilPlanErase_does (c : Chip) :
    ∃ f, spoilPlanErase c = { c with store := { c.store with flash := f }, freeCount := c.freeCount + slotBytes } ∧
      (f = (spoilErase 1 c).store.flash ∨ f = Memory.eraseSlot (spoilErase 1 c).store.flash 1) := by
  unfold spoilPlanErase
  dsimp only
  split
  · exact ⟨_, rfl, .inr rfl⟩
  · exact ⟨_, rfl, .inl rfl⟩

theorem reset_flash_wf : Memory.wf State.reset.chip.store.flash := by
  show Memory.wf []
  simp [Memory.wf]

end Sys2Proof.Machine
end

