-- ==== Sys2Proof/Laws/Peers.lean ====
section
/-!
SUPPORT. What the Peer Table's shared operations can do: recounting, and a change of one peer's range list (R25, R33).
-/
namespace Sys2Proof.Machine

/-- R25. Recounting sets every holder count to what the peers' lists give, may ask for selection, and changes nothing else. -/
theorem recount_does (c : Chip) :
    ∃ asked, recount c = { c with catalog.records := c.catalog.records.map (countRecord c.peers), fetch.selectionAsked := asked } := by
  unfold recount
  by_cases h : c.catalog.records.map (countRecord c.peers) = c.catalog.records
  · exact ⟨c.fetch.selectionAsked, by rw [if_pos h, h]⟩
  · exact ⟨true, by rw [if_neg h]; rfl⟩

/-- R24, R25. A change of one peer's list for an image replaces that list, sets the counts, may ask for selection, and changes nothing else. -/
theorem changeList_does (id : Nat) (k : ImageKey) (f : List SegRun → List SegRun) (c : Chip) :
    ∃ asked, changeList id k f c =
      { c with
        peers := c.peers.map (fun p => if p.id = id then setRangeList k (f (rangeList p k)) p else p)
        catalog.records :=
          c.catalog.records.map (countRecord (c.peers.map (fun p => if p.id = id then setRangeList k (f (rangeList p k)) p else p)))
        fetch.selectionAsked := asked } := by
  obtain ⟨a, h⟩ := recount_does (updatePeer id (fun p => setRangeList k (f (rangeList p k)) p) c)
  unfold changeList askIf
  rw [h]
  split
  · exact ⟨true, rfl⟩
  · exact ⟨a, rfl⟩

end Sys2Proof.Machine
end

