-- ==== Sys2Proof/Laws/State.lean ====
section
/-!
SUPPORT. What each named update does to each field: one lemma per field per update, true by rfl.
-/
namespace Sys2Proof.Machine

/-! ## programFlash -/

@[simp] theorem programFlash_pins (a : Nat) (bs : List Byte) (c : Chip) : (programFlash a bs c).pins = c.pins := rfl
@[simp] theorem programFlash_role (a : Nat) (bs : List Byte) (c : Chip) : (programFlash a bs c).role = c.role := rfl
@[simp] theorem programFlash_total (a : Nat) (bs : List Byte) (c : Chip) : (programFlash a bs c).total = c.total := rfl
@[simp] theorem programFlash_now (a : Nat) (bs : List Byte) (c : Chip) : (programFlash a bs c).now = c.now := rfl
@[simp] theorem programFlash_freeCount (a : Nat) (bs : List Byte) (c : Chip) : (programFlash a bs c).freeCount = c.freeCount := rfl
@[simp] theorem programFlash_plans (a : Nat) (bs : List Byte) (c : Chip) : (programFlash a bs c).plans = c.plans := rfl
@[simp] theorem programFlash_catalog (a : Nat) (bs : List Byte) (c : Chip) : (programFlash a bs c).catalog = c.catalog := rfl
@[simp] theorem programFlash_peers (a : Nat) (bs : List Byte) (c : Chip) : (programFlash a bs c).peers = c.peers := rfl
@[simp] theorem programFlash_fetch (a : Nat) (bs : List Byte) (c : Chip) : (programFlash a bs c).fetch = c.fetch := rfl
@[simp] theorem programFlash_serve (a : Nat) (bs : List Byte) (c : Chip) : (programFlash a bs c).serve = c.serve := rfl
@[simp] theorem programFlash_yard (a : Nat) (bs : List Byte) (c : Chip) : (programFlash a bs c).yard = c.yard := rfl
@[simp] theorem programFlash_store_flash (a : Nat) (bs : List Byte) (c : Chip) : (programFlash a bs c).store.flash = Memory.program c.store.flash a bs := rfl
@[simp] theorem programFlash_store_slotMap (a : Nat) (bs : List Byte) (c : Chip) : (programFlash a bs c).store.slotMap = c.store.slotMap := rfl
@[simp] theorem programFlash_store_dirtyQueue (a : Nat) (bs : List Byte) (c : Chip) : (programFlash a bs c).store.dirtyQueue = c.store.dirtyQueue := rfl
@[simp] theorem programFlash_store_releasing (a : Nat) (bs : List Byte) (c : Chip) : (programFlash a bs c).store.releasing = c.store.releasing := rfl
@[simp] theorem programFlash_store_retiredList (a : Nat) (bs : List Byte) (c : Chip) : (programFlash a bs c).store.retiredList = c.store.retiredList := rfl
@[simp] theorem programFlash_store_awaitingMark (a : Nat) (bs : List Byte) (c : Chip) : (programFlash a bs c).store.awaitingMark = c.store.awaitingMark := rfl
@[simp] theorem programFlash_store_eraseMarkDue (a : Nat) (bs : List Byte) (c : Chip) : (programFlash a bs c).store.eraseMarkDue = c.store.eraseMarkDue := rfl
@[simp] theorem programFlash_store_checkQueue (a : Nat) (bs : List Byte) (c : Chip) : (programFlash a bs c).store.checkQueue = c.store.checkQueue := rfl
@[simp] theorem programFlash_store_lastGranted (a : Nat) (bs : List Byte) (c : Chip) : (programFlash a bs c).store.lastGranted = c.store.lastGranted := rfl
@[simp] theorem programFlash_store_current (a : Nat) (bs : List Byte) (c : Chip) : (programFlash a bs c).store.current = c.store.current := rfl
@[simp] theorem programFlash_store_waiting (a : Nat) (bs : List Byte) (c : Chip) : (programFlash a bs c).store.waiting = c.store.waiting := rfl
@[simp] theorem programFlash_store_portQueue (a : Nat) (bs : List Byte) (c : Chip) : (programFlash a bs c).store.portQueue = c.store.portQueue := rfl
@[simp] theorem programFlash_store_scanPhase (a : Nat) (bs : List Byte) (c : Chip) : (programFlash a bs c).store.scanPhase = c.store.scanPhase := rfl
@[simp] theorem programFlash_store_scanNext (a : Nat) (bs : List Byte) (c : Chip) : (programFlash a bs c).store.scanNext = c.store.scanNext := rfl
@[simp] theorem programFlash_store_findings (a : Nat) (bs : List Byte) (c : Chip) : (programFlash a bs c).store.findings = c.store.findings := rfl
@[simp] theorem programFlash_line (a : Nat) (bs : List Byte) (c : Chip) : (programFlash a bs c).line = c.line := rfl
@[simp] theorem programFlash_census (a : Nat) (bs : List Byte) (c : Chip) : (programFlash a bs c).census = c.census := rfl
@[simp] theorem programFlash_seq (a : Nat) (bs : List Byte) (c : Chip) : (programFlash a bs c).seq = c.seq := rfl
@[simp] theorem programFlash_clock (a : Nat) (bs : List Byte) (c : Chip) : (programFlash a bs c).clock = c.clock := rfl
@[simp] theorem programFlash_departure (a : Nat) (bs : List Byte) (c : Chip) : (programFlash a bs c).departure = c.departure := rfl
@[simp] theorem programFlash_port (a : Nat) (bs : List Byte) (c : Chip) : (programFlash a bs c).port = c.port := rfl

/-! ## spoilProgram -/

@[simp] theorem spoilProgram_pins (a n : Nat) (c : Chip) : (spoilProgram a n c).pins = c.pins := rfl
@[simp] theorem spoilProgram_role (a n : Nat) (c : Chip) : (spoilProgram a n c).role = c.role := rfl
@[simp] theorem spoilProgram_total (a n : Nat) (c : Chip) : (spoilProgram a n c).total = c.total := rfl
@[simp] theorem spoilProgram_now (a n : Nat) (c : Chip) : (spoilProgram a n c).now = c.now := rfl
@[simp] theorem spoilProgram_freeCount (a n : Nat) (c : Chip) : (spoilProgram a n c).freeCount = c.freeCount + n := rfl
@[simp] theorem spoilProgram_plans (a n : Nat) (c : Chip) : (spoilProgram a n c).plans = c.plans := rfl
@[simp] theorem spoilProgram_catalog (a n : Nat) (c : Chip) : (spoilProgram a n c).catalog = c.catalog := rfl
@[simp] theorem spoilProgram_peers (a n : Nat) (c : Chip) : (spoilProgram a n c).peers = c.peers := rfl
@[simp] theorem spoilProgram_fetch (a n : Nat) (c : Chip) : (spoilProgram a n c).fetch = c.fetch := rfl
@[simp] theorem spoilProgram_serve (a n : Nat) (c : Chip) : (spoilProgram a n c).serve = c.serve := rfl
@[simp] theorem spoilProgram_yard (a n : Nat) (c : Chip) : (spoilProgram a n c).yard = c.yard := rfl
@[simp] theorem spoilProgram_store_flash (a n : Nat) (c : Chip) : (spoilProgram a n c).store.flash = Memory.program c.store.flash a (freeBytes c.freeCount n) := rfl
@[simp] theorem spoilProgram_store_slotMap (a n : Nat) (c : Chip) : (spoilProgram a n c).store.slotMap = c.store.slotMap := rfl
@[simp] theorem spoilProgram_store_dirtyQueue (a n : Nat) (c : Chip) : (spoilProgram a n c).store.dirtyQueue = c.store.dirtyQueue := rfl
@[simp] theorem spoilProgram_store_releasing (a n : Nat) (c : Chip) : (spoilProgram a n c).store.releasing = c.store.releasing := rfl
@[simp] theorem spoilProgram_store_retiredList (a n : Nat) (c : Chip) : (spoilProgram a n c).store.retiredList = c.store.retiredList := rfl
@[simp] theorem spoilProgram_store_awaitingMark (a n : Nat) (c : Chip) : (spoilProgram a n c).store.awaitingMark = c.store.awaitingMark := rfl
@[simp] theorem spoilProgram_store_eraseMarkDue (a n : Nat) (c : Chip) : (spoilProgram a n c).store.eraseMarkDue = c.store.eraseMarkDue := rfl
@[simp] theorem spoilProgram_store_checkQueue (a n : Nat) (c : Chip) : (spoilProgram a n c).store.checkQueue = c.store.checkQueue := rfl
@[simp] theorem spoilProgram_store_lastGranted (a n : Nat) (c : Chip) : (spoilProgram a n c).store.lastGranted = c.store.lastGranted := rfl
@[simp] theorem spoilProgram_store_current (a n : Nat) (c : Chip) : (spoilProgram a n c).store.current = c.store.current := rfl
@[simp] theorem spoilProgram_store_waiting (a n : Nat) (c : Chip) : (spoilProgram a n c).store.waiting = c.store.waiting := rfl
@[simp] theorem spoilProgram_store_portQueue (a n : Nat) (c : Chip) : (spoilProgram a n c).store.portQueue = c.store.portQueue := rfl
@[simp] theorem spoilProgram_store_scanPhase (a n : Nat) (c : Chip) : (spoilProgram a n c).store.scanPhase = c.store.scanPhase := rfl
@[simp] theorem spoilProgram_store_scanNext (a n : Nat) (c : Chip) : (spoilProgram a n c).store.scanNext = c.store.scanNext := rfl
@[simp] theorem spoilProgram_store_findings (a n : Nat) (c : Chip) : (spoilProgram a n c).store.findings = c.store.findings := rfl
@[simp] theorem spoilProgram_line (a n : Nat) (c : Chip) : (spoilProgram a n c).line = c.line := rfl
@[simp] theorem spoilProgram_census (a n : Nat) (c : Chip) : (spoilProgram a n c).census = c.census := rfl
@[simp] theorem spoilProgram_seq (a n : Nat) (c : Chip) : (spoilProgram a n c).seq = c.seq := rfl
@[simp] theorem spoilProgram_clock (a n : Nat) (c : Chip) : (spoilProgram a n c).clock = c.clock := rfl
@[simp] theorem spoilProgram_departure (a n : Nat) (c : Chip) : (spoilProgram a n c).departure = c.departure := rfl
@[simp] theorem spoilProgram_port (a n : Nat) (c : Chip) : (spoilProgram a n c).port = c.port := rfl

/-! ## eraseFlash -/

@[simp] theorem eraseFlash_pins (slot : Nat) (c : Chip) : (eraseFlash slot c).pins = c.pins := rfl
@[simp] theorem eraseFlash_role (slot : Nat) (c : Chip) : (eraseFlash slot c).role = c.role := rfl
@[simp] theorem eraseFlash_total (slot : Nat) (c : Chip) : (eraseFlash slot c).total = c.total := rfl
@[simp] theorem eraseFlash_now (slot : Nat) (c : Chip) : (eraseFlash slot c).now = c.now := rfl
@[simp] theorem eraseFlash_freeCount (slot : Nat) (c : Chip) : (eraseFlash slot c).freeCount = c.freeCount := rfl
@[simp] theorem eraseFlash_plans (slot : Nat) (c : Chip) : (eraseFlash slot c).plans = c.plans := rfl
@[simp] theorem eraseFlash_catalog (slot : Nat) (c : Chip) : (eraseFlash slot c).catalog = c.catalog := rfl
@[simp] theorem eraseFlash_peers (slot : Nat) (c : Chip) : (eraseFlash slot c).peers = c.peers := rfl
@[simp] theorem eraseFlash_fetch (slot : Nat) (c : Chip) : (eraseFlash slot c).fetch = c.fetch := rfl
@[simp] theorem eraseFlash_serve (slot : Nat) (c : Chip) : (eraseFlash slot c).serve = c.serve := rfl
@[simp] theorem eraseFlash_yard (slot : Nat) (c : Chip) : (eraseFlash slot c).yard = c.yard := rfl
@[simp] theorem eraseFlash_store_flash (slot : Nat) (c : Chip) : (eraseFlash slot c).store.flash = Memory.eraseSlot c.store.flash slot := rfl
@[simp] theorem eraseFlash_store_slotMap (slot : Nat) (c : Chip) : (eraseFlash slot c).store.slotMap = c.store.slotMap := rfl
@[simp] theorem eraseFlash_store_dirtyQueue (slot : Nat) (c : Chip) : (eraseFlash slot c).store.dirtyQueue = c.store.dirtyQueue := rfl
@[simp] theorem eraseFlash_store_releasing (slot : Nat) (c : Chip) : (eraseFlash slot c).store.releasing = c.store.releasing := rfl
@[simp] theorem eraseFlash_store_retiredList (slot : Nat) (c : Chip) : (eraseFlash slot c).store.retiredList = c.store.retiredList := rfl
@[simp] theorem eraseFlash_store_awaitingMark (slot : Nat) (c : Chip) : (eraseFlash slot c).store.awaitingMark = c.store.awaitingMark := rfl
@[simp] theorem eraseFlash_store_eraseMarkDue (slot : Nat) (c : Chip) : (eraseFlash slot c).store.eraseMarkDue = c.store.eraseMarkDue := rfl
@[simp] theorem eraseFlash_store_checkQueue (slot : Nat) (c : Chip) : (eraseFlash slot c).store.checkQueue = c.store.checkQueue := rfl
@[simp] theorem eraseFlash_store_lastGranted (slot : Nat) (c : Chip) : (eraseFlash slot c).store.lastGranted = c.store.lastGranted := rfl
@[simp] theorem eraseFlash_store_current (slot : Nat) (c : Chip) : (eraseFlash slot c).store.current = c.store.current := rfl
@[simp] theorem eraseFlash_store_waiting (slot : Nat) (c : Chip) : (eraseFlash slot c).store.waiting = c.store.waiting := rfl
@[simp] theorem eraseFlash_store_portQueue (slot : Nat) (c : Chip) : (eraseFlash slot c).store.portQueue = c.store.portQueue := rfl
@[simp] theorem eraseFlash_store_scanPhase (slot : Nat) (c : Chip) : (eraseFlash slot c).store.scanPhase = c.store.scanPhase := rfl
@[simp] theorem eraseFlash_store_scanNext (slot : Nat) (c : Chip) : (eraseFlash slot c).store.scanNext = c.store.scanNext := rfl
@[simp] theorem eraseFlash_store_findings (slot : Nat) (c : Chip) : (eraseFlash slot c).store.findings = c.store.findings := rfl
@[simp] theorem eraseFlash_line (slot : Nat) (c : Chip) : (eraseFlash slot c).line = c.line := rfl
@[simp] theorem eraseFlash_census (slot : Nat) (c : Chip) : (eraseFlash slot c).census = c.census := rfl
@[simp] theorem eraseFlash_seq (slot : Nat) (c : Chip) : (eraseFlash slot c).seq = c.seq := rfl
@[simp] theorem eraseFlash_clock (slot : Nat) (c : Chip) : (eraseFlash slot c).clock = c.clock := rfl
@[simp] theorem eraseFlash_departure (slot : Nat) (c : Chip) : (eraseFlash slot c).departure = c.departure := rfl
@[simp] theorem eraseFlash_port (slot : Nat) (c : Chip) : (eraseFlash slot c).port = c.port := rfl

/-! ## spoilErase -/

@[simp] theorem spoilErase_pins (slot : Nat) (c : Chip) : (spoilErase slot c).pins = c.pins := rfl
@[simp] theorem spoilErase_role (slot : Nat) (c : Chip) : (spoilErase slot c).role = c.role := rfl
@[simp] theorem spoilErase_total (slot : Nat) (c : Chip) : (spoilErase slot c).total = c.total := rfl
@[simp] theorem spoilErase_now (slot : Nat) (c : Chip) : (spoilErase slot c).now = c.now := rfl
@[simp] theorem spoilErase_freeCount (slot : Nat) (c : Chip) : (spoilErase slot c).freeCount = c.freeCount + slotBytes := rfl
@[simp] theorem spoilErase_plans (slot : Nat) (c : Chip) : (spoilErase slot c).plans = c.plans := rfl
@[simp] theorem spoilErase_catalog (slot : Nat) (c : Chip) : (spoilErase slot c).catalog = c.catalog := rfl
@[simp] theorem spoilErase_peers (slot : Nat) (c : Chip) : (spoilErase slot c).peers = c.peers := rfl
@[simp] theorem spoilErase_fetch (slot : Nat) (c : Chip) : (spoilErase slot c).fetch = c.fetch := rfl
@[simp] theorem spoilErase_serve (slot : Nat) (c : Chip) : (spoilErase slot c).serve = c.serve := rfl
@[simp] theorem spoilErase_yard (slot : Nat) (c : Chip) : (spoilErase slot c).yard = c.yard := rfl
@[simp] theorem spoilErase_store_flash (slot : Nat) (c : Chip) : (spoilErase slot c).store.flash = Memory.write c.store.flash (slot * slotBytes) (freeBytes c.freeCount slotBytes) := rfl
@[simp] theorem spoilErase_store_slotMap (slot : Nat) (c : Chip) : (spoilErase slot c).store.slotMap = c.store.slotMap := rfl
@[simp] theorem spoilErase_store_dirtyQueue (slot : Nat) (c : Chip) : (spoilErase slot c).store.dirtyQueue = c.store.dirtyQueue := rfl
@[simp] theorem spoilErase_store_releasing (slot : Nat) (c : Chip) : (spoilErase slot c).store.releasing = c.store.releasing := rfl
@[simp] theorem spoilErase_store_retiredList (slot : Nat) (c : Chip) : (spoilErase slot c).store.retiredList = c.store.retiredList := rfl
@[simp] theorem spoilErase_store_awaitingMark (slot : Nat) (c : Chip) : (spoilErase slot c).store.awaitingMark = c.store.awaitingMark := rfl
@[simp] theorem spoilErase_store_eraseMarkDue (slot : Nat) (c : Chip) : (spoilErase slot c).store.eraseMarkDue = c.store.eraseMarkDue := rfl
@[simp] theorem spoilErase_store_checkQueue (slot : Nat) (c : Chip) : (spoilErase slot c).store.checkQueue = c.store.checkQueue := rfl
@[simp] theorem spoilErase_store_lastGranted (slot : Nat) (c : Chip) : (spoilErase slot c).store.lastGranted = c.store.lastGranted := rfl
@[simp] theorem spoilErase_store_current (slot : Nat) (c : Chip) : (spoilErase slot c).store.current = c.store.current := rfl
@[simp] theorem spoilErase_store_waiting (slot : Nat) (c : Chip) : (spoilErase slot c).store.waiting = c.store.waiting := rfl
@[simp] theorem spoilErase_store_portQueue (slot : Nat) (c : Chip) : (spoilErase slot c).store.portQueue = c.store.portQueue := rfl
@[simp] theorem spoilErase_store_scanPhase (slot : Nat) (c : Chip) : (spoilErase slot c).store.scanPhase = c.store.scanPhase := rfl
@[simp] theorem spoilErase_store_scanNext (slot : Nat) (c : Chip) : (spoilErase slot c).store.scanNext = c.store.scanNext := rfl
@[simp] theorem spoilErase_store_findings (slot : Nat) (c : Chip) : (spoilErase slot c).store.findings = c.store.findings := rfl
@[simp] theorem spoilErase_line (slot : Nat) (c : Chip) : (spoilErase slot c).line = c.line := rfl
@[simp] theorem spoilErase_census (slot : Nat) (c : Chip) : (spoilErase slot c).census = c.census := rfl
@[simp] theorem spoilErase_seq (slot : Nat) (c : Chip) : (spoilErase slot c).seq = c.seq := rfl
@[simp] theorem spoilErase_clock (slot : Nat) (c : Chip) : (spoilErase slot c).clock = c.clock := rfl
@[simp] theorem spoilErase_departure (slot : Nat) (c : Chip) : (spoilErase slot c).departure = c.departure := rfl
@[simp] theorem spoilErase_port (slot : Nat) (c : Chip) : (spoilErase slot c).port = c.port := rfl

/-! ## freeDevice -/

@[simp] theorem freeDevice_pins (c : Chip) : (freeDevice c).pins = c.pins := rfl
@[simp] theorem freeDevice_role (c : Chip) : (freeDevice c).role = c.role := rfl
@[simp] theorem freeDevice_total (c : Chip) : (freeDevice c).total = c.total := rfl
@[simp] theorem freeDevice_now (c : Chip) : (freeDevice c).now = c.now := rfl
@[simp] theorem freeDevice_freeCount (c : Chip) : (freeDevice c).freeCount = c.freeCount := rfl
@[simp] theorem freeDevice_plans (c : Chip) : (freeDevice c).plans = c.plans := rfl
@[simp] theorem freeDevice_catalog (c : Chip) : (freeDevice c).catalog = c.catalog := rfl
@[simp] theorem freeDevice_peers (c : Chip) : (freeDevice c).peers = c.peers := rfl
@[simp] theorem freeDevice_fetch (c : Chip) : (freeDevice c).fetch = c.fetch := rfl
@[simp] theorem freeDevice_serve (c : Chip) : (freeDevice c).serve = c.serve := rfl
@[simp] theorem freeDevice_yard (c : Chip) : (freeDevice c).yard = c.yard := rfl
@[simp] theorem freeDevice_store_flash (c : Chip) : (freeDevice c).store.flash = c.store.flash := rfl
@[simp] theorem freeDevice_store_slotMap (c : Chip) : (freeDevice c).store.slotMap = c.store.slotMap := rfl
@[simp] theorem freeDevice_store_dirtyQueue (c : Chip) : (freeDevice c).store.dirtyQueue = c.store.dirtyQueue := rfl
@[simp] theorem freeDevice_store_releasing (c : Chip) : (freeDevice c).store.releasing = c.store.releasing := rfl
@[simp] theorem freeDevice_store_retiredList (c : Chip) : (freeDevice c).store.retiredList = c.store.retiredList := rfl
@[simp] theorem freeDevice_store_awaitingMark (c : Chip) : (freeDevice c).store.awaitingMark = c.store.awaitingMark := rfl
@[simp] theorem freeDevice_store_eraseMarkDue (c : Chip) : (freeDevice c).store.eraseMarkDue = c.store.eraseMarkDue := rfl
@[simp] theorem freeDevice_store_checkQueue (c : Chip) : (freeDevice c).store.checkQueue = c.store.checkQueue := rfl
@[simp] theorem freeDevice_store_lastGranted (c : Chip) : (freeDevice c).store.lastGranted = c.store.lastGranted := rfl
@[simp] theorem freeDevice_store_current (c : Chip) : (freeDevice c).store.current = none := rfl
@[simp] theorem freeDevice_store_waiting (c : Chip) : (freeDevice c).store.waiting = c.store.waiting := rfl
@[simp] theorem freeDevice_store_portQueue (c : Chip) : (freeDevice c).store.portQueue = c.store.portQueue := rfl
@[simp] theorem freeDevice_store_scanPhase (c : Chip) : (freeDevice c).store.scanPhase = c.store.scanPhase := rfl
@[simp] theorem freeDevice_store_scanNext (c : Chip) : (freeDevice c).store.scanNext = c.store.scanNext := rfl
@[simp] theorem freeDevice_store_findings (c : Chip) : (freeDevice c).store.findings = c.store.findings := rfl
@[simp] theorem freeDevice_line (c : Chip) : (freeDevice c).line = c.line := rfl
@[simp] theorem freeDevice_census (c : Chip) : (freeDevice c).census = c.census := rfl
@[simp] theorem freeDevice_seq (c : Chip) : (freeDevice c).seq = c.seq := rfl
@[simp] theorem freeDevice_clock (c : Chip) : (freeDevice c).clock = c.clock := rfl
@[simp] theorem freeDevice_departure (c : Chip) : (freeDevice c).departure = c.departure := rfl
@[simp] theorem freeDevice_port (c : Chip) : (freeDevice c).port = c.port := rfl

/-! ## setSlot -/

@[simp] theorem setSlot_pins (slot : Nat) (i : SlotInfo) (c : Chip) : (setSlot slot i c).pins = c.pins := rfl
@[simp] theorem setSlot_role (slot : Nat) (i : SlotInfo) (c : Chip) : (setSlot slot i c).role = c.role := rfl
@[simp] theorem setSlot_total (slot : Nat) (i : SlotInfo) (c : Chip) : (setSlot slot i c).total = c.total := rfl
@[simp] theorem setSlot_now (slot : Nat) (i : SlotInfo) (c : Chip) : (setSlot slot i c).now = c.now := rfl
@[simp] theorem setSlot_freeCount (slot : Nat) (i : SlotInfo) (c : Chip) : (setSlot slot i c).freeCount = c.freeCount := rfl
@[simp] theorem setSlot_plans (slot : Nat) (i : SlotInfo) (c : Chip) : (setSlot slot i c).plans = c.plans := rfl
@[simp] theorem setSlot_catalog (slot : Nat) (i : SlotInfo) (c : Chip) : (setSlot slot i c).catalog = c.catalog := rfl
@[simp] theorem setSlot_peers (slot : Nat) (i : SlotInfo) (c : Chip) : (setSlot slot i c).peers = c.peers := rfl
@[simp] theorem setSlot_fetch (slot : Nat) (i : SlotInfo) (c : Chip) : (setSlot slot i c).fetch = c.fetch := rfl
@[simp] theorem setSlot_serve (slot : Nat) (i : SlotInfo) (c : Chip) : (setSlot slot i c).serve = c.serve := rfl
@[simp] theorem setSlot_yard (slot : Nat) (i : SlotInfo) (c : Chip) : (setSlot slot i c).yard = c.yard := rfl
@[simp] theorem setSlot_store_flash (slot : Nat) (i : SlotInfo) (c : Chip) : (setSlot slot i c).store.flash = c.store.flash := rfl
@[simp] theorem setSlot_store_slotMap (slot : Nat) (i : SlotInfo) (c : Chip) : (setSlot slot i c).store.slotMap = setSlotIn c.store.slotMap slot i := rfl
@[simp] theorem setSlot_store_dirtyQueue (slot : Nat) (i : SlotInfo) (c : Chip) : (setSlot slot i c).store.dirtyQueue = c.store.dirtyQueue := rfl
@[simp] theorem setSlot_store_releasing (slot : Nat) (i : SlotInfo) (c : Chip) : (setSlot slot i c).store.releasing = c.store.releasing := rfl
@[simp] theorem setSlot_store_retiredList (slot : Nat) (i : SlotInfo) (c : Chip) : (setSlot slot i c).store.retiredList = c.store.retiredList := rfl
@[simp] theorem setSlot_store_awaitingMark (slot : Nat) (i : SlotInfo) (c : Chip) : (setSlot slot i c).store.awaitingMark = c.store.awaitingMark := rfl
@[simp] theorem setSlot_store_eraseMarkDue (slot : Nat) (i : SlotInfo) (c : Chip) : (setSlot slot i c).store.eraseMarkDue = c.store.eraseMarkDue := rfl
@[simp] theorem setSlot_store_checkQueue (slot : Nat) (i : SlotInfo) (c : Chip) : (setSlot slot i c).store.checkQueue = c.store.checkQueue := rfl
@[simp] theorem setSlot_store_lastGranted (slot : Nat) (i : SlotInfo) (c : Chip) : (setSlot slot i c).store.lastGranted = c.store.lastGranted := rfl
@[simp] theorem setSlot_store_current (slot : Nat) (i : SlotInfo) (c : Chip) : (setSlot slot i c).store.current = c.store.current := rfl
@[simp] theorem setSlot_store_waiting (slot : Nat) (i : SlotInfo) (c : Chip) : (setSlot slot i c).store.waiting = c.store.waiting := rfl
@[simp] theorem setSlot_store_portQueue (slot : Nat) (i : SlotInfo) (c : Chip) : (setSlot slot i c).store.portQueue = c.store.portQueue := rfl
@[simp] theorem setSlot_store_scanPhase (slot : Nat) (i : SlotInfo) (c : Chip) : (setSlot slot i c).store.scanPhase = c.store.scanPhase := rfl
@[simp] theorem setSlot_store_scanNext (slot : Nat) (i : SlotInfo) (c : Chip) : (setSlot slot i c).store.scanNext = c.store.scanNext := rfl
@[simp] theorem setSlot_store_findings (slot : Nat) (i : SlotInfo) (c : Chip) : (setSlot slot i c).store.findings = c.store.findings := rfl
@[simp] theorem setSlot_line (slot : Nat) (i : SlotInfo) (c : Chip) : (setSlot slot i c).line = c.line := rfl
@[simp] theorem setSlot_census (slot : Nat) (i : SlotInfo) (c : Chip) : (setSlot slot i c).census = c.census := rfl
@[simp] theorem setSlot_seq (slot : Nat) (i : SlotInfo) (c : Chip) : (setSlot slot i c).seq = c.seq := rfl
@[simp] theorem setSlot_clock (slot : Nat) (i : SlotInfo) (c : Chip) : (setSlot slot i c).clock = c.clock := rfl
@[simp] theorem setSlot_departure (slot : Nat) (i : SlotInfo) (c : Chip) : (setSlot slot i c).departure = c.departure := rfl
@[simp] theorem setSlot_port (slot : Nat) (i : SlotInfo) (c : Chip) : (setSlot slot i c).port = c.port := rfl

/-! ## pushPort -/

@[simp] theorem pushPort_pins (op : StoreOp) (owner : Option Owner) (c : Chip) : (pushPort op owner c).pins = c.pins := rfl
@[simp] theorem pushPort_role (op : StoreOp) (owner : Option Owner) (c : Chip) : (pushPort op owner c).role = c.role := rfl
@[simp] theorem pushPort_total (op : StoreOp) (owner : Option Owner) (c : Chip) : (pushPort op owner c).total = c.total := rfl
@[simp] theorem pushPort_now (op : StoreOp) (owner : Option Owner) (c : Chip) : (pushPort op owner c).now = c.now := rfl
@[simp] theorem pushPort_freeCount (op : StoreOp) (owner : Option Owner) (c : Chip) : (pushPort op owner c).freeCount = c.freeCount := rfl
@[simp] theorem pushPort_plans (op : StoreOp) (owner : Option Owner) (c : Chip) : (pushPort op owner c).plans = c.plans := rfl
@[simp] theorem pushPort_catalog (op : StoreOp) (owner : Option Owner) (c : Chip) : (pushPort op owner c).catalog = c.catalog := rfl
@[simp] theorem pushPort_peers (op : StoreOp) (owner : Option Owner) (c : Chip) : (pushPort op owner c).peers = c.peers := rfl
@[simp] theorem pushPort_fetch (op : StoreOp) (owner : Option Owner) (c : Chip) : (pushPort op owner c).fetch = c.fetch := rfl
@[simp] theorem pushPort_serve (op : StoreOp) (owner : Option Owner) (c : Chip) : (pushPort op owner c).serve = c.serve := rfl
@[simp] theorem pushPort_yard (op : StoreOp) (owner : Option Owner) (c : Chip) : (pushPort op owner c).yard = c.yard := rfl
@[simp] theorem pushPort_store_flash (op : StoreOp) (owner : Option Owner) (c : Chip) : (pushPort op owner c).store.flash = c.store.flash := rfl
@[simp] theorem pushPort_store_slotMap (op : StoreOp) (owner : Option Owner) (c : Chip) : (pushPort op owner c).store.slotMap = c.store.slotMap := rfl
@[simp] theorem pushPort_store_dirtyQueue (op : StoreOp) (owner : Option Owner) (c : Chip) : (pushPort op owner c).store.dirtyQueue = c.store.dirtyQueue := rfl
@[simp] theorem pushPort_store_releasing (op : StoreOp) (owner : Option Owner) (c : Chip) : (pushPort op owner c).store.releasing = c.store.releasing := rfl
@[simp] theorem pushPort_store_retiredList (op : StoreOp) (owner : Option Owner) (c : Chip) : (pushPort op owner c).store.retiredList = c.store.retiredList := rfl
@[simp] theorem pushPort_store_awaitingMark (op : StoreOp) (owner : Option Owner) (c : Chip) : (pushPort op owner c).store.awaitingMark = c.store.awaitingMark := rfl
@[simp] theorem pushPort_store_eraseMarkDue (op : StoreOp) (owner : Option Owner) (c : Chip) : (pushPort op owner c).store.eraseMarkDue = c.store.eraseMarkDue := rfl
@[simp] theorem pushPort_store_checkQueue (op : StoreOp) (owner : Option Owner) (c : Chip) : (pushPort op owner c).store.checkQueue = c.store.checkQueue := rfl
@[simp] theorem pushPort_store_lastGranted (op : StoreOp) (owner : Option Owner) (c : Chip) : (pushPort op owner c).store.lastGranted = c.store.lastGranted := rfl
@[simp] theorem pushPort_store_current (op : StoreOp) (owner : Option Owner) (c : Chip) : (pushPort op owner c).store.current = c.store.current := rfl
@[simp] theorem pushPort_store_waiting (op : StoreOp) (owner : Option Owner) (c : Chip) : (pushPort op owner c).store.waiting = c.store.waiting := rfl
@[simp] theorem pushPort_store_portQueue (op : StoreOp) (owner : Option Owner) (c : Chip) : (pushPort op owner c).store.portQueue = c.store.portQueue ++ [{ op := op, owner := owner }] := rfl
@[simp] theorem pushPort_store_scanPhase (op : StoreOp) (owner : Option Owner) (c : Chip) : (pushPort op owner c).store.scanPhase = c.store.scanPhase := rfl
@[simp] theorem pushPort_store_scanNext (op : StoreOp) (owner : Option Owner) (c : Chip) : (pushPort op owner c).store.scanNext = c.store.scanNext := rfl
@[simp] theorem pushPort_store_findings (op : StoreOp) (owner : Option Owner) (c : Chip) : (pushPort op owner c).store.findings = c.store.findings := rfl
@[simp] theorem pushPort_line (op : StoreOp) (owner : Option Owner) (c : Chip) : (pushPort op owner c).line = c.line := rfl
@[simp] theorem pushPort_census (op : StoreOp) (owner : Option Owner) (c : Chip) : (pushPort op owner c).census = c.census := rfl
@[simp] theorem pushPort_seq (op : StoreOp) (owner : Option Owner) (c : Chip) : (pushPort op owner c).seq = c.seq := rfl
@[simp] theorem pushPort_clock (op : StoreOp) (owner : Option Owner) (c : Chip) : (pushPort op owner c).clock = c.clock := rfl
@[simp] theorem pushPort_departure (op : StoreOp) (owner : Option Owner) (c : Chip) : (pushPort op owner c).departure = c.departure := rfl
@[simp] theorem pushPort_port (op : StoreOp) (owner : Option Owner) (c : Chip) : (pushPort op owner c).port = c.port := rfl

/-! ## presentOp -/

@[simp] theorem presentOp_pins (w : WaitingOp) (c : Chip) : (presentOp w c).pins = c.pins := rfl
@[simp] theorem presentOp_role (w : WaitingOp) (c : Chip) : (presentOp w c).role = c.role := rfl
@[simp] theorem presentOp_total (w : WaitingOp) (c : Chip) : (presentOp w c).total = c.total := rfl
@[simp] theorem presentOp_now (w : WaitingOp) (c : Chip) : (presentOp w c).now = c.now := rfl
@[simp] theorem presentOp_freeCount (w : WaitingOp) (c : Chip) : (presentOp w c).freeCount = c.freeCount := rfl
@[simp] theorem presentOp_plans (w : WaitingOp) (c : Chip) : (presentOp w c).plans = c.plans := rfl
@[simp] theorem presentOp_catalog (w : WaitingOp) (c : Chip) : (presentOp w c).catalog = c.catalog := rfl
@[simp] theorem presentOp_peers (w : WaitingOp) (c : Chip) : (presentOp w c).peers = c.peers := rfl
@[simp] theorem presentOp_fetch (w : WaitingOp) (c : Chip) : (presentOp w c).fetch = c.fetch := rfl
@[simp] theorem presentOp_serve (w : WaitingOp) (c : Chip) : (presentOp w c).serve = c.serve := rfl
@[simp] theorem presentOp_yard (w : WaitingOp) (c : Chip) : (presentOp w c).yard = c.yard := rfl
@[simp] theorem presentOp_store_flash (w : WaitingOp) (c : Chip) : (presentOp w c).store.flash = c.store.flash := rfl
@[simp] theorem presentOp_store_slotMap (w : WaitingOp) (c : Chip) : (presentOp w c).store.slotMap = c.store.slotMap := rfl
@[simp] theorem presentOp_store_dirtyQueue (w : WaitingOp) (c : Chip) : (presentOp w c).store.dirtyQueue = c.store.dirtyQueue := rfl
@[simp] theorem presentOp_store_releasing (w : WaitingOp) (c : Chip) : (presentOp w c).store.releasing = c.store.releasing := rfl
@[simp] theorem presentOp_store_retiredList (w : WaitingOp) (c : Chip) : (presentOp w c).store.retiredList = c.store.retiredList := rfl
@[simp] theorem presentOp_store_awaitingMark (w : WaitingOp) (c : Chip) : (presentOp w c).store.awaitingMark = c.store.awaitingMark := rfl
@[simp] theorem presentOp_store_eraseMarkDue (w : WaitingOp) (c : Chip) : (presentOp w c).store.eraseMarkDue = c.store.eraseMarkDue := rfl
@[simp] theorem presentOp_store_checkQueue (w : WaitingOp) (c : Chip) : (presentOp w c).store.checkQueue = c.store.checkQueue := rfl
@[simp] theorem presentOp_store_lastGranted (w : WaitingOp) (c : Chip) : (presentOp w c).store.lastGranted = c.store.lastGranted := rfl
@[simp] theorem presentOp_store_current (w : WaitingOp) (c : Chip) : (presentOp w c).store.current = c.store.current := rfl
@[simp] theorem presentOp_store_waiting (w : WaitingOp) (c : Chip) : (presentOp w c).store.waiting = c.store.waiting ++ [w] := rfl
@[simp] theorem presentOp_store_portQueue (w : WaitingOp) (c : Chip) : (presentOp w c).store.portQueue = c.store.portQueue := rfl
@[simp] theorem presentOp_store_scanPhase (w : WaitingOp) (c : Chip) : (presentOp w c).store.scanPhase = c.store.scanPhase := rfl
@[simp] theorem presentOp_store_scanNext (w : WaitingOp) (c : Chip) : (presentOp w c).store.scanNext = c.store.scanNext := rfl
@[simp] theorem presentOp_store_findings (w : WaitingOp) (c : Chip) : (presentOp w c).store.findings = c.store.findings := rfl
@[simp] theorem presentOp_line (w : WaitingOp) (c : Chip) : (presentOp w c).line = c.line := rfl
@[simp] theorem presentOp_census (w : WaitingOp) (c : Chip) : (presentOp w c).census = c.census := rfl
@[simp] theorem presentOp_seq (w : WaitingOp) (c : Chip) : (presentOp w c).seq = c.seq := rfl
@[simp] theorem presentOp_clock (w : WaitingOp) (c : Chip) : (presentOp w c).clock = c.clock := rfl
@[simp] theorem presentOp_departure (w : WaitingOp) (c : Chip) : (presentOp w c).departure = c.departure := rfl
@[simp] theorem presentOp_port (w : WaitingOp) (c : Chip) : (presentOp w c).port = c.port := rfl

/-! ## updateRecord -/

@[simp] theorem updateRecord_pins (k : ImageKey) (f : ImageRecord → ImageRecord) (c : Chip) : (updateRecord k f c).pins = c.pins := rfl
@[simp] theorem updateRecord_role (k : ImageKey) (f : ImageRecord → ImageRecord) (c : Chip) : (updateRecord k f c).role = c.role := rfl
@[simp] theorem updateRecord_total (k : ImageKey) (f : ImageRecord → ImageRecord) (c : Chip) : (updateRecord k f c).total = c.total := rfl
@[simp] theorem updateRecord_now (k : ImageKey) (f : ImageRecord → ImageRecord) (c : Chip) : (updateRecord k f c).now = c.now := rfl
@[simp] theorem updateRecord_freeCount (k : ImageKey) (f : ImageRecord → ImageRecord) (c : Chip) : (updateRecord k f c).freeCount = c.freeCount := rfl
@[simp] theorem updateRecord_plans (k : ImageKey) (f : ImageRecord → ImageRecord) (c : Chip) : (updateRecord k f c).plans = c.plans := rfl
@[simp] theorem updateRecord_catalog_records (k : ImageKey) (f : ImageRecord → ImageRecord) (c : Chip) : (updateRecord k f c).catalog.records = c.catalog.records.map (fun r => if r.image = k then f r else r) := rfl
@[simp] theorem updateRecord_catalog_lastOffered (k : ImageKey) (f : ImageRecord → ImageRecord) (c : Chip) : (updateRecord k f c).catalog.lastOffered = c.catalog.lastOffered := rfl
@[simp] theorem updateRecord_peers (k : ImageKey) (f : ImageRecord → ImageRecord) (c : Chip) : (updateRecord k f c).peers = c.peers := rfl
@[simp] theorem updateRecord_fetch (k : ImageKey) (f : ImageRecord → ImageRecord) (c : Chip) : (updateRecord k f c).fetch = c.fetch := rfl
@[simp] theorem updateRecord_serve (k : ImageKey) (f : ImageRecord → ImageRecord) (c : Chip) : (updateRecord k f c).serve = c.serve := rfl
@[simp] theorem updateRecord_yard (k : ImageKey) (f : ImageRecord → ImageRecord) (c : Chip) : (updateRecord k f c).yard = c.yard := rfl
@[simp] theorem updateRecord_store (k : ImageKey) (f : ImageRecord → ImageRecord) (c : Chip) : (updateRecord k f c).store = c.store := rfl
@[simp] theorem updateRecord_line (k : ImageKey) (f : ImageRecord → ImageRecord) (c : Chip) : (updateRecord k f c).line = c.line := rfl
@[simp] theorem updateRecord_census (k : ImageKey) (f : ImageRecord → ImageRecord) (c : Chip) : (updateRecord k f c).census = c.census := rfl
@[simp] theorem updateRecord_seq (k : ImageKey) (f : ImageRecord → ImageRecord) (c : Chip) : (updateRecord k f c).seq = c.seq := rfl
@[simp] theorem updateRecord_clock (k : ImageKey) (f : ImageRecord → ImageRecord) (c : Chip) : (updateRecord k f c).clock = c.clock := rfl
@[simp] theorem updateRecord_departure (k : ImageKey) (f : ImageRecord → ImageRecord) (c : Chip) : (updateRecord k f c).departure = c.departure := rfl
@[simp] theorem updateRecord_port (k : ImageKey) (f : ImageRecord → ImageRecord) (c : Chip) : (updateRecord k f c).port = c.port := rfl

/-! ## askSelection -/

@[simp] theorem askSelection_pins (c : Chip) : (askSelection c).pins = c.pins := rfl
@[simp] theorem askSelection_role (c : Chip) : (askSelection c).role = c.role := rfl
@[simp] theorem askSelection_total (c : Chip) : (askSelection c).total = c.total := rfl
@[simp] theorem askSelection_now (c : Chip) : (askSelection c).now = c.now := rfl
@[simp] theorem askSelection_freeCount (c : Chip) : (askSelection c).freeCount = c.freeCount := rfl
@[simp] theorem askSelection_plans (c : Chip) : (askSelection c).plans = c.plans := rfl
@[simp] theorem askSelection_catalog (c : Chip) : (askSelection c).catalog = c.catalog := rfl
@[simp] theorem askSelection_peers (c : Chip) : (askSelection c).peers = c.peers := rfl
@[simp] theorem askSelection_fetch_slots (c : Chip) : (askSelection c).fetch.slots = c.fetch.slots := rfl
@[simp] theorem askSelection_fetch_buffer (c : Chip) : (askSelection c).fetch.buffer = c.fetch.buffer := rfl
@[simp] theorem askSelection_fetch_asks (c : Chip) : (askSelection c).fetch.asks = c.fetch.asks := rfl
@[simp] theorem askSelection_fetch_storeFullAt (c : Chip) : (askSelection c).fetch.storeFullAt = c.fetch.storeFullAt := rfl
@[simp] theorem askSelection_fetch_selectionAsked (c : Chip) : (askSelection c).fetch.selectionAsked = true := rfl
@[simp] theorem askSelection_serve (c : Chip) : (askSelection c).serve = c.serve := rfl
@[simp] theorem askSelection_yard (c : Chip) : (askSelection c).yard = c.yard := rfl
@[simp] theorem askSelection_store (c : Chip) : (askSelection c).store = c.store := rfl
@[simp] theorem askSelection_line (c : Chip) : (askSelection c).line = c.line := rfl
@[simp] theorem askSelection_census (c : Chip) : (askSelection c).census = c.census := rfl
@[simp] theorem askSelection_seq (c : Chip) : (askSelection c).seq = c.seq := rfl
@[simp] theorem askSelection_clock (c : Chip) : (askSelection c).clock = c.clock := rfl
@[simp] theorem askSelection_departure (c : Chip) : (askSelection c).departure = c.departure := rfl
@[simp] theorem askSelection_port (c : Chip) : (askSelection c).port = c.port := rfl

/-! ## setFetchSlot -/

@[simp] theorem setFetchSlot_pins (i : Nat) (f : FetchSlot) (c : Chip) : (setFetchSlot i f c).pins = c.pins := rfl
@[simp] theorem setFetchSlot_role (i : Nat) (f : FetchSlot) (c : Chip) : (setFetchSlot i f c).role = c.role := rfl
@[simp] theorem setFetchSlot_total (i : Nat) (f : FetchSlot) (c : Chip) : (setFetchSlot i f c).total = c.total := rfl
@[simp] theorem setFetchSlot_now (i : Nat) (f : FetchSlot) (c : Chip) : (setFetchSlot i f c).now = c.now := rfl
@[simp] theorem setFetchSlot_freeCount (i : Nat) (f : FetchSlot) (c : Chip) : (setFetchSlot i f c).freeCount = c.freeCount := rfl
@[simp] theorem setFetchSlot_plans (i : Nat) (f : FetchSlot) (c : Chip) : (setFetchSlot i f c).plans = c.plans := rfl
@[simp] theorem setFetchSlot_catalog (i : Nat) (f : FetchSlot) (c : Chip) : (setFetchSlot i f c).catalog = c.catalog := rfl
@[simp] theorem setFetchSlot_peers (i : Nat) (f : FetchSlot) (c : Chip) : (setFetchSlot i f c).peers = c.peers := rfl
@[simp] theorem setFetchSlot_fetch_slots (i : Nat) (f : FetchSlot) (c : Chip) : (setFetchSlot i f c).fetch.slots = c.fetch.slots.set i f := rfl
@[simp] theorem setFetchSlot_fetch_buffer (i : Nat) (f : FetchSlot) (c : Chip) : (setFetchSlot i f c).fetch.buffer = c.fetch.buffer := rfl
@[simp] theorem setFetchSlot_fetch_asks (i : Nat) (f : FetchSlot) (c : Chip) : (setFetchSlot i f c).fetch.asks = c.fetch.asks := rfl
@[simp] theorem setFetchSlot_fetch_storeFullAt (i : Nat) (f : FetchSlot) (c : Chip) : (setFetchSlot i f c).fetch.storeFullAt = c.fetch.storeFullAt := rfl
@[simp] theorem setFetchSlot_fetch_selectionAsked (i : Nat) (f : FetchSlot) (c : Chip) : (setFetchSlot i f c).fetch.selectionAsked = c.fetch.selectionAsked := rfl
@[simp] theorem setFetchSlot_serve (i : Nat) (f : FetchSlot) (c : Chip) : (setFetchSlot i f c).serve = c.serve := rfl
@[simp] theorem setFetchSlot_yard (i : Nat) (f : FetchSlot) (c : Chip) : (setFetchSlot i f c).yard = c.yard := rfl
@[simp] theorem setFetchSlot_store (i : Nat) (f : FetchSlot) (c : Chip) : (setFetchSlot i f c).store = c.store := rfl
@[simp] theorem setFetchSlot_line (i : Nat) (f : FetchSlot) (c : Chip) : (setFetchSlot i f c).line = c.line := rfl
@[simp] theorem setFetchSlot_census (i : Nat) (f : FetchSlot) (c : Chip) : (setFetchSlot i f c).census = c.census := rfl
@[simp] theorem setFetchSlot_seq (i : Nat) (f : FetchSlot) (c : Chip) : (setFetchSlot i f c).seq = c.seq := rfl
@[simp] theorem setFetchSlot_clock (i : Nat) (f : FetchSlot) (c : Chip) : (setFetchSlot i f c).clock = c.clock := rfl
@[simp] theorem setFetchSlot_departure (i : Nat) (f : FetchSlot) (c : Chip) : (setFetchSlot i f c).departure = c.departure := rfl
@[simp] theorem setFetchSlot_port (i : Nat) (f : FetchSlot) (c : Chip) : (setFetchSlot i f c).port = c.port := rfl

/-! ## setServeSlot -/

@[simp] theorem setServeSlot_pins (i : Nat) (v : ServeSlot) (c : Chip) : (setServeSlot i v c).pins = c.pins := rfl
@[simp] theorem setServeSlot_role (i : Nat) (v : ServeSlot) (c : Chip) : (setServeSlot i v c).role = c.role := rfl
@[simp] theorem setServeSlot_total (i : Nat) (v : ServeSlot) (c : Chip) : (setServeSlot i v c).total = c.total := rfl
@[simp] theorem setServeSlot_now (i : Nat) (v : ServeSlot) (c : Chip) : (setServeSlot i v c).now = c.now := rfl
@[simp] theorem setServeSlot_freeCount (i : Nat) (v : ServeSlot) (c : Chip) : (setServeSlot i v c).freeCount = c.freeCount := rfl
@[simp] theorem setServeSlot_plans (i : Nat) (v : ServeSlot) (c : Chip) : (setServeSlot i v c).plans = c.plans := rfl
@[simp] theorem setServeSlot_catalog (i : Nat) (v : ServeSlot) (c : Chip) : (setServeSlot i v c).catalog = c.catalog := rfl
@[simp] theorem setServeSlot_peers (i : Nat) (v : ServeSlot) (c : Chip) : (setServeSlot i v c).peers = c.peers := rfl
@[simp] theorem setServeSlot_fetch (i : Nat) (v : ServeSlot) (c : Chip) : (setServeSlot i v c).fetch = c.fetch := rfl
@[simp] theorem setServeSlot_serve_queue (i : Nat) (v : ServeSlot) (c : Chip) : (setServeSlot i v c).serve.queue = c.serve.queue := rfl
@[simp] theorem setServeSlot_serve_slots (i : Nat) (v : ServeSlot) (c : Chip) : (setServeSlot i v c).serve.slots = c.serve.slots.set i v := rfl
@[simp] theorem setServeSlot_serve_sendMark (i : Nat) (v : ServeSlot) (c : Chip) : (setServeSlot i v c).serve.sendMark = c.serve.sendMark := rfl
@[simp] theorem setServeSlot_serve_readMark (i : Nat) (v : ServeSlot) (c : Chip) : (setServeSlot i v c).serve.readMark = c.serve.readMark := rfl
@[simp] theorem setServeSlot_yard (i : Nat) (v : ServeSlot) (c : Chip) : (setServeSlot i v c).yard = c.yard := rfl
@[simp] theorem setServeSlot_store (i : Nat) (v : ServeSlot) (c : Chip) : (setServeSlot i v c).store = c.store := rfl
@[simp] theorem setServeSlot_line (i : Nat) (v : ServeSlot) (c : Chip) : (setServeSlot i v c).line = c.line := rfl
@[simp] theorem setServeSlot_census (i : Nat) (v : ServeSlot) (c : Chip) : (setServeSlot i v c).census = c.census := rfl
@[simp] theorem setServeSlot_seq (i : Nat) (v : ServeSlot) (c : Chip) : (setServeSlot i v c).seq = c.seq := rfl
@[simp] theorem setServeSlot_clock (i : Nat) (v : ServeSlot) (c : Chip) : (setServeSlot i v c).clock = c.clock := rfl
@[simp] theorem setServeSlot_departure (i : Nat) (v : ServeSlot) (c : Chip) : (setServeSlot i v c).departure = c.departure := rfl
@[simp] theorem setServeSlot_port (i : Nat) (v : ServeSlot) (c : Chip) : (setServeSlot i v c).port = c.port := rfl

/-! ## updatePeer -/

@[simp] theorem updatePeer_pins (id : Nat) (f : PeerRecord → PeerRecord) (c : Chip) : (updatePeer id f c).pins = c.pins := rfl
@[simp] theorem updatePeer_role (id : Nat) (f : PeerRecord → PeerRecord) (c : Chip) : (updatePeer id f c).role = c.role := rfl
@[simp] theorem updatePeer_total (id : Nat) (f : PeerRecord → PeerRecord) (c : Chip) : (updatePeer id f c).total = c.total := rfl
@[simp] theorem updatePeer_now (id : Nat) (f : PeerRecord → PeerRecord) (c : Chip) : (updatePeer id f c).now = c.now := rfl
@[simp] theorem updatePeer_freeCount (id : Nat) (f : PeerRecord → PeerRecord) (c : Chip) : (updatePeer id f c).freeCount = c.freeCount := rfl
@[simp] theorem updatePeer_plans (id : Nat) (f : PeerRecord → PeerRecord) (c : Chip) : (updatePeer id f c).plans = c.plans := rfl
@[simp] theorem updatePeer_catalog (id : Nat) (f : PeerRecord → PeerRecord) (c : Chip) : (updatePeer id f c).catalog = c.catalog := rfl
@[simp] theorem updatePeer_peers (id : Nat) (f : PeerRecord → PeerRecord) (c : Chip) : (updatePeer id f c).peers = c.peers.map (fun p => if p.id = id then f p else p) := rfl
@[simp] theorem updatePeer_fetch (id : Nat) (f : PeerRecord → PeerRecord) (c : Chip) : (updatePeer id f c).fetch = c.fetch := rfl
@[simp] theorem updatePeer_serve (id : Nat) (f : PeerRecord → PeerRecord) (c : Chip) : (updatePeer id f c).serve = c.serve := rfl
@[simp] theorem updatePeer_yard (id : Nat) (f : PeerRecord → PeerRecord) (c : Chip) : (updatePeer id f c).yard = c.yard := rfl
@[simp] theorem updatePeer_store (id : Nat) (f : PeerRecord → PeerRecord) (c : Chip) : (updatePeer id f c).store = c.store := rfl
@[simp] theorem updatePeer_line (id : Nat) (f : PeerRecord → PeerRecord) (c : Chip) : (updatePeer id f c).line = c.line := rfl
@[simp] theorem updatePeer_census (id : Nat) (f : PeerRecord → PeerRecord) (c : Chip) : (updatePeer id f c).census = c.census := rfl
@[simp] theorem updatePeer_seq (id : Nat) (f : PeerRecord → PeerRecord) (c : Chip) : (updatePeer id f c).seq = c.seq := rfl
@[simp] theorem updatePeer_clock (id : Nat) (f : PeerRecord → PeerRecord) (c : Chip) : (updatePeer id f c).clock = c.clock := rfl
@[simp] theorem updatePeer_departure (id : Nat) (f : PeerRecord → PeerRecord) (c : Chip) : (updatePeer id f c).departure = c.departure := rfl
@[simp] theorem updatePeer_port (id : Nat) (f : PeerRecord → PeerRecord) (c : Chip) : (updatePeer id f c).port = c.port := rfl

/-! ## updateUnit -/

@[simp] theorem updateUnit_pins (address : Nat) (f : UnitEntry → UnitEntry) (c : Chip) : (updateUnit address f c).pins = c.pins := rfl
@[simp] theorem updateUnit_role (address : Nat) (f : UnitEntry → UnitEntry) (c : Chip) : (updateUnit address f c).role = c.role := rfl
@[simp] theorem updateUnit_total (address : Nat) (f : UnitEntry → UnitEntry) (c : Chip) : (updateUnit address f c).total = c.total := rfl
@[simp] theorem updateUnit_now (address : Nat) (f : UnitEntry → UnitEntry) (c : Chip) : (updateUnit address f c).now = c.now := rfl
@[simp] theorem updateUnit_freeCount (address : Nat) (f : UnitEntry → UnitEntry) (c : Chip) : (updateUnit address f c).freeCount = c.freeCount := rfl
@[simp] theorem updateUnit_plans (address : Nat) (f : UnitEntry → UnitEntry) (c : Chip) : (updateUnit address f c).plans = c.plans := rfl
@[simp] theorem updateUnit_catalog (address : Nat) (f : UnitEntry → UnitEntry) (c : Chip) : (updateUnit address f c).catalog = c.catalog := rfl
@[simp] theorem updateUnit_peers (address : Nat) (f : UnitEntry → UnitEntry) (c : Chip) : (updateUnit address f c).peers = c.peers := rfl
@[simp] theorem updateUnit_fetch (address : Nat) (f : UnitEntry → UnitEntry) (c : Chip) : (updateUnit address f c).fetch = c.fetch := rfl
@[simp] theorem updateUnit_serve (address : Nat) (f : UnitEntry → UnitEntry) (c : Chip) : (updateUnit address f c).serve = c.serve := rfl
@[simp] theorem updateUnit_yard (address : Nat) (f : UnitEntry → UnitEntry) (c : Chip) : (updateUnit address f c).yard = c.yard := rfl
@[simp] theorem updateUnit_store (address : Nat) (f : UnitEntry → UnitEntry) (c : Chip) : (updateUnit address f c).store = c.store := rfl
@[simp] theorem updateUnit_line (address : Nat) (f : UnitEntry → UnitEntry) (c : Chip) : (updateUnit address f c).line = c.line := rfl
@[simp] theorem updateUnit_census (address : Nat) (f : UnitEntry → UnitEntry) (c : Chip) : (updateUnit address f c).census = c.census := rfl
@[simp] theorem updateUnit_seq_units (address : Nat) (f : UnitEntry → UnitEntry) (c : Chip) : (updateUnit address f c).seq.units = c.seq.units.map (fun u => if u.address = address then f u else u) := rfl
@[simp] theorem updateUnit_seq_job (address : Nat) (f : UnitEntry → UnitEntry) (c : Chip) : (updateUnit address f c).seq.job = c.seq.job := rfl
@[simp] theorem updateUnit_seq_probations (address : Nat) (f : UnitEntry → UnitEntry) (c : Chip) : (updateUnit address f c).seq.probations = c.seq.probations := rfl
@[simp] theorem updateUnit_clock (address : Nat) (f : UnitEntry → UnitEntry) (c : Chip) : (updateUnit address f c).clock = c.clock := rfl
@[simp] theorem updateUnit_departure (address : Nat) (f : UnitEntry → UnitEntry) (c : Chip) : (updateUnit address f c).departure = c.departure := rfl
@[simp] theorem updateUnit_port (address : Nat) (f : UnitEntry → UnitEntry) (c : Chip) : (updateUnit address f c).port = c.port := rfl

/-! ## updateJob -/

@[simp] theorem updateJob_pins (f : JobRecord → JobRecord) (c : Chip) : (updateJob f c).pins = c.pins := rfl
@[simp] theorem updateJob_role (f : JobRecord → JobRecord) (c : Chip) : (updateJob f c).role = c.role := rfl
@[simp] theorem updateJob_total (f : JobRecord → JobRecord) (c : Chip) : (updateJob f c).total = c.total := rfl
@[simp] theorem updateJob_now (f : JobRecord → JobRecord) (c : Chip) : (updateJob f c).now = c.now := rfl
@[simp] theorem updateJob_freeCount (f : JobRecord → JobRecord) (c : Chip) : (updateJob f c).freeCount = c.freeCount := rfl
@[simp] theorem updateJob_plans (f : JobRecord → JobRecord) (c : Chip) : (updateJob f c).plans = c.plans := rfl
@[simp] theorem updateJob_catalog (f : JobRecord → JobRecord) (c : Chip) : (updateJob f c).catalog = c.catalog := rfl
@[simp] theorem updateJob_peers (f : JobRecord → JobRecord) (c : Chip) : (updateJob f c).peers = c.peers := rfl
@[simp] theorem updateJob_fetch (f : JobRecord → JobRecord) (c : Chip) : (updateJob f c).fetch = c.fetch := rfl
@[simp] theorem updateJob_serve (f : JobRecord → JobRecord) (c : Chip) : (updateJob f c).serve = c.serve := rfl
@[simp] theorem updateJob_yard (f : JobRecord → JobRecord) (c : Chip) : (updateJob f c).yard = c.yard := rfl
@[simp] theorem updateJob_store (f : JobRecord → JobRecord) (c : Chip) : (updateJob f c).store = c.store := rfl
@[simp] theorem updateJob_line (f : JobRecord → JobRecord) (c : Chip) : (updateJob f c).line = c.line := rfl
@[simp] theorem updateJob_census (f : JobRecord → JobRecord) (c : Chip) : (updateJob f c).census = c.census := rfl
@[simp] theorem updateJob_seq_units (f : JobRecord → JobRecord) (c : Chip) : (updateJob f c).seq.units = c.seq.units := rfl
@[simp] theorem updateJob_seq_job (f : JobRecord → JobRecord) (c : Chip) : (updateJob f c).seq.job = c.seq.job.map f := rfl
@[simp] theorem updateJob_seq_probations (f : JobRecord → JobRecord) (c : Chip) : (updateJob f c).seq.probations = c.seq.probations := rfl
@[simp] theorem updateJob_clock (f : JobRecord → JobRecord) (c : Chip) : (updateJob f c).clock = c.clock := rfl
@[simp] theorem updateJob_departure (f : JobRecord → JobRecord) (c : Chip) : (updateJob f c).departure = c.departure := rfl
@[simp] theorem updateJob_port (f : JobRecord → JobRecord) (c : Chip) : (updateJob f c).port = c.port := rfl

/-! ## updateProbation -/

@[simp] theorem updateProbation_pins (address : Nat) (f : ProbationRecord → ProbationRecord) (c : Chip) : (updateProbation address f c).pins = c.pins := rfl
@[simp] theorem updateProbation_role (address : Nat) (f : ProbationRecord → ProbationRecord) (c : Chip) : (updateProbation address f c).role = c.role := rfl
@[simp] theorem updateProbation_total (address : Nat) (f : ProbationRecord → ProbationRecord) (c : Chip) : (updateProbation address f c).total = c.total := rfl
@[simp] theorem updateProbation_now (address : Nat) (f : ProbationRecord → ProbationRecord) (c : Chip) : (updateProbation address f c).now = c.now := rfl
@[simp] theorem updateProbation_freeCount (address : Nat) (f : ProbationRecord → ProbationRecord) (c : Chip) : (updateProbation address f c).freeCount = c.freeCount := rfl
@[simp] theorem updateProbation_plans (address : Nat) (f : ProbationRecord → ProbationRecord) (c : Chip) : (updateProbation address f c).plans = c.plans := rfl
@[simp] theorem updateProbation_catalog (address : Nat) (f : ProbationRecord → ProbationRecord) (c : Chip) : (updateProbation address f c).catalog = c.catalog := rfl
@[simp] theorem updateProbation_peers (address : Nat) (f : ProbationRecord → ProbationRecord) (c : Chip) : (updateProbation address f c).peers = c.peers := rfl
@[simp] theorem updateProbation_fetch (address : Nat) (f : ProbationRecord → ProbationRecord) (c : Chip) : (updateProbation address f c).fetch = c.fetch := rfl
@[simp] theorem updateProbation_serve (address : Nat) (f : ProbationRecord → ProbationRecord) (c : Chip) : (updateProbation address f c).serve = c.serve := rfl
@[simp] theorem updateProbation_yard (address : Nat) (f : ProbationRecord → ProbationRecord) (c : Chip) : (updateProbation address f c).yard = c.yard := rfl
@[simp] theorem updateProbation_store (address : Nat) (f : ProbationRecord → ProbationRecord) (c : Chip) : (updateProbation address f c).store = c.store := rfl
@[simp] theorem updateProbation_line (address : Nat) (f : ProbationRecord → ProbationRecord) (c : Chip) : (updateProbation address f c).line = c.line := rfl
@[simp] theorem updateProbation_census (address : Nat) (f : ProbationRecord → ProbationRecord) (c : Chip) : (updateProbation address f c).census = c.census := rfl
@[simp] theorem updateProbation_seq_units (address : Nat) (f : ProbationRecord → ProbationRecord) (c : Chip) : (updateProbation address f c).seq.units = c.seq.units := rfl
@[simp] theorem updateProbation_seq_job (address : Nat) (f : ProbationRecord → ProbationRecord) (c : Chip) : (updateProbation address f c).seq.job = c.seq.job := rfl
@[simp] theorem updateProbation_seq_probations (address : Nat) (f : ProbationRecord → ProbationRecord) (c : Chip) : (updateProbation address f c).seq.probations = c.seq.probations.map (fun p => if p.address = address then f p else p) := rfl
@[simp] theorem updateProbation_clock (address : Nat) (f : ProbationRecord → ProbationRecord) (c : Chip) : (updateProbation address f c).clock = c.clock := rfl
@[simp] theorem updateProbation_departure (address : Nat) (f : ProbationRecord → ProbationRecord) (c : Chip) : (updateProbation address f c).departure = c.departure := rfl
@[simp] theorem updateProbation_port (address : Nat) (f : ProbationRecord → ProbationRecord) (c : Chip) : (updateProbation address f c).port = c.port := rfl

/-! ## report -/

@[simp] theorem report_pins (kind : ReportKind) (subject : Subject) (detail : Nat) (c : Chip) : (report kind subject detail c).pins = c.pins := rfl
@[simp] theorem report_role (kind : ReportKind) (subject : Subject) (detail : Nat) (c : Chip) : (report kind subject detail c).role = c.role := rfl
@[simp] theorem report_total (kind : ReportKind) (subject : Subject) (detail : Nat) (c : Chip) : (report kind subject detail c).total = c.total := rfl
@[simp] theorem report_now (kind : ReportKind) (subject : Subject) (detail : Nat) (c : Chip) : (report kind subject detail c).now = c.now := rfl
@[simp] theorem report_freeCount (kind : ReportKind) (subject : Subject) (detail : Nat) (c : Chip) : (report kind subject detail c).freeCount = c.freeCount := rfl
@[simp] theorem report_plans (kind : ReportKind) (subject : Subject) (detail : Nat) (c : Chip) : (report kind subject detail c).plans = c.plans := rfl
@[simp] theorem report_catalog (kind : ReportKind) (subject : Subject) (detail : Nat) (c : Chip) : (report kind subject detail c).catalog = c.catalog := rfl
@[simp] theorem report_peers (kind : ReportKind) (subject : Subject) (detail : Nat) (c : Chip) : (report kind subject detail c).peers = c.peers := rfl
@[simp] theorem report_fetch (kind : ReportKind) (subject : Subject) (detail : Nat) (c : Chip) : (report kind subject detail c).fetch = c.fetch := rfl
@[simp] theorem report_serve (kind : ReportKind) (subject : Subject) (detail : Nat) (c : Chip) : (report kind subject detail c).serve = c.serve := rfl
@[simp] theorem report_yard (kind : ReportKind) (subject : Subject) (detail : Nat) (c : Chip) : (report kind subject detail c).yard = c.yard := rfl
@[simp] theorem report_store (kind : ReportKind) (subject : Subject) (detail : Nat) (c : Chip) : (report kind subject detail c).store = c.store := rfl
@[simp] theorem report_line (kind : ReportKind) (subject : Subject) (detail : Nat) (c : Chip) : (report kind subject detail c).line = c.line := rfl
@[simp] theorem report_census (kind : ReportKind) (subject : Subject) (detail : Nat) (c : Chip) : (report kind subject detail c).census = c.census := rfl
@[simp] theorem report_seq (kind : ReportKind) (subject : Subject) (detail : Nat) (c : Chip) : (report kind subject detail c).seq = c.seq := rfl
@[simp] theorem report_clock (kind : ReportKind) (subject : Subject) (detail : Nat) (c : Chip) : (report kind subject detail c).clock = c.clock := rfl
@[simp] theorem report_departure (kind : ReportKind) (subject : Subject) (detail : Nat) (c : Chip) : (report kind subject detail c).departure = c.departure := rfl
@[simp] theorem report_port_part (kind : ReportKind) (subject : Subject) (detail : Nat) (c : Chip) : (report kind subject detail c).port.part = c.port.part := rfl
@[simp] theorem report_port_config (kind : ReportKind) (subject : Subject) (detail : Nat) (c : Chip) : (report kind subject detail c).port.config = c.port.config := rfl
@[simp] theorem report_port_attention (kind : ReportKind) (subject : Subject) (detail : Nat) (c : Chip) : (report kind subject detail c).port.attention = c.port.attention := rfl
@[simp] theorem report_port_reply (kind : ReportKind) (subject : Subject) (detail : Nat) (c : Chip) : (report kind subject detail c).port.reply = c.port.reply := rfl
@[simp] theorem report_port_restartArmed (kind : ReportKind) (subject : Subject) (detail : Nat) (c : Chip) : (report kind subject detail c).port.restartArmed = c.port.restartArmed := rfl
@[simp] theorem report_port_commission (kind : ReportKind) (subject : Subject) (detail : Nat) (c : Chip) : (report kind subject detail c).port.commission = c.port.commission := rfl
@[simp] theorem report_port_commissionRecord (kind : ReportKind) (subject : Subject) (detail : Nat) (c : Chip) : (report kind subject detail c).port.commissionRecord = c.port.commissionRecord := rfl
@[simp] theorem report_port_load (kind : ReportKind) (subject : Subject) (detail : Nat) (c : Chip) : (report kind subject detail c).port.load = c.port.load := rfl

/-! ## driveAttention -/

@[simp] theorem driveAttention_pins (c : Chip) : (driveAttention c).pins = c.pins := rfl
@[simp] theorem driveAttention_role (c : Chip) : (driveAttention c).role = c.role := rfl
@[simp] theorem driveAttention_total (c : Chip) : (driveAttention c).total = c.total := rfl
@[simp] theorem driveAttention_now (c : Chip) : (driveAttention c).now = c.now := rfl
@[simp] theorem driveAttention_freeCount (c : Chip) : (driveAttention c).freeCount = c.freeCount := rfl
@[simp] theorem driveAttention_plans (c : Chip) : (driveAttention c).plans = c.plans := rfl
@[simp] theorem driveAttention_catalog (c : Chip) : (driveAttention c).catalog = c.catalog := rfl
@[simp] theorem driveAttention_peers (c : Chip) : (driveAttention c).peers = c.peers := rfl
@[simp] theorem driveAttention_fetch (c : Chip) : (driveAttention c).fetch = c.fetch := rfl
@[simp] theorem driveAttention_serve (c : Chip) : (driveAttention c).serve = c.serve := rfl
@[simp] theorem driveAttention_yard (c : Chip) : (driveAttention c).yard = c.yard := rfl
@[simp] theorem driveAttention_store (c : Chip) : (driveAttention c).store = c.store := rfl
@[simp] theorem driveAttention_line (c : Chip) : (driveAttention c).line = c.line := rfl
@[simp] theorem driveAttention_census (c : Chip) : (driveAttention c).census = c.census := rfl
@[simp] theorem driveAttention_seq (c : Chip) : (driveAttention c).seq = c.seq := rfl
@[simp] theorem driveAttention_clock (c : Chip) : (driveAttention c).clock = c.clock := rfl
@[simp] theorem driveAttention_departure (c : Chip) : (driveAttention c).departure = c.departure := rfl
@[simp] theorem driveAttention_port_part (c : Chip) : (driveAttention c).port.part = c.port.part := rfl
@[simp] theorem driveAttention_port_config (c : Chip) : (driveAttention c).port.config = c.port.config := rfl
@[simp] theorem driveAttention_port_reports (c : Chip) : (driveAttention c).port.reports = c.port.reports := rfl
@[simp] theorem driveAttention_port_attention (c : Chip) : (driveAttention c).port.attention = attentionLevel c.port := rfl
@[simp] theorem driveAttention_port_reply (c : Chip) : (driveAttention c).port.reply = c.port.reply := rfl
@[simp] theorem driveAttention_port_restartArmed (c : Chip) : (driveAttention c).port.restartArmed = c.port.restartArmed := rfl
@[simp] theorem driveAttention_port_commission (c : Chip) : (driveAttention c).port.commission = c.port.commission := rfl
@[simp] theorem driveAttention_port_commissionRecord (c : Chip) : (driveAttention c).port.commissionRecord = c.port.commissionRecord := rfl
@[simp] theorem driveAttention_port_load (c : Chip) : (driveAttention c).port.load = c.port.load := rfl

/-! ## answer -/

@[simp] theorem answer_pins (status : Status) (command : Byte) (result : List Byte) (c : Chip) : (answer status command result c).pins = c.pins := rfl
@[simp] theorem answer_role (status : Status) (command : Byte) (result : List Byte) (c : Chip) : (answer status command result c).role = c.role := rfl
@[simp] theorem answer_total (status : Status) (command : Byte) (result : List Byte) (c : Chip) : (answer status command result c).total = c.total := rfl
@[simp] theorem answer_now (status : Status) (command : Byte) (result : List Byte) (c : Chip) : (answer status command result c).now = c.now := rfl
@[simp] theorem answer_freeCount (status : Status) (command : Byte) (result : List Byte) (c : Chip) : (answer status command result c).freeCount = c.freeCount := rfl
@[simp] theorem answer_plans (status : Status) (command : Byte) (result : List Byte) (c : Chip) : (answer status command result c).plans = c.plans := rfl
@[simp] theorem answer_catalog (status : Status) (command : Byte) (result : List Byte) (c : Chip) : (answer status command result c).catalog = c.catalog := rfl
@[simp] theorem answer_peers (status : Status) (command : Byte) (result : List Byte) (c : Chip) : (answer status command result c).peers = c.peers := rfl
@[simp] theorem answer_fetch (status : Status) (command : Byte) (result : List Byte) (c : Chip) : (answer status command result c).fetch = c.fetch := rfl
@[simp] theorem answer_serve (status : Status) (command : Byte) (result : List Byte) (c : Chip) : (answer status command result c).serve = c.serve := rfl
@[simp] theorem answer_yard (status : Status) (command : Byte) (result : List Byte) (c : Chip) : (answer status command result c).yard = c.yard := rfl
@[simp] theorem answer_store (status : Status) (command : Byte) (result : List Byte) (c : Chip) : (answer status command result c).store = c.store := rfl
@[simp] theorem answer_line (status : Status) (command : Byte) (result : List Byte) (c : Chip) : (answer status command result c).line = c.line := rfl
@[simp] theorem answer_census (status : Status) (command : Byte) (result : List Byte) (c : Chip) : (answer status command result c).census = c.census := rfl
@[simp] theorem answer_seq (status : Status) (command : Byte) (result : List Byte) (c : Chip) : (answer status command result c).seq = c.seq := rfl
@[simp] theorem answer_clock (status : Status) (command : Byte) (result : List Byte) (c : Chip) : (answer status command result c).clock = c.clock := rfl
@[simp] theorem answer_departure (status : Status) (command : Byte) (result : List Byte) (c : Chip) : (answer status command result c).departure = c.departure := rfl
@[simp] theorem answer_port_part (status : Status) (command : Byte) (result : List Byte) (c : Chip) : (answer status command result c).port.part = c.port.part := rfl
@[simp] theorem answer_port_config (status : Status) (command : Byte) (result : List Byte) (c : Chip) : (answer status command result c).port.config = c.port.config := rfl
@[simp] theorem answer_port_reports (status : Status) (command : Byte) (result : List Byte) (c : Chip) : (answer status command result c).port.reports = c.port.reports := rfl
@[simp] theorem answer_port_attention (status : Status) (command : Byte) (result : List Byte) (c : Chip) : (answer status command result c).port.attention = c.port.attention := rfl
@[simp] theorem answer_port_reply (status : Status) (command : Byte) (result : List Byte) (c : Chip) : (answer status command result c).port.reply = some { status := status, command := command, result := if status = .ok then result else [] } := rfl
@[simp] theorem answer_port_restartArmed (status : Status) (command : Byte) (result : List Byte) (c : Chip) : (answer status command result c).port.restartArmed = c.port.restartArmed := rfl
@[simp] theorem answer_port_commission (status : Status) (command : Byte) (result : List Byte) (c : Chip) : (answer status command result c).port.commission = c.port.commission := rfl
@[simp] theorem answer_port_commissionRecord (status : Status) (command : Byte) (result : List Byte) (c : Chip) : (answer status command result c).port.commissionRecord = c.port.commissionRecord := rfl
@[simp] theorem answer_port_load (status : Status) (command : Byte) (result : List Byte) (c : Chip) : (answer status command result c).port.load = c.port.load := rfl

/-! ## setWires -/

@[simp] theorem setWires_pins_role (clock data : Bool) (c : Chip) : (setWires clock data c).pins.role = c.pins.role := rfl
@[simp] theorem setWires_pins_size (clock data : Bool) (c : Chip) : (setWires clock data c).pins.size = c.pins.size := rfl
@[simp] theorem setWires_pins_departure (clock data : Bool) (c : Chip) : (setWires clock data c).pins.departure = c.pins.departure := rfl
@[simp] theorem setWires_pins_channelBusy (clock data : Bool) (c : Chip) : (setWires clock data c).pins.channelBusy = c.pins.channelBusy := rfl
@[simp] theorem setWires_pins_clock (clock data : Bool) (c : Chip) : (setWires clock data c).pins.clock = clock := rfl
@[simp] theorem setWires_pins_data (clock data : Bool) (c : Chip) : (setWires clock data c).pins.data = data := rfl
@[simp] theorem setWires_role (clock data : Bool) (c : Chip) : (setWires clock data c).role = c.role := rfl
@[simp] theorem setWires_total (clock data : Bool) (c : Chip) : (setWires clock data c).total = c.total := rfl
@[simp] theorem setWires_now (clock data : Bool) (c : Chip) : (setWires clock data c).now = c.now := rfl
@[simp] theorem setWires_freeCount (clock data : Bool) (c : Chip) : (setWires clock data c).freeCount = c.freeCount := rfl
@[simp] theorem setWires_plans (clock data : Bool) (c : Chip) : (setWires clock data c).plans = c.plans := rfl
@[simp] theorem setWires_catalog (clock data : Bool) (c : Chip) : (setWires clock data c).catalog = c.catalog := rfl
@[simp] theorem setWires_peers (clock data : Bool) (c : Chip) : (setWires clock data c).peers = c.peers := rfl
@[simp] theorem setWires_fetch (clock data : Bool) (c : Chip) : (setWires clock data c).fetch = c.fetch := rfl
@[simp] theorem setWires_serve (clock data : Bool) (c : Chip) : (setWires clock data c).serve = c.serve := rfl
@[simp] theorem setWires_yard (clock data : Bool) (c : Chip) : (setWires clock data c).yard = c.yard := rfl
@[simp] theorem setWires_store (clock data : Bool) (c : Chip) : (setWires clock data c).store = c.store := rfl
@[simp] theorem setWires_line (clock data : Bool) (c : Chip) : (setWires clock data c).line = c.line := rfl
@[simp] theorem setWires_census (clock data : Bool) (c : Chip) : (setWires clock data c).census = c.census := rfl
@[simp] theorem setWires_seq (clock data : Bool) (c : Chip) : (setWires clock data c).seq = c.seq := rfl
@[simp] theorem setWires_clock (clock data : Bool) (c : Chip) : (setWires clock data c).clock = c.clock := rfl
@[simp] theorem setWires_departure (clock data : Bool) (c : Chip) : (setWires clock data c).departure = c.departure := rfl
@[simp] theorem setWires_port (clock data : Bool) (c : Chip) : (setWires clock data c).port = c.port := rfl

/-! ## openMark -/

@[simp] theorem openMark_pins (c : Chip) : (openMark c).pins = c.pins := rfl
@[simp] theorem openMark_role (c : Chip) : (openMark c).role = c.role := rfl
@[simp] theorem openMark_total (c : Chip) : (openMark c).total = c.total := rfl
@[simp] theorem openMark_now (c : Chip) : (openMark c).now = c.now := rfl
@[simp] theorem openMark_freeCount (c : Chip) : (openMark c).freeCount = c.freeCount := rfl
@[simp] theorem openMark_plans (c : Chip) : (openMark c).plans = c.plans := rfl
@[simp] theorem openMark_catalog (c : Chip) : (openMark c).catalog = c.catalog := rfl
@[simp] theorem openMark_peers (c : Chip) : (openMark c).peers = c.peers := rfl
@[simp] theorem openMark_fetch (c : Chip) : (openMark c).fetch = c.fetch := rfl
@[simp] theorem openMark_serve (c : Chip) : (openMark c).serve = c.serve := rfl
@[simp] theorem openMark_yard (c : Chip) : (openMark c).yard = c.yard := rfl
@[simp] theorem openMark_store (c : Chip) : (openMark c).store = c.store := rfl
@[simp] theorem openMark_line_state (c : Chip) : (openMark c).line.state = .master := rfl
@[simp] theorem openMark_line_requests (c : Chip) : (openMark c).line.requests = c.line.requests := rfl
@[simp] theorem openMark_line_current (c : Chip) : (openMark c).line.current = c.line.current := rfl
@[simp] theorem openMark_line_drive (c : Chip) : (openMark c).line.drive = ⟨true, true⟩ := rfl
@[simp] theorem openMark_line_steps (c : Chip) : (openMark c).line.steps = [.opening] := rfl
@[simp] theorem openMark_line_heldSince (c : Chip) : (openMark c).line.heldSince = none := rfl
@[simp] theorem openMark_line_blockedSince (c : Chip) : (openMark c).line.blockedSince = c.line.blockedSince := rfl
@[simp] theorem openMark_line_stuckReported (c : Chip) : (openMark c).line.stuckReported = c.line.stuckReported := rfl
@[simp] theorem openMark_census (c : Chip) : (openMark c).census = c.census := rfl
@[simp] theorem openMark_seq (c : Chip) : (openMark c).seq = c.seq := rfl
@[simp] theorem openMark_clock (c : Chip) : (openMark c).clock = c.clock := rfl
@[simp] theorem openMark_departure (c : Chip) : (openMark c).departure = c.departure := rfl
@[simp] theorem openMark_port (c : Chip) : (openMark c).port = c.port := rfl

/-! ## releaseWires -/

@[simp] theorem releaseWires_pins (c : Chip) : (releaseWires c).pins = c.pins := rfl
@[simp] theorem releaseWires_role (c : Chip) : (releaseWires c).role = c.role := rfl
@[simp] theorem releaseWires_total (c : Chip) : (releaseWires c).total = c.total := rfl
@[simp] theorem releaseWires_now (c : Chip) : (releaseWires c).now = c.now := rfl
@[simp] theorem releaseWires_freeCount (c : Chip) : (releaseWires c).freeCount = c.freeCount := rfl
@[simp] theorem releaseWires_plans (c : Chip) : (releaseWires c).plans = c.plans := rfl
@[simp] theorem releaseWires_catalog (c : Chip) : (releaseWires c).catalog = c.catalog := rfl
@[simp] theorem releaseWires_peers (c : Chip) : (releaseWires c).peers = c.peers := rfl
@[simp] theorem releaseWires_fetch (c : Chip) : (releaseWires c).fetch = c.fetch := rfl
@[simp] theorem releaseWires_serve (c : Chip) : (releaseWires c).serve = c.serve := rfl
@[simp] theorem releaseWires_yard (c : Chip) : (releaseWires c).yard = c.yard := rfl
@[simp] theorem releaseWires_store (c : Chip) : (releaseWires c).store = c.store := rfl
@[simp] theorem releaseWires_line_state (c : Chip) : (releaseWires c).line.state = c.line.state := rfl
@[simp] theorem releaseWires_line_requests (c : Chip) : (releaseWires c).line.requests = c.line.requests := rfl
@[simp] theorem releaseWires_line_current (c : Chip) : (releaseWires c).line.current = c.line.current := rfl
@[simp] theorem releaseWires_line_drive (c : Chip) : (releaseWires c).line.drive = ⟨false, false⟩ := rfl
@[simp] theorem releaseWires_line_steps (c : Chip) : (releaseWires c).line.steps = c.line.steps := rfl
@[simp] theorem releaseWires_line_heldSince (c : Chip) : (releaseWires c).line.heldSince = none := rfl
@[simp] theorem releaseWires_line_blockedSince (c : Chip) : (releaseWires c).line.blockedSince = c.line.blockedSince := rfl
@[simp] theorem releaseWires_line_stuckReported (c : Chip) : (releaseWires c).line.stuckReported = c.line.stuckReported := rfl
@[simp] theorem releaseWires_census (c : Chip) : (releaseWires c).census = c.census := rfl
@[simp] theorem releaseWires_seq (c : Chip) : (releaseWires c).seq = c.seq := rfl
@[simp] theorem releaseWires_clock (c : Chip) : (releaseWires c).clock = c.clock := rfl
@[simp] theorem releaseWires_departure (c : Chip) : (releaseWires c).departure = c.departure := rfl
@[simp] theorem releaseWires_port (c : Chip) : (releaseWires c).port = c.port := rfl

end Sys2Proof.Machine
end

