-- ==== Sys2Proof/Laws/Settle.lean ====
section
/-!
SUPPORT. What each block leaves standing when it is set going (log 13), down to `settle` itself: one lemma per operation that `settle` is made of.
-/
namespace Sys2Proof.Machine

/-- The second chip has the standing part of the first. -/
abbrev Stands (c d : Chip) : Prop :=
  d.pins = c.pins ∧
    d.role = c.role ∧
    d.total = c.total ∧
    d.now = c.now ∧
    d.freeCount = c.freeCount ∧
    d.plans = c.plans ∧
    d.clock = c.clock ∧
    d.departure = c.departure ∧
    d.store.flash = c.store.flash ∧
    d.store.scanPhase = c.store.scanPhase ∧
    d.store.scanNext = c.store.scanNext ∧
    d.store.findings = c.store.findings ∧
    d.store.retiredList = c.store.retiredList ∧
    d.store.awaitingMark = c.store.awaitingMark ∧
    d.store.eraseMarkDue = c.store.eraseMarkDue ∧
    d.port.part = c.port.part ∧
    d.port.config = c.port.config ∧
    d.port.reply = c.port.reply ∧
    d.port.restartArmed = c.port.restartArmed ∧
    d.port.commission = c.port.commission ∧
    d.port.commissionRecord = c.port.commissionRecord ∧
    d.port.load = c.port.load ∧
    d.yard.mode = c.yard.mode ∧
    d.yard.cw = c.yard.cw ∧
    d.yard.lastEnd = c.yard.lastEnd ∧
    d.yard.windowOpen = c.yard.windowOpen ∧
    d.yard.allowance = c.yard.allowance ∧
    d.yard.airtimeUsed = c.yard.airtimeUsed ∧
    d.yard.offerRound = c.yard.offerRound ∧
    d.yard.roundOffer = c.yard.roundOffer ∧
    d.yard.onAir = c.yard.onAir ∧
    d.catalog.lastOffered = c.catalog.lastOffered ∧
    d.seq.probations = c.seq.probations

@[simp] theorem setSegState_keeps (k : ImageKey) (seg : Nat) (st : SegState) (c : Chip) : Stands c (setSegState k seg st c) := by
  unfold setSegState
  simp [Stands]

@[simp] theorem evaluateWaiting_keeps (c : Chip) : Stands c (evaluateWaiting c) := by
  unfold evaluateWaiting
  simp [Stands]

@[simp] theorem reportNoTarget_keeps (before after : UnitEntry) (c : Chip) : Stands c (reportNoTarget before after c) := by
  unfold reportNoTarget
  (repeat' split) <;> simp [Stands]

@[simp] theorem selectUnit_keeps (address : Nat) (c : Chip) : Stands c (selectUnit address c) := by
  unfold selectUnit
  (repeat' split) <;> simp [Stands]

@[simp] theorem raiseOpen_keeps (id : Nat) (c : Chip) : Stands c (raiseOpen id c) := by
  unfold raiseOpen
  simp [Stands]

@[simp] theorem withdrawOps_keeps (slot : Nat) (c : Chip) : Stands c (withdrawOps slot c) := by
  unfold withdrawOps
  simp [Stands]

@[simp] theorem joinDirty_keeps (slot : Nat) (c : Chip) : Stands c (joinDirty slot c) := by
  unfold joinDirty
  simp [Stands]

@[simp] theorem awaitEnd_keeps (slot : Nat) (c : Chip) : Stands c (awaitEnd slot c) := by
  unfold awaitEnd
  simp [Stands]

@[simp] theorem release_keeps (slot : Nat) (c : Chip) : Stands c (release slot c) := by
  unfold release
  dsimp only
  split <;> simp [Stands]

@[simp] theorem allocate_keeps (slot : Nat) (o : Owner) (c : Chip) : Stands c (allocate slot o c) := by
  unfold allocate
  simp [Stands]

@[simp] theorem pushUrgent_keeps (f : UrgentFrame) (c : Chip) : Stands c (pushUrgent f c) := by
  unfold pushUrgent
  (repeat' split) <;> simp [Stands]

@[simp] theorem giveUpServeRead_keeps (i : Nat) (c : Chip) : Stands c (giveUpServeRead i c) := by
  unfold giveUpServeRead
  simp [Stands]

@[simp] theorem endServe_keeps (i : Nat) (c : Chip) : Stands c (endServe i c) := by
  unfold endServe
  simp [Stands]

@[simp] theorem queueReply_keeps (kind : ReplyKind) (e : AskEntry) (c : Chip) : Stands c (queueReply kind e c) := by
  unfold queueReply
  simp [Stands]

@[simp] theorem endServeIf_keeps (hit : AskEntry → Bool) (i : Nat) (c : Chip) : Stands c (endServeIf hit i c) := by
  unfold endServeIf
  (repeat' split) <;> simp [Stands]

@[simp] theorem endServes_keeps (hit : AskEntry → Bool) (c : Chip) : Stands c (endServes hit c) := by
  unfold endServes
  simp [Stands]

@[simp] theorem leaveComplete_keeps (k : ImageKey) (c : Chip) : Stands c (leaveComplete k c) := by
  unfold leaveComplete
  (repeat' split) <;> simp [Stands]

@[simp] theorem evictSegment_keeps (k : ImageKey) (seg slot : Nat) (c : Chip) : Stands c (evictSegment k seg slot c) := by
  unfold evictSegment
  simp [Stands]

@[simp] theorem updateOpen_keeps (i : Nat) (f : OpenFetch → OpenFetch) (c : Chip) : Stands c (updateOpen i f c) := by
  unfold updateOpen
  (repeat' split) <;> simp [Stands]

@[simp] theorem withdrawAsk_keeps (i : Nat) (c : Chip) : Stands c (withdrawAsk i c) := by
  unfold withdrawAsk
  simp [Stands]

@[simp] theorem queueAsk_keeps (i : Nat) (c : Chip) : Stands c (queueAsk i c) := by
  unfold queueAsk
  dsimp only
  split <;> simp [Stands]

@[simp] theorem dealShort_keeps (x : Candidate) (c : Chip) : Stands c (dealShort x c) := by
  unfold dealShort
  (repeat' split) <;> simp [Stands]

@[simp] theorem openFetch_keeps (i slot : Nat) (x : Candidate) (p : PeerRecord) (c : Chip) : Stands c (openFetch i slot x p c) := by
  unfold openFetch
  simp [Stands]

@[simp] theorem selectionSteps_keeps (fuel : Nat) (a b : Bool) (c : Chip) : Stands c (selectionSteps fuel a b c) := by
  induction fuel generalizing a b c with
  | zero => simp [Stands, selectionSteps]
  | succ n ih =>
    unfold selectionSteps
    (repeat' split) <;> simp [Stands, ih]

@[simp] theorem runSelection_keeps (c : Chip) : Stands c (runSelection c) := by
  unfold runSelection
  (repeat' split) <;> simp [Stands]

@[simp] theorem examineTaken_keeps (i : Nat) (e : AskEntry) (c : Chip) : Stands c (examineTaken i e c) := by
  unfold examineTaken
  (repeat' split) <;> simp [Stands]

@[simp] theorem takeEntries_keeps (es : List AskEntry) (c : Chip) : Stands c (takeEntries es c) := by
  induction es generalizing c with
  | nil => simp [Stands, takeEntries]
  | cons e es ih =>
    unfold takeEntries
    split <;> simp [Stands, ih]

@[simp] theorem serveTake_keeps (c : Chip) : Stands c (serveTake c) := by
  unfold serveTake
  simp [Stands]

@[simp] theorem refuseRead_keeps (i : Nat) (e : AskEntry) (c : Chip) : Stands c (refuseRead i e c) := by
  unfold refuseRead
  simp [Stands]

@[simp] theorem presentLine_keeps (r : LineRequest) (c : Chip) : Stands c (presentLine r c) := by
  unfold presentLine
  (repeat' split) <;> simp [Stands]

@[simp] theorem withdrawLine_keeps (client : LineClient) (address : Nat) (c : Chip) : Stands c (withdrawLine client address c) := by
  unfold withdrawLine
  simp [Stands]

@[simp] theorem noteBegun_keeps (r : LineRequest) (c : Chip) : Stands c (noteBegun r c) := by
  unfold noteBegun
  (repeat' split) <;> simp [Stands]

@[simp] theorem lineBegin_keeps (c : Chip) : Stands c (lineBegin c) := by
  unfold lineBegin
  (repeat' split) <;> simp [Stands]

@[simp] theorem watchLine_keeps (c : Chip) : Stands c (watchLine c) := by
  unfold watchLine
  (repeat' split) <;> simp [Stands]

@[simp] theorem recordLast_keeps (address : Nat) (o : LastOutcome) (c : Chip) : Stands c (recordLast address o c) := by
  unfold recordLast
  simp [Stands]

@[simp] theorem setUnitState_keeps (address : Nat) (s : JobState) (c : Chip) : Stands c (setUnitState address s c) := by
  unfold setUnitState
  simp [Stands]

@[simp] theorem endJob_keeps (address : Nat) (c : Chip) : Stands c (endJob address c) := by
  unfold endJob
  simp [Stands]

@[simp] theorem failMisfit_keeps (u : UnitEntry) (c : Chip) : Stands c (failMisfit u c) := by
  unfold failMisfit
  simp [Stands]

@[simp] theorem deferEntry_keeps (u : UnitEntry) (c : Chip) : Stands c (deferEntry u c) := by
  unfold deferEntry
  (repeat' split) <;> simp [Stands]

@[simp] theorem startJob_keeps (u : UnitEntry) (k : ImageKey) (m : Manifest) (probation : Nat) (c : Chip) : Stands c (startJob u k m probation c) := by
  unfold startJob
  simp [Stands]

@[simp] theorem tryEntry_keeps (u : UnitEntry) (c : Chip) : Stands c (tryEntry u c) := by
  unfold tryEntry
  dsimp only
  (repeat' split) <;> simp [Stands]

@[simp] theorem arbiterSteps_keeps (n : Nat) (c : Chip) : Stands c (arbiterSteps n c) := by
  induction n generalizing c with
  | zero => simp [Stands, arbiterSteps]
  | succ n ih =>
    unfold arbiterSteps
    (repeat' split) <;> simp [Stands, ih]

@[simp] theorem unitArbiter_keeps (c : Chip) : Stands c (unitArbiter c) := by
  unfold unitArbiter
  simp [Stands]

@[simp] theorem dropFlashReads_keeps (c : Chip) : Stands c (dropFlashReads c) := by
  unfold dropFlashReads
  simp [Stands]

@[simp] theorem dropJob_keeps (j : JobRecord) (c : Chip) : Stands c (dropJob j c) := by
  unfold dropJob
  simp [Stands]

@[simp] theorem finishCancel_keeps (j : JobRecord) (c : Chip) : Stands c (finishCancel j c) := by
  unfold finishCancel
  simp [Stands]

@[simp] theorem jobBoundary_keeps (c : Chip) : Stands c (jobBoundary c) := by
  unfold jobBoundary
  (repeat' split) <;> simp [Stands]

@[simp] theorem cancelJob_keeps (c : Chip) : Stands c (cancelJob c) := by
  unfold cancelJob
  simp [Stands]

@[simp] theorem jobPresent_keeps (c : Chip) : Stands c (jobPresent c) := by
  unfold jobPresent
  (repeat' split) <;> simp [Stands]

@[simp] theorem presentCensus_keeps (c : Chip) : Stands c (presentCensus c) := by
  unfold presentCensus
  simp [Stands]

@[simp] theorem startCensus_keeps (c : Chip) : Stands c (startCensus c) := by
  unfold startCensus
  simp [Stands]

@[simp] theorem censusBegin_keeps (c : Chip) : Stands c (censusBegin c) := by
  unfold censusBegin
  (repeat' split) <;> simp [Stands]

@[simp] theorem enterDefer_keeps (c : Chip) : Stands c (enterDefer c) := by
  unfold enterDefer
  (repeat' split) <;> simp [Stands]

@[simp] theorem accessWake_keeps (c : Chip) : Stands c (accessWake c) := by
  unfold accessWake
  (repeat' split) <;> simp [Stands]

@[simp] theorem presentFor_keeps (k : StoreClient) (next : Chip → Option WaitingOp) (c : Chip) : Stands c (presentFor k next c) := by
  unfold presentFor
  (repeat' split) <;> simp [Stands]

@[simp] theorem presentServer_keeps (n : Nat) (c : Chip) : Stands c (presentServer n c) := by
  induction n generalizing c with
  | zero => simp [Stands, presentServer]
  | succ n ih =>
    unfold presentServer
    (repeat' split) <;> simp [Stands, ih]

@[simp] theorem presentPort_keeps (c : Chip) : Stands c (presentPort c) := by
  unfold presentPort
  (repeat' split) <;> simp [Stands]

@[simp] theorem presentAll_keeps (c : Chip) : Stands c (presentAll c) := by
  unfold presentAll
  simp [Stands]

@[simp] theorem noteGrant_keeps (op : StoreOp) (c : Chip) : Stands c (noteGrant op c) := by
  unfold noteGrant
  (repeat' split) <;> simp [Stands]

@[simp] theorem flashReadGone_keeps (c : Chip) : Stands c (flashReadGone c) := by
  unfold flashReadGone
  simp [Stands]

@[simp] theorem answerGone_keeps (op : StoreOp) (c : Chip) : Stands c (answerGone op c) := by
  unfold answerGone
  (repeat' split) <;> simp [Stands]

@[simp] theorem grant_keeps (w : WaitingOp) (c : Chip) : Stands c (grant w c) := by
  unfold grant
  dsimp only
  split <;> simp [Stands]

@[simp] theorem grantTurn_keeps (w : WaitingOp) (c : Chip) : Stands c (grantTurn w c) := by
  unfold grantTurn
  simp [Stands]

@[simp] theorem storeSteps_keeps (n : Nat) (c : Chip) : Stands c (storeSteps n c) := by
  induction n generalizing c with
  | zero => simp [Stands, storeSteps]
  | succ n ih =>
    unfold storeSteps
    split <;> simp [Stands, ih]

@[simp] theorem storeRound_keeps (c : Chip) : Stands c (storeRound c) := by
  unfold storeRound
  simp [Stands]

@[simp] theorem settlePass_keeps (c : Chip) : Stands c (settlePass c) := by
  unfold settlePass
  simp [Stands]

@[simp] theorem settle_keeps (c : Chip) : Stands c (settle c) := by
  unfold settle
  simp [Stands]


/-! ## Nothing reported, queued or changed in the peers -/

/-- The second chip has the reports, the urgent lane and the peers of the first. -/
abbrev Silent (c d : Chip) : Prop := d.port.reports = c.port.reports ∧ d.yard.urgent = c.yard.urgent ∧ d.peers = c.peers

@[simp] theorem setSegState_silent (k : ImageKey) (seg : Nat) (st : SegState) (c : Chip) : Silent c (setSegState k seg st c) := by
  unfold setSegState
  simp [Silent]

@[simp] theorem evaluateWaiting_silent (c : Chip) : Silent c (evaluateWaiting c) := by
  unfold evaluateWaiting
  simp [Silent]

@[simp] theorem withdrawOps_silent (slot : Nat) (c : Chip) : Silent c (withdrawOps slot c) := by
  unfold withdrawOps
  simp [Silent]

@[simp] theorem joinDirty_silent (slot : Nat) (c : Chip) : Silent c (joinDirty slot c) := by
  unfold joinDirty
  simp [Silent]

@[simp] theorem awaitEnd_silent (slot : Nat) (c : Chip) : Silent c (awaitEnd slot c) := by
  unfold awaitEnd
  simp [Silent]

@[simp] theorem release_silent (slot : Nat) (c : Chip) : Silent c (release slot c) := by
  unfold release
  dsimp only
  split <;> simp [Silent]

@[simp] theorem allocate_silent (slot : Nat) (o : Owner) (c : Chip) : Silent c (allocate slot o c) := by
  unfold allocate
  simp [Silent]

@[simp] theorem giveUpServeRead_silent (i : Nat) (c : Chip) : Silent c (giveUpServeRead i c) := by
  unfold giveUpServeRead
  simp [Silent]

@[simp] theorem endServe_silent (i : Nat) (c : Chip) : Silent c (endServe i c) := by
  unfold endServe
  simp [Silent]

@[simp] theorem leaveComplete_silent (k : ImageKey) (c : Chip) : Silent c (leaveComplete k c) := by
  unfold leaveComplete
  (repeat' split) <;> simp [Silent]

@[simp] theorem updateOpen_silent (i : Nat) (f : OpenFetch → OpenFetch) (c : Chip) : Silent c (updateOpen i f c) := by
  unfold updateOpen
  (repeat' split) <;> simp [Silent]

@[simp] theorem withdrawAsk_silent (i : Nat) (c : Chip) : Silent c (withdrawAsk i c) := by
  unfold withdrawAsk
  simp [Silent]

@[simp] theorem queueAsk_silent (i : Nat) (c : Chip) : Silent c (queueAsk i c) := by
  unfold queueAsk
  dsimp only
  split <;> simp [Silent]

@[simp] theorem presentLine_silent (r : LineRequest) (c : Chip) : Silent c (presentLine r c) := by
  unfold presentLine
  (repeat' split) <;> simp [Silent]

@[simp] theorem withdrawLine_silent (client : LineClient) (address : Nat) (c : Chip) : Silent c (withdrawLine client address c) := by
  unfold withdrawLine
  simp [Silent]

@[simp] theorem noteBegun_silent (r : LineRequest) (c : Chip) : Silent c (noteBegun r c) := by
  unfold noteBegun
  (repeat' split) <;> simp [Silent]

@[simp] theorem lineBegin_silent (c : Chip) : Silent c (lineBegin c) := by
  unfold lineBegin
  (repeat' split) <;> simp [Silent]

@[simp] theorem watchLine_silent (c : Chip) : Silent c (watchLine c) := by
  unfold watchLine
  (repeat' split) <;> simp [Silent]

@[simp] theorem recordLast_silent (address : Nat) (o : LastOutcome) (c : Chip) : Silent c (recordLast address o c) := by
  unfold recordLast
  simp [Silent]

@[simp] theorem setUnitState_silent (address : Nat) (s : JobState) (c : Chip) : Silent c (setUnitState address s c) := by
  unfold setUnitState
  simp [Silent]

@[simp] theorem dropFlashReads_silent (c : Chip) : Silent c (dropFlashReads c) := by
  unfold dropFlashReads
  simp [Silent]

@[simp] theorem dropJob_silent (j : JobRecord) (c : Chip) : Silent c (dropJob j c) := by
  unfold dropJob
  simp [Silent]

@[simp] theorem jobPresent_silent (c : Chip) : Silent c (jobPresent c) := by
  unfold jobPresent
  (repeat' split) <;> simp [Silent]

@[simp] theorem presentCensus_silent (c : Chip) : Silent c (presentCensus c) := by
  unfold presentCensus
  simp [Silent]

@[simp] theorem startCensus_silent (c : Chip) : Silent c (startCensus c) := by
  unfold startCensus
  simp [Silent]

@[simp] theorem censusBegin_silent (c : Chip) : Silent c (censusBegin c) := by
  unfold censusBegin
  (repeat' split) <;> simp [Silent]

@[simp] theorem enterDefer_silent (c : Chip) : Silent c (enterDefer c) := by
  unfold enterDefer
  (repeat' split) <;> simp [Silent]

@[simp] theorem accessWake_silent (c : Chip) : Silent c (accessWake c) := by
  unfold accessWake
  (repeat' split) <;> simp [Silent]

@[simp] theorem presentFor_silent (k : StoreClient) (next : Chip → Option WaitingOp) (c : Chip) : Silent c (presentFor k next c) := by
  unfold presentFor
  (repeat' split) <;> simp [Silent]

@[simp] theorem presentPort_silent (c : Chip) : Silent c (presentPort c) := by
  unfold presentPort
  (repeat' split) <;> simp [Silent]

@[simp] theorem noteGrant_silent (op : StoreOp) (c : Chip) : Silent c (noteGrant op c) := by
  unfold noteGrant
  (repeat' split) <;> simp [Silent]


/-! ## What is reported, queued and counted when blocks are set going -/

/-- From the first chip to the second: records of `setOffKinds` appended, short replies queued, and of the peers only open fetches changed. -/
def Adds (c d : Chip) : Prop :=
  (∃ rs : List Report, (∀ x ∈ rs, x.kind ∈ setOffKinds) ∧ d.port.reports = pushReports c.port.reports rs) ∧
    (∃ fs : List UrgentFrame, (∀ x ∈ fs, ∃ k e i n, x = .reply k e i n) ∧ d.yard.urgent = c.yard.urgent ++ fs) ∧
    d.peers.map peerBody = c.peers.map peerBody

theorem Adds.of_silent {c d : Chip} (h : Silent c d) : Adds c d := by
  obtain ⟨h1, h2, h3⟩ := h
  exact ⟨⟨[], by simp, by simp [h1, pushReports]⟩, ⟨[], by simp, by simp [h2]⟩, by rw [h3]⟩

theorem Adds.refl (c : Chip) : Adds c c := Adds.of_silent ⟨rfl, rfl, rfl⟩

theorem Adds.trans {c d e : Chip} (h : Adds c d) (k : Adds d e) : Adds c e := by
  obtain ⟨⟨rs, hr, er⟩, ⟨fs, hf, ef⟩, hp⟩ := h
  obtain ⟨⟨rs', hr', er'⟩, ⟨fs', hf', ef'⟩, hp'⟩ := k
  refine ⟨⟨rs ++ rs', ?_, ?_⟩, ⟨fs ++ fs', ?_, ?_⟩, hp'.trans hp⟩
  · intro x hx
    rcases List.mem_append.mp hx with h | h
    exacts [hr x h, hr' x h]
  · rw [er', er]
    simp [pushReports]
  · intro x hx
    rcases List.mem_append.mp hx with h | h
    exacts [hf x h, hf' x h]
  · rw [ef', ef]
    simp

theorem Adds.silent {c d e : Chip} (h : Adds c d) (k : Silent d e) : Adds c e := h.trans (Adds.of_silent k)

theorem report_adds (kind : ReportKind) (subject : Subject) (detail : Nat) (c : Chip) (h : kind ∈ setOffKinds) :
    Adds c (report kind subject detail c) :=
  ⟨⟨[_], by simpa using h, rfl⟩, ⟨[], by simp, by simp⟩, rfl⟩

theorem queueReply_adds (kind : ReplyKind) (e : AskEntry) (c : Chip) : Adds c (queueReply kind e c) := by
  have hp : ∀ d : Chip, d.peers = c.peers → d.peers.map peerBody = c.peers.map peerBody := fun d h => by rw [h]
  unfold queueReply pushUrgent
  dsimp only
  (repeat' split) <;>
    first
      | exact Adds.refl c
      | exact ⟨⟨[], by simp, by simp [pushReports]⟩, ⟨[_], by simp, rfl⟩, rfl⟩

theorem raiseOpen_adds (id : Nat) (c : Chip) : Adds c (raiseOpen id c) := by
  refine ⟨⟨[], by simp, by simp [raiseOpen, pushReports]⟩, ⟨[], by simp, by simp [raiseOpen]⟩, ?_⟩
  simp only [raiseOpen, updatePeer, List.map_map]
  apply List.map_congr_left
  intro p _
  simp only [Function.comp]
  split <;> simp [peerBody]

theorem reportNoTarget_adds (before after : UnitEntry) (c : Chip) : Adds c (reportNoTarget before after c) := by
  unfold reportNoTarget
  (repeat' split) <;> first | exact Adds.refl c | exact report_adds _ _ _ _ (by decide)

theorem selectUnit_adds (address : Nat) (c : Chip) : Adds c (selectUnit address c) := by
  unfold selectUnit
  (repeat' split) <;> first | exact Adds.refl c | exact (Adds.of_silent (by simp [Silent])).trans (reportNoTarget_adds _ _ _)

theorem endServeIf_adds (hit : AskEntry → Bool) (i : Nat) (c : Chip) : Adds c (endServeIf hit i c) := by
  unfold endServeIf
  (repeat' split) <;> first | exact Adds.refl c | exact (Adds.of_silent (by simp [Silent])).trans (queueReply_adds _ _ _)

theorem endServes_adds (hit : AskEntry → Bool) (c : Chip) : Adds c (endServes hit c) :=
  ((endServeIf_adds _ _ _).trans (endServeIf_adds _ _ _)).trans (endServeIf_adds _ _ _)

theorem evictSegment_adds (k : ImageKey) (seg slot : Nat) (c : Chip) : Adds c (evictSegment k seg slot c) := by
  unfold evictSegment
  exact ((Adds.of_silent (setSegState_silent k seg .absent c)).trans (endServes_adds (fun e => e.image == k && e.segment == seg) _)).silent (by simp [Silent])

theorem dealShort_adds (x : Candidate) (c : Chip) : Adds c (dealShort x c) := by
  unfold dealShort
  split
  · exact Adds.refl c
  · split
    · exact evictSegment_adds _ _ _ _
    · have h : Adds c { c with fetch.storeFullAt := some c.now } := Adds.of_silent (by simp [Silent])
      split
      · split
        · exact Adds.refl c
        · exact h.trans (report_adds _ _ _ _ (by decide))
      · exact h.trans (report_adds _ _ _ _ (by decide))

theorem openFetch_adds (i slot : Nat) (x : Candidate) (p : PeerRecord) (c : Chip) : Adds c (openFetch i slot x p c) :=
  ((Adds.of_silent (d := setSegState x.image x.segment (.fetching slot) (allocate slot (.fetch i) c)) (by simp [Silent])).trans
      (raiseOpen_adds p.id _)).silent (by simp [openFetch, Silent])

theorem selectionSteps_adds (fuel : Nat) (a b : Bool) (c : Chip) : Adds c (selectionSteps fuel a b c) := by
  induction fuel generalizing a b c with
  | zero => exact Adds.refl c
  | succ n ih =>
    unfold selectionSteps
    (repeat' split) <;>
      first
        | exact Adds.refl c
        | exact (openFetch_adds _ _ _ _ _).trans (ih _ _ _)
        | exact (dealShort_adds _ _).trans (ih _ _ _)

theorem runSelection_adds (c : Chip) : Adds c (runSelection c) := by
  unfold runSelection
  dsimp only
  (repeat' split) <;> first | exact Adds.refl c | exact (selectionSteps_adds _ _ _ _).silent ⟨rfl, rfl, rfl⟩

theorem examineTaken_adds (i : Nat) (e : AskEntry) (c : Chip) : Adds c (examineTaken i e c) := by
  unfold examineTaken
  (repeat' split) <;> first | exact Adds.refl c | exact queueReply_adds _ _ _

theorem takeEntries_adds (es : List AskEntry) (c : Chip) : Adds c (takeEntries es c) := by
  induction es generalizing c with
  | nil => exact Adds.of_silent ⟨rfl, rfl, rfl⟩
  | cons e es ih =>
    unfold takeEntries
    split
    · exact Adds.of_silent ⟨rfl, rfl, rfl⟩
    · exact (examineTaken_adds _ _ _).trans (ih _)

theorem serveTake_adds (c : Chip) : Adds c (serveTake c) := takeEntries_adds _ _

theorem refuseRead_adds (i : Nat) (e : AskEntry) (c : Chip) : Adds c (refuseRead i e c) :=
  (Adds.of_silent (endServe_silent i c)).trans (queueReply_adds _ _ _)

theorem endJob_adds (address : Nat) (c : Chip) : Adds c (endJob address c) :=
  (Adds.of_silent (setUnitState_silent address .ready c)).trans (selectUnit_adds _ _)

theorem failMisfit_adds (u : UnitEntry) (c : Chip) : Adds c (failMisfit u c) :=
  ((Adds.of_silent (d := recordLast u.address (.failed .misfit) (setUnitState u.address .failed c)) (by simp [Silent])).trans
      (report_adds _ _ _ _ (by decide))).trans (selectUnit_adds _ _)

theorem deferEntry_adds (u : UnitEntry) (c : Chip) : Adds c (deferEntry u c) := by
  unfold deferEntry
  dsimp only
  split
  · exact Adds.of_silent (by simp [Silent])
  · exact (Adds.of_silent (by simp [Silent])).trans (report_adds _ _ _ _ (by decide))

theorem startJob_adds (u : UnitEntry) (k : ImageKey) (m : Manifest) (probation : Nat) (c : Chip) : Adds c (startJob u k m probation c) :=
  (Adds.of_silent (by simp [Silent])).trans (report_adds _ _ _ _ (by decide))

theorem tryEntry_adds (u : UnitEntry) (c : Chip) : Adds c (tryEntry u c) := by
  unfold tryEntry
  dsimp only
  (repeat' split) <;>
    first
      | exact failMisfit_adds _ _
      | exact startJob_adds _ _ _ _ _
      | exact deferEntry_adds _ _
      | exact Adds.of_silent (evaluateWaiting_silent _)

theorem arbiterSteps_adds (n : Nat) (c : Chip) : Adds c (arbiterSteps n c) := by
  induction n generalizing c with
  | zero => exact Adds.refl c
  | succ n ih =>
    unfold arbiterSteps
    (repeat' split) <;> first | exact Adds.refl c | exact (tryEntry_adds _ _).trans (ih _)

theorem unitArbiter_adds (c : Chip) : Adds c (unitArbiter c) := arbiterSteps_adds _ _

theorem finishCancel_adds (j : JobRecord) (c : Chip) : Adds c (finishCancel j c) :=
  ((Adds.of_silent (d := recordLast j.address .cancelledPlan (dropJob j c)) (by simp [Silent])).trans (report_adds _ _ _ _ (by decide))).trans
    (endJob_adds _ _)

theorem jobBoundary_adds (c : Chip) : Adds c (jobBoundary c) := by
  unfold jobBoundary
  (repeat' split) <;> first | exact Adds.refl c | exact finishCancel_adds _ _

theorem cancelJob_adds (c : Chip) : Adds c (cancelJob c) := (Adds.of_silent (by simp [Silent])).trans (jobBoundary_adds _)

theorem presentServer_adds (n : Nat) (c : Chip) : Adds c (presentServer n c) := by
  induction n generalizing c with
  | zero => exact Adds.refl c
  | succ n ih =>
    unfold presentServer
    (repeat' split) <;>
      first
        | exact Adds.refl c
        | exact (refuseRead_adds _ _ _).trans (ih _)

theorem presentAll_adds (c : Chip) : Adds c (presentAll c) :=
  ((Adds.of_silent (d := presentFor .checker checkerOp (presentFor .fetchWriter fetchWriterOp c)) (by simp [Silent])).trans
      (presentServer_adds 3 _)).silent (by simp [presentAll, Silent])

theorem flashReadGone_adds (c : Chip) : Adds c (flashReadGone c) :=
  (Adds.of_silent (by simp [Silent])).trans (cancelJob_adds _)

theorem answerGone_adds (op : StoreOp) (c : Chip) : Adds c (answerGone op c) := by
  unfold answerGone
  split <;> first | exact Adds.of_silent ⟨rfl, rfl, rfl⟩ | exact flashReadGone_adds _

theorem grant_adds (w : WaitingOp) (c : Chip) : Adds c (grant w c) := by
  unfold grant
  dsimp only
  split
  · exact Adds.of_silent (by simp [Silent])
  · exact (Adds.of_silent ⟨rfl, rfl, rfl⟩).trans (answerGone_adds _ _)

theorem grantTurn_adds (w : WaitingOp) (c : Chip) : Adds c (grantTurn w c) := (grant_adds _ _).trans (presentAll_adds _)

theorem storeSteps_adds (n : Nat) (c : Chip) : Adds c (storeSteps n c) := by
  induction n generalizing c with
  | zero => exact Adds.refl c
  | succ n ih =>
    unfold storeSteps
    split <;> first | exact Adds.refl c | exact (grantTurn_adds _ _).trans (ih _)

theorem storeRound_adds (c : Chip) : Adds c (storeRound c) := (presentAll_adds _).trans (storeSteps_adds _ _)

theorem settlePass_adds (c : Chip) : Adds c (settlePass c) := by
  unfold settlePass
  have h1 := ((serveTake_adds c).trans (runSelection_adds _)).trans (serveTake_adds _)
  have h2 := ((h1.silent (censusBegin_silent _)).trans (unitArbiter_adds _)).trans (storeRound_adds _)
  exact h2.silent (by simp [Silent])

/-- What settling reports, queues and counts. -/
theorem settle_adds (c : Chip) : Adds c (settle c) :=
  ((settlePass_adds c).trans (settlePass_adds _)).silent (by simp [settle, Silent])

/-- Settling leaves the standing part as it is. -/
theorem settle_standing (c : Chip) : standing (settle c) = standing c := by simp [standing]

end Sys2Proof.Machine
end

