-- ==== Sys2Proof/Laws/Slots.lean ====
section
/-!
SUPPORT. What a release of a store slot can do (R102), at once or once a load's pending program has ended (R188).
-/
namespace Sys2Proof.Machine

/-- R102, R188. A slot that waits for an operation's end is among those released then, and nothing else changes. -/
theorem awaitEnd_does (slot : Nat) (c : Chip) :
    ∃ waiting, awaitEnd slot c = { c with store.releasing := waiting } ∧ slot ∈ waiting ∧ ∀ x ∈ c.store.releasing, x ∈ waiting := by
  refine ⟨_, rfl, ?_, ?_⟩ <;> split <;> simp_all

/-- R102. A slot that joins the dirty queue is in it, behind those there were, and only its word of the map changes. -/
theorem joinDirty_does (slot : Nat) (c : Chip) :
    ∃ queue, joinDirty slot c = { setSlot slot { cond := .dirty, owner := none } c with store.dirtyQueue := queue } ∧ slot ∈ queue ∧
      ∀ x ∈ c.store.dirtyQueue, x ∈ queue := by
  refine ⟨_, rfl, ?_, ?_⟩ <;> split <;> simp_all

/-- R102. A release withdraws the slot's waiting operations, takes its owner from the map, and puts it into the dirty queue or among the slots that wait
for an operation's end; it changes nothing else. -/
theorem release_does (slot : Nat) (c : Chip) :
    ∃ word queue waiting, release slot c =
        { setSlot slot word (withdrawOps slot c) with store.dirtyQueue := queue, store.releasing := waiting } ∧
      word.owner = none ∧ (slot ∈ queue ∨ slot ∈ waiting) ∧ (∀ x ∈ c.store.dirtyQueue, x ∈ queue) ∧ ∀ x ∈ c.store.releasing, x ∈ waiting := by
  unfold release
  dsimp only
  split
  · obtain ⟨w, h, hs, hk⟩ := awaitEnd_does slot (setSlot slot { slotInfo (withdrawOps slot c) slot with owner := none } (withdrawOps slot c))
    exact ⟨_, c.store.dirtyQueue, w, h, rfl, .inr hs, fun _ hx => hx, hk⟩
  · obtain ⟨q, h, hs, hk⟩ := joinDirty_does slot (withdrawOps slot c)
    exact ⟨_, q, c.store.releasing, h, rfl, .inl hs, hk, fun _ hx => hx⟩

/-- R188. With a program pending, the slot of a load that has ended only waits for that program's end; without one it is released. -/
theorem releaseLoadSlot_does (l : Load) (c : Chip) :
    (programPending l = true →
      ∃ waiting, releaseLoadSlot l c = { c with store.releasing := waiting } ∧ l.slot ∈ waiting ∧ ∀ x ∈ c.store.releasing, x ∈ waiting) ∧
      (programPending l = false → releaseLoadSlot l c = release l.slot c) := by
  unfold releaseLoadSlot
  exact ⟨fun h => by rw [if_pos h]; exact awaitEnd_does l.slot c, fun h => by simp [h]⟩

/-- R102, R188. A slot whose release waited is in the dirty queue when the operation on it has completed. -/
theorem finishRelease_does (slot : Nat) (c : Chip) (h : slot ∈ c.store.releasing) : slot ∈ (finishRelease slot c).store.dirtyQueue := by
  unfold finishRelease
  rw [if_pos h]
  obtain ⟨q, e, hs, _⟩ := joinDirty_does slot { c with store.releasing := c.store.releasing.filter (fun s => s != slot) }
  rw [e]
  exact hs

end Sys2Proof.Machine
end

