-- ==== Sys2Proof/Tests/Slice0.lean ====
section
/-!
SUPPORT. Tests: ill-formed commands refused, the manual's worked values, and for each statement with hypotheses a state and operands that meet them.
-/
namespace Sys2Proof.Tests
open Sys2Proof Sys2Proof.Machine

-- One theorem after another: each is evaluated by the kernel, and many at once would take much memory.
set_option Elab.async false

/-! ## Well-formed commands -/

theorem test_wf_fetch_slot : Instr.wf (.fetchTimerExpiry 4) = false ∧ Instr.wf (.fetchTimerExpiry 3) = true := by decide +kernel
theorem test_wf_segment : Instr.wf (.coolingEnd ⟨1, 0⟩ 2025) = false ∧ Instr.wf (.coolingEnd ⟨1, 0⟩ 2024) = true := by decide +kernel
theorem test_wf_image : Instr.wf (.coolingEnd ⟨0, 1⟩ 1) = false ∧ Instr.wf (.coolingEnd ⟨1, 65536⟩ 1) = false := by decide +kernel
theorem test_wf_station : Instr.wf (.peerExpiry 0) = false ∧ Instr.wf (.shunEnd 65535) = false ∧ Instr.wf (.busyMarkEnd 65535) = false := by decide +kernel
theorem test_wf_address :
    Instr.wf (.notBeforeReached 0) = false ∧ Instr.wf (.probationPollDue 32) = false ∧ Instr.wf (.finalReadDue 32) = false ∧
      Instr.wf (.probationRepeatDue 0) = false ∧ Instr.wf (.finalReadDue 31) = true := by decide +kernel
theorem test_wf_received : Instr.wf (.cabinTransactionEnd none (List.replicate 129 0)) = false := by decide +kernel
theorem test_wf_record : Instr.wf (.commission (List.replicate 17 0)) = false := by decide +kernel
theorem test_wf_block : Instr.wf (.loadBlock 0 (List.replicate 127 0)) = false := by decide +kernel

/-! ## Worked values of the manual -/

/-- "123456789" (R192). -/
def nine : List Byte := [0x31, 0x32, 0x33, 0x34, 0x35, 0x36, 0x37, 0x38, 0x39]

/-- R192. -/
theorem test_check_values : crc16 nine = 0x29B1 ∧ crc32 nine = 0xCBF43926 := by decide +kernel

/-- R34's worked windows: 2,000 to 4,700 to 6,725; and a window in 3 ms. -/
theorem test_estimates :
    sampleOf 2048 160 = 12800 ∧ smooth 2000 12800 = 4700 ∧ smooth 4700 12800 = 6725 ∧ sampleOf 2048 3 = 682666 := by decide +kernel

/-- 02's example: the Offer with span 50 to 160, then the Lacking for segment 90. -/
theorem test_merge_example :
    mergeRuns 50 160 [⟨52, 70⟩, ⟨80, 120⟩] [⟨0, 40⟩, ⟨60, 99⟩, ⟨150, 180⟩] = [⟨0, 40⟩, ⟨52, 70⟩, ⟨80, 120⟩, ⟨161, 180⟩] ∧
      withdrawOne 90 [⟨0, 40⟩, ⟨52, 70⟩, ⟨80, 120⟩, ⟨161, 180⟩] = [⟨0, 40⟩, ⟨52, 70⟩, ⟨80, 89⟩, ⟨91, 120⟩, ⟨161, 180⟩] := by decide +kernel

/-- R76, R88 and 05's example: airtimes of an Ask, a Block and a plan of 16 entries, and allowances. -/
theorem test_airtimes : airtime 23 = 992 ∧ airtime 150 = 5056 ∧ airtime 439 = 14304 ∧ allowanceFor 0 = 1000 ∧ allowanceFor 18 = 100 := by decide +kernel

/-- 09's budget cases, from W, t_b and S. -/
theorem test_budgets :
    marginedD (estimateD (lineTime 10240 (byteTime 360000)) 10240 3 20 400 120) = 255969 ∧
      marginedD (estimateD (lineTime 12785 (byteTime 360000)) 12785 3 25 400 180) = 353491 ∧
      marginedD (estimateD (lineTime 157 (byteTime 70000)) 157 8 5 60 30) = 41832 ∧
      marginedD (estimateD (lineTime 100000 25) 100000 50000 5 60 30) = satMax := by decide +kernel

/-- R15, R16, R194. A manifest of image 22 v9 for model 0x0310: N = 2, 12,000 bytes, one window. -/
def manifestHead : List Byte := [0, 22, 0, 9, 3, 0x10, 0, 2, 0, 0, 0x2E, 0xE0, 1] ++ List.replicate 15 0xFF

def manifestTail : List Byte :=
  [0, 1, 0, 2, 0, 0, 0x10, 0, 0] ++ List.replicate 55 0xFF ++ [0xAA, 0xAA, 0xAA, 0xAA, 0xBB, 0xBB, 0xBB, 0xBB]

def manifestBytes : List Byte := manifestHead ++ put32 (crc32 (manifestHead ++ manifestTail)).toNat ++ manifestTail

def man : Manifest := { count := 2, length := 12000, windows := [⟨1, 2, 4096, false⟩], crcs := [0xAAAAAAAA, 0xBBBBBBBB] }

set_option maxRecDepth 100000 in
theorem test_manifest_valid : (validateManifest ⟨22, 9⟩ 0x310 manifestBytes).toOption = some man := by decide +kernel
set_option maxRecDepth 100000 in
theorem test_manifest_model : (match validateManifest ⟨22, 9⟩ 0x311 manifestBytes with | .error r => r | .ok _ => 0) = 3 := by decide +kernel

/-- R110, R194. A spare area with its erase mark and nothing more, a claimed one, and one partly retired. -/
theorem test_sweep_classes :
    classifySpare ([0xA5, 0xC3] ++ List.replicate 62 0xFF) = .erased ∧ classifySpare ([0xA5, 0xC3, 0x3C, 0x5A] ++ List.replicate 60 0xFF) = .dirty ∧
      classifySpare (List.replicate 63 0xFF ++ [0x7F]) = .retired := by decide +kernel

/-! ## States for the witnesses -/

def pinsUp : Pins := ⟨.busStation, .slots2048, false, false, true, true⟩

def cfg : ConfigRecord := ⟨7, 300, 0, false, false, 0xFFFFFFFF, 0, 0⟩

/-- A running bus station, id 7, its scan done, at local time 100,000. -/
def bus : Chip :=
  let c := Chip.afterStart pinsUp [] 0
  { c with now := 100000, store.scanPhase := .done, yard.mode := .on, port.part := .running, port.config := some cfg }

def origin : Chip := { bus with role := .origin }

def still (c : Chip) : State := { chip := c, pending := [] }

def img : ImageKey := ⟨22, 9⟩

/-- A GATHERING record of `img` with these states of segments 0, 1 and 2. -/
def recordOf (a b d : SegState) : ImageRecord :=
  { image := img, need := .own, priv := false, manifestCrc := 5, model := 0x310, state := .gathering, manifest := some man,
    entries := [⟨a, 0⟩, ⟨b, 0⟩, ⟨d, 0⟩], spanCursor := 0 }

def peer (id : Nat) : PeerRecord := { newPeer id 70000 false with lists := [(img, [⟨0, 2⟩])], openFetches := 1 }

/-- A fetch of segment 1 from station 12 in its window `base`, its timer reached. -/
def fetching (base : Nat) (marks : BitVec 64) : OpenFetch :=
  { image := img, segment := 1, peer := 12, counted := true, base := base, bitmap := marks, reask := false, switches := 0, switchOwed := false,
    lastAsk := some (base, 3#16), timer := some 100000, windowStart := some 99990, lastAccept := some 99995, accepted := 15, storeSlot := 8,
    claimed := true }

/-- The running bus station with a record, a peer and one fetch. -/
def fetchChip (f : OpenFetch) : Chip :=
  { bus with
    catalog.records := [recordOf (.held 9) (.fetching 8) .absent]
    peers := [peer 12]
    fetch.slots := [.opened f, .free, .free, .free]
    store.slotMap := [(8, ⟨.filling, some (.fetch 0)⟩), (9, ⟨.full, some (.segment img 0)⟩)] }

/-- The running bus station with this operation of the store in progress. -/
def storing (c : Chip) (op : StoreOp) : State := still { c with store.current := some { op := op, live := true } }

def heard (kind : FrameKind) (originFlag departing : Bool) (serial : Nat) (payload : List Byte) : List Byte :=
  frameBytes kind originFlag departing 12 serial payload

def rx (kind : FrameKind) (originFlag departing : Bool) (serial : Nat) (payload : List Byte) : RxFrame :=
  { kind := kind, originFlag := originFlag, departing := departing, sender := 12, serial := serial, payload := payload }

/-- An empty plan of serial 42, and one whose CRC-32 is wrong. -/
def planBody : List Byte := buildPlanBody 12 42 0 []

def wrongBody : List Byte := put16 12 ++ put32 42 ++ [0] ++ put32 0

def blockFrame (index : Nat) (last : Bool) : List Byte :=
  putBlock { asker := 7, image := img, segment := 1, index := index, lastOfAsk := last, data := List.replicate 128 0xA5 }

/-! ## Steps and plans -/

/-- O2's clauses at their boundaries: a peer last heard 30,000 ms before the tick's end, and the line quiet for 2 ms. -/
theorem witness_tick :
    let c := { bus with now := 99999, peers := [peer 12], line.state := .quiet 99998 }
    (∃ p ∈ c.peers, p.lastHeard + 30000 ≤ c.now + 1) ∧ c.yard.windowOpen + 1000 ≤ c.now + 1 ∧ c.line.state = .quiet 99998 ∧ 99998 + 2 ≤ c.now + 1 :=
  ⟨⟨peer 12, by decide +kernel, by decide +kernel⟩, by decide +kernel, by decide +kernel, by decide +kernel⟩

theorem test_step_takes_front : step { chip := bus, pending := [.exchangeDiscarded, .status] } = .next { chip := settle bus, pending := [.status] } := rfl

/-- A plan that is adopted, one of equal serial, and one with a wrong CRC-32. -/
theorem witness_plan_frame :
    Accepts bus .plan (heard .plan true false 42 planBody) (rx .plan true false 42 planBody) ∧
      Accepts { bus with plans.body := planBody } .plan (heard .plan true false 42 planBody) (rx .plan true false 42 planBody) ∧
      Accepts bus .plan (heard .plan true false 42 wrongBody) (rx .plan true false 42 wrongBody) := by
  unfold Accepts; decide +kernel

/-- A serial one greater than the held one; the last PlanAsk 5,001 ms and 5,000 ms ago. -/
theorem witness_greater_serial :
    let c := fun (q : Nat) => { bus with plans.body := planBody, plans.lastPlanAsk := some q }
    ∀ q ∈ [94999, 95000], Accepts (c q) .leave (heard .leave false false 43 []) (rx .leave false false 43 []) ∧ heldSerial (c q) < 43 := by
  unfold Accepts; decide +kernel

/-- A PlanAsk that names this station and one that names another. -/
theorem witness_plan_ask :
    ∀ n ∈ [7, 8], Accepts { bus with plans.body := planBody } .planAsk (heard .planAsk false false 42 (put16 n)) (rx .planAsk false false 42 (put16 n)) := by
  unfold Accepts; decide +kernel

/-- The one piece of a copy in the last position; the erase before position 0. -/
theorem witness_plan_copy :
    let c := fun (p : Persist) => { bus with plans.body := planBody, plans.persist := p, plans.persistNoted := true }
    (storing (c (.writing planBody 15 0 false)) (.planProgram 15 0 planBody)).chip.store.current = some { op := .planProgram 15 0 planBody, live := true } ∧
      (storing (c (.writing planBody 0 0 true)) .planErase).chip.plans.persist = .writing planBody 0 0 true := by
  decide +kernel

def entryOf (version floor : Nat) (downgrade : Bool) : PlanEntry :=
  { model := 0x310, image := ⟨22, version⟩, crc := 5, floor := floor, priv := false, allowDowngrade := downgrade, notBefore := none, probation := 30 }

/-- Thirteen live entries make an origin leave one out; a record that stays beside an admitted image, and one that does not. -/
theorem witness_admission :
    let live := (List.range 13).map (fun i => (i, entryOf i 0 false))
    let r := recordOf .absent .absent .absent
    (admissionPasses .origin [] none live).length = 13 ∧ (admittedKeys .origin [] none live).length = 12 ∧
      ([r, { r with image := ⟨22, 8⟩ }].map (fun x => x.image)).Nodup ∧ Stays r ⟨0, entryOf 9 0 false, .own⟩ ∧
      ¬Stays { r with image := ⟨22, 8⟩ } ⟨0, entryOf 9 0 false, .own⟩ := by
  unfold Stays; decide +kernel

def loadOf (pending : Bool) : Load := { image := img, segment := 1, slot := 8, expected := 0, marks := 0, claimed := true, pending := pending }

/-- An origin with a load in slot 8, the program of its block 0 waiting for its turn when `pending`. -/
def loadChip (pending : Bool) : Chip :=
  { origin with
    catalog.records := [recordOf (.held 9) .absent (.held 10)]
    port.load := .opened (loadOf pending)
    store.slotMap := [(8, ⟨.filling, some .load⟩)]
    store.portQueue := if pending then [{ op := .loadBlock 8 0 [1], owner := some .load }] else [] }

/-- An OPEN load whose image no admitted image keeps, in a slot of its own, with and without a pending program. -/
theorem witness_load_removed :
    ∀ p ∈ [true, false], ((loadChip p).catalog.records.map (fun r => r.image)).Nodup ∧ (loadChip p).port.load = .opened (loadOf p) ∧
      (∀ r ∈ (loadChip p).catalog.records, r.image = (loadOf p).image) ∧ SlotApart (loadChip p) (loadOf p).slot := by
  intro p hp
  have free : ∀ p ∈ [true, false], ∀ i < 4, fetchSlot (loadChip p) i = .free := by decide +kernel
  have held : ∀ p ∈ [true, false], ∀ r ∈ (loadChip p).catalog.records, r.image = (loadOf p).image ∧ ∀ e ∈ r.entries, e.state ≠ .held 8 := by
    decide +kernel
  refine ⟨by revert p; decide +kernel, rfl, fun r hr => (held p hp r hr).1, fun r hr => (held p hp r hr).2, fun i hi f h => ?_⟩
  rw [free p hp i hi] at h
  cases h

/-- R188. The slot is DIRTY at once without a pending program; with one, when that program has completed. -/
theorem test_load_removed :
    (applyAdmission [] (loadChip false)).store.dirtyQueue = [9, 10, 8] ∧
      (applyAdmission [] (loadChip true)).store.dirtyQueue = [9, 10] ∧ (applyAdmission [] (loadChip true)).port.load = .idle ∧
      (loadBlockDone (storing (applyAdmission [] (loadChip true)) (.loadBlock 8 0 [1])).chip).store.dirtyQueue = [9, 10, 8] := by
  decide +kernel

/-- The last read but one of slot 1; slot 1 erased; with a whole copy at position 15; with one byte programmed and no copy. -/
theorem witness_plan_restore :
    let c := fun (m : List Host.Cell) => { Chip.afterStart pinsUp m 0 with store.current := some { op := .scanPlan 63, live := true } }
    (storing bus (.scanPlan 62)).chip.store.current = some { op := .scanPlan 62, live := true } ∧
    let copied := Memory.program [] (dataAddress 1 (512 * 15)) planBody
    (∀ m ∈ [[], copied, Memory.program [] (dataAddress 1 0) [0]], (c m).catalog.records = []) ∧
      (wholePlanBody (copyPosition (c copied) 15)).isSome := by
  decide +kernel

theorem witness_load_plan :
    bus.port.part = .running ∧ origin.port.part = .running ∧ origin.role = .origin ∧ (0#32).toNat ≤ heldSerial origin ∧
      ¬(1#32).toNat ≤ heldSerial origin ∧ origin.plans.persist = .idle ∧ origin.store.scanPhase ≠ .system := by
  decide +kernel

/-- R2, R193 and 11's unnamed bits: of an entry of ones an origin keeps three flags, and its pads are zero. -/
theorem test_authored_entry :
    authoredEntries 1 (List.replicate 26 0xFF) = List.replicate 12 0xFF ++ [7] ++ List.replicate 6 0xFF ++ List.replicate 7 0 := by decide +kernel

/-! ## Peers -/

/-- The chapter's example, and a span of one segment. -/
theorem witness_merge :
    runsApart [⟨0, 40⟩, ⟨60, 99⟩, ⟨150, 180⟩] = true ∧
      (∀ r ∈ ([⟨52, 70⟩, ⟨80, 120⟩] : List SegRun), 50 ≤ r.first ∧ r.first ≤ r.last ∧ r.last ≤ 160) ∧
      (∀ r ∈ ([⟨90, 90⟩] : List SegRun), 90 ≤ r.first ∧ r.first ≤ r.last ∧ r.last ≤ 90) := by
  decide +kernel

/-- A Leave and a Beacon at stations with and without the sender's record, and a frame with the departing flag. -/
theorem witness_presence :
    ∀ c ∈ [bus, fetchChip (fetching 0 0)], Accepts c .leave (heard .leave false true 0 []) (rx .leave false true 0 []) ∧
      Accepts c .leave (heard .leave false false 0 []) (rx .leave false false 0 []) ∧
      Accepts c .beacon (heard .beacon true false 0 [0, 0, 0, 0, 3]) (rx .beacon true false 0 [0, 0, 0, 0, 3]) := by
  unfold Accepts; decide +kernel

/-- An Offer whose last range ends at its span's end, at 2,024; and one whose range passes its span. -/
theorem witness_offer :
    let p := fun (last : Nat) => putOffer { image := img, spanFirst := 5, spanLast := 2024, ranges := [⟨5, 5⟩, ⟨9, last⟩] }
    ∀ last ∈ [2024, 2025], Accepts (fetchChip (fetching 0 0)) .offer (heard .offer false false 0 (p last)) (rx .offer false false 0 (p last)) ∧
      (findRecord (fetchChip (fetching 0 0)) (offerOf (p last)).image).isSome := by
  unfold Accepts; decide +kernel

/-- Times reached exactly. -/
theorem witness_peer_times :
    let p := { peer 12 with shunnedUntil := some 100000, busyUntil := some 100000 }
    findPeer { bus with peers := [p] } 12 = some p ∧ p.lastHeard + 30000 ≤ bus.now ∧ (∃ u ∈ p.shunnedUntil, u ≤ bus.now) ∧
      ∃ u ∈ p.busyUntil, u ≤ bus.now :=
  ⟨by decide +kernel, by decide +kernel, ⟨100000, rfl, by decide +kernel⟩, ⟨100000, rfl, by decide +kernel⟩⟩

theorem witness_strikes :
    ({ peer 12 with strikes := 1 } : PeerRecord).strikes < 2 ∧ ({ peer 12 with strikes := 2, shunnedUntil := some 200000 } : PeerRecord).strikes = 2 ∧
      smooth 1000000 (sampleOf 2048 0) = 1000000 := by
  decide +kernel

/-! ## Fetching and serving -/

set_option maxRecDepth 100000 in
/-- Block 1 of an Ask for blocks 0 and 1, flagged and not; and block 15, the window's last, flagged but not of the Ask. -/
theorem witness_block :
    let c := fetchChip (fetching 0 0)
    (∀ x ∈ [(1, true), (1, false), (15, true)],
      Accepts c .block (heard .block false false 0 (blockFrame x.1 x.2)) (rx .block false false 0 (blockFrame x.1 x.2)) ∧
        firstOpen c (blockMatches c 12 (blockOf (blockFrame x.1 x.2))) = some 0) ∧
      fetchSlot c 0 = .opened (fetching 0 0) := by
  unfold Accepts; decide +kernel

/-- Replies to the fetch: its window with blocks missing, and with none; and a Busy from a sender without a record. -/
theorem witness_short_replies :
    (∀ k ∈ [FrameKind.lacking, .refused, .busy], Accepts bus k (heard k false false 0 (putReply 7 img 1)) (rx k false false 0 (putReply 7 img 1))) ∧
      (∀ marks ∈ [0, 0xFFFF], firstOpen (fetchChip (fetching 0 (BitVec.ofNat 64 marks))) (fun g => g.image == img && g.segment == 1 && g.peer == 12) = some 0) ∧
      replyOf (putReply 7 img 1) = (7, img, 1) ∧ stationId (fetchChip (fetching 0 0)) = 7 ∧ findPeer bus 12 = none ∧
      firstOpen bus (fun g => g.image == img && g.segment == 1 && g.peer == 12) = none := by
  unfold Accepts; decide +kernel

/-- The timer at its time; nothing missing, the first re-ask, and the second time round; a segment whose cooling is over. -/
theorem witness_fetch_times :
    (∀ f ∈ [fetching 0 0xFFFF, fetching 0 0xFFFE, { fetching 48 0 with reask := true }, { fetching 48 0 with reask := true, switches := 3 }],
      fetchSlot (fetchChip f) 0 = .opened f ∧ f.timer = some 100000 ∧ 100000 ≤ (fetchChip f).now) ∧
      segState { bus with catalog.records := [recordOf (.held 9) (.cooling 100000) .absent] } img 1 = some (.cooling 100000) := by
  decide +kernel

theorem witness_selection :
    let own : Candidate := ⟨img, 2, .own, 3, false⟩
    firstCandidate [⟨img, 2, .courier, 1, false⟩, own, ⟨img, 1, .own, 3, false⟩] = some own ∧
      (chooseHolder { bus with peers := [{ peer 12 with estimate := 1999 }, peer 13, peer 14] } img 2 none).map PeerRecord.id = some 13 := by
  decide +kernel

/-- A run asked for on a station with a free slot, a candidate, an ERASED slot and a holder. -/
theorem witness_selection_run :
    let c :=
      { bus with
        catalog.records := [recordOf (.held 9) .absent .absent]
        peers := [{ peer 12 with openFetches := 0 }]
        store.slotMap := [(8, ⟨.erased, none⟩), (9, ⟨.full, some (.segment img 0)⟩)]
        census.completedOnce := true
        fetch.selectionAsked := true }
    MapWhole c ∧ selectionOpen c = true ∧ c.fetch.slots.length = 4 ∧ freeSlot c = some 0 ∧ firstCandidate (candidates c) = some ⟨img, 1, .own, 0, false⟩ ∧
      lowestErased c false = some 8 ∧ (chooseHolder c img 1 none).isSome ∧ someDirty c false = true ∧
      (c.catalog.records.map (fun r => r.image)).Nodup := by
  unfold MapWhole; decide +kernel

/-- A store of 16 slots, all FULL: an OWN candidate is short, with a courier's segment to evict and with none; STORE_FULL 3,600,000 ms ago and before. -/
theorem witness_shortage :
    let full := (List.range 16).map (fun i => (8 + i, (⟨.full, none⟩ : SlotInfo)))
    let c := { bus with total := 24, store.slotMap := full, catalog.records := [{ recordOf (.held 9) (.held 10) (.held 11) with need := .courier }] }
    let x : Candidate := ⟨img, 1, .own, 0, false⟩
    MapWhole c ∧ someDirty c x.privKind = false ∧ evictChoice (evictables c x.privKind) = some ⟨img, 2, 11, 0⟩ ∧
      evictChoice (evictables { c with catalog.records := [] } x.privKind) = none ∧
      (∀ r ∈ c.catalog.records, ∀ e ∈ r.entries, ∀ slot ∈ [9, 10, 11], e.state = .held slot → inSegmentArea c slot = true) ∧
      ({ c with now := 3600001 } : Chip).now ≤ 1 + 3600000 ∧ 0 + 3600000 < ({ c with now := 3600001 } : Chip).now := by
  unfold MapWhole; decide +kernel

/-- A run whose first candidate, of the private kind, is short, and whose first of the common kind has an ERASED slot and a holder. -/
theorem witness_short_first :
    let k : ImageKey := ⟨23, 1⟩
    let c :=
      { bus with
        catalog.records := [{ recordOf (.held 9) .absent .absent with priv := true }, { recordOf (.held 10) .absent .absent with image := k, need := .courier }]
        peers := [{ peer 12 with openFetches := 0, lists := [(img, [⟨0, 2⟩]), (k, [⟨0, 2⟩])] }]
        store.slotMap := [(8, ⟨.erased, none⟩), (9, ⟨.full, some (.segment img 0)⟩), (10, ⟨.full, some (.segment k 0)⟩)]
        census.completedOnce := true
        fetch.selectionAsked := true }
    let x : Candidate := ⟨img, 1, .own, 0, true⟩
    let e := dealShort x c
    selectionOpen c = true ∧ c.fetch.slots.length = 4 ∧ freeSlot c = some 0 ∧ firstCandidate (candidates c) = some x ∧ lowestErased c true = none ∧
      firstCandidate ((candidates e).filter (fun z => z.privKind != x.privKind)) = some ⟨k, 1, .courier, 0, false⟩ ∧ lowestErased e false = some 8 ∧
      (chooseHolder e k 1 none).isSome ∧ (c.catalog.records.map (fun r => r.image)).Nodup := by
  decide +kernel

/-- An Ask in the last window for the last block of a segment that is HELD; one with a window base that is none; and one that serve slot 2 works on. -/
theorem witness_ask :
    let c := fetchChip (fetching 0 0)
    let p := fun (base : Nat) => putAsk 7 img 0 base 0x8000
    (∀ base ∈ [48, 64], Accepts c .ask (heard .ask false false 0 (p base)) (rx .ask false false 0 (p base))) ∧ c.port.config.isSome ∧
      heldSlot c img 0 = some 9 ∧ c.serve.queue.length < 8 ∧
      Accepts { c with serve.slots := [.free, .reading ⟨12, img, 0, 0, 0#16⟩ 3, .free] } .ask (heard .ask false false 0 (p 48)) (rx .ask false false 0 (p 48)) := by
  unfold Accepts; decide +kernel

/-- A serve slot in each working phase. -/
theorem witness_repeated_ask :
    let e : AskEntry := { asker := 12, image := img, segment := 0, base := 0, mask := 0x8001 }
    let c := { bus with serve.slots := [.sending e, .reading e 15, .ready e 3 []] }
    let given := { bus with
      serve.slots := [.reading e 3, .free, .free]
      store.waiting := [{ op := .serveRead 0 9 3, owner := some (.segment img 0) }] }
    e.mask ≠ 0#16 ∧ serveSlot c 0 = .sending e ∧ serveSlot c 1 = .reading e 15 ∧ e.mask.getLsbD 15 = true ∧ serveSlot c 2 = .ready e 3 [] ∧
      e.mask.getLsbD 3 = false ∧ serveSlot given 0 = .reading e 3 := by
  decide +kernel

/-- Three serve slots FREE and an entry in the queue: its segment HELD, not HELD, in a serve-locked area, and its asker departing. -/
theorem witness_serve_take :
    let e : AskEntry := { asker := 12, image := img, segment := 0, base := 48, mask := 0x8000 }
    let c := { fetchChip (fetching 0 0) with serve.queue := [e] }
    c.serve.queue = [e] ∧ 0 < c.serve.slots.length ∧ serveSlot c 0 = .free ∧ heldSlot c img 0 = some 9 ∧ serveLocked c (areaOf c 9) = false ∧
      (findPeer c 12).map PeerRecord.departing = some false ∧ e.mask.getLsbD 15 = true ∧ (∀ q < 15, e.mask.getLsbD q = false) ∧
      heldSlot { c with catalog.records := [] } img 0 = none ∧
      (let locked := { c with port.config := some { cfg with serveLocks := 1 } }
       heldSlot locked img 0 = some 9 ∧ serveLocked locked (areaOf locked 9) = true) ∧
      (findPeer { c with peers := [{ peer 12 with departing := true }] } 12).map PeerRecord.departing = some true := by
  decide +kernel

/-! ## The yard link -/

/-- The bounds of a frame's fields: the last sender id, the last serial, a Beacon of depth 3. -/
theorem witness_built_frame :
    acceptFrame 7 (frameBytes .beacon true true 65534 4294967295 [1, 2, 3, 4, 3]) =
      some { kind := .beacon, originFlag := true, departing := true, sender := 65534, serial := 4294967295, payload := [1, 2, 3, 4, 3] } := by
  decide +kernel

theorem witness_payloads :
    let o : OfferBody := { image := ⟨65535, 65535⟩, spanFirst := 0, spanLast := 2024, ranges := List.replicate 24 ⟨1, 65535⟩ }
    offerOf (putOffer o) = o ∧ askOf 12 (putAsk 65534 ⟨65535, 65535⟩ 2024 48 0xFFFF) =
      (65534, { asker := 12, image := ⟨65535, 65535⟩, segment := 2024, base := 48, mask := 0xFFFF }) ∧
      replyOf (putReply 65534 ⟨65535, 65535⟩ 2024) = (65534, ⟨65535, 65535⟩, 2024) := by
  decide +kernel

/-- A Leave sent as an Ask's row reaches no owner. -/
theorem witness_dropped : ∀ f, ¬Accepts bus .ask (heard .leave false false 0 []) f := by
  intro f h
  obtain ⟨-, h, hk⟩ := h
  have e : acceptFrame (stationId bus) (heard .leave false false 0 []) = some (rx .leave false false 0 []) := by decide +kernel
  rw [e] at h
  injection h with h
  subst h
  exact absurd hk (by decide +kernel)

/-- Each phase at the moment its time has come. -/
theorem witness_access :
    let c := fun (p : AccessPhase) => { bus with yard.phase := p, yard.lastEnd := some 99995 }
    ((c .gap).yard.phase = .gap ∧ 99995 + 5 ≤ (c .gap).now) ∧ ((c (.defer (some 99998))).yard.phase = .defer (some 99998) ∧ 0 < bus.yard.cw) ∧
      (c (.countdown 1 99998)).yard.phase = .countdown 1 99998 ∧ 99998 + 2 ≤ bus.now ∧ bus.pins.channelBusy = false := by
  decide +kernel

/-- An urgent frame; an Ask that just fits the allowance left; a READY block; the relay; the Offer; and nothing. -/
theorem witness_opportunity :
    let asking := { fetchChip (fetching 0 0) with fetch.asks := [0], yard.allowance := 1, yard.airtimeUsed := 8 }
    let e : AskEntry := { asker := 12, image := img, segment := 0, base := 0, mask := 0 }
    let ready := { bus with serve.slots := [.ready e 0 (List.replicate 128 0), .free, .free] }
    asking.yard.airtimeUsed + (23 + 8) * 32 = asking.yard.allowance * 1000 ∧
      asking.fetch.asks.find? (fun i => match fetchSlot asking i with | .opened f => missingMask asking i f != 0#16 | _ => false) = some 0 ∧
      nextReady ready = some 1 ∧ serveSlot ready 0 = .ready e 0 (List.replicate 128 0) ∧ nextReady bus = none ∧ bus.fetch.asks = [] ∧
      bus.yard.urgent = [] ∧ bus.yard.mode = .on := by
  decide +kernel

/-- A frame of a source that still holds what was sent. -/
theorem witness_transmission_end :
    let f := fetching 0 0
    let e : AskEntry := { asker := 12, image := img, segment := 0, base := 0, mask := 0 }
    let asked := { fetchChip f with yard.onAir := some { source := .ask 0 img 1 12 0 3, bytes := [] } }
    let blocked := { bus with serve.slots := [.sending e, .free, .free], yard.onAir := some { source := .block 0 12 img 0, bytes := [] } }
    fetchSlot asked 0 = .opened f ∧ f.image = img ∧ f.segment = 1 ∧ f.peer = 12 ∧ f.base = 0 ∧ asked.yard.onAir.isSome ∧
      serveSlot blocked 0 = .sending e ∧ blocked.yard.onAir.isSome := by
  decide +kernel

/-- The window's end exactly; and another command leaves the window. -/
theorem witness_allowance :
    let c := { bus with yard.windowOpen := 99000 }
    c.yard.windowOpen + 1000 ≤ c.now ∧ exec .exchangeDiscarded (still bus) = .next (still (settle bus)) := ⟨by decide +kernel, rfl⟩

/-- The round at its time with a HELD segment and without; the last offered image in the middle of the records. -/
theorem witness_offer_round :
    let c := fun (st : SegState) => { bus with catalog.records := [recordOf st .absent .absent], yard.offerRound := some 100000 }
    let other := { recordOf .absent .absent .absent with image := ⟨1, 1⟩ }
    (c (.held 9)).yard.offerRound = some 100000 ∧ (∃ r ∈ (c (.held 9)).catalog.records, ∃ e, r.entries[0]? = some e ∧ e.state = .held 9) ∧
      [other, recordOf .absent .absent .absent] = [other] ++ recordOf .absent .absent .absent :: [] ∧ (∀ x ∈ [other], x.image ≠ img) :=
  ⟨rfl, ⟨_, List.mem_singleton.mpr rfl, _, rfl, rfl⟩, rfl, by decide +kernel⟩

/-! ## The store -/

/-- The eraser waits behind another client; alone it is granted; an owner that stands and one that does not; a job's read of a segment in no slot; and a serve
slot in READING, from an area that is not serve-locked and from one that is. -/
theorem witness_arbiter :
    let erase : WaitingOp := { op := .slotErase 8, owner := none }
    let claim : WaitingOp := { op := .fetchClaim 0 8, owner := some (.fetch 0) }
    let c := fun (l : List WaitingOp) => { fetchChip (fetching 0 0) with store.waiting := l }
    nextGrant (c [erase, claim]) = some claim ∧ nextGrant (c [erase]) = some erase ∧ nextGrant (c []) = none ∧
      (slotInfo (c []) 8).owner = some (.fetch 0) ∧ (slotInfo { c [] with store.slotMap := [] } 8).owner ≠ some (.fetch 0) ∧
      (let lost : WaitingOp := { op := .flashRead 1 img 1 none 0, owner := some (.segment img 1) }
       lost.owner = some (.segment img 1) ∧ lost.op.slot? = none) ∧
      (let reading := { c [] with serve.slots := [.free, .reading ⟨12, img, 0, 0, 0#16⟩ 15, .free], serve.readMark := 1 }
       (∀ w ∈ reading.store.waiting, w.op.client ≠ .serverReader) ∧ reading.store.current = none ∧ [2, 3, 1] = [] ++ 2 :: [3, 1] ∧
         serveSlot reading 1 = .reading ⟨12, img, 0, 0, 0#16⟩ 15 ∧ heldSlot reading img 0 = some 9 ∧ serveLocked reading (areaOf reading 9) = false ∧
         serveLocked { reading with port.config := some { cfg with serveLocks := 1 } } (areaOf reading 9) = true) := by
  decide +kernel

/-- The first window's last block, and the last window's. -/
theorem witness_fetch_block :
    ∀ x ∈ [(0, 15, 0x7FFF#64), (48, 63, 0x7FFFFFFFFFFFFFFF#64)],
      let c := fetchChip (fetching x.1 x.2.2)
      (storing c (.fetchBlock 0 8 x.2.1 [])).chip.store.current = some { op := .fetchBlock 0 8 x.2.1 [], live := true } ∧
        liveFetch c 0 8 = some (fetching x.1 x.2.2) ∧
        ∀ p < 16, ((fetching x.1 x.2.2).bitmap ||| (1#64 <<< x.2.1)).getLsbD (x.1 + p) = true := by
  decide +kernel

/-- Each operation in progress; a load whose claim and whose block end; a serve slot READING; a job's packet waiting for its bytes. -/
theorem witness_store_operations :
    let l : Load := { image := img, segment := 1, slot := 8, expected := 0, marks := 0, claimed := false, pending := true }
    let loading := { origin with port.load := .opened l, store.slotMap := [(8, ⟨.filling, some .load⟩)] }
    let e : AskEntry := { asker := 12, image := img, segment := 0, base := 0, mask := 0 }
    let serving := { bus with serve.slots := [.free, .free, .reading e 63] }
    (∀ op ∈ [StoreOp.loadClaim 8, .loadBlock 8 63 [1], .slotErase 8, .eraseMark 8, .retiredMark 8],
      (storing loading op).chip.store.current = some { op := op, live := true }) ∧
      liveLoad loading 8 = some l ∧ liveLoad { origin with store.releasing := [8] } 8 = none ∧ liveFetch (fetchChip (fetching 0 0)) 0 8 = some (fetching 0 0) ∧ serveSlot serving 2 = .reading e 63 ∧
      2 < serving.serve.slots.length ∧
      (storing serving (.serveRead 2 9 63)).chip.store.current = some { op := .serveRead 2 9 63, live := true } ∧
      (storing bus (.flashRead 0 img 1 (some 8) 63)).chip.store.current = some { op := .flashRead 0 img 1 (some 8) 63, live := true } := by
  decide +kernel

def checkOf (source : Option Nat) (seg reads : Nat) : CheckRequest :=
  { source := source, image := img, segment := seg, slot := 8, expected := 0, reads := reads, crc := crc32Start, header := true, orphan := false }

/-- The header program of the last segment missing, whose image becomes COMPLETE; and of segment 0. -/
theorem witness_header :
    let c :=
      (storing { bus with catalog.records := [recordOf (.held 9) (.checking 8) (.held 10)], store.checkQueue := [checkOf (some 0) 1 64] }
        (.checkHeader 8 [])).chip
    let m :=
      (storing { bus with catalog.records := [recordOf (.checking 8) .absent .absent], store.checkQueue := [checkOf none 0 64] } (.checkHeader 8 [])).chip
    c.store.current = some { op := .checkHeader 8 [], live := true } ∧ m.store.current = some { op := .checkHeader 8 [], live := true } ∧
      c.store.checkQueue.find? (fun x => x.slot == 8) = some (checkOf (some 0) 1 64) ∧
      m.store.checkQueue.find? (fun x => x.slot == 8) = some (checkOf none 0 64) ∧
      (findRecord c img).isSome ∧ (findRecord m img).isSome := by
  decide +kernel

theorem witness_failed_operation :
    (failureOf (.fetchBlock 0 8 63 [])).isSome ∧ (failureOf (.fetchClaim 0 8)).isSome ∧ (failureOf (.loadClaim 8)).isSome ∧
      (failureOf (.loadBlock 8 0 [])).isSome ∧ (failureOf (.checkHeader 8 [])).isSome ∧ (failureOf (.slotErase 8)).isSome ∧
      (failureOf (.eraseMark 8)).isSome ∧ (storing bus (.slotErase 8)).chip.store.current = some { op := .slotErase 8, live := true } := by
  decide +kernel

/-- The 63rd and the 64th read of a check. -/
theorem witness_check_read :
    ∀ n ∈ [62, 63], (storing { bus with store.checkQueue := [checkOf (some 0) 1 n] } (.checkRead 8 n)).chip.store.checkQueue.find? (fun x => x.slot == 8) =
      some (checkOf (some 0) 1 n) := by
  decide +kernel

/-- A whole record in slot 0, and an erased slot 0. -/
theorem witness_config :
    let record := commissionBytes ([0, 7, 1, 0x2C, 0, 3] ++ List.replicate 12 0)
    (judgeConfig (record ++ List.replicate 102 0xFF)).isSome ∧ judgeConfig (List.replicate 128 0xFF) = none ∧
      State.reset.chip.store.current = some { op := .scanConfig, live := true } := by
  decide +kernel

/-- The last slot but one, and the last of the segment area of a 2,048-slot store. -/
theorem witness_sweep :
    ∀ slot ∈ [2038, 2039], (storing bus (.scanSpare slot)).chip.store.current = some { op := .scanSpare slot, live := true } ∧ segmentEnd bus = 2040 ∧
      ∀ x ∈ (storing bus (.scanSpare slot)).chip.store.findings, x.slot ≠ slot := by
  decide +kernel

theorem witness_manifest_finding :
    let f : Finding := { slot := 8, image := img, segment := 0, crc := 5 }
    let r := { recordOf .absent .absent .absent with state := .needsManifest, manifest := none, entries := [⟨.absent, 0⟩] }
    let c := (storing { bus with store.scanPhase := .manifests, store.findings := [f], catalog.records := [r] } (.scanManifest 8 63)).chip
    c.store.current = some { op := .scanManifest 8 63, live := true } ∧ c.store.findings.find? (fun x => x.slot == 8) = some f ∧ findRecord c img = some r ∧
      considersManifest c f = true ∧ 0 < r.entries.length ∧
      (storing bus (.scanManifest 8 62)).chip.store.current = some { op := .scanManifest 8 62, live := true } := by
  decide +kernel

/-! ## The cabin line and the census -/

def pollRequest : LineRequest := healthRequest bus .probation 3 100000

/-- The line quiet for 2 ms with a request waiting; a request that has waited 10,000 ms on a busy line; RECOVERING with the data wire low and high. -/
theorem witness_line :
    let c := { bus with line.state := .quiet 99998, line.requests := [identifyRequest bus .census 1 100000, pollRequest] }
    let b := { bus with line.state := .busy, line.blockedSince := some 90000, line.requests := [{ pollRequest with presented := 80000 }] }
    99998 + 2 ≤ c.now ∧ c.line.current = none ∧ c.line.requests.find? (fun r => r.client == .probation) = some pollRequest ∧
      (∀ data, ({ bus with pins := { pinsUp with clock := false, data := data }, line.state := .recovering } : Chip).line.state = .recovering) ∧
      b.line.stuckReported = false ∧ b.line.requests.find? (fun r => decide (max r.presented 90000 + 10000 ≤ b.now)) = some { pollRequest with presented := 80000 } := by
  decide +kernel

/-- A transaction of six bytes sent and one address byte more; a hold that reaches its limit at the next millisecond; an IDLE line with a request. -/
theorem witness_transactions :
    let q := fun (n : Nat) => ({ request := pollRequest, losses := n, waiting := false, discarded := false } : CurrentRequest)
    let c := fun (n : Nat) => { bus with line.state := .master, line.current := some (q n) }
    (c 7).line.state = .master ∧ (c 6).line.current = some (q 6) ∧ (c 7).line.current = some (q 7) ∧ (acknowledgedBytes pollRequest).length = 7 ∧
      pollRequest.holdLimit = 50 ∧ 99951 + pollRequest.holdLimit ≤ (c 7).now + 1 ∧
      ({ c 7 with line.heldSince := some 99951 } : Chip).line.heldSince = some 99951 ∧
      ({ bus with line.state := .idle, line.requests := [pollRequest] } : Chip).line.requests ≠ [] := by
  decide +kernel

/-- A census that is owed and may begin 60,000 ms after an abandonment; a pause at its end; every bound of the census's counts. -/
theorem witness_census :
    let c := { bus with census.lastAbandon := some 40000 }
    let p := { bus with census.state := .paused 100000, census.next := 30, census.pauses := 3, census.holds := 2 }
    c.census.owed = true ∧ c.census.state = .idle ∧ c.departure.departed = false ∧ c.store.scanPhase = .done ∧ 40000 + 60000 ≤ c.now ∧
      p.census.state = .paused 100000 ∧ p.census.next < 31 ∧ 3 ≤ p.census.pauses ∧ 2 ≤ p.census.holds := by
  decide +kernel

/-- An identity record with each of R130's fields at a bound. -/
def identityBytes : List Byte :=
  [3, 0x10, 0, 1, 0, 0, 0, 9, 0, 0, 5, 1, 0, 6, 0, 0, 1, 0, 0, 0, 0x40, 4, 0, 1, 0, 3, 0, 10, 1, 0x90, 2, 0]

def ident : Identity :=
  { model := 0x310, revision := 1, serial := 9, active := .a, versionA := 5, sealedA := true, versionB := 6, sealedB := false, sectorSize := 65536,
    sectors := 64, granule := 4, bitOrder := false, rate := 400000, pageTime := 3, pageHold := 10, eraseTime := 400, eraseHold := 512 }

theorem test_identity_record : usableIdentity identityBytes = some ident ∧ putIdentity ident = identityBytes ∧ ident.bankSize = 4194304 := by decide +kernel
theorem test_identity_unusable : usableIdentity (List.replicate 32 0xFF) = none := by decide +kernel

def unit (state : JobState) : UnitEntry := { newUnit 3 ident with state := state, target := some ⟨img, 5⟩, targetIndex := some 0 }

theorem witness_census_table :
    [unit .probation].Pairwise (fun u v => u.address < v.address) ∧ [(3, ident), (4, ident)].Pairwise (fun x y => x.1 < y.1) ∧
      (newTable [unit .probation] [(3, ident), (4, ident)]).map UnitEntry.address = [3, 4] ∧
      ({ bus with census.next := 31, census.holds := 2 } : Chip).census.next = 31 ∧ usableIdentity [] = none ∧
      (leftResults [unit .probation] ((List.range 24).map (fun i => (4 + i, ident)))).length = 1 := by
  decide +kernel

/-! ## Cabin units -/

/-- A final target 9 with floor 7 and a step 7 with floor 5: stranded at 4, the step at 5, the final target at 7, current at 9, ahead at 10. -/
theorem witness_targets :
    let live := [(0, entryOf 7 5 false), (1, entryOf 9 7 false)]
    live.Pairwise (fun x y => ¬(x.2.model = y.2.model ∧ x.2.image.version = y.2.image.version)) ∧ chooseTarget live 0x310 4 = .stranded ∧
      chooseTarget live 0x310 5 = .target 0 (entryOf 7 5 false) ∧ chooseTarget live 0x310 7 = .target 1 (entryOf 9 7 false) ∧
      chooseTarget live 0x310 9 = .current ∧ chooseTarget live 0x310 10 = .ahead ∧ chooseTarget live 0x311 4 = .current ∧
      chooseTarget [(0, entryOf 9 7 true)] 0x310 10 = .target 0 (entryOf 9 7 true) := by
  decide +kernel

/-- R136, R139. Under the same image attempts stand in a held outcome and in a waiting state, and return to 0 where there was no job. -/
theorem test_attempts_of_present_job :
    let chosen := fun (s : JobState) =>
      (applyChoice bus { unit s with target := some ⟨⟨22, 9⟩, 5⟩, attempts := 2 } (.target 0 (entryOf 9 0 false))).attempts
    [JobState.failed, .ready, .current, .ahead, .stranded].map chosen = [2, 2, 0, 0, 0] := by
  decide +kernel

/-- A state for each test of R140, the tests before it failing. -/
theorem witness_evaluated :
    let timed (n : Nat) :=
      buildPlanBody 12 42 1 (put16 0x310 ++ put16 22 ++ put16 9 ++ put32 5 ++ put16 0 ++ [4] ++ put32 n ++ put16 30 ++ List.replicate 7 0)
    let c := { bus with
      catalog.records := [{ recordOf (.held 9) (.held 10) (.held 11) with state := .complete }], plans.body := timed 100001, clock.state := .synced }
    let due := { c with plans.body := timed 100000 }
    let u := unit .ready
    let noticed := { due with departure.deadline := some 0 }
    [({ c with catalog.records := [] }, u), ({ c with clock.state := .unsynced }, u), (c, u), (due, u), (noticed, { u with deferred := true }), (noticed, u)].map
        (fun x => evaluatedState x.1 x.2) =
      [.waitingImage, .waitingTime .unsynced, .waitingTime .notBefore, .waitingTime .noNotice, .waitingTime .budget, .ready] := by
  decide +kernel

theorem witness_unit :
    ∀ st ∈ [JobState.current, .probation, .writing, .failed], findUnit { bus with seq.units := [unit st] } 3 = some (unit st) := by decide +kernel

def jobOf (ring : List Packet) : JobRecord :=
  { address := 3, attempt := 1, image := img, manifest := man, probationSeconds := 30, oldBank := none, newBank := none, shortcut := false, cursor := 0,
    ring := ring, retries := 0, pauses := 0, pausingUntil := none, identified := false, cancelAtBoundary := false, stopAtBoundary := false,
    sealDone := false, swapBegun := false, closing := false, closingAsked := false, readGone := false }

/-- The 94th piece of the window, 96 bytes and the image's end; the window not empty; no notice and a notice; sectors 1, 2 and 3 of 4,096 bytes; and the
prepared bytes of three bytes padded to four. -/
theorem witness_job_built :
    (∀ x ∈ man.windows, 0 < windowLength man.count man.length x) ∧ windowLength 2 12000 ⟨1, 2, 4096, false⟩ = 12000 ∧ 128 * 93 < 12000 ∧
      (packetAt (jobOf []) ident (1 + 1 + 93)).map (fun p => (p.offset, p.segment, p.block, p.imageBytes, p.length)) = some (4096 + 11904, 2, 29, 96, 96) ∧
      availableTime { bus with departure.deadline := some 442000 } = some 42000 ∧ availableTime bus = some 0 ∧
      [1, 2, 3].Pairwise (fun a b => a < b) ∧
      (∀ n < 9, n ∈ [1, 2, 3] ↔ ∃ x ∈ man.windows, x.offset / 4096 ≤ n ∧ n ≤ (x.offset + windowLength man.count man.length x - 1) / 4096) ∧
      touchedSectors man 4096 = 3 ∧ (jobOf []).manifest = man ∧ (jobOf []).shortcut = false ∧
      (let p : Packet := { plainPacket 0 .write 0 4 with imageBytes := 3, reversed := true }
       p.imageBytes ≤ [1#8, 2, 0x10, 9].length ∧ p.imageBytes ≤ p.length ∧ preparedBytes p [1, 2, 0x10, 9] = [0x80, 0x40, 8, 0xFF]) := by
  decide +kernel

/-- The arbiter chooses a READY unit whose image has a manifest: within the time, beyond it, and with a window that does not fit. -/
theorem witness_arbiter_chooses :
    let u := unit .ready
    let c := fun (d : Nat) =>
      { bus with seq.units := [u], catalog.records := [recordOf (.held 9) (.held 10) (.held 11)], census.owed := false, departure.deadline := some d }
    arbiterOpen (c 0) = true ∧ chooseEntry (c 0) = some u ∧ findUnit (c 0) u.address = some u ∧ u.target = some ⟨img, 5⟩ ∧
      (findRecord (c 0) img).bind (fun r => r.manifest) = some man ∧ windowsFit man ident.bankSize = true ∧ windowsFit man 4096 = false ∧
      gatePasses (budgetFor (c 0) ident man 30) (availableTime (c 900000)) = true ∧ gatePasses (budgetFor (c 0) ident man 30) (availableTime (c 0)) = false := by
  decide +kernel

/-- The counts at which a job goes on and at which its attempt fails; an Identify of the same unit, of another, and one that is no record. -/
theorem witness_job_outcome :
    let c := fun (j : JobRecord) => { bus with seq.units := [unit .erasing], seq.job := some j }
    let p : Packet := plainPacket 0 .openBank 1 0
    (c { jobOf [p] with retries := 2, pauses := 3 }).seq.job = some { jobOf [p] with retries := 2, pauses := 3 } ∧ findUnit (c (jobOf [p])) 3 = some (unit .erasing) ∧
      usableIdentity identityBytes = some ident ∧ sameUnit (unit .erasing).identity ident = true ∧ ident.version ident.active ≠ img.version ∧
      sameUnit (unit .erasing).identity { ident with serial := 10 } = false ∧ usableIdentity [] = none ∧
      (c { jobOf [] with pausingUntil := some 100000 }).seq.job = some { jobOf [] with pausingUntil := some 100000 } := by
  decide +kernel

/-- A ring of 17 packets, of which one is executed; a cancel that waits for its boundary, before and after the Seal; the further Open to be made. -/
theorem witness_job_boundary :
    let c := fun (j : JobRecord) => { bus with seq.units := [unit .sealing], seq.job := some j }
    let sealed := { jobOf [] with cancelAtBoundary := true, sealDone := true }
    let closing := { sealed with closing := true, newBank := some .b }
    (∃ p rest, (jobOf (List.replicate 17 (plainPacket 0 .openBank 1 0))).ring = p :: rest ∧ rest.length ≤ 16) ∧
      (c sealed).seq.job = some sealed ∧ (c sealed).line.current = none ∧ sealed.closing = false ∧ sealed.stopAtBoundary = false ∧
      (c (jobOf [])).line.requests = [] ∧ lineAccepts (c closing) = true ∧ closing.closingAsked = false ∧
      findUnit (c closing) closing.address = some (unit .sealing) :=
  ⟨⟨_, _, rfl, by decide⟩, by decide +kernel⟩

def trial (phase : ProbationPhase) (hand : Option ProbationRequest) : ProbationRecord :=
  { address := 3, oldBank := .a, newBank := .b, length := 30000, swapTime := 80000, phase := phase, nextPoll := some 100000, unanswered := 2, inHand := hand,
    repeatDue := none, confirmed := false, revertReason := none }

/-- A poll at its time, the final read at the end of the probation, and a request put off till now. -/
theorem witness_probation_times :
    let c := fun (p : ProbationRecord) => { bus with seq.probations := [p] }
    let last := { trial .polling none with length := 20000 }
    let again := { trial .final none with repeatDue := some (100000, .keep) }
    (∀ p ∈ [trial .polling none, trial .polling (some .poll), last, again], findProbation (c p) 3 = some p) ∧ last.swapTime + last.length ≤ bus.now ∧
      (100000 ≤ bus.now ∧ 100000 < (trial .polling none).swapTime + (trial .polling none).length) := by
  decide +kernel

/-- Each request in hand; and a health record for each row of R159's table that names one. -/
theorem witness_probation_outcome :
    (∀ k ∈ [ProbationRequest.poll, .finalRead, .keep, .revert, .confirm],
      findProbation { bus with seq.probations := [trial .final (some k)] } 3 = some (trial .final (some k))) ∧
      (healthOf [0, 0, 1, 0]).isSome ∧ (healthOf [1, 1, 0, 1]).isSome ∧ (healthOf [1, 1, 1, 2]).isSome ∧ healthOf [1, 0, 0, 3] = none := by
  decide +kernel

/-! ## Yard time, departure and the local port -/

/-- A Beacon of depth 2 beside a pair of equal depth heard 15,000 ms ago from a higher station; the last relay 5,000 ms ago. -/
theorem witness_beacon :
    let c := { bus with peers := [{ peer 13 with beacon := some ⟨2, 85000⟩ }], clock.state := .synced, clock.lastRelay := some 95000 }
    Accepts c .beacon (heard .beacon true false 0 [0, 1, 0x8A, 0x89, 2]) (rx .beacon true false 0 [0, 1, 0x8A, 0x89, 2]) ∧
      ((BitVec.ofNat 32 (be32 [0, 1, 0x8A, 0x89, 2] 0) : Word32) - (BitVec.ofNat 32 c.now + c.clock.offset)).toInt = 1001 := by
  unfold Accepts; decide +kernel

/-- Clock times reached exactly; an entry whose target's not-before time is the present yard time. -/
theorem witness_clock_times :
    let c := { bus with clock.state := .synced, clock.lastAdoption := some 40000, clock.beaconTimer := some 100000 }
    let body := buildPlanBody 12 42 1 (put16 0x310 ++ put16 22 ++ put16 9 ++ put32 5 ++ put16 0 ++ [4] ++ put32 100000 ++ put16 30 ++ List.replicate 7 0)
    let w := { bus with plans.body := body, seq.units := [unit (.waitingTime .notBefore)] }
    40000 + 60000 ≤ c.now ∧ c.clock.beaconTimer = some 100000 ∧ bus.port.part = .running ∧ bus.role = .busStation ∧
      findUnit w 3 = some (unit (.waitingTime .notBefore)) ∧ notBeforePassed w (unit (.waitingTime .notBefore)) = true := by
  decide +kernel

/-- The line asserted for 100 ms, with a census pausing; released for 100 ms; and the second Leave's time. -/
theorem witness_departure :
    let out := { bus with peers := [peer 12], pins.departure := true, departure.edgeAt := some 99900, census.state := .paused 100500 }
    let back := { bus with departure.departed := true, departure.levelTaken := true, departure.edgeAt := some 99900, departure.nextLeave := some 100000 }
    followsLine out = true ∧ out.departure.departed = false ∧ out.pins.departure = true ∧ 99900 + 100 ≤ out.now ∧ followsLine back = true ∧
      back.departure.departed = true ∧ back.pins.departure = false ∧ back.departure.nextLeave = some 100000 ∧ back.yard.urgent.length < 8 ∧
      out.census.state ≠ .idle := by
  decide +kernel

/-- A command frame whose CRC-16 is wrong, one whose argument length is not allowed, and a good one. -/
theorem witness_bad_frame :
    let wrong := [0x01, 0, 0, 0, 0]
    let long := commandFrame 0x01 [0]
    let good := commandFrame 0x04 [0, 0]
    (5 ≤ wrong.length ∧ wrong.length = be16 wrong 1 + 5 ∧ commandFrameGood wrong = false) ∧
      (long.length = be16 long 1 + 5 ∧ commandFrameGood long = false) ∧ commandFrameGood good = true ∧ commandOfFrame good = some (.readReports 0) := by
  decide +kernel

theorem witness_part_states :
    ({ bus with port.part := .unconfigured } : Chip).port.part = .unconfigured ∧ State.reset.chip.port.part = .starting ∧ origin.role = .origin := by decide +kernel

theorem witness_reads_back :
    let c := { bus with seq.units := [unit .ready], catalog.records := [recordOf (.held 9) .absent .absent], departure.deadline := some 160000 }
    c.port.part = .running ∧ c.seq.units[0]? = some (unit .ready) ∧ c.catalog.records[0]? = some (recordOf (.held 9) .absent .absent) ∧
      c.departure.deadline = some 160000 ∧ 160000 < c.now + 4294967295 := by
  decide +kernel

theorem witness_reports : State.reset.chip.port.part ≠ .unconfigured ∧ State.reset.chip.port.reports.length = 1 := by decide +kernel

/-- RESTART answered; a program, an erase and a read that a start cuts off; a commission that was under way. -/
theorem witness_restart :
    ({ bus with port.restartArmed := true } : Chip).port.restartArmed = true ∧ (storing bus (.loadBlock 8 0 [1])).chip.store.current.isSome ∧
      cutRange (.loadBlock 8 0 [1]) = some (dataAddress 8 0, 1, false) ∧ cutRange .planErase = some (slotBytes, slotBytes, true) ∧
      cutRange (.checkRead 8 0) = none ∧ (storing bus .planErase).chip.store.current = some { op := .planErase, live := true } ∧
      ({ bus with port.commission := .writing } : Chip).port.commission = .writing := by
  decide +kernel

/-- A record of station 1 and one of station 65,534; the erase and the program of a commission. -/
theorem witness_commission :
    (∀ b ∈ [[0#8, 1], [0xFF, 0xFE]], (b ++ List.replicate 16 0xFF#8).length = 18 ∧ 1 ≤ be16 (b ++ List.replicate 16 0xFF#8) 0 ∧
      be16 (b ++ List.replicate 16 0xFF#8) 0 ≤ 65534) ∧
      (storing bus .commissionErase).chip.store.current = some { op := .commissionErase, live := true } ∧
      (storing bus (.commissionProgram [1])).chip.store.current = some { op := .commissionProgram [1], live := true } := by
  decide +kernel

/-- Slots 8 and 2,039; a segment ABSENT with an ERASED slot; a load with all blocks marked. -/
theorem witness_load :
    let c := { origin with catalog.records := [recordOf (.held 9) .absent .absent], store.slotMap := [(8, ⟨.erased, none⟩)] }
    let l : Load := { image := img, segment := 1, slot := 8, expected := 0, marks := BitVec.allOnes 64, claimed := true, pending := false }
    c.port.part = .running ∧ c.role = .origin ∧ inSegmentArea c 8 = true ∧ inSegmentArea c 2039 = true ∧ inSegmentArea c 2040 = false ∧
      inSegmentArea c 7 = false ∧ segState c img 1 = some .absent ∧ (slotInfo c 8).cond = .erased ∧
      ({ c with port.load := .opened l } : Chip).port.load = .opened l ∧ l.marks.getLsbD 63 = true := by
  decide +kernel

/-! ## Single commands -/

/-- What the chip shows after a command. -/
def after {α : Type} (i : Instr) (s : State) (f : Chip → α) : Option α :=
  match exec i s with
  | .next t => some (f t.chip)
  | _ => none

/-- R185, R183, R180. A part whose slot 0 holds a whole record goes ON with that station id and begins the read of slot 1. -/
theorem test_config_read :
    after .configReadComplete
        (still { State.reset.chip with store.flash := Memory.program [] 0 (commissionBytes ([0, 7, 1, 0x2C, 0, 3] ++ List.replicate 12 0)) })
        (fun c => (stationId c, c.yard.mode, c.port.config.map ConfigRecord.courier, c.store.current.map CurrentOp.op)) =
      some (7, .on, some true, some (.scanPlan 0)) := by decide +kernel

theorem test_config_erased : after .configReadComplete State.reset (fun c => c.port.part) = some .unconfigured := by decide +kernel

/-- R5. Adoption of serial 42 by a frame. -/
theorem test_plan_adopted :
    after (.plan (heard .plan true false 42 planBody)) (still bus) (fun c => (heldSerial c, c.plans.relayPending, c.plans.persist)) =
      some (42, true, .writing planBody 0 0 true) := by decide +kernel

/-- R26, R25, R42, R47. An Offer of segments 1 and 2 raises their counts, and the fetch of segment 1 opens on its sender with its Ask queued. -/
theorem test_offer_opens_fetch :
    after (.offer (heard .offer false false 0 (putOffer { image := img, spanFirst := 0, spanLast := 2, ranges := [⟨1, 2⟩] })))
        (still { bus with
          catalog.records := [recordOf (.held 9) .absent .absent]
          store.slotMap := [(8, ⟨.erased, none⟩), (9, ⟨.full, some (.segment img 0)⟩)]
          census.completedOnce := true })
        (fun c => (c.catalog.records.map (fun r => r.entries.map SegEntry.holders), c.fetch.asks, segState c img 1, (slotInfo c 8).cond,
          c.peers.map PeerRecord.openFetches)) =
      some ([[0, 1, 1]], [0], some (.fetching 8), .filling, [1]) := by decide +kernel

/-- R132, R135. CENSUS on an idle bus station presents Identify to address 1. -/
theorem test_census :
    after .census (still bus) (fun c => (c.census.state, c.port.reply.map Reply.sent, c.line.requests.map sentBytes)) =
      some (.running, some ([0, 0, 0, 0] ++ [0, 7, 0, 0] ++ put16 (crc16 [0, 7, 0, 0]).toNat), [[8, 1, 0, 0, 0, 32]]) := by decide +kernel

/-- R169. 100,000 s is used as 86,400 s. -/
theorem test_set_departure : after (.setDeparture 100000) (still bus) (fun c => c.departure.deadline) = some (some 86500000) := by decide +kernel

/-- R181, R196. STATUS's result has 45 bytes, and names the station and a running part. -/
theorem test_status :
    after .status (still bus) (fun c => c.port.reply.map (fun r => (r.status, r.result.length, byteAt r.result 0, be16 r.result 3))) =
      some (some (.ok, 45, 2, 7)) := by decide +kernel

/-! ## Invariants -/

/-- A step from a state that meets every invariant. -/
theorem witness_invariants :
    step State.reset = .next (tick State.reset) ∧ Memory.wf State.reset.chip.store.flash ∧ HoldersExact State.reset.chip ∧ ListsTracked State.reset.chip ∧
      UnitsInOrder State.reset.chip ∧ OnlyJobFlashes State.reset.chip ∧ AirtimeWithin State.reset.chip ∧ WithinCapacities State.reset.chip := by
  refine ⟨rfl, by decide +kernel, ?_, ?_, by unfold UnitsInOrder; decide +kernel, ?_, by unfold AirtimeWithin; decide +kernel, by unfold WithinCapacities; decide +kernel⟩
  · exact fun r hr => absurd hr (List.not_mem_nil)
  · exact fun p hp => absurd hp (List.not_mem_nil)
  · exact fun u hu => absurd hu (List.not_mem_nil)

/-- A chip with a peer, a record whose counts are exact, a fetch, and a unit in flashing. -/
def busy : Chip :=
  { fetchChip (fetching 0 0) with
    catalog.records := [{ recordOf (.held 9) (.fetching 8) .absent with entries := [⟨.held 9, 1⟩, ⟨.fetching 8, 1⟩, ⟨.absent, 1⟩] }]
    seq.units := [unit .erasing]
    seq.job := some (jobOf []) }

theorem witness_invariants_busy :
    UnitsInOrder busy ∧ OnlyJobFlashes busy ∧ WithinCapacities busy ∧ ListsTracked busy ∧
      ∀ r ∈ busy.catalog.records, ∀ i < 3, (r.entries[i]?).map SegEntry.holders = some (busy.peers.countP (fun p => covers (rangeList p r.image) i)) := by
  refine ⟨by unfold UnitsInOrder; decide +kernel, ?_, by unfold WithinCapacities; decide +kernel, ?_, by decide +kernel⟩
  · intro u hu _
    rw [List.mem_singleton.mp hu]
    exact ⟨_, rfl, rfl⟩
  · intro p hp k hk
    rw [List.mem_singleton.mp hp] at hk
    by_cases h : k = img
    · subst h; decide +kernel
    · have e : (k == img) = false := beq_eq_false_iff_ne.mpr h
      exact absurd (by simp only [rangeList, peer, List.lookup, e, Option.getD_none]) hk

end Sys2Proof.Tests
end

