-- ==== Sys2Proof/Proofs/PlanEntries.lean ====
section
/-!
SUPPORT. Live and inert entries of a plan body (R3): what makes an entry inert, and what the walk in entry order keeps.
-/
namespace Sys2Proof.Machine

/-- R3. What makes an entry inert behind a live one: its image with another model or manifest CRC, or its model and version. -/
def Clashes (l e : PlanEntry) : Prop :=
  (l.image = e.image ∧ (l.model ≠ e.model ∨ l.crc ≠ e.crc)) ∨ (l.model = e.model ∧ l.image.version = e.image.version)

/-- R3. An entry is inert when its image id is 0 or an earlier live entry clashes with it. -/
theorem inertBeside_iff (live : List PlanEntry) (e : PlanEntry) :
    inertBeside live e = true ↔ e.image.id = 0 ∨ ∃ l ∈ live, Clashes l e := by
  simp only [inertBeside, Clashes, Bool.or_eq_true, List.any_eq_true, Bool.and_eq_true, beq_iff_eq, bne_iff_ne]
  grind

/-- Entries that do not clash name different images. -/
theorem image_ne_of_not_clashes {l e : PlanEntry} (h : ¬Clashes l e) : l.image ≠ e.image := by
  intro hi
  by_cases hm : l.model = e.model
  · exact h (.inr ⟨hm, by rw [hi]⟩)
  · exact h (.inl ⟨hi, .inl hm⟩)

/-- A live entry stands in the body at its index, is not inert beside what was live before, and its index counts from where the walk began. -/
theorem liveFrom_mem {i : Nat} {seen es : List PlanEntry} {x : Nat × PlanEntry} (h : x ∈ liveFrom i seen es) :
    i ≤ x.1 ∧ es[x.1 - i]? = some x.2 ∧ inertBeside seen x.2 = false := by
  induction es generalizing i seen with
  | nil => simp [liveFrom] at h
  | cons e es ih =>
    have later : ∀ {s : List PlanEntry}, x ∈ liveFrom (i + 1) s es → i ≤ x.1 ∧ (e :: es)[x.1 - i]? = some x.2 ∧ inertBeside s x.2 = false := by
      intro s hx
      obtain ⟨hle, hget, hin⟩ := ih hx
      obtain ⟨d, hd⟩ : ∃ d, x.1 - i = d + 1 := ⟨x.1 - i - 1, by omega⟩
      have hd' : x.1 - (i + 1) = d := by omega
      rw [hd'] at hget
      exact ⟨by omega, by simpa [hd] using hget, hin⟩
    unfold liveFrom at h
    split at h
    · exact later h
    · next hseen =>
      rcases List.mem_cons.mp h with rfl | hx
      · exact ⟨Nat.le_refl _, by simp, by simpa using hseen⟩
      · obtain ⟨hle, hget, hin⟩ := later hx
        refine ⟨hle, hget, ?_⟩
        rw [← Bool.not_eq_true, inertBeside_iff] at hin ⊢
        exact fun hs => hin (hs.imp_right fun ⟨l, hl, hc⟩ => ⟨l, by simp [hl], hc⟩)

/-- Live entries stand in index order, and a later one does not clash with an earlier. -/
theorem liveFrom_pairwise (i : Nat) (seen es : List PlanEntry) :
    (liveFrom i seen es).Pairwise (fun x y => x.1 < y.1 ∧ ¬Clashes x.2 y.2) := by
  induction es generalizing i seen with
  | nil => exact List.Pairwise.nil
  | cons e es ih =>
    unfold liveFrom
    split
    · exact ih _ _
    · refine List.pairwise_cons.mpr ⟨fun y hy => ?_, ih _ _⟩
      obtain ⟨hle, _, hin⟩ := liveFrom_mem hy
      rw [← Bool.not_eq_true, inertBeside_iff] at hin
      exact ⟨hle, fun hc => hin (.inr ⟨e, by simp, hc⟩)⟩

/-- An entry the walk leaves out has image id 0, or clashes with what was live before the walk or with a live entry that stands before it. -/
theorem liveFrom_not_mem {i k : Nat} {seen es : List PlanEntry} {e : PlanEntry} (he : es[k]? = some e) (h : (i + k, e) ∉ liveFrom i seen es) :
    e.image.id = 0 ∨ (∃ l ∈ seen, Clashes l e) ∨ ∃ x ∈ liveFrom i seen es, x.1 < i + k ∧ Clashes x.2 e := by
  induction es generalizing i k seen with
  | nil => simp at he
  | cons e' es ih =>
    by_cases hin : inertBeside seen e' = true
    · simp only [liveFrom, hin, if_true] at h ⊢
      cases k with
      | zero =>
        obtain rfl : e' = e := by simpa using he
        exact ((inertBeside_iff _ _).mp hin).imp_right .inl
      | succ k =>
        rw [show i + (k + 1) = i + 1 + k by omega] at h ⊢
        exact ih (by simpa using he) h
    · simp only [liveFrom, hin] at h ⊢
      cases k with
      | zero =>
        obtain rfl : e' = e := by simpa using he
        simp at h
      | succ k =>
        rw [show i + (k + 1) = i + 1 + k by omega] at h ⊢
        rcases ih (by simpa using he) (fun hm => h (List.mem_cons_of_mem _ hm)) with h0 | ⟨l, hl, hc⟩ | ⟨x, hx, hlt, hc⟩
        · exact .inl h0
        · rcases List.mem_append.mp hl with hl | hl
          · exact .inr (.inl ⟨l, hl, hc⟩)
          · obtain rfl := List.mem_singleton.mp hl
            exact .inr (.inr ⟨(i, l), by simp, by simp only; omega, hc⟩)
        · exact .inr (.inr ⟨x, List.mem_cons_of_mem _ hx, hlt, hc⟩)

/-- Settles O3, by induction on the entries in the order of the walk (R3). -/
theorem liveEntriesOfPlan : Obligations.LiveEntriesOfPlan := by
  unfold Obligations.LiveEntriesOfPlan liveOf
  intro body
  refine ⟨(liveFrom_pairwise 0 [] _).imp fun ⟨hlt, hc⟩ => ⟨hlt, image_ne_of_not_clashes hc, fun hv => hc (.inr hv)⟩, fun x hx => ?_,
    fun i e he hn => ?_⟩
  · obtain ⟨_, hget, hin⟩ := liveFrom_mem hx
    rw [← Bool.not_eq_true, inertBeside_iff] at hin
    exact ⟨by simpa using hget, fun h0 => hin (.inl h0)⟩
  · rcases liveFrom_not_mem (i := 0) he (by simpa using hn) with h0 | ⟨l, hl, _⟩ | ⟨x, hx, hlt, hc⟩
    · exact .inl h0
    · simp at hl
    · exact .inr ⟨x, hx, by simpa using hlt, hc⟩

end Sys2Proof.Machine
end

