-- ==== Sys2Proof/Proofs/ManifestValidation.lean ====
section
/-!
SUPPORT. Manifest validation (R15, R16): the tests on the windows, what the window and CRC tables give, and the order of the nine conditions.
-/
namespace Sys2Proof.Machine

/-- R16 reason 7, behind a window that ends at `after`. -/
theorem windowRangesOk_iff (count after : Nat) (ws : List PlacementWindow) :
    windowRangesOk count after ws = true ↔
      (∀ w ∈ ws, after < w.first ∧ w.first ≤ w.last ∧ w.last ≤ count) ∧ ws.Pairwise (fun v w => v.last < w.first) := by
  induction ws generalizing after with
  | nil => simp [windowRangesOk]
  | cons w ws ih =>
    simp only [windowRangesOk, Bool.and_eq_true, decide_eq_true_eq, ih, List.forall_mem_cons, List.pairwise_cons]
    constructor
    · rintro ⟨⟨⟨hf, hl⟩, hc⟩, hws, hp⟩
      exact ⟨⟨⟨hf, hl, hc⟩, fun v hv => ⟨by have := hws v hv; omega, (hws v hv).2⟩⟩, fun v hv => (hws v hv).1, hp⟩
    · rintro ⟨⟨⟨hf, hl, hc⟩, hws⟩, hv, hp⟩
      exact ⟨⟨⟨hf, hl⟩, hc⟩, fun v h => ⟨hv v h, (hws v h).2⟩, hp⟩

/-- R15. A window that R16's reasons 5 and 7 pass covers at least one byte. -/
theorem windowLength_pos {count length : Nat} {w : PlacementWindow} (hl : (count - 1) * 8192 + 1 ≤ length) (hw : w.first ≤ w.last) :
    0 < windowLength count length w := by
  unfold windowLength
  split <;> omega

/-- R16 reason 9. Two ranges that are not empty are apart when no byte lies in both. -/
theorem windowsDisjoint_iff {count length : Nat} {v w : PlacementWindow} (hv : 0 < windowLength count length v) (hw : 0 < windowLength count length w) :
    windowsDisjoint count length v w = true ↔
      ∀ x, ¬(v.offset ≤ x ∧ x < v.offset + windowLength count length v ∧ w.offset ≤ x ∧ x < w.offset + windowLength count length w) := by
  simp only [windowsDisjoint, Bool.or_eq_true, decide_eq_true_eq]
  refine ⟨fun h x hx => by omega, fun h => ?_⟩
  have := h (max v.offset w.offset)
  omega

theorem windowsApart_iff (count length : Nat) (ws : List PlacementWindow) :
    windowsApart count length ws = true ↔ ws.Pairwise (fun v w => windowsDisjoint count length v w = true) := by
  induction ws with
  | nil => simp [windowsApart]
  | cons w ws ih => simp [windowsApart, ih]

@[simp] theorem crcsAt_length (bs : List Byte) (i n : Nat) : (crcsAt bs i n).length = n := by
  induction n generalizing i with
  | zero => rfl
  | succ n ih => simp [crcsAt, ih]

theorem crcsAt_getElem? (bs : List Byte) (i n j : Nat) (hj : j < n) : (crcsAt bs i n)[j]? = some (BitVec.ofNat 32 (be32 bs (i + 4 * j))) := by
  induction n generalizing i j with
  | zero => omega
  | succ n ih =>
    cases j with
    | zero => simp [crcsAt]
    | succ j => simpa [crcsAt, show i + 4 + 4 * j = i + 4 * (j + 1) by omega] using ih (i + 4) j (by omega)

/-- R16. Every condition before the one numbered `r` holds. -/
def HoldBelow (image : ImageKey) (model : Nat) (bs : List Byte) (r : Nat) : Prop := ∀ q, 1 ≤ q → q < r → manifestCondition image model bs q

theorem holdBelow_one (image : ImageKey) (model : Nat) (bs : List Byte) : HoldBelow image model bs 1 := fun q h1 h2 => by omega

theorem HoldBelow.succ {image : ImageKey} {model : Nat} {bs : List Byte} {r : Nat} (h : HoldBelow image model bs r)
    (hr : manifestCondition image model bs r) : HoldBelow image model bs (r + 1) := by
  intro q h1 h2
  rcases Nat.lt_succ_iff_lt_or_eq.mp h2 with hq | rfl
  exacts [h q h1 hq, hr]

/-- R16 reason 9, once the reasons before it have passed. -/
theorem windowsApart_iff_condition {image : ImageKey} {model : Nat} {bs : List Byte} (h : HoldBelow image model bs 9) :
    windowsApart (be16 bs 6) (be32 bs 8) (windowsAt bs 32 (byteAt bs 12)) = true ↔ manifestCondition image model bs 9 := by
  have hlen : (be16 bs 6 - 1) * 8192 + 1 ≤ be32 bs 8 := (h 5 (by decide) (by decide)).1
  have hpos : ∀ w ∈ windowsAt bs 32 (byteAt bs 12), 0 < windowLength (be16 bs 6) (be32 bs 8) w := fun w hw =>
    windowLength_pos hlen ((h 7 (by decide) (by decide)).1 w hw).2.1
  rw [windowsApart_iff]
  exact List.Pairwise.iff_of_mem fun {v w} hv hw => windowsDisjoint_iff (hpos v hv) (hpos w hw)

/-- R16. What validation may answer: the lowest reason whose condition fails, or, all nine holding, the record of the manifest. -/
def Judged (image : ImageKey) (model : Nat) (bs : List Byte) : Except Nat Manifest → Prop
  | .error r => 1 ≤ r ∧ r ≤ 9 ∧ ¬manifestCondition image model bs r ∧ HoldBelow image model bs r
  | .ok m =>
    (∀ q, 1 ≤ q → q ≤ 9 → manifestCondition image model bs q) ∧ m.count = be16 bs 6 ∧ m.length = be32 bs 8 ∧
      m.windows = windowsAt bs 32 (byteAt bs 12) ∧ m.crcs.length = m.count ∧ ∀ i < m.count, m.crcs.getD i 0 = BitVec.ofNat 32 (be32 bs (96 + 4 * i))

/-- One test of the walk: it answers its reason exactly when the condition of that number fails. -/
theorem judged_test {image : ImageKey} {model : Nat} {bs : List Byte} {r : Nat} {t : Prop} [Decidable t] {rest : Except Nat Manifest}
    (hr : 1 ≤ r ∧ r ≤ 9) (below : HoldBelow image model bs r) (ht : t ↔ ¬manifestCondition image model bs r)
    (next : HoldBelow image model bs (r + 1) → Judged image model bs rest) : Judged image model bs (if t then .error r else rest) := by
  split
  · next h => exact ⟨hr.1, hr.2, ht.mp h, below⟩
  · next h => exact next (below.succ (not_not.mp (mt ht.mpr h)))

theorem validateManifest_judged (image : ImageKey) (model : Nat) (bs : List Byte) : Judged image model bs (validateManifest image model bs) := by
  unfold validateManifest
  refine judged_test (by decide) (holdBelow_one _ _ _) Iff.rfl fun below => ?_
  refine judged_test (by decide) below Iff.rfl fun below => ?_
  refine judged_test (by decide) below Iff.rfl fun below => ?_
  refine judged_test (by decide) below ?_ fun below => ?_
  · simp only [manifestCondition, Bool.or_eq_true, decide_eq_true_eq]
    omega
  refine judged_test (by decide) below ?_ fun below => ?_
  · simp only [manifestCondition, Bool.or_eq_true, decide_eq_true_eq]
    omega
  refine judged_test (by decide) below ?_ fun below => ?_
  · simp only [manifestCondition, Bool.or_eq_true, decide_eq_true_eq]
    omega
  refine judged_test (by decide) below ?_ fun below => ?_
  · rw [Bool.not_eq_true', ← Bool.not_eq_true, windowRangesOk_iff]
    exact Iff.rfl
  refine judged_test (by decide) below ?_ fun below => ?_
  · simp [manifestCondition]
  refine judged_test (by decide) below ?_ fun below => ?_
  · rw [Bool.not_eq_true', ← Bool.not_eq_true, windowsApart_iff_condition below]
  refine ⟨fun q h1 h2 => below q h1 (by omega), rfl, rfl, rfl, crcsAt_length _ _ _, fun i hi => ?_⟩
  rw [List.getD_eq_getElem?_getD, crcsAt_getElem? bs 96 _ i hi, Option.getD_some]

/-- Settles O10: the tests are passed one by one, and each is the condition of its number (R16). -/
theorem manifestValidationReasons : Obligations.ManifestValidationReasons := by
  unfold Obligations.ManifestValidationReasons
  intro image model bs
  have h := validateManifest_judged image model bs
  cases hv : validateManifest image model bs with
  | error r => rw [hv] at h; exact h
  | ok m => rw [hv] at h; exact h

end Sys2Proof.Machine
end

