-- ==== Sys2Proof/Proofs/Reporting.lean ====
section
/-!
SUPPORT. How the report ring grows (R189), how a record that was appended is found in it again, and what a run of operations keeps when each of them does.
-/
namespace Sys2Proof.Machine

/-- R189. The second ring is the first with records appended. -/
def Grows (before after : List Report) : Prop := ∃ rs : List Report, after = pushReports before rs

theorem Grows.refl (ring : List Report) : Grows ring ring := ⟨[], rfl⟩

theorem Grows.of_eq {ring ring' : List Report} (h : ring' = ring) : Grows ring ring' := h ▸ Grows.refl ring

theorem Grows.trans {a b c : List Report} (h : Grows a b) (k : Grows b c) : Grows a c := by
  obtain ⟨rs, rfl⟩ := h
  obtain ⟨rs', rfl⟩ := k
  exact ⟨rs ++ rs', by simp [pushReports]⟩

theorem report_grows (kind : ReportKind) (subject : Subject) (detail : Nat) (c : Chip) :
    Grows c.port.reports (report kind subject detail c).port.reports := ⟨[_], rfl⟩

theorem Adds.grows {c d : Chip} (h : Adds c d) : Grows c.port.reports d.port.reports := by
  obtain ⟨⟨rs, _, hr⟩, _, _⟩ := h
  exact ⟨rs, hr⟩

theorem settle_grows (c : Chip) : Grows c.port.reports (settle c).port.reports := (settle_adds c).grows

/-- R189. The record that `report` appends. -/
def reportedRecord (kind : ReportKind) (subject : Subject) (detail : Nat) (c : Chip) : Report where
  sequence := nextSequence c.port.reports
  localTime := BitVec.ofNat 32 c.now
  yardTime := yardNow c
  synced := c.clock.state != .unsynced
  kind := kind
  subject := subject
  detail := BitVec.ofNat 16 detail
  unread := true

theorem report_reports (kind : ReportKind) (subject : Subject) (detail : Nat) (c : Chip) :
    (report kind subject detail c).port.reports = pushReport (reportedRecord kind subject detail c) c.port.reports := rfl

/-- A record reported on the way from one ring to another was appended. -/
theorem appended_of_report {ring ring' : List Report} {kind : ReportKind} {subject : Subject} {detail : Nat} {c : Chip}
    (before : Grows ring c.port.reports) (after : Grows (report kind subject detail c).port.reports ring') :
    Appended ring ring' kind subject detail c.now := by
  obtain ⟨earlier, he⟩ := before
  obtain ⟨later, hl⟩ := after
  refine ⟨earlier, later, reportedRecord kind subject detail c, ?_, rfl, rfl, rfl, rfl, rfl⟩
  rw [hl, report_reports, he]
  simp [pushReports]

/-- A record after which only blocks that were set going report was reported. -/
theorem reported_of_report {ring : List Report} {kind : ReportKind} {subject : Subject} {detail : Nat} {c d : Chip}
    (before : Grows ring c.port.reports) (after : Adds (report kind subject detail c) d) :
    Reported ring d.port.reports kind subject detail c.now := by
  obtain ⟨earlier, he⟩ := before
  obtain ⟨⟨later, hk, hl⟩, _, _⟩ := after
  refine ⟨earlier, later, reportedRecord kind subject detail c, ?_, rfl, rfl, rfl, rfl, rfl, hk⟩
  rw [hl, report_reports, he]
  simp [pushReports]

/-- The standing part is what `Stands` lists. -/
theorem standing_of_stands {c d : Chip} (h : Stands c d) : standing d = standing c := by simp [standing, h]

theorem Stands.of_standing {c d : Chip} (h : standing d = standing c) : Stands c d := by
  simp only [standing, Standing.mk.injEq] at h
  simp [Stands, h]

/-- What each turn keeps is kept by the whole run over a list. -/
theorem forEach_keeps {α : Type} {R : Chip → Chip → Prop} (refl : ∀ c, R c c) (trans : ∀ {c d e}, R c d → R d e → R c e) {f : α → Chip → Chip}
    {xs : List α} (step : ∀ x ∈ xs, ∀ c, R c (f x c)) (c : Chip) : R c (forEach xs f c) := by
  induction xs generalizing c with
  | nil => exact refl c
  | cons x xs ih => exact trans (step x (by simp) c) (ih (fun y hy => step y (by simp [hy])) (f x c))

/-- The same for what equals before and after. -/
theorem forEach_same {α β : Type} {g : Chip → β} {f : α → Chip → Chip} {xs : List α} (step : ∀ x ∈ xs, ∀ c, g (f x c) = g c) (c : Chip) :
    g (forEach xs f c) = g c :=
  forEach_keeps (R := fun c d => g d = g c) (fun _ => rfl) (fun h k => k.trans h) step c

end Sys2Proof.Machine
end

