-- ==== Sys2Proof/Proofs/SettleCatalog.lean ====
section
/-!
SUPPORT. What settling does to the catalog and the fetch slots (log 13): of the blocks that are set going only selection touches them (R40), and it does so
by opening fetches and by evicting segments (R45 to R47).
-/
namespace Sys2Proof.Machine

/-- The second chip has the catalog, the fetch slots and the waiting Asks of the first. -/
abbrev Unmoved (c d : Chip) : Prop := d.catalog = c.catalog ∧ d.fetch.slots = c.fetch.slots ∧ d.fetch.asks = c.fetch.asks

/-! ## The blocks other than selection -/

@[simp] theorem reportNoTarget_unmoved (before after : UnitEntry) (c : Chip) : Unmoved c (reportNoTarget before after c) := by
  unfold reportNoTarget
  (repeat' split) <;> simp [Unmoved]

@[simp] theorem selectUnit_unmoved (address : Nat) (c : Chip) : Unmoved c (selectUnit address c) := by
  unfold selectUnit
  (repeat' split) <;> simp [Unmoved]

@[simp] theorem evaluateWaiting_unmoved (c : Chip) : Unmoved c (evaluateWaiting c) := by
  unfold evaluateWaiting
  simp [Unmoved]

@[simp] theorem pushUrgent_unmoved (f : UrgentFrame) (c : Chip) : Unmoved c (pushUrgent f c) := by
  unfold pushUrgent
  (repeat' split) <;> simp [Unmoved]

@[simp] theorem giveUpServeRead_unmoved (i : Nat) (c : Chip) : Unmoved c (giveUpServeRead i c) := by
  unfold giveUpServeRead
  simp [Unmoved]

@[simp] theorem endServe_unmoved (i : Nat) (c : Chip) : Unmoved c (endServe i c) := by
  unfold endServe
  simp [Unmoved]

@[simp] theorem queueReply_unmoved (kind : ReplyKind) (e : AskEntry) (c : Chip) : Unmoved c (queueReply kind e c) := by
  unfold queueReply
  simp [Unmoved]

@[simp] theorem endServeIf_unmoved (hit : AskEntry → Bool) (i : Nat) (c : Chip) : Unmoved c (endServeIf hit i c) := by
  unfold endServeIf
  (repeat' split) <;> simp [Unmoved]

@[simp] theorem endServes_unmoved (hit : AskEntry → Bool) (c : Chip) : Unmoved c (endServes hit c) := by
  unfold endServes
  simp [Unmoved]

@[simp] theorem examineTaken_unmoved (i : Nat) (e : AskEntry) (c : Chip) : Unmoved c (examineTaken i e c) := by
  unfold examineTaken
  (repeat' split) <;> simp [Unmoved]

@[simp] theorem takeEntries_unmoved (es : List AskEntry) (c : Chip) : Unmoved c (takeEntries es c) := by
  induction es generalizing c with
  | nil => simp [Unmoved, takeEntries]
  | cons e es ih =>
    unfold takeEntries
    split <;> simp [Unmoved, ih]

@[simp] theorem serveTake_unmoved (c : Chip) : Unmoved c (serveTake c) := by
  unfold serveTake
  simp [Unmoved]

@[simp] theorem refuseRead_unmoved (i : Nat) (e : AskEntry) (c : Chip) : Unmoved c (refuseRead i e c) := by
  unfold refuseRead
  simp [Unmoved]

@[simp] theorem presentLine_unmoved (r : LineRequest) (c : Chip) : Unmoved c (presentLine r c) := by
  unfold presentLine
  (repeat' split) <;> simp [Unmoved]

@[simp] theorem withdrawLine_unmoved (client : LineClient) (address : Nat) (c : Chip) : Unmoved c (withdrawLine client address c) := by
  unfold withdrawLine
  simp [Unmoved]

@[simp] theorem noteBegun_unmoved (r : LineRequest) (c : Chip) : Unmoved c (noteBegun r c) := by
  unfold noteBegun
  (repeat' split) <;> simp [Unmoved]

@[simp] theorem lineBegin_unmoved (c : Chip) : Unmoved c (lineBegin c) := by
  unfold lineBegin
  (repeat' split) <;> simp [Unmoved]

@[simp] theorem watchLine_unmoved (c : Chip) : Unmoved c (watchLine c) := by
  unfold watchLine
  (repeat' split) <;> simp [Unmoved]

@[simp] theorem recordLast_unmoved (address : Nat) (o : LastOutcome) (c : Chip) : Unmoved c (recordLast address o c) := by
  unfold recordLast
  simp [Unmoved]

@[simp] theorem setUnitState_unmoved (address : Nat) (s : JobState) (c : Chip) : Unmoved c (setUnitState address s c) := by
  unfold setUnitState
  simp [Unmoved]

@[simp] theorem endJob_unmoved (address : Nat) (c : Chip) : Unmoved c (endJob address c) := by
  unfold endJob
  simp [Unmoved]

@[simp] theorem failMisfit_unmoved (u : UnitEntry) (c : Chip) : Unmoved c (failMisfit u c) := by
  unfold failMisfit
  simp [Unmoved]

@[simp] theorem deferEntry_unmoved (u : UnitEntry) (c : Chip) : Unmoved c (deferEntry u c) := by
  unfold deferEntry
  (repeat' split) <;> simp [Unmoved]

@[simp] theorem startJob_unmoved (u : UnitEntry) (k : ImageKey) (m : Manifest) (probation : Nat) (c : Chip) : Unmoved c (startJob u k m probation c) := by
  unfold startJob
  simp [Unmoved]

@[simp] theorem tryEntry_unmoved (u : UnitEntry) (c : Chip) : Unmoved c (tryEntry u c) := by
  unfold tryEntry
  dsimp only
  (repeat' split) <;> simp [Unmoved]

@[simp] theorem arbiterSteps_unmoved (n : Nat) (c : Chip) : Unmoved c (arbiterSteps n c) := by
  induction n generalizing c with
  | zero => simp [Unmoved, arbiterSteps]
  | succ n ih =>
    unfold arbiterSteps
    (repeat' split) <;> simp [Unmoved, ih]

@[simp] theorem unitArbiter_unmoved (c : Chip) : Unmoved c (unitArbiter c) := by
  unfold unitArbiter
  simp [Unmoved]

@[simp] theorem dropFlashReads_unmoved (c : Chip) : Unmoved c (dropFlashReads c) := by
  unfold dropFlashReads
  simp [Unmoved]

@[simp] theorem dropJob_unmoved (j : JobRecord) (c : Chip) : Unmoved c (dropJob j c) := by
  unfold dropJob
  simp [Unmoved]

@[simp] theorem finishCancel_unmoved (j : JobRecord) (c : Chip) : Unmoved c (finishCancel j c) := by
  unfold finishCancel
  simp [Unmoved]

@[simp] theorem jobBoundary_unmoved (c : Chip) : Unmoved c (jobBoundary c) := by
  unfold jobBoundary
  (repeat' split) <;> simp [Unmoved]

@[simp] theorem cancelJob_unmoved (c : Chip) : Unmoved c (cancelJob c) := by
  unfold cancelJob
  simp [Unmoved]

@[simp] theorem jobPresent_unmoved (c : Chip) : Unmoved c (jobPresent c) := by
  unfold jobPresent
  (repeat' split) <;> simp [Unmoved]

@[simp] theorem presentCensus_unmoved (c : Chip) : Unmoved c (presentCensus c) := by
  unfold presentCensus
  simp [Unmoved]

@[simp] theorem startCensus_unmoved (c : Chip) : Unmoved c (startCensus c) := by
  unfold startCensus
  simp [Unmoved]

@[simp] theorem censusBegin_unmoved (c : Chip) : Unmoved c (censusBegin c) := by
  unfold censusBegin
  (repeat' split) <;> simp [Unmoved]

@[simp] theorem enterDefer_unmoved (c : Chip) : Unmoved c (enterDefer c) := by
  unfold enterDefer
  (repeat' split) <;> simp [Unmoved]

@[simp] theorem accessWake_unmoved (c : Chip) : Unmoved c (accessWake c) := by
  unfold accessWake
  (repeat' split) <;> simp [Unmoved]

@[simp] theorem presentFor_unmoved (k : StoreClient) (next : Chip → Option WaitingOp) (c : Chip) : Unmoved c (presentFor k next c) := by
  unfold presentFor
  (repeat' split) <;> simp [Unmoved]

@[simp] theorem presentServer_unmoved (n : Nat) (c : Chip) : Unmoved c (presentServer n c) := by
  induction n generalizing c with
  | zero => simp [Unmoved, presentServer]
  | succ n ih =>
    unfold presentServer
    (repeat' split) <;> simp [Unmoved, ih]

@[simp] theorem presentPort_unmoved (c : Chip) : Unmoved c (presentPort c) := by
  unfold presentPort
  (repeat' split) <;> simp [Unmoved]

@[simp] theorem presentAll_unmoved (c : Chip) : Unmoved c (presentAll c) := by
  unfold presentAll
  simp [Unmoved]

@[simp] theorem noteGrant_unmoved (op : StoreOp) (c : Chip) : Unmoved c (noteGrant op c) := by
  unfold noteGrant
  (repeat' split) <;> simp [Unmoved]

@[simp] theorem flashReadGone_unmoved (c : Chip) : Unmoved c (flashReadGone c) := by
  unfold flashReadGone
  simp [Unmoved]

@[simp] theorem answerGone_unmoved (op : StoreOp) (c : Chip) : Unmoved c (answerGone op c) := by
  unfold answerGone
  (repeat' split) <;> simp [Unmoved]

@[simp] theorem grant_unmoved (w : WaitingOp) (c : Chip) : Unmoved c (grant w c) := by
  unfold grant
  dsimp only
  (repeat' split) <;> simp [Unmoved]

@[simp] theorem grantTurn_unmoved (w : WaitingOp) (c : Chip) : Unmoved c (grantTurn w c) := by
  unfold grantTurn
  simp [Unmoved]

@[simp] theorem storeSteps_unmoved (n : Nat) (c : Chip) : Unmoved c (storeSteps n c) := by
  induction n generalizing c with
  | zero => simp [Unmoved, storeSteps]
  | succ n ih =>
    unfold storeSteps
    split <;> simp [Unmoved, ih]

@[simp] theorem storeRound_unmoved (c : Chip) : Unmoved c (storeRound c) := by
  unfold storeRound
  simp [Unmoved]

/-! ## Operations on slots and peers -/

@[simp] theorem withdrawOps_unmoved (slot : Nat) (c : Chip) : Unmoved c (withdrawOps slot c) := by
  unfold withdrawOps
  simp [Unmoved]

@[simp] theorem joinDirty_unmoved (slot : Nat) (c : Chip) : Unmoved c (joinDirty slot c) := by
  unfold joinDirty
  simp [Unmoved]

@[simp] theorem awaitEnd_unmoved (slot : Nat) (c : Chip) : Unmoved c (awaitEnd slot c) := by
  unfold awaitEnd
  simp [Unmoved]

@[simp] theorem release_unmoved (slot : Nat) (c : Chip) : Unmoved c (release slot c) := by
  unfold release
  dsimp only
  (repeat' split) <;> simp [Unmoved]

@[simp] theorem allocate_unmoved (slot : Nat) (o : Owner) (c : Chip) : Unmoved c (allocate slot o c) := by
  unfold allocate
  simp [Unmoved]

@[simp] theorem raiseOpen_unmoved (id : Nat) (c : Chip) : Unmoved c (raiseOpen id c) := by
  unfold raiseOpen
  simp [Unmoved]

@[simp] theorem strike_unmoved (id : Nat) (counted : Bool) (c : Chip) : Unmoved c (strike id counted c) := by
  unfold strike
  (repeat' split) <;> simp [Unmoved]

@[simp] theorem updateOpen_catalog (i : Nat) (f : OpenFetch → OpenFetch) (c : Chip) : (updateOpen i f c).catalog = c.catalog := by
  unfold updateOpen
  (repeat' split) <;> simp

@[simp] theorem withdrawAsk_catalog (i : Nat) (c : Chip) : (withdrawAsk i c).catalog = c.catalog := by
  unfold withdrawAsk
  simp

@[simp] theorem queueAsk_catalog (i : Nat) (c : Chip) : (queueAsk i c).catalog = c.catalog := by
  unfold queueAsk
  dsimp only
  (repeat' split) <;> simp

/-! ## Selection and the whole of settling -/

/-- R42. The first candidate is one of the list. -/
theorem firstCandidate_mem {xs : List Candidate} {x : Candidate} (h : firstCandidate xs = some x) : x ∈ xs := by
  induction xs generalizing x with
  | nil => simp [firstCandidate] at h
  | cons y ys ih =>
    unfold firstCandidate at h
    split at h
    · simp_all
    · next z hz =>
      split at h
      · obtain rfl := Option.some.inj h
        exact List.mem_cons_of_mem _ (ih hz)
      · simp_all

/-- R46. The segment to evict is one of the evictable ones. -/
theorem evictChoice_mem {xs : List Evictable} {v : Evictable} (h : evictChoice xs = some v) : v ∈ xs := by
  induction xs generalizing v with
  | nil => simp [evictChoice] at h
  | cons y ys ih =>
    unfold evictChoice at h
    split at h
    · simp_all
    · next z hz =>
      split at h
      · simp_all
      · obtain rfl := Option.some.inj h
        exact List.mem_cons_of_mem _ (ih hz)

section
variable {R : Chip → Chip → Prop}

/-- R45. What is done about a short candidate evicts an evictable segment or leaves the catalog and the fetch slots alone. -/
theorem dealShort_does (still : ∀ {c d}, Stands c d → Unmoved c d → R c d)
    (evicts : ∀ c priv v, v ∈ evictables c priv → R c (evictSegment v.image v.segment v.slot c)) (x : Candidate) (c : Chip) : R c (dealShort x c) := by
  have same : R c c := still (by simp [Stands]) (by simp [Unmoved])
  have full : ∀ d, R c (report .storeFull (.segment x.image x.segment) d { c with fetch.storeFullAt := some c.now }) := fun d =>
    still (by simp [Stands]) (by simp [Unmoved])
  unfold dealShort
  split
  · exact same
  · split
    · next v hv =>
      split at hv
      · exact evicts c _ v (evictChoice_mem hv)
      · cases hv
    · split
      · split
        exacts [same, full _]
      · exact full _

/-- R40, R47. A selection run is made of openings of candidates in FREE slots and of evictions. -/
theorem runSelection_does (trans : ∀ {c d e}, R c d → R d e → R c e) (still : ∀ {c d}, Stands c d → Unmoved c d → R c d)
    (opens : ∀ c i slot x p, freeSlot c = some i → x ∈ candidates c → R c (openFetch i slot x p c))
    (evicts : ∀ c priv v, v ∈ evictables c priv → R c (evictSegment v.image v.segment v.slot c)) (c : Chip) : R c (runSelection c) := by
  have same : ∀ c, R c c := fun c => still (by simp [Stands]) (by simp [Unmoved])
  have steps : ∀ n a b c, R c (selectionSteps n a b c) := by
    intro n
    induction n with
    | zero => exact fun _ _ c => same c
    | succ n ih =>
      intro a b c
      unfold selectionSteps
      split
      · exact same c
      · next i hi =>
        split
        · exact same c
        · next x hx =>
          split
          · exact trans (opens c i _ x _ hi (List.mem_of_mem_filter (firstCandidate_mem hx))) (ih _ _ _)
          · exact trans (dealShort_does still evicts x c) (ih _ _ _)
          · exact same c
  have done : ∀ c, R c { c with fetch.selectionAsked := false } := fun c => still (by simp [Stands]) (by simp [Unmoved])
  unfold runSelection
  split
  · exact same c
  · dsimp only
    split
    exacts [trans (steps _ _ _ _) (done _), done c]

/-- Log 13. What selection keeps, and whatever leaves the standing part, the catalog and the fetch slots alone, settling keeps. -/
theorem settle_does (trans : ∀ {c d e}, R c d → R d e → R c e) (still : ∀ {c d}, Stands c d → Unmoved c d → R c d)
    (selects : ∀ c, R c (runSelection c)) (c : Chip) : R c (settle c) := by
  have pass : ∀ c, R c (settlePass c) := fun c =>
    trans (still (d := serveTake c) (by simp [Stands]) (by simp [Unmoved]))
      (trans (selects _) (still (by simp [Stands, settlePass]) (by simp [Unmoved, settlePass])))
  exact trans (pass c) (trans (pass _) (still (by simp [Stands, settle]) (by simp [Unmoved, settle])))

end

/-! ## What settling keeps of the catalog -/

/-- R40. Until the start scan has completed, settling leaves the catalog as it is: selection opens nothing. -/
theorem settle_catalog_of_scanning (c : Chip) (h : c.store.scanPhase ≠ .done) : (settle c).catalog = c.catalog := by
  have keeps := settle_does (R := fun c d => d.store.scanPhase = c.store.scanPhase ∧ (c.store.scanPhase ≠ .done → d.catalog = c.catalog))
    (fun h k => ⟨k.1.trans h.1, fun hc => (k.2 (by rw [h.1]; exact hc)).trans (h.2 hc)⟩)
    (fun h k => ⟨by simp [h], fun _ => k.1⟩)
    (fun c => ⟨by simp, fun hc => by
      unfold runSelection selectionOpen
      split
      · rfl
      · simp [hc]⟩)
  exact (keeps c).2 h

/-- R17. A record with the state of one segment changed. -/
def withSegState (seg : Nat) (st : SegState) (r : ImageRecord) : ImageRecord :=
  { r with entries := r.entries.modify seg (fun e => { e with state := st }) }

/-- A change of the records of one image. -/
def onImage (k : ImageKey) (f : ImageRecord → ImageRecord) (r : ImageRecord) : ImageRecord := if r.image = k then f r else r

theorem map_onImage_recordKey {k : ImageKey} {f : ImageRecord → ImageRecord} (hf : ∀ r, recordKey (f r) = recordKey r) (rs : List ImageRecord) :
    (rs.map (onImage k f)).map recordKey = rs.map recordKey := by
  rw [List.map_map]
  refine List.map_congr_left fun r _ => ?_
  simp only [Function.comp, onImage]
  split
  exacts [hf r, rfl]

@[simp] theorem setSegState_records (k : ImageKey) (seg : Nat) (st : SegState) (c : Chip) :
    (setSegState k seg st c).catalog.records = c.catalog.records.map (onImage k (withSegState seg st)) := rfl

/-- R47. Of the catalog an opening changes the state of its segment alone. -/
@[simp] theorem openFetch_records (i slot : Nat) (x : Candidate) (p : PeerRecord) (c : Chip) :
    (openFetch i slot x p c).catalog.records = c.catalog.records.map (onImage x.image (withSegState x.segment (.fetching slot))) := by
  simp [openFetch]

/-- R14. An image that leaves COMPLETE returns to GATHERING; nothing else changes in the catalog. -/
theorem leaveComplete_records (k : ImageKey) (c : Chip) :
    (leaveComplete k c).catalog.records = c.catalog.records ∨
      (leaveComplete k c).catalog.records = c.catalog.records.map (onImage k (fun r => { r with state := .gathering })) := by
  unfold leaveComplete
  split
  · exact .inr (by simp [onImage])
  · exact .inl rfl

/-- R46. Eviction makes the segment ABSENT in the catalog, and may return its image to GATHERING. -/
theorem evictSegment_records (k : ImageKey) (seg slot : Nat) (c : Chip) :
    (evictSegment k seg slot c).catalog.records = c.catalog.records.map (onImage k (withSegState seg .absent)) ∨
      (evictSegment k seg slot c).catalog.records =
        (c.catalog.records.map (onImage k (withSegState seg .absent))).map (onImage k (fun r => { r with state := .gathering })) := by
  unfold evictSegment
  have h := leaveComplete_records k (release slot (endServes (fun e => e.image == k && e.segment == seg) (setSegState k seg .absent c)))
  simpa using h

/-- R11, R14. What each image record has from its live entry, and the record order, are the same. -/
def SameKeys (c d : Chip) : Prop := d.catalog.records.map recordKey = c.catalog.records.map recordKey

theorem SameKeys.trans {c d e : Chip} (h : SameKeys c d) (k : SameKeys d e) : SameKeys c e := Eq.trans k h

theorem SameKeys.of_unmoved {c d : Chip} (h : Unmoved c d) : SameKeys c d := by rw [SameKeys, h.1]

theorem openFetch_sameKeys (i slot : Nat) (x : Candidate) (p : PeerRecord) (c : Chip) : SameKeys c (openFetch i slot x p c) := by
  rw [SameKeys, openFetch_records]
  exact map_onImage_recordKey (by exact fun _ => rfl) _

theorem evictSegment_sameKeys (k : ImageKey) (seg slot : Nat) (c : Chip) : SameKeys c (evictSegment k seg slot c) := by
  rcases evictSegment_records k seg slot c with h | h <;> rw [SameKeys, h]
  · exact map_onImage_recordKey (by exact fun _ => rfl) _
  · exact (map_onImage_recordKey (by exact fun _ => rfl) _).trans (map_onImage_recordKey (by exact fun _ => rfl) _)

theorem settle_sameKeys (c : Chip) : SameKeys c (settle c) :=
  settle_does (R := SameKeys) SameKeys.trans (fun _ k => .of_unmoved k)
    (runSelection_does (R := SameKeys) SameKeys.trans (fun _ k => .of_unmoved k) (fun _ _ _ _ _ _ _ => openFetch_sameKeys _ _ _ _ _)
      (fun _ _ _ _ => evictSegment_sameKeys _ _ _ _)) c

end Sys2Proof.Machine
end

