-- ==== Sys2Proof/Proofs/FetchFrame.lean ====
section
/-!
SUPPORT. What the operations of the Fetch Engine and the Peer Table leave standing when a frame or a timer sets them off (R22 to R61).
-/
namespace Sys2Proof.Machine

/-- The second chip has the standing part, the units and the urgent lane of the first. -/
abbrev Apart (c d : Chip) : Prop := Stands c d ∧ d.seq = c.seq ∧ d.yard.urgent = c.yard.urgent

/-- And its reports. -/
abbrev Quiet (c d : Chip) : Prop := Apart c d ∧ d.port.reports = c.port.reports

theorem Apart.trans {c d e : Chip} (h : Apart c d) (k : Apart d e) : Apart c e := by simp_all [Apart, Stands]

theorem Quiet.trans {c d e : Chip} (h : Quiet c d) (k : Quiet d e) : Quiet c e := ⟨Apart.trans h.1 k.1, k.2.trans h.2⟩

/-! ## Catalog, slots and Asks -/

@[simp] theorem setSegState_quiet (k : ImageKey) (seg : Nat) (st : SegState) (c : Chip) : Quiet c (setSegState k seg st c) := by
  simp [Quiet, Apart, Stands]
  simp [setSegState]

@[simp] theorem release_quiet (slot : Nat) (c : Chip) : Quiet c (release slot c) := by
  obtain ⟨word, queue, waiting, h, _⟩ := release_does slot c
  rw [h]
  simp [Quiet, Apart, Stands, withdrawOps]

@[simp] theorem updateOpen_quiet (i : Nat) (f : OpenFetch → OpenFetch) (c : Chip) : Quiet c (updateOpen i f c) := by
  unfold updateOpen
  split <;> simp [Quiet, Apart, Stands]

@[simp] theorem queueAsk_quiet (i : Nat) (c : Chip) : Quiet c (queueAsk i c) := by
  unfold queueAsk withdrawAsk
  dsimp only
  split <;> simp [Quiet, Apart, Stands]

/-! ## Peers -/

@[simp] theorem raiseOpen_quiet (id : Nat) (c : Chip) : Quiet c (raiseOpen id c) := by
  simp [Quiet, Apart, Stands, raiseOpen]

@[simp] theorem lowerOpen_quiet (id : Nat) (counted : Bool) (c : Chip) : Quiet c (lowerOpen id counted c) := by
  unfold lowerOpen
  split <;> simp [Quiet, Apart, Stands]

@[simp] theorem strike_quiet (id : Nat) (counted : Bool) (c : Chip) : Quiet c (strike id counted c) := by
  unfold strike
  split <;> simp [Quiet, Apart, Stands]

@[simp] theorem recount_quiet (c : Chip) : Quiet c (recount c) := by
  obtain ⟨a, h⟩ := recount_does c
  rw [h]
  simp [Quiet, Apart, Stands]

@[simp] theorem changeList_quiet (id : Nat) (k : ImageKey) (f : List SegRun → List SegRun) (c : Chip) : Quiet c (changeList id k f c) := by
  obtain ⟨a, h⟩ := changeList_does id k f c
  rw [h]
  simp [Quiet, Apart, Stands]

@[simp] theorem askSelection_quiet (c : Chip) : Quiet c (askSelection c) := by simp [Quiet, Apart, Stands]

@[simp] theorem askIf_quiet (b : Bool) (c : Chip) : Quiet c (askIf b c) := by
  unfold askIf
  split <;> simp [Quiet, Apart, Stands]

@[simp] theorem withdrawAll_quiet (id : Nat) (c : Chip) : Quiet c (withdrawAll id c) := by
  simp [Quiet, Apart, Stands, withdrawAll]

@[simp] theorem removePeer_quiet (id : Nat) (c : Chip) : Quiet c (removePeer id c) := by
  simp [Quiet, Apart, Stands, removePeer]

@[simp] theorem makeRoom_quiet (c : Chip) : Quiet c (makeRoom c) := by
  unfold makeRoom
  (repeat' split) <;> simp [Quiet, Apart, Stands]

@[simp] theorem mergeOffer_quiet (sender : Nat) (o : OfferBody) (c : Chip) : Quiet c (mergeOffer sender o c) := by
  unfold mergeOffer
  (repeat' split) <;> simp [Quiet, Apart, Stands]

@[simp] theorem dropReadyFor_quiet (asker i : Nat) (c : Chip) : Quiet c (dropReadyFor asker i c) := by
  unfold dropReadyFor
  (repeat' split) <;> simp [Quiet, Apart, Stands]

/-! ## Ends of a fetch slot, and switching -/

@[simp] theorem freeFetch_quiet (i peer : Nat) (counted : Bool) (c : Chip) : Quiet c (freeFetch i peer counted c) := by
  simp [Quiet, Apart, Stands, freeFetch, dropFetchOps, withdrawAsk]

@[simp] theorem cancelFetch_quiet (i : Nat) (f : OpenFetch) (c : Chip) : Quiet c (cancelFetch i f c) := by
  simp [Quiet, Apart, Stands, cancelFetch]

@[simp] theorem abandonFetch_apart (i detail : Nat) (f : OpenFetch) (c : Chip) : Apart c (abandonFetch i detail f c) := by
  simp [Apart, Stands, abandonFetch]

theorem abandonFetch_grows (i detail : Nat) (f : OpenFetch) (c : Chip) :
    Grows c.port.reports (abandonFetch i detail f c).port.reports := by
  unfold abandonFetch
  exact (Grows.of_eq (by simp)).trans (report_grows _ _ _ _)

@[simp] theorem moveToPeer_quiet (i : Nat) (f : OpenFetch) (p : PeerRecord) (c : Chip) : Quiet c (moveToPeer i f p c) := by
  simp [Quiet, Apart, Stands, moveToPeer]

/-- The standing part, the units and the urgent lane stay, and the ring only grows. -/
def Reports (c d : Chip) : Prop := Apart c d ∧ Grows c.port.reports d.port.reports

theorem Reports.of_quiet {c d : Chip} (h : Quiet c d) : Reports c d := ⟨h.1, .of_eq h.2⟩

theorem Reports.refl (c : Chip) : Reports c c := ⟨by simp [Apart, Stands], .refl _⟩

theorem Reports.trans {c d e : Chip} (h : Reports c d) (k : Reports d e) : Reports c e := ⟨Apart.trans h.1 k.1, h.2.trans k.2⟩

theorem switchFetch_reports (i : Nat) (c : Chip) : Reports c (switchFetch i c) := by
  have abandoned : ∀ detail f, Reports c (abandonFetch i detail f c) := fun detail f => ⟨abandonFetch_apart _ _ _ _, abandonFetch_grows _ _ _ _⟩
  unfold switchFetch
  split
  · next f _ =>
    split
    · exact abandoned 1 f
    · split
      exacts [abandoned 2 f, .of_quiet (moveToPeer_quiet _ _ _ _)]
  · exact .refl c

theorem demandSwitch_reports (i : Nat) (owes : Bool) (c : Chip) : Reports c (demandSwitch i owes c) := by
  unfold demandSwitch
  split
  · split
    · split
      exacts [.of_quiet (by simp [Quiet, Apart, Stands]), .refl c]
    · exact switchFetch_reports i c
  · exact .refl c

theorem switchAway_reports (peer : Nat) (c : Chip) : Reports c (switchAway peer c) := by
  refine forEach_keeps (R := Reports) Reports.refl Reports.trans (fun i _ c => ?_) c
  split
  exacts [demandSwitch_reports i true c, .refl c]

theorem announceDeparture_reports (id : Nat) (c : Chip) : Reports c (announceDeparture id c) := by
  unfold announceDeparture
  split
  · exact .refl c
  · split
    · exact .refl c
    · exact (Reports.of_quiet (by simp [Quiet, Apart, Stands])).trans ((switchAway_reports id _).trans (.of_quiet (askSelection_quiet _)))

/-! ## Blocks and replies -/

theorem endWindow_reports (i : Nat) (c : Chip) : Reports c (endWindow i c) := by
  unfold endWindow
  split
  · next f _ =>
    dsimp only
    split
    · exact .of_quiet (by simp [Quiet, Apart, Stands])
    · split
      · exact (Reports.of_quiet (by simp [Quiet, Apart, Stands])).trans (switchFetch_reports i _)
      · exact .of_quiet (by simp [Quiet, Apart, Stands])
  · exact .refl c

@[simp] theorem acceptBlock_quiet (i : Nat) (f : OpenFetch) (b : BlockBody) (c : Chip) : Quiet c (acceptBlock i f b c) := by
  simp [Quiet, Apart, Stands, acceptBlock]

theorem blockAt_reports (sender : Nat) (b : BlockBody) (i : Nat) (c : Chip) : Reports c (blockAt sender b i c) := by
  unfold blockAt
  split
  · next f _ =>
    split
    · exact .refl c
    · have taken : Reports c (if missing c i f b.index && decide (c.fetch.buffer.length < 16) then acceptBlock i f b c else c) := by
        split
        exacts [.of_quiet (acceptBlock_quiet _ _ _ _), .refl c]
      dsimp only
      split
      exacts [taken.trans (endWindow_reports i _), taken]
  · exact .refl c

theorem onBlock_reports (sender : Nat) (b : BlockBody) (c : Chip) : Reports c (onBlock sender b c) :=
  forEach_keeps (R := Reports) Reports.refl Reports.trans (fun i _ c => blockAt_reports sender b i c) c

theorem onReply_reports {effect : Chip → Chip} (he : ∀ c, Quiet c (effect c)) (sender asker : Nat) (k : ImageKey) (seg : Nat) (c : Chip) :
    Reports c (onReply effect sender asker k seg c) := by
  unfold onReply
  split
  · exact (Reports.of_quiet (he c)).trans (demandSwitch_reports _ _ _)
  · exact .refl c

@[simp] theorem markBusy_quiet (id : Nat) (c : Chip) : Quiet c (markBusy id c) := by
  simp [Quiet, Apart, Stands, markBusy]

/-! ## The sender of a frame (R21, R30) -/

@[simp] theorem queueReply_seq (kind : ReplyKind) (e : AskEntry) (c : Chip) : (queueReply kind e c).seq = c.seq := by
  unfold queueReply pushUrgent
  (repeat' split) <;> simp

theorem examineTaken_seq (i : Nat) (e : AskEntry) (c : Chip) : (examineTaken i e c).seq = c.seq := by
  unfold examineTaken
  (repeat' split) <;> simp

theorem serveTake_seq (c : Chip) : (serveTake c).seq = c.seq := by
  have taken : ∀ (es : List AskEntry) (c : Chip), (takeEntries es c).seq = c.seq := by
    intro es
    induction es with
    | nil => exact fun _ => rfl
    | cons e es ih =>
      intro c
      unfold takeEntries
      split
      exacts [rfl, (ih _).trans (examineTaken_seq _ _ _)]
  exact taken _ c

/-- R21. The sender's record is refreshed or made, and where the departing flag is clear nothing else happens. -/
theorem presence_quiet (f : RxFrame) (c : Chip) (h : f.departing = false) : Quiet c (presence f c) := by
  unfold presence
  rw [h]
  (repeat' split) <;> simp_all [Quiet, Apart, Stands]

/-- R21, R30. Dealing with a frame's sender keeps the standing part and the units; what is reported are ends of fetches. -/
theorem presence_stands (f : RxFrame) (c : Chip) :
    Stands c (presence f c) ∧ (presence f c).seq = c.seq ∧ Grows c.port.reports (presence f c).port.reports := by
  cases hd : f.departing with
  | false =>
    obtain ⟨⟨hs, hq, _⟩, hr⟩ := presence_quiet f c hd
    exact ⟨hs, hq, .of_eq hr⟩
  | true =>
    unfold presence
    rw [hd]
    split
    · next p _ =>
      obtain ⟨⟨hs, hq, _⟩, hg⟩ := announceDeparture_reports f.sender (updatePeer f.sender (refreshPeer f c.now) c)
      refine ⟨by simp_all [Stands], by simpa [serveTake_seq] using hq, ?_⟩
      exact hg.trans (serveTake_adds _).grows
    · exact ⟨by simp [Stands], rfl, .refl _⟩

end Sys2Proof.Machine
end

