-- ==== Sys2Proof/Proofs/PlanAsks.lean ====
section
/-!
SUPPORT. A received frame's way through presence, its owner and the comparison of its serial (R79, R80), and what asking for a plan and being asked for one
do (R6, R7).
-/
namespace Sys2Proof.Machine

/-! ## Receiving (R79, R80) -/

/-- R80. An accepted frame goes through presence, its owner and the comparison of its serial, in this order. -/
theorem receive_accepted {kind : FrameKind} {owner : RxFrame → Chip → Chip} {frame : List Byte} {c : Chip} {f : RxFrame} (h : Accepts c kind frame f) :
    receive kind owner frame c = compareSerial f (owner f (presence f c)) := by
  obtain ⟨hmode, haccept, hkind⟩ := h
  simp [receive, hmode, haccept, hkind]

theorem heldSerial_of_plans {c d : Chip} (h : d.plans.body = c.plans.body) : heldSerial d = heldSerial c := by simp [heldSerial, h]

theorem stationId_of_config {c d : Chip} (h : d.port.config = c.port.config) : stationId d = stationId c := by simp [stationId, h]

/-! ## Asking (R6) -/

/-- R6. The frame causes a PlanAsk. -/
def AsksPlan (c : Chip) (f : RxFrame) : Prop :=
  heldSerial c < f.serial ∧ f.departing = false ∧ c.role = .busStation ∧ ∀ q, c.plans.lastPlanAsk = some q → q + 5000 < c.now

theorem planAskFree_iff (c : Chip) : planAskFree c = true ↔ ∀ q, c.plans.lastPlanAsk = some q → q + 5000 < c.now := by
  unfold planAskFree
  split <;> simp_all

/-- R6. With its four conditions met a PlanAsk is offered to the urgent lane, and its time is noted. -/
theorem compareSerial_of_asks {c : Chip} {f : RxFrame} (h : AsksPlan c f) :
    compareSerial f c = pushUrgent (.planAsk f.sender) { c with plans.lastPlanAsk := some c.now } := by
  obtain ⟨hs, hd, hr, hq⟩ := h
  simp [compareSerial, hs, hd, hr, (planAskFree_iff c).mpr hq]

theorem compareSerial_of_not_asks {c : Chip} {f : RxFrame} (h : ¬AsksPlan c f) : compareSerial f c = c := by
  unfold compareSerial
  rw [if_neg]
  simpa [AsksPlan, planAskFree_iff, and_assoc] using h

/-- R6. Of the standing part the comparison changes the time of the last PlanAsk alone. -/
theorem compareSerial_standing (f : RxFrame) (c : Chip) :
    standing (compareSerial f c) =
      { standing c with plans := { c.plans with lastPlanAsk := (compareSerial f c).plans.lastPlanAsk } } := by
  by_cases h : AsksPlan c f
  · simp [compareSerial_of_asks h, standing]
  · rw [compareSerial_of_not_asks h]
    rfl

/-- A frame the urgent lane has room for is taken while the port is ON. -/
theorem mem_pushUrgent {f : UrgentFrame} {c : Chip} (hmode : c.yard.mode = .on) (hroom : c.yard.urgent.length < 8) : f ∈ (pushUrgent f c).yard.urgent := by
  simp [pushUrgent, hmode, hroom]

/-! ## What an owner leaves to the comparison (R6, R80) -/

/-- What R6's comparison reads stands, and at most one frame was queued. -/
def LeavesComparison (c d : Chip) : Prop :=
  d.plans.body = c.plans.body ∧ d.plans.lastPlanAsk = c.plans.lastPlanAsk ∧ d.role = c.role ∧ d.now = c.now ∧ d.yard.mode = c.yard.mode ∧
    d.yard.urgent.length ≤ c.yard.urgent.length + 1

theorem LeavesComparison.of_apart {c d : Chip} (h : Apart c d) : LeavesComparison c d := by
  simp only [Apart, Stands] at h
  simp [LeavesComparison, h]

theorem LeavesComparison.after_same {c d e : Chip} (hp : d.plans = c.plans) (hr : d.role = c.role) (hn : d.now = c.now)
    (hm : d.yard.mode = c.yard.mode) (hu : d.yard.urgent = c.yard.urgent) (k : LeavesComparison d e) : LeavesComparison c e := by
  simpa only [LeavesComparison, hp, hr, hn, hm, hu] using k

theorem LeavesComparison.after_apart {c d e : Chip} (h : Apart c d) (k : LeavesComparison d e) : LeavesComparison c e := by
  simp only [Apart, Stands] at h
  exact k.after_same (by simp [h]) (by simp [h]) (by simp [h]) (by simp [h]) (by simp [h])

theorem asksPlan_iff {c d : Chip} {f : RxFrame} (hbody : d.plans.body = c.plans.body) (hlast : d.plans.lastPlanAsk = c.plans.lastPlanAsk)
    (hrole : d.role = c.role) (hnow : d.now = c.now) : AsksPlan d f ↔ AsksPlan c f := by
  simp only [AsksPlan, heldSerial_of_plans hbody, hlast, hrole, hnow]

/-- R64 to R69. An Ask is answered with at most one short reply. -/
theorem onAsk_leaves (server : Nat) (e : AskEntry) (c : Chip) : LeavesComparison c (onAsk server e c) := by
  have reply : ∀ kind c', Quiet c c' → LeavesComparison c (queueReply kind e c') := by
    intro kind c' h
    refine .after_apart h.1 ?_
    unfold queueReply pushUrgent LeavesComparison
    dsimp only
    (repeat' split) <;> simp
  have drop : Quiet c (dropQueued e c) := by simp [Quiet, Apart, Stands, dropQueued]
  have same : Quiet c c := by simp [Quiet, Apart, Stands]
  unfold onAsk
  split
  · unfold answerAsk
    dsimp only
    split
    · exact reply _ _ drop
    · split
      · exact reply _ _ drop
      · split
        · exact reply _ _ drop
        · split
          · exact .of_apart (by simp [Apart, Stands])
          · split
            · next i _ =>
              refine .of_apart ?_
              unfold replaceInSlot
              (repeat' split) <;> simp [Apart, Stands, giveUpServeRead]
            · split
              · exact reply _ _ same
              · exact .of_apart (by simp [Apart, Stands])
  · exact .of_apart same.1

/-- R167. A relay Beacon is at most one frame. -/
theorem relayBeacon_leaves (depth : Nat) (c : Chip) : LeavesComparison c (relayBeacon depth c) := by
  unfold relayBeacon pushUrgent LeavesComparison
  dsimp only
  (repeat' split) <;> simp

theorem reportAdoption_same (before : ClockState) (sender depth : Nat) (change : Int) (c : Chip) :
    (reportAdoption before sender depth change c).plans = c.plans ∧ (reportAdoption before sender depth change c).role = c.role ∧
      (reportAdoption before sender depth change c).now = c.now ∧ (reportAdoption before sender depth change c).yard = c.yard := by
  unfold reportAdoption
  (repeat' split) <;> simp

theorem adoptBeacon_leaves (sender depth : Nat) (time : Word32) (c : Chip) : LeavesComparison c (adoptBeacon sender depth time c) := by
  unfold adoptBeacon
  dsimp only
  split <;> exact (relayBeacon_leaves depth _).after_same (by simp [reportAdoption_same]) (by simp [reportAdoption_same]) (by simp [reportAdoption_same])
    (by simp [reportAdoption_same]) (by simp [reportAdoption_same])

/-- R166, R167. A Beacon is recorded and perhaps adopted, and causes at most one relay. -/
theorem onBeacon_leaves (f : RxFrame) (c : Chip) : LeavesComparison c (onBeacon f c) := by
  unfold onBeacon
  split
  · simp [LeavesComparison]
  · dsimp only
    split
    · simp [LeavesComparison, recordBeacon]
    · exact (adoptBeacon_leaves _ _ _ _).after_same rfl rfl rfl rfl rfl

/-- R7. A PlanAsk changes relay pending alone. -/
theorem onPlanAsk_does (named : Nat) (c : Chip) :
    onPlanAsk named c = { c with plans.relayPending := c.plans.relayPending || (named == stationId c && decide (0 < heldSerial c)) } := by
  unfold onPlanAsk
  by_cases h : (named == stationId c && decide (0 < heldSerial c)) = true
  · have hn : named = stationId c ∧ heldSerial c ≠ 0 := by simpa [Nat.pos_iff_ne_zero] using h
    simp [hn, Nat.pos_iff_ne_zero]
  · have hn : ¬(named = stationId c ∧ heldSerial c ≠ 0) := by simpa [Nat.pos_iff_ne_zero] using h
    rw [Bool.not_eq_true] at h
    simp [h, hn]

theorem onPlanAsk_leaves (named : Nat) (c : Chip) : LeavesComparison c (onPlanAsk named c) := by
  rw [onPlanAsk_does]
  simp [LeavesComparison]

/-! ## Settling O5 and O6 -/

/-- R6. A row whose owner leaves the comparison what it reads causes a PlanAsk exactly under the four conditions. -/
theorem receive_asks {kind : FrameKind} {owner : RxFrame → Chip → Chip} {frame : List Byte} {c : Chip} {f : RxFrame} (h : Accepts c kind frame f)
    (howner : ∀ d, LeavesComparison d (owner f d)) :
    let t := settle (receive kind owner frame c)
    (AsksPlan c f → t.plans.lastPlanAsk = some c.now ∧ (c.yard.urgent.length < 7 → .planAsk f.sender ∈ t.yard.urgent)) ∧
      (¬AsksPlan c f → t.plans.lastPlanAsk = c.plans.lastPlanAsk) := by
  intro t
  have hs := (presence_stands f c).1
  simp only [Stands] at hs
  obtain ⟨hbody, hlast, hrole, hnow, hmode, hurgent⟩ := howner (presence f c)
  have hiff : AsksPlan (owner f (presence f c)) f ↔ AsksPlan c f :=
    asksPlan_iff (by simp [hbody, hs]) (by simp [hlast, hs]) (by simp [hrole, hs]) (by simp [hnow, hs])
  have ht : t = settle (compareSerial f (owner f (presence f c))) := by rw [← receive_accepted h]
  constructor
  · intro hasks
    rw [ht, compareSerial_of_asks (hiff.mpr hasks)]
    refine ⟨by simp [hnow, hs], fun hroom => ?_⟩
    obtain ⟨_, ⟨later, _, hlater⟩, _⟩ := settle_adds (pushUrgent (.planAsk f.sender) { owner f (presence f c) with plans.lastPlanAsk := some _ })
    rw [hlater]
    have hquiet := (presence_quiet f c hasks.2.1).1.2.2
    rw [hquiet] at hurgent
    exact List.mem_append_left _ (mem_pushUrgent (by simpa [hmode, hs] using h.1) (by simp only; omega))
  · intro hasks
    rw [ht, compareSerial_of_not_asks (mt hiff.mp hasks)]
    simp [hlast, hs]

theorem exec_busy (frame : List Byte) (s : State) :
    exec (.busy frame) s = .next { s with chip := settle (receive .busy (fun f => onBusy (findPeer s.chip f.sender).isNone f) frame s.chip) } := rfl

/-- Settles O5: each row but a Plan's hands its frame to an owner that leaves the comparison what it reads (R6, R80). -/
theorem greaterSerialCausesPlanAsk : Obligations.GreaterSerialCausesPlanAsk := by
  unfold Obligations.GreaterSerialCausesPlanAsk
  intro s kind frame f hkind h
  have replied : ∀ (effect : Chip → Chip), (∀ c, Quiet c (effect c)) → ∀ asker k seg d, LeavesComparison d (onReply effect f.sender asker k seg d) :=
    fun effect he asker k seg d => .of_apart (onReply_reports he _ _ _ _ _).1
  cases kind with
  | plan => exact absurd rfl hkind
  | offer => exact ⟨_, rfl, receive_asks h fun d => .of_apart (mergeOffer_quiet _ _ d).1⟩
  | ask => exact ⟨_, rfl, receive_asks h fun d => onAsk_leaves _ _ d⟩
  | block => exact ⟨_, rfl, receive_asks h fun d => .of_apart (onBlock_reports _ _ d).1⟩
  | lacking => exact ⟨_, rfl, receive_asks h fun d => replied _ (fun c => changeList_quiet _ _ _ c) _ _ _ d⟩
  | refused => exact ⟨_, rfl, receive_asks h fun d => replied _ (fun c => changeList_quiet _ _ _ c) _ _ _ d⟩
  | busy =>
    have leaves : ∀ d, LeavesComparison d (onBusy (findPeer s.chip f.sender).isNone f d) := fun d => by
      unfold onBusy
      refine LeavesComparison.after_apart ?_ (replied _ (fun c => markBusy_quiet _ c) _ _ _ _)
      split <;> simp [Apart, Stands]
    exact ⟨_, exec_busy frame s, receive_asks (owner := fun f => onBusy (findPeer s.chip f.sender).isNone f) h leaves⟩
  | planAsk => exact ⟨_, rfl, receive_asks h fun d => onPlanAsk_leaves _ d⟩
  | beacon => exact ⟨_, rfl, receive_asks h fun d => onBeacon_leaves f d⟩
  | leave => exact ⟨_, rfl, receive_asks h fun d => .of_apart (announceDeparture_reports _ d).1⟩

/-- Settles O6: of the standing part presence changes nothing, the PlanAsk relay pending, and the comparison the time of the last PlanAsk (R6, R7). -/
theorem planAskSetsRelayPending : Obligations.PlanAskSetsRelayPending := by
  unfold Obligations.PlanAskSetsRelayPending
  intro s frame f h
  refine ⟨_, rfl, rfl, ?_⟩
  have hs := (presence_stands f s.chip).1
  have hserial : heldSerial (presence f s.chip) = heldSerial s.chip := heldSerial_of_plans (by simp [hs])
  have hown : stationId (presence f s.chip) = stationId s.chip := stationId_of_config (by simp [hs])
  simp only [Stands] at hs
  rw [settle_standing, receive_accepted h, compareSerial_standing, onPlanAsk_does, hserial, hown]
  simp [standing, hs]

end Sys2Proof.Machine
end

