-- ==== Sys2Proof/Proofs/Admission.lean ====
section
/-!
SUPPORT. Which images an admission run takes and the records they get (R11 to R13).
-/
namespace Sys2Proof.Machine

/-! ## The set admitted -/

/-- Live entries stand in index order. -/
theorem liveOf_pairwise (body : List Byte) : (liveOf body).Pairwise (fun x y => x.1 < y.1) := (liveFrom_pairwise 0 [] _).imp fun h => h.1

theorem liveOf_nodup (body : List Byte) : (liveOf body).Nodup := (liveOf_pairwise body).imp fun h e => by rw [e] at h; exact Nat.lt_irrefl _ h

/-- A live entry is known by its index. -/
theorem eq_of_index {live : List (Nat × PlanEntry)} (h : live.Pairwise (fun x y => x.1 < y.1)) {x y : Nat × PlanEntry} (hx : x ∈ live) (hy : y ∈ live)
    (e : x.1 = y.1) : x = y := by
  have hnodup : (live.map Prod.fst).Nodup := List.pairwise_map.mpr (h.imp fun hlt he => by omega)
  exact List.inj_on_of_nodup_map hnodup hx hy e

/-- R11. The candidate an entry makes, with the need class a function gives it. -/
def candidateOf (need : Nat × PlanEntry → NeedClass) (x : Nat × PlanEntry) : Admitted := { index := x.1, entry := x.2, need := need x }

/-- R11. The admitted set is the first 12 candidates of the passes, put into entry order. -/
theorem admittedSet_map {live passes : List (Nat × PlanEntry)} (need : Nat × PlanEntry → NeedClass) (hlive : live.Pairwise (fun x y => x.1 < y.1))
    (hsub : ∀ x ∈ passes, x ∈ live) :
    admittedSet live (passes.map (candidateOf need)) = (live.filter (fun x => (passes.take 12).contains x)).map (candidateOf need) := by
  have hfind : ∀ x ∈ live, ∀ l : List (Nat × PlanEntry), (∀ y ∈ l, y ∈ live) →
      (l.map (candidateOf need)).find? (fun a => a.index == x.1) = if l.contains x then some (candidateOf need x) else none := by
    intro x hx l
    induction l with
    | nil => simp
    | cons y l ih =>
      intro hl
      by_cases hxy : x = y
      · simp [candidateOf, hxy]
      · have hne : y.1 ≠ x.1 := fun e => hxy (eq_of_index hlive hx (hl y (by simp)) e.symm)
        have := ih (fun z hz => hl z (by simp [hz]))
        simp_all [candidateOf]
  have hmap : ∀ l : List (Nat × PlanEntry), (∀ x ∈ l, x ∈ live) →
      l.filterMap (fun x => ((passes.map (candidateOf need)).take 12).find? (fun a => a.index == x.1)) =
        (l.filter (fun x => (passes.take 12).contains x)).map (candidateOf need) := by
    intro l
    induction l with
    | nil => simp
    | cons x l ih =>
      intro hl
      rw [List.filterMap_cons, ← List.map_take, hfind x (hl x (by simp)) _ (fun y hy => hsub y (List.mem_of_mem_take hy)), List.map_take,
        ih (fun y hy => hl y (by simp [hy])), List.filter_cons]
      split <;> split <;> simp_all
  exact hmap live fun _ h => h

/-- R11. The passes are of live entries. -/
theorem admissionPasses_subset {role : Role} {units : List UnitEntry} {config : Option ConfigRecord} {live : List (Nat × PlanEntry)} :
    ∀ x ∈ admissionPasses role units config live, x ∈ live := by
  intro x hx
  rcases List.mem_append.mp hx with h | h <;> exact List.mem_of_mem_filter h

/-- R11. The need class of an admission run. -/
def needFor (role : Role) (units : List UnitEntry) (x : Nat × PlanEntry) : NeedClass := if ownFor role units x then .own else .courier

/-- R11. The candidates of an admission run are those of the passes. -/
theorem admissionOrder_eq (c : Chip) :
    admissionOrder c = (admissionPasses c.role c.seq.units c.port.config (liveEntries c)).map (candidateOf (needFor c.role c.seq.units)) := by
  have hown : ∀ x : Nat × PlanEntry, isOwn c x.2 = ownFor c.role c.seq.units x := fun _ => rfl
  unfold admissionOrder admissionPasses
  rw [List.map_append]
  congr 1
  · refine List.map_congr_left fun x hx => ?_
    have := (hown x).symm.trans (List.mem_filter.mp hx).2
    simp [candidateOf, needFor, this]
  · have hfilter : ∀ x : Nat × PlanEntry, isCourier c x.2 =
        (!ownFor c.role c.seq.units x && (match c.port.config with | some r => r.courier | none => false) && !x.2.priv) := by
      intro x
      rw [← hown]
      exact Bool.and_right_comm _ _ _
    simp only [hfilter]
    refine List.map_congr_left fun x hx => ?_
    have := (List.mem_filter.mp hx).2
    simp_all [candidateOf, needFor]

/-- Of a list without repetition, what is among its first `n` is its first `n`. -/
theorem filter_mem_take {α : Type} [BEq α] [LawfulBEq α] (l : List α) (n : Nat) (h : l.Nodup) : l.filter (fun x => (l.take n).contains x) = l.take n := by
  have hd : l.filter (fun x => (l.take n).contains x) = (l.take n ++ l.drop n).filter (fun x => (l.take n).contains x) := by rw [List.take_append_drop]
  have hnot : ∀ x ∈ l.drop n, x ∉ l.take n := fun x hx hx' => List.disjoint_take_drop h (Nat.le_refl n) hx' hx
  rw [hd, List.filter_append, List.filter_eq_self.mpr (by simp), List.filter_eq_nil_iff.mpr (by simpa using hnot), List.append_nil]

/-! ## The records of the admitted images -/

/-- What a record has from its entry is that of the admitted candidate, whether it survived or is new. -/
theorem recordKey_recordFor (records : List ImageRecord) (a : Admitted) :
    recordKey (recordFor records a) = (a.entry.image, a.need, a.entry.priv, a.entry.crc, a.entry.model) := by
  unfold recordFor
  split
  · next r hr =>
    have hs := List.find?_some hr
    simp only [survives, Bool.and_eq_true, beq_iff_eq] at hs
    obtain ⟨⟨⟨himage, hcrc⟩, hmodel⟩, _⟩ := hs
    simp [recordKey, himage, hcrc, hmodel]
  · rfl

@[simp] theorem reportFull_unmoved (order : List Admitted) (c : Chip) : Unmoved c (reportFull order c) := by
  unfold reportFull
  split <;> simp [Unmoved]

@[simp] theorem reportFull_keeps (order : List Admitted) (c : Chip) : Stands c (reportFull order c) := by
  unfold reportFull
  split <;> simp [Stands]

/-- R12. The records that an admitted set leaves no place in the catalog. -/
def goneRecords (admitted : List Admitted) (c : Chip) : List ImageRecord := c.catalog.records.filter (fun r => !admitted.any (survives r))

/-- R12. The records of an admitted set, in its order. -/
theorem applyAdmission_records (admitted : List Admitted) (c : Chip) :
    (applyAdmission admitted c).catalog.records =
      admitted.map (recordFor (forEach (goneRecords admitted c) removeRecord c).catalog.records) := rfl

/-- R11, R12. A run gives the catalog the records of the admitted set. -/
theorem takeIn_catalog (order : List Admitted) (c : Chip) :
    (takeIn order c).catalog = (applyAdmission (admittedSet (liveEntries c) order) c).catalog := by simp [takeIn]

/-- R11. The images an admission run takes. -/
theorem admission_recordKeys (c : Chip) :
    (admission c).catalog.records.map recordKey = admittedKeys c.role c.seq.units c.port.config (liveEntries c) := by
  rw [admission, takeIn_catalog, applyAdmission_records, admissionOrder_eq,
    admittedSet_map (live := liveEntries c) _ (liveOf_pairwise _) admissionPasses_subset]
  simp only [List.map_map]
  exact List.map_congr_left fun x _ => recordKey_recordFor _ _

/-- R13. At start every live image is a candidate, as OWN, whatever the role. -/
theorem startAdmission_eq (c : Chip) : startAdmission c = takeIn ((liveEntries c).map (candidateOf (fun _ => .own))) c := by
  unfold startAdmission
  split
  · next h =>
    have hown : ∀ x, ownFor c.role c.seq.units x = true := fun x => by simp [ownFor, h]
    rw [admission, admissionOrder_eq]
    congr 1
    have hneed : needFor c.role c.seq.units = fun _ => .own := funext fun x => if_pos (hown x)
    have hall : (liveEntries c).filter (ownFor c.role c.seq.units) = liveEntries c := List.filter_eq_self.mpr fun x _ => hown x
    simp [admissionPasses, hneed, hown, hall]
  · rfl

end Sys2Proof.Machine
end

