-- ==== Sys2Proof/Proofs/Removal.lean ====
section
/-!
SUPPORT. What the removal of an image record takes with it and what it leaves (R12, R61, R73, R188).
-/
namespace Sys2Proof.Machine

/-! ## Fetch and serve slots by number -/

theorem fetchSlot_opened_lt {c : Chip} {i : Nat} {f : OpenFetch} (h : fetchSlot c i = .opened f) : i < c.fetch.slots.length := by
  by_contra hn
  simp [fetchSlot, List.getD_eq_getElem?_getD, List.getElem?_eq_none (Nat.le_of_not_lt hn)] at h

/-- A fetch slot that is set reads as set, and the others as before. -/
theorem fetchSlot_of_set {c d : Chip} {i : Nat} {v : FetchSlot} (h : d.fetch.slots = c.fetch.slots.set i v) (hi : i < c.fetch.slots.length) (j : Nat) :
    fetchSlot d j = if j = i then v else fetchSlot c j := by
  unfold fetchSlot
  rw [h, List.getD_eq_getElem?_getD, List.getD_eq_getElem?_getD]
  by_cases hij : j = i
  · subst hij
    simp [hi]
  · simp [hij, List.getElem?_set_ne (Ne.symm hij)]

theorem serveSlot_setServeSlot_free (c : Chip) (i j : Nat) : serveSlot (setServeSlot i .free c) j = if j = i then .free else serveSlot c j := by
  unfold serveSlot
  rw [setServeSlot_serve_slots, List.getD_eq_getElem?_getD, List.getD_eq_getElem?_getD]
  by_cases hij : j = i
  · subst hij
    by_cases hj : j < c.serve.slots.length <;> simp [hj]
  · simp [hij, List.getElem?_set_ne (Ne.symm hij)]

/-! ## On the way to the dirty queue -/

/-- R102. The slot is in the dirty queue, or waits to join it. -/
def OnItsWay (c : Chip) (slot : Nat) : Prop := slot ∈ c.store.dirtyQueue ∨ slot ∈ c.store.releasing

theorem release_onItsWay (slot : Nat) (c : Chip) : OnItsWay (release slot c) slot ∧ ∀ x, OnItsWay c x → OnItsWay (release slot c) x := by
  obtain ⟨word, queue, waiting, h, _, hs, hq, hw⟩ := release_does slot c
  rw [h]
  exact ⟨hs, fun x => Or.imp (hq x) (hw x)⟩

theorem releaseLoadSlot_onItsWay (l : Load) (c : Chip) :
    OnItsWay (releaseLoadSlot l c) l.slot ∧ ∀ x, OnItsWay c x → OnItsWay (releaseLoadSlot l c) x := by
  cases hp : programPending l with
  | true =>
    obtain ⟨waiting, h, hs, hw⟩ := (releaseLoadSlot_does l c).1 hp
    rw [h]
    exact ⟨.inr hs, fun x => Or.imp_right (hw x)⟩
  | false =>
    rw [(releaseLoadSlot_does l c).2 hp]
    exact release_onItsWay _ _

/-! ## What is given up -/

/-- From the first chip to the second, things of the images of `P` were given up: range lists only lose, slots only go to the dirty queue, fetches and the
load only end, checks only lose their record, serves only end, and what is reported is of `setOffKinds`. -/
structure GivesUp (P : ImageKey → Prop) (c d : Chip) : Prop where
  now : d.now = c.now
  lists : ∀ p' ∈ d.peers, ∃ p ∈ c.peers, ∀ k, rangeList p k = [] → rangeList p' k = []
  way : ∀ slot, OnItsWay c slot → OnItsWay d slot
  fetches : ∀ i < 4, fetchSlot d i = fetchSlot c i ∨ (fetchSlot d i = .free ∧ ∀ f, fetchSlot c i = .opened f → P f.image)
  checks : ∀ q' ∈ d.store.checkQueue, ∃ q ∈ c.store.checkQueue, q'.image = q.image ∧ (q.orphan = true → q'.orphan = true)
  serves : ∀ i < 3, ∀ e, (serveSlot d i).entry? = some e → (serveSlot c i).entry? = some e
  load : d.port.load = c.port.load ∨ (d.port.load = .idle ∧ ∀ l, c.port.load = .opened l → P l.image)
  reports : ∃ rs : List Report, (∀ x ∈ rs, x.kind ∈ setOffKinds) ∧ d.port.reports = pushReports c.port.reports rs

theorem GivesUp.refl {P : ImageKey → Prop} (c : Chip) : GivesUp P c c where
  now := rfl
  lists p hp := ⟨p, hp, fun _ h => h⟩
  way _ h := h
  fetches _ _ := .inl rfl
  checks q hq := ⟨q, hq, rfl, fun h => h⟩
  serves _ _ _ h := h
  load := .inl rfl
  reports := ⟨[], by simp, rfl⟩

theorem GivesUp.trans {P : ImageKey → Prop} {c d e : Chip} (h : GivesUp P c d) (k : GivesUp P d e) : GivesUp P c e where
  now := k.now.trans h.now
  lists p'' hp'' := by
    obtain ⟨p', hp', e'⟩ := k.lists p'' hp''
    obtain ⟨p, hp, e⟩ := h.lists p' hp'
    exact ⟨p, hp, fun key hk => e' key (e key hk)⟩
  way s hs := k.way s (h.way s hs)
  fetches i hi := by
    rcases k.fetches i hi with hk | ⟨hk, hP⟩
    · rw [hk]
      exact h.fetches i hi
    · refine .inr ⟨hk, fun f hf => ?_⟩
      rcases h.fetches i hi with hh | ⟨_, hP'⟩
      exacts [hP f (hh.trans hf), hP' f hf]
  checks q'' hq'' := by
    obtain ⟨q', hq', e', o'⟩ := k.checks q'' hq''
    obtain ⟨q, hq, e, o⟩ := h.checks q' hq'
    exact ⟨q, hq, e'.trans e, fun ho => o' (o ho)⟩
  serves i hi e he := h.serves i hi e (k.serves i hi e he)
  load := by
    rcases k.load with hk | ⟨hk, hP⟩
    · rw [hk]
      exact h.load
    · refine .inr ⟨hk, fun l hl => ?_⟩
      rcases h.load with hh | ⟨_, hP'⟩
      exacts [hP l (hh.trans hl), hP' l hl]
  reports := by
    obtain ⟨rs, hrs, e⟩ := h.reports
    obtain ⟨rs', hrs', e'⟩ := k.reports
    refine ⟨rs ++ rs', fun x hx => (List.mem_append.mp hx).elim (hrs x) (hrs' x), ?_⟩
    rw [e', e]
    simp [pushReports]

theorem GivesUp.mono {P Q : ImageKey → Prop} {c d : Chip} (h : GivesUp P c d) (hPQ : ∀ k, P k → Q k) : GivesUp Q c d :=
  { h with
    fetches := fun i hi => (h.fetches i hi).imp_right fun ⟨hf, hP⟩ => ⟨hf, fun f e => hPQ _ (hP f e)⟩
    load := h.load.imp_right fun ⟨hl, hP⟩ => ⟨hl, fun l e => hPQ _ (hP l e)⟩ }

/-- A fetch of another image stays open. -/
theorem GivesUp.opened {P : ImageKey → Prop} {c d : Chip} (h : GivesUp P c d) {i : Nat} (hi : i < 4) {f : OpenFetch} (hf : fetchSlot c i = .opened f)
    (hP : ¬P f.image) : fetchSlot d i = .opened f := by
  rcases h.fetches i hi with e | ⟨_, hall⟩
  exacts [e.trans hf, absurd (hall f hf) hP]

/-- A FREE fetch slot stays FREE. -/
theorem GivesUp.free {P : ImageKey → Prop} {c d : Chip} (h : GivesUp P c d) {i : Nat} (hi : i < 4) (hf : fetchSlot c i = .free) :
    fetchSlot d i = .free := by
  rcases h.fetches i hi with e | ⟨e, _⟩
  exacts [e.trans hf, e]

/-- No fetch opens. -/
theorem GivesUp.opened_before {P : ImageKey → Prop} {c d : Chip} (h : GivesUp P c d) {i : Nat} (hi : i < 4) {f : OpenFetch}
    (hf : fetchSlot d i = .opened f) : fetchSlot c i = .opened f := by
  rcases h.fetches i hi with e | ⟨e, _⟩
  · exact e.symm.trans hf
  · rw [e] at hf
    cases hf

/-! ## The parts of a removal -/

theorem lowerOpen_lists (id : Nat) (counted : Bool) (c : Chip) : ∀ p' ∈ (lowerOpen id counted c).peers, ∃ p ∈ c.peers, p'.lists = p.lists := by
  unfold lowerOpen
  split
  · intro p' hp'
    obtain ⟨p, hp, rfl⟩ := List.mem_map.mp hp'
    exact ⟨p, hp, by split <;> rfl⟩
  · exact fun p hp => ⟨p, hp, rfl⟩

theorem lowerOpen_store (id : Nat) (counted : Bool) (c : Chip) : (lowerOpen id counted c).store = c.store ∧ (lowerOpen id counted c).serve = c.serve ∧
    (lowerOpen id counted c).port = c.port ∧ (lowerOpen id counted c).catalog = c.catalog ∧ (lowerOpen id counted c).fetch.slots = c.fetch.slots := by
  unfold lowerOpen
  split <;> simp

/-- A fetch slot that becomes FREE: its peer's open fetches fall, its operations are withdrawn, and nothing of the catalog or the store map changes. -/
theorem freeFetch_does (i peer : Nat) (counted : Bool) (c : Chip) :
    (freeFetch i peer counted c).fetch.slots = c.fetch.slots.set i .free ∧ (freeFetch i peer counted c).catalog = c.catalog ∧
      (freeFetch i peer counted c).serve = c.serve ∧ (freeFetch i peer counted c).port = c.port ∧
      (freeFetch i peer counted c).store = (dropFetchOps i c).store ∧
      ∀ p' ∈ (freeFetch i peer counted c).peers, ∃ p ∈ c.peers, p'.lists = p.lists := by
  refine ⟨by simp [freeFetch, lowerOpen_store, dropFetchOps, withdrawAsk], by simp [freeFetch, lowerOpen_store, dropFetchOps, withdrawAsk],
    by simp [freeFetch, lowerOpen_store, dropFetchOps, withdrawAsk], by simp [freeFetch, lowerOpen_store, dropFetchOps, withdrawAsk],
    by simp [freeFetch, lowerOpen_store, dropFetchOps, withdrawAsk], ?_⟩
  exact lowerOpen_lists peer counted _

theorem release_parts (slot : Nat) (c : Chip) : (release slot c).peers = c.peers ∧ (release slot c).serve = c.serve ∧
    (release slot c).port = c.port ∧ (release slot c).store.checkQueue = c.store.checkQueue ∧ (release slot c).now = c.now := by
  obtain ⟨word, queue, waiting, h, _⟩ := release_does slot c
  rw [h]
  simp [withdrawOps]

theorem setSegState_parts (k : ImageKey) (seg : Nat) (st : SegState) (c : Chip) : (setSegState k seg st c).serve = c.serve ∧
    (setSegState k seg st c).port = c.port ∧ (setSegState k seg st c).store = c.store ∧ (setSegState k seg st c).fetch.slots = c.fetch.slots := by
  simp [setSegState]

theorem rangeList_of_lists {p p' : PeerRecord} (h : p'.lists = p.lists) (k : ImageKey) : rangeList p' k = rangeList p k := by simp [rangeList, h]

/-- R61. A cancelled fetch: its slot is FREE, its store slot on its way to the dirty queue, and only things of its image are given up. -/
theorem cancelFetch_givesUp {i : Nat} {f : OpenFetch} {c : Chip} (hi : fetchSlot c i = .opened f) :
    GivesUp (· = f.image) c (cancelFetch i f c) ∧ fetchSlot (cancelFetch i f c) i = .free ∧ OnItsWay (cancelFetch i f c) f.storeSlot := by
  obtain ⟨hslots, _, hserve, hport, hstore, hpeers⟩ := freeFetch_does i f.peer f.counted c
  have hset : (cancelFetch i f c).fetch.slots = c.fetch.slots.set i .free := by simp [cancelFetch, setSegState_parts, hslots]
  have hfetch := fetchSlot_of_set hset (fetchSlot_opened_lt hi)
  have hway : ∀ x, OnItsWay (release f.storeSlot (freeFetch i f.peer f.counted c)) x → OnItsWay (cancelFetch i f c) x := fun x h => by
    simpa [OnItsWay, cancelFetch, setSegState_parts] using h
  obtain ⟨hslot, hkeep⟩ := release_onItsWay f.storeSlot (freeFetch i f.peer f.counted c)
  refine ⟨?_, by simp [hfetch], hway _ hslot⟩
  constructor
  · simp
  · intro p' hp'
    have hp : p' ∈ (freeFetch i f.peer f.counted c).peers := by simpa [cancelFetch, release_parts] using hp'
    obtain ⟨p, hpc, hl⟩ := hpeers p' hp
    exact ⟨p, hpc, fun k hk => (rangeList_of_lists hl k).trans hk⟩
  · intro x hx
    refine hway x (hkeep x ?_)
    simpa [OnItsWay, hstore, dropFetchOps] using hx
  · intro j _
    rw [hfetch]
    by_cases hj : j = i
    · subst hj
      refine .inr ⟨by simp, fun g hg => ?_⟩
      rw [hi] at hg
      cases hg
      rfl
    · exact .inl (by simp [hj])
  · intro q hq
    exact ⟨q, by simpa [cancelFetch, setSegState_parts, release_parts, hstore, dropFetchOps] using hq, rfl, fun h => h⟩
  · intro j _ e he
    simpa [serveSlot, cancelFetch, setSegState_parts, release_parts, hserve] using he
  · exact .inl (by simp)
  · exact ⟨[], by simp, by simp [pushReports]⟩

theorem cancelFetchOf_givesUp (k : ImageKey) (i : Nat) (c : Chip) : GivesUp (· = k) c (cancelFetchOf k i c) := by
  unfold cancelFetchOf
  split
  · next f hf =>
    split
    · next hk => exact hk ▸ (cancelFetch_givesUp hf).1
    · exact .refl c
  · exact .refl c

/-- R12. After its turn no fetch of the image is open in the slot, and the store slot it had is on its way to the dirty queue. -/
theorem cancelFetchOf_frees {k : ImageKey} {i : Nat} {f : OpenFetch} {c : Chip} (hf : fetchSlot c i = .opened f) (hk : f.image = k) :
    fetchSlot (cancelFetchOf k i c) i = .free ∧ OnItsWay (cancelFetchOf k i c) f.storeSlot := by
  unfold cancelFetchOf
  simp only [hf, hk, if_true]
  exact (cancelFetch_givesUp hf).2

theorem cancelFetches_frees {k : ImageKey} {i : Nat} (hi : i < 4) {xs : List Nat} (hx : i ∈ xs) {f : OpenFetch} {c : Chip}
    (hf : fetchSlot c i = .opened f) (hk : f.image = k) :
    fetchSlot (forEach xs (cancelFetchOf k) c) i = .free ∧ OnItsWay (forEach xs (cancelFetchOf k) c) f.storeSlot := by
  induction xs generalizing c with
  | nil => simp at hx
  | cons x xs ih =>
    have rest : GivesUp (· = k) (cancelFetchOf k x c) (forEach xs (cancelFetchOf k) (cancelFetchOf k x c)) :=
      forEach_keeps .refl .trans (fun j _ c => cancelFetchOf_givesUp k j c) _
    by_cases hxi : x = i
    · subst hxi
      obtain ⟨hfree, hway⟩ := cancelFetchOf_frees hf hk
      exact ⟨rest.free hi hfree, rest.way _ hway⟩
    · have hopen : fetchSlot (cancelFetchOf k x c) i = .opened f := by
        unfold cancelFetchOf
        split
        · next g hg =>
          split
          · have hset : (cancelFetch x g c).fetch.slots = c.fetch.slots.set x .free := by
              simp [cancelFetch, setSegState_parts, (freeFetch_does x g.peer g.counted c).1]
            rw [fetchSlot_of_set hset (fetchSlot_opened_lt hg), if_neg (Ne.symm hxi), hf]
          · exact hf
        · exact hf
      exact ih (by simpa [Ne.symm hxi] using hx) hopen

theorem release_givesUp (P : ImageKey → Prop) (slot : Nat) (c : Chip) : GivesUp P c (release slot c) := by
  obtain ⟨hpeers, hserve, hport, hchecks, hnow⟩ := release_parts slot c
  exact
    { now := hnow
      lists := fun p hp => ⟨p, hpeers ▸ hp, fun _ h => h⟩
      way := (release_onItsWay slot c).2
      fetches := fun i _ => .inl (by simp [fetchSlot])
      checks := fun q hq => ⟨q, hchecks ▸ hq, rfl, fun h => h⟩
      serves := fun i _ e he => by simpa [serveSlot, hserve] using he
      load := .inl (by rw [hport])
      reports := ⟨[], by simp, by rw [hport]; rfl⟩ }

/-- R12. A released list of slots is on its way to the dirty queue. -/
theorem releases_onTheirWay {slot : Nat} {xs : List Nat} (h : slot ∈ xs) (c : Chip) : OnItsWay (forEach xs release c) slot := by
  induction xs generalizing c with
  | nil => simp at h
  | cons x xs ih =>
    rcases List.mem_cons.mp h with rfl | h
    · exact (forEach_keeps (R := GivesUp (fun _ => False)) .refl .trans (fun s _ c => release_givesUp _ s c) (release slot c)).way _
        (release_onItsWay slot c).1
    · exact ih h _

/-! ## Serve slots of the image (R73) -/

theorem pushUrgent_does (f : UrgentFrame) (c : Chip) : ∃ lane, pushUrgent f c = { c with yard := { c.yard with urgent := lane } } := by
  unfold pushUrgent
  dsimp only
  (repeat' split) <;> exact ⟨_, rfl⟩

/-- R73. Giving up a serve slot's read touches waiting reads of the server reader alone, and the operation in progress. -/
theorem giveUpServeRead_does (i : Nat) (c : Chip) :
    ∃ waiting current, giveUpServeRead i c = { c with store := { c.store with waiting := waiting, current := current } } ∧
      ∀ w ∈ c.store.waiting, w.op.client ≠ .serverReader → w ∈ waiting := by
  refine ⟨_, _, rfl, fun w hw hc => List.mem_filter.mpr ⟨hw, ?_⟩⟩
  cases hop : w.op <;> simp_all [StoreOp.client]

/-- R73. A serve slot is ended with its read and a Lacking when it works on an entry that is hit, and is otherwise left alone. -/
theorem endServeIf_does (hit : AskEntry → Bool) (i : Nat) (c : Chip) :
    (endServeIf hit i c = c ∧ ∀ e, (serveSlot c i).entry? = some e → hit e = false) ∨
      ∃ waiting current lane,
        endServeIf hit i c =
            { setServeSlot i .free c with
              store := { c.store with waiting := waiting, current := current }, yard := { c.yard with urgent := lane } } ∧
          ∀ w ∈ c.store.waiting, w.op.client ≠ .serverReader → w ∈ waiting := by
  unfold endServeIf
  split
  · next e he =>
    split
    · obtain ⟨waiting, current, hg, hw⟩ := giveUpServeRead_does i (setServeSlot i .free c)
      obtain ⟨lane, hl⟩ := pushUrgent_does (.reply .lacking e.asker e.image e.segment) (endServe i c)
      exact .inr ⟨waiting, current, lane, by rw [queueReply, hl, endServe, hg]; rfl, hw⟩
    · next hhit => exact .inl ⟨rfl, fun e' he' => by simp_all⟩
  · next hnone => exact .inl ⟨rfl, fun e' he' => by simp_all⟩

theorem endServeIf_serveSlot (hit : AskEntry → Bool) (i : Nat) (c : Chip) (j : Nat) (e : AskEntry)
    (h : (serveSlot (endServeIf hit i c) j).entry? = some e) : (serveSlot c j).entry? = some e ∧ (j = i → hit e = false) := by
  rcases endServeIf_does hit i c with ⟨hsame, hnot⟩ | ⟨waiting, current, lane, hd, _⟩
  · rw [hsame] at h
    exact ⟨h, fun hj => hnot e (hj ▸ h)⟩
  · rw [hd] at h
    have h' : (serveSlot (setServeSlot i .free c) j).entry? = some e := h
    rw [serveSlot_setServeSlot_free] at h'
    split at h'
    · simp [ServeSlot.entry?] at h'
    · next hj => exact ⟨h', fun e => absurd e hj⟩

/-- R73. No serve slot is left on an entry that is hit. -/
theorem endServes_serveSlot (hit : AskEntry → Bool) (c : Chip) (j : Nat) (hj : j < 3) (e : AskEntry)
    (h : (serveSlot (endServes hit c) j).entry? = some e) : (serveSlot c j).entry? = some e ∧ hit e = false := by
  obtain ⟨h2, n2⟩ := endServeIf_serveSlot _ _ _ _ _ h
  obtain ⟨h1, n1⟩ := endServeIf_serveSlot _ _ _ _ _ h2
  obtain ⟨h0, n0⟩ := endServeIf_serveSlot _ _ _ _ _ h1
  refine ⟨h0, ?_⟩
  obtain rfl | rfl | rfl : j = 0 ∨ j = 1 ∨ j = 2 := by omega
  exacts [n0 rfl, n1 rfl, n2 rfl]

theorem endServeIf_givesUp (P : ImageKey → Prop) (hit : AskEntry → Bool) (i : Nat) (c : Chip) : GivesUp P c (endServeIf hit i c) := by
  rcases endServeIf_does hit i c with ⟨hsame, _⟩ | ⟨waiting, current, lane, hd, _⟩
  · rw [hsame]
    exact .refl c
  · have hserves : ∀ j < 3, ∀ e, (serveSlot (endServeIf hit i c) j).entry? = some e → (serveSlot c j).entry? = some e :=
      fun j _ e he => (endServeIf_serveSlot hit i c j e he).1
    rw [hd] at hserves ⊢
    exact
      { now := rfl
        lists := fun p hp => ⟨p, hp, fun _ h => h⟩
        way := fun _ h => h
        fetches := fun _ _ => .inl rfl
        checks := fun q hq => ⟨q, hq, rfl, fun h => h⟩
        serves := hserves
        load := .inl rfl
        reports := ⟨[], by simp, rfl⟩ }

theorem endServes_givesUp (P : ImageKey → Prop) (hit : AskEntry → Bool) (c : Chip) : GivesUp P c (endServes hit c) :=
  ((endServeIf_givesUp P hit 0 c).trans (endServeIf_givesUp P hit 1 _)).trans (endServeIf_givesUp P hit 2 _)

/-! ## The load of the image (R188) -/

theorem releaseLoadSlot_givesUp (P : ImageKey → Prop) (l : Load) (c : Chip) : GivesUp P c (releaseLoadSlot l c) := by
  cases hp : programPending l with
  | false =>
    rw [(releaseLoadSlot_does l c).2 hp]
    exact release_givesUp P _ c
  | true =>
    obtain ⟨waiting, h, _, hw⟩ := (releaseLoadSlot_does l c).1 hp
    rw [h]
    exact { (GivesUp.refl c : GivesUp P c c) with way := fun s => Or.imp_right (hw s) }

/-- R186, R188. An OPEN load of the image ends with detail 3, and its slot is on its way to the dirty queue. -/
theorem dropLoadOf_opened {k : ImageKey} {l : Load} {c : Chip} (h : c.port.load = .opened l) (hk : l.image = k) :
    dropLoadOf k c = endLoad l 3 (releaseLoadSlot l c) := by simp [dropLoadOf, h, hk]

theorem endLoad_givesUp {P : ImageKey → Prop} {l : Load} {c : Chip} (h : c.port.load = .opened l) (hP : P l.image) (detail : Nat) :
    GivesUp P c (endLoad l detail c) :=
  { (GivesUp.refl c : GivesUp P c c) with
    load := .inr ⟨rfl, fun l' hl' => by rw [h] at hl'; cases hl'; exact hP⟩
    reports := ⟨[reportedRecord .loadDone (.segment l.image l.segment) detail { c with port.load := .idle }],
      by simp [reportedRecord, setOffKinds], rfl⟩ }

theorem releaseLoadSlot_port (l : Load) (c : Chip) : (releaseLoadSlot l c).port = c.port := by
  unfold releaseLoadSlot
  split
  exacts [rfl, (release_parts _ c).2.2.1]

theorem dropLoadOf_givesUp (k : ImageKey) (c : Chip) : GivesUp (· = k) c (dropLoadOf k c) := by
  unfold dropLoadOf
  split
  · next l hl =>
    split
    · next hk => exact (releaseLoadSlot_givesUp _ l c).trans (endLoad_givesUp (by rw [releaseLoadSlot_port, hl]) hk 3)
    · exact .refl c
  · exact .refl c

/-! ## The whole removal (R12) -/

/-- R12. The checks of the image lose their record. -/
def orphanChecks (k : ImageKey) (c : Chip) : Chip :=
  { c with store.checkQueue := c.store.checkQueue.map (fun q => if q.image = k then { q with orphan := true } else q) }

/-- R12. The image leaves the peers' lists and the catalog. -/
def forgetImage (k : ImageKey) (c : Chip) : Chip :=
  { c with
    peers := c.peers.map (setRangeList k [])
    catalog.records := c.catalog.records.filter (fun x => x.image != k) }

/-- R12. A removal up to the image's leaving the catalog: its fetches are cancelled, its checks lose their record, its serves end, and its slots are
released. -/
def clearImage (r : ImageRecord) (c : Chip) : Chip :=
  forEach (heldSlots r) release
    (endServes (fun e => e.image == r.image) (orphanChecks r.image (forEach [0, 1, 2, 3] (cancelFetchOf r.image) c)))

theorem removeRecord_eq (r : ImageRecord) (c : Chip) :
    removeRecord r c = askSelection (dropLoadOf r.image (forgetImage r.image (clearImage r c))) := rfl

theorem orphanChecks_givesUp (P : ImageKey → Prop) (k : ImageKey) (c : Chip) : GivesUp P c (orphanChecks k c) :=
  { (GivesUp.refl c : GivesUp P c c) with
    checks := fun q' hq' => by
      obtain ⟨q, hq, rfl⟩ := List.mem_map.mp hq'
      exact ⟨q, hq, by split <;> rfl, fun h => by split <;> simp [h]⟩ }

/-- Looking a key up among the entries whose keys pass a test. -/
theorem lookup_filter_of_key {α β : Type} [DecidableEq α] (p : α → Bool) (x : α) (l : List (α × β)) :
    (l.filter (fun e => p e.1)).lookup x = if p x then l.lookup x else none := by
  induction l with
  | nil => simp
  | cons e l ih =>
    obtain ⟨key, v⟩ := e
    by_cases hx : x = key
    · subst hx
      by_cases hp : p x <;> simp [hp, ih]
    · by_cases hp : p key <;> simp [hp, List.lookup_cons, beq_false_of_ne hx, ih]

/-- A range list that is emptied is empty, and the other lists stand. -/
theorem rangeList_setRangeList_nil (p : PeerRecord) (k k' : ImageKey) : rangeList (setRangeList k [] p) k' = if k' = k then [] else rangeList p k' := by
  unfold rangeList setRangeList
  rw [if_pos rfl, List.nil_append, lookup_filter_of_key (fun key => key != k)]
  by_cases h : k' = k <;> simp [h]

theorem forgetImage_givesUp (P : ImageKey → Prop) (k : ImageKey) (c : Chip) : GivesUp P c (forgetImage k c) :=
  { (GivesUp.refl c : GivesUp P c c) with
    lists := fun p' hp' => by
      obtain ⟨p, hp, rfl⟩ := List.mem_map.mp hp'
      exact ⟨p, hp, fun k' hk => by rw [rangeList_setRangeList_nil]; split <;> simp [hk]⟩ }

theorem cancelFetches_givesUp (k : ImageKey) (xs : List Nat) (c : Chip) : GivesUp (· = k) c (forEach xs (cancelFetchOf k) c) :=
  forEach_keeps .refl .trans (fun i _ c => cancelFetchOf_givesUp k i c) c

theorem releases_givesUp (P : ImageKey → Prop) (xs : List Nat) (c : Chip) : GivesUp P c (forEach xs release c) :=
  forEach_keeps .refl .trans (fun s _ c => release_givesUp P s c) c

theorem clearImage_givesUp (r : ImageRecord) (c : Chip) : GivesUp (· = r.image) c (clearImage r c) :=
  (((cancelFetches_givesUp _ _ c).trans (orphanChecks_givesUp _ _ _)).trans (endServes_givesUp _ _ _)).trans (releases_givesUp _ _ _)

theorem askSelection_givesUp (P : ImageKey → Prop) (c : Chip) : GivesUp P c (askSelection c) :=
  { (GivesUp.refl c : GivesUp P c c) with }

/-- R12. A removal gives up things of its own image alone. -/
theorem removeRecord_givesUp (r : ImageRecord) (c : Chip) : GivesUp (· = r.image) c (removeRecord r c) := by
  rw [removeRecord_eq]
  exact (((clearImage_givesUp r c).trans (forgetImage_givesUp _ _ _)).trans (dropLoadOf_givesUp _ _)).trans (askSelection_givesUp _ _)

/-- R12. After the removal nothing of the image is left in the peers' lists, the fetch slots, the check queue and the serve slots, and its slots are on
their way to the dirty queue. -/
structure Cleared (r : ImageRecord) (c d : Chip) : Prop where
  lists : ∀ p ∈ d.peers, rangeList p r.image = []
  held : ∀ e ∈ r.entries, ∀ slot, e.state = .held slot → OnItsWay d slot
  fetches : ∀ i < 4, ∀ f, fetchSlot c i = .opened f → f.image = r.image → fetchSlot d i = .free ∧ OnItsWay d f.storeSlot
  checks : ∀ q ∈ d.store.checkQueue, q.image = r.image → q.orphan = true
  serves : ∀ i < 3, ∀ e, (serveSlot d i).entry? = some e → e.image ≠ r.image

/-- What was cleared stays so when more is given up. -/
theorem Cleared.after {P : ImageKey → Prop} {r : ImageRecord} {c d e : Chip} (h : Cleared r c d) (k : GivesUp P d e) : Cleared r c e where
  lists p' hp' := by
    obtain ⟨p, hp, hl⟩ := k.lists p' hp'
    exact hl _ (h.lists p hp)
  held x hx slot hs := k.way _ (h.held x hx slot hs)
  fetches i hi f hf hk := ⟨k.free hi (h.fetches i hi f hf hk).1, k.way _ (h.fetches i hi f hf hk).2⟩
  checks q' hq' hk := by
    obtain ⟨q, hq, hi, ho⟩ := k.checks q' hq'
    exact ho (h.checks q hq (hi.symm.trans hk))
  serves i hi x hx := h.serves i hi x (k.serves i hi x hx)

theorem mem_heldSlots {r : ImageRecord} {slot : Nat} : slot ∈ heldSlots r ↔ ∃ e ∈ r.entries, e.state = .held slot := by
  unfold heldSlots
  rw [List.mem_filterMap]
  refine exists_congr fun e => and_congr_right fun _ => ?_
  cases e.state <;> simp

theorem removeRecord_cleared (r : ImageRecord) (c : Chip) : Cleared r c (removeRecord r c) := by
  rw [removeRecord_eq]
  refine Cleared.after ?_ ((dropLoadOf_givesUp r.image _).trans (askSelection_givesUp _ _))
  have hforget := forgetImage_givesUp (· = r.image) r.image (clearImage r c)
  have hrelease := releases_givesUp (· = r.image) (heldSlots r)
    (endServes (fun e => e.image == r.image) (orphanChecks r.image (forEach [0, 1, 2, 3] (cancelFetchOf r.image) c)))
  have hserve := endServes_givesUp (· = r.image) (fun e => e.image == r.image) (orphanChecks r.image (forEach [0, 1, 2, 3] (cancelFetchOf r.image) c))
  have horphan := orphanChecks_givesUp (· = r.image) r.image (forEach [0, 1, 2, 3] (cancelFetchOf r.image) c)
  constructor
  · intro p' hp'
    obtain ⟨p, _, rfl⟩ := List.mem_map.mp hp'
    simp [rangeList_setRangeList_nil]
  · intro e he slot hs
    exact hforget.way _ (releases_onTheirWay (mem_heldSlots.mpr ⟨e, he, hs⟩) _)
  · intro i hi f hf hk
    have hlast := horphan.trans (hserve.trans (hrelease.trans hforget))
    obtain ⟨hfree, hway⟩ := cancelFetches_frees hi (xs := [0, 1, 2, 3]) (by simp; omega) hf hk
    exact ⟨hlast.free hi hfree, hlast.way _ hway⟩
  · intro q' hq' hk
    obtain ⟨q, hq, hi, ho⟩ := (hserve.trans (hrelease.trans hforget)).checks q' hq'
    obtain ⟨q0, _, rfl⟩ := List.mem_map.mp hq
    refine ho ?_
    split
    · rfl
    · next hne => simp_all
  · intro i hi e he hk
    have := (endServes_serveSlot _ _ i hi e ((hrelease.trans hforget).serves i hi e he)).2
    simp [hk] at this

/-! ## The end of the load -/

theorem Reported.after {ring ring' ring'' : List Report} {kind : ReportKind} {subject : Subject} {detail now : Nat}
    (h : Reported ring ring' kind subject detail now) (k : ∃ rs : List Report, (∀ x ∈ rs, x.kind ∈ setOffKinds) ∧ ring'' = pushReports ring' rs) :
    Reported ring ring'' kind subject detail now := by
  obtain ⟨earlier, later, r, e, hk, hs, hd, hu, ht, hl⟩ := h
  obtain ⟨rs, hrs, e'⟩ := k
  refine ⟨earlier, later ++ rs, r, ?_, hk, hs, hd, hu, ht, fun x hx => (List.mem_append.mp hx).elim (hl x) (hrs x)⟩
  rw [e', e]
  simp [pushReports]

theorem Reported.before {ring ring' ring'' : List Report} {kind : ReportKind} {subject : Subject} {detail now : Nat} (k : Grows ring ring')
    (h : Reported ring' ring'' kind subject detail now) : Reported ring ring'' kind subject detail now := by
  obtain ⟨earlier, later, r, e, rest⟩ := h
  obtain ⟨rs, e'⟩ := k
  refine ⟨rs ++ earlier, later, r, ?_, rest⟩
  rw [e, e']
  simp [pushReports]

theorem LoadEnded.after {P : ImageKey → Prop} {c d e : Chip} {l : Load} {detail : Nat} (h : LoadEnded c d l detail) (k : GivesUp P d e) :
    LoadEnded c e l detail := by
  obtain ⟨hl, hr⟩ := h
  refine ⟨?_, hr.after k.reports⟩
  rcases k.load with hk | ⟨hk, _⟩
  exacts [hk.trans hl, hk]

theorem LoadEnded.before {P : ImageKey → Prop} {c d e : Chip} {l : Load} {detail : Nat} (k : GivesUp P c d) (h : LoadEnded d e l detail) :
    LoadEnded c e l detail := by
  obtain ⟨hl, hr⟩ := h
  obtain ⟨rs, _, hrs⟩ := k.reports
  rw [k.now] at hr
  exact ⟨hl, Reported.before ⟨rs, hrs⟩ hr⟩

theorem cancelFetchOf_port (k : ImageKey) (i : Nat) (c : Chip) : (cancelFetchOf k i c).port = c.port := by
  unfold cancelFetchOf
  split
  · split
    · simp [cancelFetch, setSegState_parts, release_parts, freeFetch_does]
    · rfl
  · rfl

theorem endServes_port (hit : AskEntry → Bool) (c : Chip) : (endServes hit c).port = c.port := by
  have turn : ∀ i c, (endServeIf hit i c).port = c.port := fun i c => by
    rcases endServeIf_does hit i c with ⟨h, _⟩ | ⟨_, _, _, h, _⟩ <;> rw [h]
    rfl
  exact (turn _ _).trans ((turn _ _).trans (turn _ _))

theorem clearImage_port (r : ImageRecord) (c : Chip) : (clearImage r c).port = c.port := by
  have h1 := forEach_same (g := Chip.port) (xs := [0, 1, 2, 3]) (fun i _ c => cancelFetchOf_port r.image i c) c
  have h2 := endServes_port (fun e => e.image == r.image) (orphanChecks r.image (forEach [0, 1, 2, 3] (cancelFetchOf r.image) c))
  exact (forEach_same (g := Chip.port) (fun s _ c => (release_parts s c).2.2.1) _).trans (h2.trans h1)

/-- R188. The removal of its record ends an OPEN load, whose slot is on its way to the dirty queue. -/
theorem removeRecord_loadEnded {r : ImageRecord} {c : Chip} {l : Load} (hl : c.port.load = .opened l) (hk : l.image = r.image) :
    LoadEnded c (removeRecord r c) l 3 ∧ OnItsWay (removeRecord r c) l.slot := by
  have hbefore := (clearImage_givesUp r c).trans (forgetImage_givesUp _ r.image _)
  have hload : (forgetImage r.image (clearImage r c)).port.load = .opened l := by
    show (clearImage r c).port.load = _
    rw [clearImage_port, hl]
  rw [removeRecord_eq, dropLoadOf_opened hload hk]
  refine ⟨LoadEnded.before hbefore ⟨rfl, ?_⟩, (releaseLoadSlot_onItsWay l _).1⟩
  have hrel := releaseLoadSlot_givesUp (· = r.image) l (forgetImage r.image (clearImage r c))
  obtain ⟨rs, _, hrs⟩ := hrel.reports
  rw [← hrel.now]
  exact reported_of_report (c := { releaseLoadSlot l (forgetImage r.image (clearImage r c)) with port.load := .idle }) ⟨rs, hrs⟩
    (.of_silent ⟨rfl, rfl, rfl⟩)

/-! ## Programs on a slot of the load alone -/

theorem ProgramsStand.refl (slot : Nat) (c : Chip) : ProgramsStand c c slot := ⟨rfl, fun _ _ _ => ⟨fun h => h, fun h => h⟩⟩

theorem ProgramsStand.trans {slot : Nat} {c d e : Chip} (h : ProgramsStand c d slot) (k : ProgramsStand d e slot) : ProgramsStand c e slot :=
  ⟨k.1.trans h.1, fun w hc hs => ⟨fun hw => (k.2 w hc hs).1 ((h.2 w hc hs).1 hw), fun hw => (k.2 w hc hs).2 ((h.2 w hc hs).2 hw)⟩⟩

theorem ProgramsStand.of_same {slot : Nat} {c d : Chip} (hm : d.store.slotMap = c.store.slotMap)
    (hw : ∀ w, w.op.client = .localPort → w ∈ c.store.waiting → w ∈ d.store.waiting)
    (hq : d.store.portQueue = c.store.portQueue) : ProgramsStand c d slot :=
  ⟨by simp [slotInfo, hm], fun w hc _ => ⟨hw w hc, fun h => hq ▸ h⟩⟩

/-- The word of the map on one slot is not that on another. -/
theorem slotInfo_setSlot_ne {slot s : Nat} (h : slot ≠ s) (i : SlotInfo) (c : Chip) : slotInfo (setSlot s i c) slot = slotInfo c slot := by
  have hword : (if i = unlistedSlot then [] else [(s, i)]).lookup slot = none := by
    split
    · rfl
    · simp [List.lookup_cons, beq_false_of_ne h]
  unfold slotInfo
  rw [setSlot_store_slotMap, setSlotIn, List.lookup_append, List.lookup_append, hword, lookup_filter_of_key (fun k => decide (k < s)),
    lookup_filter_of_key (fun k => decide (s < k))]
  rcases Nat.lt_or_gt_of_ne h with hlt | hgt
  · simp [hlt, Nat.lt_asymm hlt]
  · simp [hgt, Nat.lt_asymm hgt]

theorem release_programsStand {slot s : Nat} (h : slot ≠ s) (c : Chip) : ProgramsStand c (release s c) slot := by
  obtain ⟨word, queue, waiting, e, _⟩ := release_does s c
  rw [e]
  refine ⟨slotInfo_setSlot_ne h word (withdrawOps s c), fun w _ hs => ?_⟩
  have keep : (w.op.slot? != some s || w.op.isCheckRead) = true := by simp [hs, h]
  exact ⟨fun hw => List.mem_filter.mpr ⟨hw, keep⟩, fun hw => List.mem_filter.mpr ⟨hw, keep⟩⟩

/-- No open fetch fills the slot. -/
def NoFetchIn (slot : Nat) (c : Chip) : Prop := ∀ i < 4, ∀ f, fetchSlot c i = .opened f → f.storeSlot ≠ slot

theorem NoFetchIn.after {P : ImageKey → Prop} {slot : Nat} {c d : Chip} (h : NoFetchIn slot c) (k : GivesUp P c d) : NoFetchIn slot d :=
  fun i hi f hf => h i hi f (k.opened_before hi hf)

theorem cancelFetch_programsStand {slot i : Nat} {f : OpenFetch} (c : Chip) (h : f.storeSlot ≠ slot) : ProgramsStand c (cancelFetch i f c) slot := by
  have hfree : ProgramsStand c (freeFetch i f.peer f.counted c) slot := by
    obtain ⟨_, _, _, _, hstore, _⟩ := freeFetch_does i f.peer f.counted c
    refine .of_same (by rw [hstore]; rfl) (fun w hc hw => ?_) (by rw [hstore]; rfl)
    rw [hstore]
    refine List.mem_filter.mpr ⟨hw, ?_⟩
    cases hop : w.op <;> simp_all [StoreOp.client]
  exact (hfree.trans (release_programsStand (Ne.symm h) _)).trans (.of_same rfl (fun _ _ hw => hw) rfl)

theorem cancelFetches_programsStand {slot : Nat} (k : ImageKey) {xs : List Nat} (hxs : ∀ i ∈ xs, i < 4) (c : Chip) (h : NoFetchIn slot c) :
    ProgramsStand c (forEach xs (cancelFetchOf k) c) slot := by
  induction xs generalizing c with
  | nil => exact .refl slot c
  | cons i xs ih =>
    have turn : ProgramsStand c (cancelFetchOf k i c) slot := by
      unfold cancelFetchOf
      split
      · next f hf =>
        split
        exacts [cancelFetch_programsStand c (h i (hxs i (by simp)) f hf), .refl slot c]
      · exact .refl slot c
    exact turn.trans (ih (fun j hj => hxs j (by simp [hj])) _ (h.after (cancelFetchOf_givesUp k i c)))

theorem endServes_programsStand (slot : Nat) (hit : AskEntry → Bool) (c : Chip) : ProgramsStand c (endServes hit c) slot := by
  have turn : ∀ i c, ProgramsStand c (endServeIf hit i c) slot := fun i c => by
    rcases endServeIf_does hit i c with ⟨h, _⟩ | ⟨_, _, _, h, hw⟩ <;> rw [h]
    · exact .refl slot c
    · exact .of_same rfl (fun w hc hm => hw w hm (by rw [hc]; decide)) rfl
  exact ((turn 0 c).trans (turn 1 _)).trans (turn 2 _)

theorem orphanChecks_programsStand (slot : Nat) (k : ImageKey) (c : Chip) : ProgramsStand c (orphanChecks k c) slot :=
  .of_same rfl (fun _ _ h => h) rfl

theorem forgetImage_programsStand (slot : Nat) (k : ImageKey) (c : Chip) : ProgramsStand c (forgetImage k c) slot :=
  .of_same rfl (fun _ _ h => h) rfl

theorem askSelection_programsStand (slot : Nat) (c : Chip) : ProgramsStand c (askSelection c) slot := .of_same rfl (fun _ _ h => h) rfl

/-- R188. A removal leaves the programs on a slot alone where no segment of its record and no open fetch has it, and a load of its image has a program
pending. -/
theorem removeRecord_programsStand {slot : Nat} {r : ImageRecord} {c : Chip} (hheld : ∀ e ∈ r.entries, e.state ≠ .held slot) (hfetch : NoFetchIn slot c)
    (hload : ∀ l, c.port.load = .opened l → l.image = r.image → programPending l = true) : ProgramsStand c (removeRecord r c) slot := by
  have hcancel := cancelFetches_programsStand r.image (xs := [0, 1, 2, 3]) (by simp) c hfetch
  have hclear : ProgramsStand c (clearImage r c) slot := by
    have hrelease : ∀ d, ProgramsStand d (forEach (heldSlots r) release d) slot :=
      forEach_keeps (R := fun c d => ProgramsStand c d slot) (.refl slot) .trans fun s hs c => release_programsStand (fun e => by
        obtain ⟨x, hx, hxs⟩ := mem_heldSlots.mp hs
        exact hheld x hx (e ▸ hxs)) c
    exact ((hcancel.trans (orphanChecks_programsStand slot r.image _)).trans
      (endServes_programsStand slot (fun e => e.image == r.image) _)).trans (hrelease _)
  have hdrop : ProgramsStand (forgetImage r.image (clearImage r c)) (dropLoadOf r.image (forgetImage r.image (clearImage r c))) slot := by
    unfold dropLoadOf
    split
    · next l hl =>
      split
      · next hk =>
        have hl' : c.port.load = .opened l := by rw [← clearImage_port r c]; exact hl
        obtain ⟨waiting, hw, _⟩ := (releaseLoadSlot_does l (forgetImage r.image (clearImage r c))).1 (hload l hl' hk)
        rw [hw]
        exact .of_same rfl (fun _ _ h => h) rfl
      · exact .refl slot _
    · exact .refl slot _
  rw [removeRecord_eq]
  exact ((hclear.trans (forgetImage_programsStand slot _ _)).trans hdrop).trans (askSelection_programsStand slot _)

end Sys2Proof.Machine
end

