-- ==== Sys2Proof/Proofs/AdmittedSet.lean ====
section
/-!
SUPPORT. What an admitted set makes of the catalog (R12): records that stay, new records, and records removed with all that goes with them.
-/
namespace Sys2Proof.Machine

theorem survives_iff (r : ImageRecord) (a : Admitted) : survives r a = true ↔ Stays r a := by
  simp only [survives, Stays, Bool.and_eq_true, beq_iff_eq, Bool.not_eq_true', Bool.and_eq_false_iff, and_assoc]
  refine and_congr_right fun _ => and_congr_right fun _ => and_congr_right fun _ => ?_
  cases r.priv <;> cases a.entry.priv <;> simp

/-! ## The records left by removals -/

/-- The records of the other images are the same in both catalogs. -/
def SameOthers (k : ImageKey) (c d : Chip) : Prop := d.catalog.records.filter (fun x => x.image != k) = c.catalog.records.filter (fun x => x.image != k)

theorem SameOthers.trans {k : ImageKey} {c d e : Chip} (h : SameOthers k c d) (h' : SameOthers k d e) : SameOthers k c e := Eq.trans h' h

theorem SameOthers.of_catalog {k : ImageKey} {c d : Chip} (h : d.catalog = c.catalog) : SameOthers k c d := by rw [SameOthers, h]

theorem setSegState_sameOthers (k : ImageKey) (seg : Nat) (st : SegState) (c : Chip) : SameOthers k c (setSegState k seg st c) := by
  rw [SameOthers, setSegState_records]
  induction c.catalog.records with
  | nil => rfl
  | cons r rs ih => by_cases h : r.image = k <;> simp_all [onImage, withSegState]

theorem cancelFetchOf_sameOthers (k : ImageKey) (i : Nat) (c : Chip) : SameOthers k c (cancelFetchOf k i c) := by
  unfold cancelFetchOf
  split
  · next f _ =>
    split
    · next hk =>
      subst hk
      exact (SameOthers.of_catalog (by simp [freeFetch_does])).trans (setSegState_sameOthers _ _ _ _)
    · exact .of_catalog rfl
  · exact .of_catalog rfl

theorem dropLoadOf_catalog (k : ImageKey) (c : Chip) : (dropLoadOf k c).catalog = c.catalog := by
  have released : ∀ l, (releaseLoadSlot l c).catalog = c.catalog := fun l => by
    unfold releaseLoadSlot
    split <;> simp
  unfold dropLoadOf
  split
  · split
    · simp [endLoad, released]
    · rfl
  · rfl

/-- R12. A removal leaves the records of the other images as they are, and none of its own. -/
theorem removeRecord_records (r : ImageRecord) (c : Chip) :
    (removeRecord r c).catalog.records = c.catalog.records.filter (fun x => x.image != r.image) := by
  have hcancel : SameOthers r.image c (forEach [0, 1, 2, 3] (cancelFetchOf r.image) c) :=
    forEach_keeps (R := SameOthers r.image) (fun _ => .of_catalog rfl) .trans (fun i _ c => cancelFetchOf_sameOthers _ i c) c
  have hclear : SameOthers r.image c (clearImage r c) := by
    refine hcancel.trans (.of_catalog ?_)
    refine (forEach_same (g := Chip.catalog) (fun s _ c => ?_) _).trans ?_
    · simp
    · simp [orphanChecks]
  rw [removeRecord_eq, askSelection_catalog, dropLoadOf_catalog]
  exact hclear

/-- R12. After several removals the records of none of their images are left. -/
theorem removals_records (gone : List ImageRecord) (c : Chip) :
    (forEach gone removeRecord c).catalog.records = c.catalog.records.filter (fun x => gone.all (fun g => x.image != g.image)) := by
  induction gone generalizing c with
  | nil => simp [forEach]
  | cons g gone ih =>
    have := ih (removeRecord g c)
    rw [removeRecord_records, List.filter_filter] at this
    simpa [forEach, Bool.and_comm] using this

/-- Records of different images are different. -/
theorem eq_of_image {records : List ImageRecord} (h : (records.map (fun r => r.image)).Nodup) {r r' : ImageRecord} (hr : r ∈ records) (hr' : r' ∈ records)
    (e : r.image = r'.image) : r = r' := List.inj_on_of_nodup_map h hr hr' e

/-- R12. With one record for an image, the records that stay beside some admitted image are those left. -/
theorem left_iff {admitted : List Admitted} {c : Chip} (h : (c.catalog.records.map (fun r => r.image)).Nodup) (r : ImageRecord) :
    r ∈ (forEach (goneRecords admitted c) removeRecord c).catalog.records ↔ r ∈ c.catalog.records ∧ ∃ a ∈ admitted, Stays r a := by
  rw [removals_records, List.mem_filter]
  refine and_congr_right fun hr => ?_
  simp only [List.all_eq_true, bne_iff_ne, goneRecords, List.mem_filter, Bool.not_eq_true', List.any_eq_false, survives_iff]
  constructor
  · intro hall
    by_contra hnone
    exact hall r ⟨hr, fun a ha hs => hnone ⟨a, ha, hs⟩⟩ rfl
  · rintro ⟨a, ha, hs⟩ g ⟨hg, hgone⟩ e
    obtain rfl := eq_of_image h hr hg e
    exact hgone a ha hs

/-- R12. The record of an admitted image that stays is found again among those left. -/
theorem recordFor_of_stays {records : List ImageRecord} {r : ImageRecord} {a : Admitted} (hr : r ∈ records)
    (hunique : ∀ r' ∈ records, Stays r' a → r' = r) (hs : Stays r a) : recordFor records a = { r with need := a.need, priv := a.entry.priv } := by
  have hsome : (records.find? (fun r => survives r a)).isSome := List.find?_isSome.mpr ⟨r, hr, (survives_iff r a).mpr hs⟩
  obtain ⟨r', hr'⟩ := Option.isSome_iff_exists.mp hsome
  have hs' : survives r' a = true := List.find?_some (p := fun r => survives r a) hr'
  have heq : r' = r := hunique r' (List.mem_of_find?_eq_some hr') ((survives_iff r' a).mp hs')
  simp [recordFor, hr', heq]

theorem recordFor_of_none {records : List ImageRecord} {a : Admitted} (h : ∀ r ∈ records, ¬Stays r a) :
    recordFor records a = freshRecord a.entry a.need := by
  have hnone : records.find? (fun r => survives r a) = none := by
    rw [List.find?_eq_none]
    exact fun r hr hs => h r hr ((survives_iff r a).mp hs)
  simp [recordFor, hnone, newRecord, freshRecord]

/-! ## Several removals -/

theorem forEach_append {α : Type} (f : α → Chip → Chip) (xs ys : List α) (c : Chip) : forEach (xs ++ ys) f c = forEach ys f (forEach xs f c) := by
  simp [forEach]

theorem removals_givesUp {P : ImageKey → Prop} {gone : List ImageRecord} (h : ∀ r ∈ gone, P r.image) (c : Chip) :
    GivesUp P c (forEach gone removeRecord c) :=
  forEach_keeps .refl .trans (fun r hr c => (removeRecord_givesUp r c).mono fun _ hk => hk ▸ h r hr) c

theorem removals_programsStand {slot : Nat} {gone : List ImageRecord} {c : Chip} (hheld : ∀ r ∈ gone, ∀ e ∈ r.entries, e.state ≠ .held slot)
    (hfetch : NoFetchIn slot c) (hload : ∀ l, c.port.load = .opened l → programPending l = true) :
    ProgramsStand c (forEach gone removeRecord c) slot := by
  induction gone generalizing c with
  | nil => exact .refl slot c
  | cons r gone ih =>
    have hgives := removeRecord_givesUp r c
    refine (removeRecord_programsStand (hheld r (by simp)) hfetch fun l hl _ => hload l hl).trans ?_
    refine ih (fun r' hr' => hheld r' (by simp [hr'])) (hfetch.after hgives) fun l hl => ?_
    rcases hgives.load with e | ⟨e, _⟩
    · exact hload l (e.symm.trans hl)
    · rw [e] at hl
      cases hl

/-- R12, R188. Among removals of records of different images each takes with it what goes with its image. -/
theorem removals_removed {gone : List ImageRecord} (hnodup : (gone.map (fun r => r.image)).Nodup) {r : ImageRecord} (hr : r ∈ gone) (c : Chip)
    (hapart : ∀ slot, SlotApart c slot → ∀ r' ∈ gone, ∀ e ∈ r'.entries, e.state ≠ .held slot) :
    RecordRemoved c (forEach gone removeRecord c) r := by
  obtain ⟨pre, post, rfl⟩ := List.append_of_mem hr
  have hne : (∀ r' ∈ pre, r'.image ≠ r.image) ∧ ∀ r' ∈ post, r'.image ≠ r.image := by
    simp only [List.map_append, List.map_cons, List.nodup_append, List.nodup_cons, List.mem_map, List.mem_cons] at hnodup
    obtain ⟨_, ⟨hpost, _⟩, hpre⟩ := hnodup
    exact ⟨fun r' hr' e => hpre _ ⟨r', hr', rfl⟩ _ (.inl rfl) e, fun r' hr' e => hpost ⟨r', hr', e⟩⟩
  have hbefore : GivesUp (· ≠ r.image) c (forEach pre removeRecord c) := removals_givesUp hne.1 c
  have hclear := removeRecord_cleared r (forEach pre removeRecord c)
  have hafter : GivesUp (· ≠ r.image) (removeRecord r (forEach pre removeRecord c)) (forEach (pre ++ r :: post) removeRecord c) := by
    rw [forEach_append]
    exact removals_givesUp hne.2 _
  obtain ⟨hlists, hheld, hfetches, hchecks, hserves⟩ := hclear.after hafter
  refine ⟨hlists, fun e he slot hs => hheld e he slot hs, fun i hi f hf hk => ?_, hchecks, hserves, fun l hl hk => ?_⟩
  · exact hfetches i hi f (hbefore.opened hi hf (by simpa using hk)) hk
  · have hload : (forEach pre removeRecord c).port.load = .opened l := by
      rcases hbefore.load with e | ⟨_, hall⟩
      exacts [e.trans hl, absurd hk (hall l hl)]
    obtain ⟨hended, hway⟩ := removeRecord_loadEnded hload hk
    refine ⟨LoadEnded.before hbefore (hended.after hafter), hafter.way _ hway, fun hpending hslot => ?_⟩
    refine removals_programsStand (hapart _ hslot) hslot.2 fun l' hl' => ?_
    rw [hl] at hl'
    cases hl'
    simpa [programPending] using hpending

/-- R12. An admitted set: its records in its order, those that stay updated and the others new; records without a place in it are removed. -/
theorem applyAdmission_does (c : Chip) (admitted : List Admitted) (hnodup : (c.catalog.records.map (fun r => r.image)).Nodup) :
    (applyAdmission admitted c).fetch.selectionAsked = true ∧ (applyAdmission admitted c).catalog.records.length = admitted.length ∧
      (∀ (i : Nat) (a : Admitted), admitted[i]? = some a →
        (∀ r ∈ c.catalog.records, Stays r a →
            (applyAdmission admitted c).catalog.records[i]? = some { r with need := a.need, priv := a.entry.priv }) ∧
          ((∀ r ∈ c.catalog.records, ¬Stays r a) → (applyAdmission admitted c).catalog.records[i]? = some (freshRecord a.entry a.need))) ∧
      ∀ r ∈ c.catalog.records, (∀ a ∈ admitted, ¬Stays r a) → RecordRemoved c (applyAdmission admitted c) r := by
  refine ⟨rfl, by simp [applyAdmission_records], fun i a ha => ⟨fun r hr hs => ?_, fun hnone => ?_⟩, fun r hr hnone => ?_⟩
  · rw [applyAdmission_records, List.getElem?_map, ha, Option.map_some]
    refine congrArg some (recordFor_of_stays ((left_iff hnodup r).mpr ⟨hr, a, List.mem_of_getElem? ha, hs⟩) (fun r' hr' hs' => ?_) hs)
    exact eq_of_image hnodup ((left_iff hnodup r').mp hr').1 hr (hs'.1.trans hs.1.symm)
  · rw [applyAdmission_records, List.getElem?_map, ha, Option.map_some]
    exact congrArg some (recordFor_of_none fun r' hr' => hnone r' ((left_iff hnodup r').mp hr').1)
  · have hsub : (goneRecords admitted c).Sublist c.catalog.records := List.filter_sublist
    have hgone : r ∈ goneRecords admitted c := List.mem_filter.mpr ⟨hr, by simpa [survives_iff] using hnone⟩
    exact removals_removed (hnodup.sublist (hsub.map _)) hgone c fun slot hslot r' hr' => hslot.1 r' (hsub.subset hr')

end Sys2Proof.Machine
end

