-- ==== Sys2Proof/Proofs/PlanBodies.lean ====
section
/-!
SUPPORT. The bytes of a plan body (R2, R193): reading fields back, a whole body, and the body an origin writes (R10).
-/
namespace Sys2Proof.Machine

/-! ## Fields -/

theorem byteAt_append_right (xs ys : List Byte) (i : Nat) : byteAt (xs ++ ys) (xs.length + i) = byteAt ys i := by
  simp [byteAt, List.getD_eq_getElem?_getD, List.getElem?_append_right]

theorem be16_put16 (n : Nat) (ys : List Byte) : be16 (put16 n ++ ys) 0 = n % 65536 := by
  simp only [be16, byteAt, put16, List.cons_append, List.nil_append, List.getD_cons_zero, List.getD_cons_succ, BitVec.toNat_ofNat]
  omega

theorem be32_put32 (n : Nat) (ys : List Byte) : be32 (put32 n ++ ys) 0 = n % 4294967296 := by
  simp only [be32, be16, byteAt, put32, put16, List.cons_append, List.nil_append, List.getD_cons_zero, List.getD_cons_succ, BitVec.toNat_ofNat]
  omega

theorem be32_append_right (xs ys : List Byte) : be32 (xs ++ ys) xs.length = be32 ys 0 := by
  have h := byteAt_append_right xs ys
  have h0 : byteAt (xs ++ ys) xs.length = byteAt ys 0 := h 0
  simp only [be32, be16, Nat.add_assoc, h, h0]

@[simp] theorem put16_length (n : Nat) : (put16 n).length = 2 := rfl
@[simp] theorem put32_length (n : Nat) : (put32 n).length = 4 := rfl

/-! ## A whole body (R8, R193) -/

/-- R193. Of bytes exactly as long as their entry count implies, the whole body is all of them, when the plan CRC-32 is right. -/
theorem wholePlanBody_exact {bs : List Byte} (hcount : byteAt bs 6 ≤ 16) (hlen : bs.length = 11 + 26 * byteAt bs 6) :
    wholePlanBody bs = if crc32 (bs.take (bs.length - 4)) = BitVec.ofNat 32 (be32 bs (bs.length - 4)) then some bs else none := by
  have hguard : (decide (bs.length < 11) || decide (16 < byteAt bs 6) || decide (bs.length < bs.length)) = false := by
    simp only [Bool.or_eq_false_iff, decide_eq_false_iff_not]
    omega
  simp only [wholePlanBody, planBodyLength, ← hlen, hguard, Bool.false_eq_true, if_false, List.take_length]

/-! ## The body an origin writes (R10) -/

theorem authoredEntries_length {n : Nat} {bs : List Byte} (h : bs.length = 26 * n) : (authoredEntries n bs).length = 26 * n := by
  induction n generalizing bs with
  | zero => rfl
  | succ n ih =>
    have := ih (bs := bs.drop 26) (by rw [List.length_drop]; omega)
    simp only [authoredEntries, slice, List.length_append, List.length_cons, List.length_take, List.length_drop, List.length_replicate, this]
    omega

/-- R2, log 57. Byte `i` of the entries an origin stores: pads and unnamed flag bits zero, the rest as given. -/
theorem authoredEntries_getElem? {n : Nat} {bs : List Byte} (h : bs.length = 26 * n) {i : Nat} (hi : i < 26 * n) :
    (authoredEntries n bs)[i]? = some (if i % 26 = 12 then bs.getD i 0 &&& 7 else if i % 26 < 19 then bs.getD i 0 else 0) := by
  induction n generalizing bs i with
  | zero => omega
  | succ n ih =>
    have htake : (bs.take 12).length = 12 := by rw [List.length_take]; omega
    have hslice : (slice bs 13 6).length = 6 := by rw [slice, List.length_take, List.length_drop]; omega
    have hget : ∀ j, j < 26 * (n + 1) → bs[j]? = some (bs.getD j 0) := fun j hj => by
      rw [List.getD_eq_getElem?_getD, List.getElem?_eq_getElem (by omega), Option.getD_some]
    unfold authoredEntries
    obtain hlt | rfl | hlt | hlt | hge : i < 12 ∨ i = 12 ∨ (13 ≤ i ∧ i < 19) ∨ (19 ≤ i ∧ i < 26) ∨ 26 ≤ i := by omega
    · rw [List.getElem?_append_left (by omega), List.getElem?_take_of_lt hlt, hget i hi, Nat.mod_eq_of_lt (by omega : i < 26), if_neg (by omega),
        if_pos (by omega)]
    · rw [List.getElem?_append_right (by omega), htake]
      rfl
    · obtain ⟨j, rfl⟩ : ∃ j, i = 13 + j := ⟨i - 13, by omega⟩
      rw [List.getElem?_append_right (by omega), htake, show 13 + j - 12 = j + 1 by omega, List.getElem?_cons_succ, List.getElem?_append_left (by omega),
        slice, List.getElem?_take_of_lt (by omega), List.getElem?_drop, hget _ hi, Nat.mod_eq_of_lt (by omega : 13 + j < 26), if_neg (by omega),
        if_pos (by omega)]
    · obtain ⟨j, rfl⟩ : ∃ j, i = 19 + j := ⟨i - 19, by omega⟩
      rw [List.getElem?_append_right (by omega), htake, show 19 + j - 12 = (6 + j) + 1 by omega, List.getElem?_cons_succ,
        List.getElem?_append_right (by omega), hslice, show 6 + j - 6 = j by omega, List.getElem?_append_left (by simp; omega),
        List.getElem?_replicate_of_lt (by omega), Nat.mod_eq_of_lt (by omega : 19 + j < 26), if_neg (by omega), if_neg (by omega)]
      rfl
    · obtain ⟨j, rfl⟩ : ∃ j, i = 26 + j := ⟨i - 26, by omega⟩
      have hdrop : (bs.drop 26).getD j 0 = bs.getD (26 + j) 0 := by simp [List.getD_eq_getElem?_getD]
      have := ih (bs := bs.drop 26) (i := j) (by rw [List.length_drop]; omega) (by omega)
      rw [List.getElem?_append_right (by omega), htake, show 26 + j - 12 = (6 + (7 + j)) + 1 by omega, List.getElem?_cons_succ,
        List.getElem?_append_right (by omega), hslice, show 6 + (7 + j) - 6 = 7 + j by omega, List.getElem?_append_right (by simp), List.length_replicate,
        show 7 + j - 7 = j by omega, this, hdrop, Nat.add_mod_left]

/-- What a plan body authored by an origin begins with, up to its CRC-32. -/
def planHead (author serial count : Nat) (entries : List Byte) : List Byte := put16 author ++ put32 serial ++ put8 count ++ authoredEntries count entries

theorem buildPlanBody_eq (author serial count : Nat) (entries : List Byte) :
    buildPlanBody author serial count entries = planHead author serial count entries ++ put32 (crc32 (planHead author serial count entries)).toNat := rfl

theorem planHead_length {author serial count : Nat} {entries : List Byte} (h : entries.length = 26 * count) :
    (planHead author serial count entries).length = 7 + 26 * count := by
  simp [planHead, put8, authoredEntries_length h]
  omega

/-- R10. The body an origin writes is whole: its count, its length and its CRC-32 are right. -/
theorem buildPlanBody_whole {author serial count : Nat} {entries : List Byte} (hcount : count ≤ 16) (h : entries.length = 26 * count) :
    wholePlanBody (buildPlanBody author serial count entries) = some (buildPlanBody author serial count entries) := by
  have hhead := planHead_length (author := author) (serial := serial) h
  have hbyte : byteAt (buildPlanBody author serial count entries) 6 = count := by
    have : byteAt (buildPlanBody author serial count entries) 6 = (BitVec.ofNat 8 count).toNat := rfl
    rw [this, BitVec.toNat_ofNat]
    omega
  have hlen : (buildPlanBody author serial count entries).length = (planHead author serial count entries).length + 4 := by
    rw [buildPlanBody_eq, List.length_append, put32_length]
  have hcrc : be32 (buildPlanBody author serial count entries) (planHead author serial count entries).length =
      (crc32 (planHead author serial count entries)).toNat := by
    rw [buildPlanBody_eq, be32_append_right, ← List.append_nil (put32 _), be32_put32]
    exact Nat.mod_eq_of_lt (crc32 _).isLt
  rw [wholePlanBody_exact (by omega) (by omega), hlen, Nat.add_sub_cancel, hcrc, if_pos]
  rw [buildPlanBody_eq, List.take_left, BitVec.ofNat_toNat, BitVec.setWidth_eq]

theorem buildPlanBody_serial (author serial count : Nat) (entries : List Byte) (h : serial < 4294967296) :
    planSerial (buildPlanBody author serial count entries) = serial := by
  have : planSerial (buildPlanBody author serial count entries) =
      be32 (put16 author ++ (put32 serial ++ (put8 count ++ authoredEntries count entries ++
        put32 (crc32 (planHead author serial count entries)).toNat))) (put16 author).length := by
    simp [planSerial, buildPlanBody_eq, planHead]
  rw [this, be32_append_right, be32_put32, Nat.mod_eq_of_lt h]

theorem buildPlanBody_author (author serial count : Nat) (entries : List Byte) :
    planAuthor (buildPlanBody author serial count entries) = author % 65536 := by
  rw [planAuthor, buildPlanBody_eq, planHead]
  simp only [List.append_assoc]
  exact be16_put16 _ _

end Sys2Proof.Machine
end

