-- ==== Sys2Proof/Proofs/Adoption.lean ====
section
/-!
SUPPORT. The adoption of a plan body (R5): the persist it asks for (R8), the admission it runs (R11, R12), and what it leaves standing; by a Plan frame (R4)
and by LOAD_PLAN (R10).
-/
namespace Sys2Proof.Machine

theorem Appended.after {ring ring' ring'' : List Report} {kind : ReportKind} {subject : Subject} {detail now : Nat}
    (h : Appended ring ring' kind subject detail now) (k : Grows ring' ring'') : Appended ring ring'' kind subject detail now := by
  obtain ⟨earlier, later, r, e, rest⟩ := h
  obtain ⟨rs, e'⟩ := k
  refine ⟨earlier, later ++ rs, r, ?_, rest⟩
  rw [e', e]
  simp [pushReports]

theorem Appended.before {ring ring' ring'' : List Report} {kind : ReportKind} {subject : Subject} {detail now : Nat} (k : Grows ring ring')
    (h : Appended ring' ring'' kind subject detail now) : Appended ring ring'' kind subject detail now := by
  obtain ⟨earlier, later, r, e, rest⟩ := h
  obtain ⟨rs, e'⟩ := k
  refine ⟨rs ++ earlier, later, r, ?_, rest⟩
  rw [e, e']
  simp [pushReports]

/-! ## Admission's frame -/

/-- The standing part but for the load, which a removal can end (R188). -/
def StandsButLoad (c d : Chip) : Prop := standing d = { standing c with load := d.port.load }

theorem StandsButLoad.of_stands {c d : Chip} (h : Stands c d) : StandsButLoad c d := by
  simp [StandsButLoad, standing, h]

theorem StandsButLoad.trans {c d e : Chip} (h : StandsButLoad c d) (k : StandsButLoad d e) : StandsButLoad c e := by
  unfold StandsButLoad at *
  rw [k, h]

theorem removeRecord_standsButLoad (r : ImageRecord) (c : Chip) : StandsButLoad c (removeRecord r c) := by
  have hcancel : ∀ k c, Stands c (forEach [0, 1, 2, 3] (cancelFetchOf k) c) := fun k c => .of_standing <|
    forEach_same (g := standing) (fun i _ c => standing_of_stands (by
      unfold cancelFetchOf
      (repeat' split) <;> simp [Stands])) c
  have hclear : Stands c (clearImage r c) := by
    refine .of_standing ((forEach_same (g := standing) (fun s _ c => standing_of_stands (release_keeps s c)) _).trans ?_)
    rw [standing_of_stands (endServes_keeps _ _)]
    exact standing_of_stands (hcancel r.image c)
  have hforget : Stands (clearImage r c) (forgetImage r.image (clearImage r c)) := by simp [Stands, forgetImage]
  have hdrop : ∀ k c, StandsButLoad c (dropLoadOf k c) := fun k c => by
    have released : ∀ l, Stands c (releaseLoadSlot l c) := fun l => by
      unfold releaseLoadSlot
      split <;> simp [Stands]
    unfold dropLoadOf
    split
    · next l _ =>
      split
      · have := released l
        simp [StandsButLoad, standing, endLoad, this]
      · exact .of_stands (by simp [Stands])
    · exact .of_stands (by simp [Stands])
  rw [removeRecord_eq]
  exact (((StandsButLoad.of_stands hclear).trans (.of_stands hforget)).trans (hdrop r.image _)).trans (.of_stands (askSelection_quiet _).1.1)

theorem applyAdmission_standsButLoad (admitted : List Admitted) (c : Chip) : StandsButLoad c (applyAdmission admitted c) :=
  forEach_keeps (R := StandsButLoad) (xs := goneRecords admitted c) (fun c => .of_stands (by simp [Stands])) .trans
    (fun r _ c => removeRecord_standsButLoad r c) c

theorem applyAdmission_grows (admitted : List Admitted) (c : Chip) : Grows c.port.reports (applyAdmission admitted c).port.reports := by
  obtain ⟨rs, _, h⟩ := (removals_givesUp (P := fun _ => True) (gone := goneRecords admitted c) (fun _ _ => trivial) c).reports
  exact ⟨rs, h⟩

theorem takeIn_standsButLoad (order : List Admitted) (c : Chip) : StandsButLoad c (takeIn order c) :=
  (applyAdmission_standsButLoad (admittedSet (liveEntries c) order) c).trans (.of_stands (by simp [Stands, takeIn]))

/-- R11. A run with more than 12 candidates appends CATALOG_FULL with the number left out. -/
theorem takeIn_reports (order : List Admitted) (c : Chip) :
    Grows c.port.reports (takeIn order c).port.reports ∧
      (12 < order.length → Appended c.port.reports (takeIn order c).port.reports .catalogFull .none (order.length - 12) c.now) := by
  have hgrows := applyAdmission_grows (admittedSet (liveEntries c) order) c
  have hnow : (applyAdmission (admittedSet (liveEntries c) order) c).now = c.now := congrArg Standing.now (applyAdmission_standsButLoad _ c)
  unfold takeIn reportFull
  split
  · next hfull =>
    have h : Grows (report .catalogFull .none (order.length - 12) (applyAdmission (admittedSet (liveEntries c) order) c)).port.reports
        (evaluateWaiting (report .catalogFull .none (order.length - 12) (applyAdmission (admittedSet (liveEntries c) order) c))).port.reports :=
      .of_eq (by simp)
    exact ⟨(hgrows.trans (report_grows _ _ _ _)).trans h, fun _ => hnow ▸ appended_of_report hgrows h⟩
  · next hfull => exact ⟨hgrows.trans (.of_eq (by simp)), fun h => absurd h hfull⟩

theorem admission_reports (c : Chip) :
    Grows c.port.reports (admission c).port.reports ∧
      (12 < (admissionPasses c.role c.seq.units c.port.config (liveEntries c)).length →
        Appended c.port.reports (admission c).port.reports .catalogFull .none
          ((admissionPasses c.role c.seq.units c.port.config (liveEntries c)).length - 12) c.now) := by
  have hlen : (admissionOrder c).length = (admissionPasses c.role c.seq.units c.port.config (liveEntries c)).length := by simp [admissionOrder_eq]
  rw [← hlen]
  exact takeIn_reports (admissionOrder c) c

/-! ## The persist (R8) -/

/-- R8. The write of the held body begins: into the next position, or with an erase of slot 1 when none is left. -/
theorem startPersist_does (c : Chip) :
    ∃ queue, startPersist c =
      { c with
        plans.persist := if c.plans.nextPosition < 16 then .writing c.plans.body c.plans.nextPosition 0 false else .writing c.plans.body 0 0 true
        store := { c.store with portQueue := queue } } := by
  unfold startPersist
  split <;> exact ⟨_, rfl⟩

/-- R8, log 14. An adoption's persist request: noted while a write goes on or slot 1 is unread, and otherwise the write of the held body begins. Of the chip
it changes the persist fields and what the local port client is asked for. -/
theorem persistRequest_does (c : Chip) :
    ∃ persist noted queue, persistRequest c =
        { c with plans := { c.plans with persist := persist, persistNoted := noted }, store := { c.store with portQueue := queue } } ∧
      (∀ b p i e, c.plans.persist = .writing b p i e → persist = .writing b p i e ∧ noted = true) ∧
      (c.plans.persist = .idle → c.store.scanPhase = .system → persist = .idle ∧ noted = true) ∧
      (c.plans.persist = .idle → c.store.scanPhase ≠ .system →
        persist = if c.plans.nextPosition < 16 then .writing c.plans.body c.plans.nextPosition 0 false else .writing c.plans.body 0 0 true) := by
  unfold persistRequest
  split
  · next hp =>
    exact ⟨c.plans.persist, true, c.store.portQueue, rfl, fun _ _ _ _ h => ⟨h, rfl⟩, by simp [hp], by simp [hp]⟩
  · next hp =>
    split
    · next hs => exact ⟨c.plans.persist, true, c.store.portQueue, rfl, by simp [hp], fun h _ => ⟨h, rfl⟩, fun _ h => absurd hs h⟩
    · next hs =>
      obtain ⟨queue, h⟩ := startPersist_does c
      exact ⟨_, c.plans.persistNoted, queue, h, by simp [hp], fun _ h => absurd h hs, fun _ _ => rfl⟩

/-! ## The units (R5, R139, R155) -/

theorem replanUnits_does (c : Chip) : Stands c (replanUnits c) ∧ Unmoved c (replanUnits c) ∧ Grows c.port.reports (replanUnits c).port.reports := by
  have hselect : ∀ c, Stands c (selectUnits c) ∧ Unmoved c (selectUnits c) ∧ Adds c (selectUnits c) := fun c =>
    ⟨.of_standing (forEach_same (g := standing) (fun a _ c => standing_of_stands (selectUnit_keeps a c)) c),
      ⟨forEach_same (g := Chip.catalog) (fun a _ c => (selectUnit_unmoved a c).1) c,
        forEach_same (g := fun c => c.fetch.slots) (fun a _ c => (selectUnit_unmoved a c).2.1) c,
        forEach_same (g := fun c => c.fetch.asks) (fun a _ c => (selectUnit_unmoved a c).2.2) c⟩,
      forEach_keeps (R := Adds) Adds.refl Adds.trans (fun a _ c => selectUnit_adds a c) c⟩
  have hjob : ∀ c, Stands c (replanJob c) ∧ Unmoved c (replanJob c) ∧ Adds c (replanJob c) := fun c => by
    have cancelled : Stands c (cancelJob c) ∧ Unmoved c (cancelJob c) ∧ Adds c (cancelJob c) :=
      ⟨cancelJob_keeps c, cancelJob_unmoved c, cancelJob_adds c⟩
    have same : Stands c c ∧ Unmoved c c ∧ Adds c c := ⟨by simp [Stands], by simp [Unmoved], .refl c⟩
    unfold replanJob
    split
    · exact same
    · split
      · exact same
      · split
        · split
          exacts [⟨by simp [Stands], by simp [Unmoved], .of_silent (by simp [Silent])⟩, cancelled]
        all_goals exact cancelled
  obtain ⟨hs, hu, ha⟩ := hselect { c with seq.units := c.seq.units.map (fun u => { u with deferralReported := false }) }
  obtain ⟨ks, ku, ka⟩ := hjob (selectUnits { c with seq.units := c.seq.units.map (fun u => { u with deferralReported := false }) })
  refine ⟨.of_standing ((standing_of_stands ks).trans (standing_of_stands hs)), ?_, (ha.trans ka).grows⟩
  exact ⟨ku.1.trans hu.1, ku.2.1.trans hu.2.1, ku.2.2.trans hu.2.2⟩

/-! ## Adoption (R5) -/

theorem inertCount_of_body {c d : Chip} (h : d.plans.body = c.plans.body) : inertCount d = inertCount c := by
  simp [inertCount, heldEntries, liveEntries, h]

/-- R5. What the adoption of a body makes of a chip. -/
structure Adopted (body : List Byte) (c d : Chip) : Prop where
  stands : standing d = { standing c with plans := d.plans, load := d.port.load }
  held : d.plans.body = body
  relay : d.plans.relayPending = true
  next : d.plans.nextPosition = c.plans.nextPosition
  whileWriting : ∀ b p i e, c.plans.persist = .writing b p i e → d.plans.persist = .writing b p i e ∧ d.plans.persistNoted = true
  whileUnread : c.plans.persist = .idle → c.store.scanPhase = .system → d.plans.persist = .idle ∧ d.plans.persistNoted = true
  whileIdle : c.plans.persist = .idle → c.store.scanPhase ≠ .system →
    d.plans.persist = if c.plans.nextPosition < 16 then .writing body c.plans.nextPosition 0 false else .writing body 0 0 true
  records : d.catalog.records.map recordKey = admittedKeys c.role c.seq.units c.port.config (liveOf body)
  reported : Reported c.port.reports d.port.reports .planAdopted (.number (planAuthor body)) (inertCount d) c.now
  full : 12 < (admissionPasses c.role c.seq.units c.port.config (liveOf body)).length →
    Appended c.port.reports d.port.reports .catalogFull .none ((admissionPasses c.role c.seq.units c.port.config (liveOf body)).length - 12) c.now

/-- R5. The chip with the body held, its persist asked for and its relay pending, for which admission then runs. -/
def holdingPlan (body : List Byte) (c : Chip) : Chip := { persistRequest { c with plans.body := body } with plans.relayPending := true }

/-- R5, R8. The body is held with its relay pending, and persisted or noted; nothing else of what admission reads changes. -/
theorem holdingPlan_does (body : List Byte) (c : Chip) :
    standing (holdingPlan body c) = { standing c with plans := (holdingPlan body c).plans } ∧ (holdingPlan body c).seq = c.seq ∧
      (holdingPlan body c).port = c.port ∧
      ∃ persist noted, (holdingPlan body c).plans = { c.plans with body := body, relayPending := true, persist := persist, persistNoted := noted } ∧
        (∀ b p i e, c.plans.persist = .writing b p i e → persist = .writing b p i e ∧ noted = true) ∧
        (c.plans.persist = .idle → c.store.scanPhase = .system → persist = .idle ∧ noted = true) ∧
        (c.plans.persist = .idle → c.store.scanPhase ≠ .system →
          persist = if c.plans.nextPosition < 16 then .writing body c.plans.nextPosition 0 false else .writing body 0 0 true) := by
  obtain ⟨persist, noted, queue, h, clauses⟩ := persistRequest_does { c with plans.body := body }
  rw [holdingPlan, h]
  exact ⟨rfl, rfl, rfl, persist, noted, rfl, clauses⟩

theorem adoptPlan_eq (body : List Byte) (c : Chip) :
    adoptPlan body c =
      report .planAdopted (.number (planAuthor body)) (inertCount (replanUnits (admission (holdingPlan body c))))
        (replanUnits (admission (holdingPlan body c))) := rfl

theorem adoptPlan_adopted (body : List Byte) (c : Chip) : Adopted body c (adoptPlan body c) := by
  obtain ⟨hstand, hseq, hport, persist, noted, hheld, hwriting, hunread, hidle⟩ := holdingPlan_does body c
  have hlive : liveEntries (holdingPlan body c) = liveOf body := by rw [liveEntries, hheld]
  have hadmit : StandsButLoad (holdingPlan body c) (admission (holdingPlan body c)) := takeIn_standsButLoad _ _
  have hkeys := admission_recordKeys (holdingPlan body c)
  obtain ⟨hgrows, hfull⟩ := admission_reports (holdingPlan body c)
  obtain ⟨hreplan, hunmoved, hadds⟩ := replanUnits_does (admission (holdingPlan body c))
  rw [adoptPlan_eq]
  generalize replanUnits (admission (holdingPlan body c)) = d at *
  generalize admission (holdingPlan body c) = a at *
  generalize holdingPlan body c = h at *
  have hall : standing d = { standing c with plans := d.plans, load := d.port.load } := by
    have hd : StandsButLoad h d := hadmit.trans (.of_stands hreplan)
    have hplans : d.plans = h.plans := congrArg Standing.plans hd
    rw [hd, hstand, hplans]
  have hplans : d.plans = { c.plans with body := body, relayPending := true, persist := persist, persistNoted := noted } := by
    rw [← hheld]
    exact (congrArg Standing.plans (standing_of_stands hreplan)).trans (congrArg Standing.plans hadmit)
  have hrole : h.role = c.role := congrArg Standing.role hstand
  have hnow : h.now = c.now := congrArg Standing.now hstand
  have hdnow : d.now = c.now := congrArg Standing.now hall
  rw [hport] at hgrows
  rw [hrole, hseq, hport, hlive, hnow] at hfull
  rw [hrole, hseq, hport, hlive, ← hunmoved.1] at hkeys
  exact
    { stands := hall
      held := by rw [report_plans, hplans]
      relay := by rw [report_plans, hplans]
      next := by rw [report_plans, hplans]
      whileWriting := by rw [report_plans, hplans]; exact hwriting
      whileUnread := by rw [report_plans, hplans]; exact hunread
      whileIdle := by rw [report_plans, hplans]; exact hidle
      records := by rw [report_catalog]; exact hkeys
      reported := by
        rw [inertCount_of_body (d := report _ _ _ d) (by rw [report_plans]), ← hdnow]
        exact reported_of_report (hgrows.trans hadds) (Adds.refl _)
      full := fun hlen => (hfull hlen).after (hadds.trans (report_grows _ _ _ _)) }

/-! ## By a Plan frame (R4) -/

/-- R79. An accepted Plan frame carries at most 16 entries, and exactly the bytes that its entry count implies. -/
theorem accepts_plan_payload {c : Chip} {frame : List Byte} {f : RxFrame} (h : Accepts c .plan frame f) :
    byteAt f.payload 6 ≤ 16 ∧ f.payload.length = 11 + 26 * byteAt f.payload 6 := by
  obtain ⟨_, haccept, hkind⟩ := h
  have hok : payloadLengthOk f.kind f.payload = true := by
    unfold acceptFrame at haccept
    dsimp only at haccept
    (repeat' split at haccept) <;> simp_all
    all_goals (subst haccept; simp_all)
  rw [hkind] at hok
  simp only [payloadLengthOk, Bool.and_eq_true, decide_eq_true_eq, beq_iff_eq] at hok
  exact ⟨hok.1.2, hok.2⟩

/-- R4. The conditions under which a Plan frame is adopted. -/
def PlanFits (c : Chip) (f : RxFrame) : Prop :=
  c.role = .busStation ∧ f.originFlag = true ∧
    crc32 (f.payload.take (f.payload.length - 4)) = BitVec.ofNat 32 (be32 f.payload (f.payload.length - 4)) ∧ heldSerial c < be32 f.payload 2

theorem onPlan_of_fits {c d : Chip} {frame : List Byte} {f : RxFrame} (h : Accepts c .plan frame f) (hfits : PlanFits d f) :
    onPlan f.originFlag f.payload d = adoptPlan f.payload d := by
  obtain ⟨hrole, horigin, hcrc, hserial⟩ := hfits
  obtain ⟨hcount, hlen⟩ := accepts_plan_payload h
  have hserial' : heldSerial d < planSerial f.payload := hserial
  simp [onPlan, hrole, horigin, wholePlanBody_exact hcount hlen, hcrc, hserial']

theorem onPlan_of_not_fits {c d : Chip} {frame : List Byte} {f : RxFrame} (h : Accepts c .plan frame f) (hfits : ¬PlanFits d f) :
    onPlan f.originFlag f.payload d = d := by
  obtain ⟨hcount, hlen⟩ := accepts_plan_payload h
  unfold onPlan
  rw [wholePlanBody_exact hcount hlen]
  split
  · next hro =>
    rw [Bool.and_eq_true, decide_eq_true_eq] at hro
    by_cases hcrc : crc32 (f.payload.take (f.payload.length - 4)) = BitVec.ofNat 32 (be32 f.payload (f.payload.length - 4))
    · have hserial : ¬heldSerial d < planSerial f.payload := fun hs => hfits ⟨hro.1, hro.2, hcrc, hs⟩
      simp [hcrc, hserial]
    · simp [hcrc]
  · rfl

/-- What stood before an adoption may have come from a chip with the same standing part and units. -/
theorem Adopted.before {body : List Byte} {c d e : Chip} (hs : Stands c d) (hseq : d.seq = c.seq) (hg : Grows c.port.reports d.port.reports)
    (h : Adopted body d e) : Adopted body c e := by
  have hstanding := standing_of_stands hs
  simp only [Stands] at hs
  obtain ⟨stands, held, relay, next, whileWriting, whileUnread, whileIdle, records, reported, full⟩ := h
  simp only [hs, hseq] at next whileWriting whileUnread whileIdle records reported full
  rw [hstanding] at stands
  exact ⟨stands, held, relay, next, whileWriting, whileUnread, whileIdle, records, reported.before hg, fun hlen => (full hlen).before hg⟩

/-- An adoption stands while blocks are set going, and while the time of the last PlanAsk changes. -/
theorem Adopted.after {body : List Byte} {c d e : Chip} (h : Adopted body c d)
    (hs : standing e = { standing d with plans := { d.plans with lastPlanAsk := e.plans.lastPlanAsk } }) (hk : SameKeys d e)
    (hr : ∃ rs : List Report, (∀ x ∈ rs, x.kind ∈ setOffKinds) ∧ e.port.reports = pushReports d.port.reports rs) : Adopted body c e := by
  have hplans : e.plans = { d.plans with lastPlanAsk := e.plans.lastPlanAsk } := congrArg Standing.plans hs
  have hload : e.port.load = d.port.load := congrArg Standing.load hs
  have hbody : e.plans.body = d.plans.body := by rw [hplans]
  have hnext : e.plans.nextPosition = d.plans.nextPosition := by rw [hplans]
  have hpersist : e.plans.persist = d.plans.persist := by rw [hplans]
  have hnoted : e.plans.persistNoted = d.plans.persistNoted := by rw [hplans]
  have hgrows : Grows d.port.reports e.port.reports := hr.imp fun _ => And.right
  exact
    { stands := by rw [hs, h.stands, ← hplans, hload]
      held := hbody.trans h.held
      relay := (by rw [hplans] : e.plans.relayPending = d.plans.relayPending).trans h.relay
      next := hnext.trans h.next
      whileWriting := by rw [hpersist, hnoted]; exact h.whileWriting
      whileUnread := by rw [hpersist, hnoted]; exact h.whileUnread
      whileIdle := by rw [hpersist]; exact h.whileIdle
      records := Eq.trans hk h.records
      reported := by rw [inertCount_of_body hbody]; exact h.reported.after hr
      full := fun hlen => (h.full hlen).after hgrows }

theorem compareSerial_same (f : RxFrame) (c : Chip) :
    (compareSerial f c).catalog = c.catalog ∧ (compareSerial f c).port = c.port := by
  unfold compareSerial
  split
  · obtain ⟨lane, h⟩ := pushUrgent_does (.planAsk f.sender) { c with plans.lastPlanAsk := some c.now }
    rw [h]
    exact ⟨rfl, rfl⟩
  · exact ⟨rfl, rfl⟩

/-- R4, R5. What an adopted Plan frame leaves after its serial has been compared and the blocks have been set going. -/
theorem planFrame_adopted {c : Chip} {frame : List Byte} {f : RxFrame} (h : Accepts c .plan frame f) (hfits : PlanFits c f) :
    Adopted f.payload c (settle (receive .plan (fun f => onPlan f.originFlag f.payload) frame c)) := by
  obtain ⟨hs, hseq, hgrows⟩ := presence_stands f c
  have hfits' : PlanFits (presence f c) f := by
    have hserial : heldSerial (presence f c) = heldSerial c := heldSerial_of_plans (by simp [hs])
    have hrole : (presence f c).role = c.role := by simp [hs]
    simpa only [PlanFits, hserial, hrole] using hfits
  rw [receive_accepted h, onPlan_of_fits h hfits']
  refine ((adoptPlan_adopted f.payload (presence f c)).before hs hseq hgrows).after ?_ ?_ ?_
  · rw [settle_standing, compareSerial_standing]
    simp
  · exact SameKeys.trans (by rw [SameKeys, (compareSerial_same f _).1]) (settle_sameKeys _)
  · have hadds := (settle_adds (compareSerial f (adoptPlan f.payload (presence f c)))).1
    rwa [(compareSerial_same f _).2] at hadds

/-- R4. What a Plan frame that is not adopted leaves. -/
theorem planFrame_dropped {c : Chip} {frame : List Byte} {f : RxFrame} (h : Accepts c .plan frame f) (hfits : ¬PlanFits c f) :
    standing (settle (receive .plan (fun f => onPlan f.originFlag f.payload) frame c)) =
      { standing c with
        plans :=
          { c.plans with lastPlanAsk := (settle (receive .plan (fun f => onPlan f.originFlag f.payload) frame c)).plans.lastPlanAsk } } := by
  obtain ⟨hs, _, _⟩ := presence_stands f c
  have hfits' : ¬PlanFits (presence f c) f := by
    have hserial : heldSerial (presence f c) = heldSerial c := heldSerial_of_plans (by simp [hs])
    have hrole : (presence f c).role = c.role := by simp [hs]
    simpa only [PlanFits, hserial, hrole] using hfits
  have hplans : (presence f c).plans = c.plans := by simp [hs]
  rw [receive_accepted h, onPlan_of_not_fits h hfits', settle_standing, compareSerial_standing, standing_of_stands hs, hplans]
  simp

/-- Settles O4, by the conditions of R4: the frame's body is adopted, or the Plan Store and the load stand. -/
theorem planFrameAdoptedOrDropped : Obligations.PlanFrameAdoptedOrDropped := by
  unfold Obligations.PlanFrameAdoptedOrDropped
  intro s frame f h
  refine ⟨_, rfl, rfl, ?_⟩
  by_cases hfits : PlanFits s.chip f
  · have ha := planFrame_adopted h hfits
    refine ⟨ha.stands, ?_⟩
    unfold PlanFits at hfits
    rw [if_pos hfits]
    refine ⟨ha.held, ha.relay, ha.next, ha.reported, ha.records, ha.full, ?_⟩
    cases hp : s.chip.plans.persist with
    | writing b p i e => exact ha.whileWriting b p i e hp
    | idle =>
      by_cases hu : s.chip.store.scanPhase = .system
      · exact (if_pos hu).mpr (ha.whileUnread hp hu)
      · exact (if_neg hu).mpr (ha.whileIdle hp hu)
  · have hd := planFrame_dropped h hfits
    unfold PlanFits at hfits
    rw [if_neg hfits]
    generalize settle (receive .plan (fun f => onPlan f.originFlag f.payload) frame s.chip) = t at hd ⊢
    have hplans : t.plans = { s.chip.plans with lastPlanAsk := t.plans.lastPlanAsk } := congrArg Standing.plans hd
    have hload : t.port.load = s.chip.port.load := congrArg Standing.load hd
    refine ⟨?_, hplans, hload⟩
    rw [hd, ← hplans, hload]
    rfl

end Sys2Proof.Machine
end

