-- ==== Sys2Proof/Proofs/LoadPlan.lean ====
section
/-!
THEOREM. LOAD_PLAN's answers and adoption (R10) on a running part.
-/
namespace Sys2Proof.Machine

/-- R195. An answer without a result leaves the other parts as they are. -/
theorem standing_say (st : Status) (code : Nat) (c : Chip) :
    standing (settle (say st code c)) = { standing c with reply := some ⟨st, BitVec.ofNat 8 code, []⟩ } := by
  rw [settle_standing]
  simp [say, answer, standing]

theorem onLoadPlan_refused {c : Chip} (hrun : c.port.part = .running) (h : c.role = .busStation) (serial : Word32) (count : Byte) (entries : List Byte) :
    onLoadPlan serial count entries c = say .refused 0x10 c := by
  simp [onLoadPlan, originOnly, handled, stateAnswer, hrun, h]

theorem onLoadPlan_origin {c : Chip} (hrun : c.port.part = .running) (h : c.role ≠ .busStation) (serial : Word32) (count : Byte) (entries : List Byte) :
    onLoadPlan serial count entries c =
      if 16 < count.toNat ∨ entries.length ≠ 26 * count.toNat then say .bad 0x10 c
      else if serial.toNat ≤ heldSerial c then say .stale 0x10 c
      else say .ok 0x10 (adoptPlan (buildPlanBody (stationId c) serial.toNat count.toNat entries) c) := by
  simp [onLoadPlan, originOnly, handled, stateAnswer, hrun, h]

/-- R195. What an adoption leaves stands after its answer and after the blocks have been set going, the reply aside. -/
theorem Adopted.answered {body : List Byte} {c d : Chip} (h : Adopted body c d) (code : Nat) :
    standing (settle (say .ok code d)) =
        { standing c with reply := some ⟨.ok, BitVec.ofNat 8 code, []⟩, plans := d.plans, load := d.port.load } ∧
      SameKeys d (settle (say .ok code d)) ∧
      ∃ rs : List Report, (∀ x ∈ rs, x.kind ∈ setOffKinds) ∧ (settle (say .ok code d)).port.reports = pushReports d.port.reports rs := by
  refine ⟨?_, SameKeys.trans rfl (settle_sameKeys (say .ok code d)), (settle_adds (say .ok code d)).1⟩
  rw [standing_say, h.stands]

/-- R2, R10, log 57. The bytes of the body that an origin authors. -/
theorem buildPlanBody_take (author serial : Nat) (count : Byte) (entries : List Byte) :
    (buildPlanBody author serial count.toNat entries).take 7 = put16 author ++ put32 serial ++ [count] := by
  simp [buildPlanBody_eq, planHead, put8, put16, put32]

theorem buildPlanBody_entry {author serial count : Nat} {entries : List Byte} (h : entries.length = 26 * count) {i : Nat} (hi : i < 26 * count) :
    (buildPlanBody author serial count entries)[7 + i]? =
      some (if i % 26 = 12 then entries.getD i 0 &&& 7 else if i % 26 < 19 then entries.getD i 0 else 0) := by
  have hlen := planHead_length (author := author) (serial := serial) h
  rw [buildPlanBody_eq, List.getElem?_append_left (by omega), planHead, List.getElem?_append_right (by simp [put8]), ← authoredEntries_getElem? h hi]
  simp [put8]

/-- Settles O9, by the answers in R10's order; an accepted plan is the body of `buildPlanBody`, adopted. -/
theorem loadPlanAnswers : Obligations.LoadPlanAnswers := by
  unfold Obligations.LoadPlanAnswers
  intro s serial count entries hrun
  refine ⟨{ s with chip := settle (onLoadPlan serial count entries s.chip) }, rfl, rfl, ?_⟩
  by_cases hrole : s.chip.role = .busStation
  · rw [if_pos hrole, onLoadPlan_refused hrun hrole]
    exact standing_say _ _ _
  rw [if_neg hrole, onLoadPlan_origin hrun hrole]
  by_cases hbad : 16 < count.toNat ∨ entries.length ≠ 26 * count.toNat
  · rw [if_pos hbad, if_pos hbad]
    exact standing_say _ _ _
  rw [if_neg hbad, if_neg hbad]
  by_cases hstale : serial.toNat ≤ heldSerial s.chip
  · rw [if_pos hstale, if_pos hstale]
    exact standing_say _ _ _
  rw [if_neg hstale, if_neg hstale]
  obtain ⟨hcount, hlen⟩ : count.toNat ≤ 16 ∧ entries.length = 26 * count.toNat := by omega
  have hadopted := adoptPlan_adopted (buildPlanBody (stationId s.chip) serial.toNat count.toNat entries) s.chip
  generalize adoptPlan (buildPlanBody (stationId s.chip) serial.toNat count.toNat entries) s.chip = d at hadopted
  obtain ⟨hstands, hkeys, hreports⟩ := hadopted.answered 0x10
  generalize settle (say .ok 0x10 d) = t at hstands hkeys hreports
  have hplans : t.plans = d.plans := congrArg Standing.plans hstands
  have hload : t.port.load = d.port.load := congrArg Standing.load hstands
  have hinert : inertCount t = inertCount d := inertCount_of_body (by rw [hplans])
  have hreported := hadopted.reported.after hreports
  rw [buildPlanBody_author] at hreported
  dsimp only
  rw [hplans, hload, hadopted.held, hinert, heldSerial_of_plans (congrArg PlanStore.body hplans), heldSerial, hadopted.held,
    buildPlanBody_serial _ _ _ _ serial.isLt]
  exact ⟨hstands, rfl, hadopted.relay, buildPlanBody_whole hcount hlen, buildPlanBody_take _ _ _ _, fun i hi => buildPlanBody_entry hlen hi,
    hadopted.next, hadopted.whileWriting, hadopted.whileIdle, Eq.trans hkeys hadopted.records, hreported⟩

end Sys2Proof.Machine
end

