-- ==== Sys2Proof/Proofs/PlanCopy.lean ====
section
/-!
SUPPORT. The plan copy in slot 1 (R8): how a write goes on and ends, and what the ends of its programs and of its erase leave in the flash (R96, log 9).
-/
namespace Sys2Proof.Machine

/-! ## The flash after an operation (R96, log 9) -/

theorem program_programmed (m : List Host.Cell) (a : Nat) (bs : List Byte) : Programmed m (Memory.program m a bs) a bs := by
  refine ⟨fun i hi => ?_, fun x hx => read_program_outside m a bs x hx⟩
  rw [read_program_inside m a bs i hi, List.getD_eq_getElem?_getD, List.getElem?_eq_getElem hi, Option.getD_some]

theorem eraseSlot_erased (m : List Host.Cell) (slot : Nat) : Erased m (Memory.eraseSlot m slot) slot :=
  ⟨fun _ h1 h2 => read_eraseSlot_inside m slot _ h1 h2, fun _ hx => read_eraseSlot_outside m slot _ hx⟩

@[simp] theorem freeBytes_length (k n : Nat) : (freeBytes k n).length = n := by simp [freeBytes]

theorem spoilProgram_failed (a n : Nat) (c : Chip) : ProgramFailed c.store.flash (spoilProgram a n c).store.flash a n := by
  intro x hx
  by_cases hout : x < a ∨ a + n ≤ x
  · exact read_program_outside _ _ _ x (by simpa using hout)
  · obtain ⟨i, rfl⟩ : ∃ i, x = a + i := ⟨x - a, by omega⟩
    have hne : Memory.read c.store.flash (a + i) ≠ erasedByte := by tauto
    exact (read_program_inside _ _ _ i (by simp; omega)).trans (if_neg hne)

theorem spoilErase_failed (slot : Nat) (c : Chip) : EraseFailed c.store.flash (spoilErase slot c).store.flash slot :=
  fun x hx => read_write_outside _ _ _ x (by simpa using hx)

/-! ## Copies (R8) -/

theorem copyPosition_of_flash {c d : Chip} (h : d.store.flash = c.store.flash) (n : Nat) : copyPosition d n = copyPosition c n := by
  simp [copyPosition, h]

theorem byteAt_readRange (m : List Host.Cell) (a : Nat) {n i : Nat} (hi : i < n) :
    byteAt (Memory.readRange m a n) i = (Memory.read m (a + i)).toNat := by
  have hlen : i < (Memory.readRange m a n).length := by rwa [readRange_length]
  rw [byteAt, List.getD_eq_getElem?_getD, List.getElem?_eq_getElem hlen, Option.getD_some, readRange_getElem]

/-- R193. Bytes whose entry count is above 16 are no whole body. -/
theorem wholePlanBody_of_count {bs : List Byte} (h : 16 < byteAt bs 6) : wholePlanBody bs = none := by simp [wholePlanBody, h]

/-- R8. Each copy position lies within slot 1, so that after an erase of the slot none holds a whole copy. -/
theorem wholePlanBody_erased {c : Chip} {m : List Host.Cell} (h : c.store.flash = Memory.eraseSlot m 1) {n : Nat} (hn : n < 16) :
    wholePlanBody (copyPosition c n) = none := by
  refine wholePlanBody_of_count ?_
  have hread : Memory.read (Memory.eraseSlot m 1) (dataAddress 1 (512 * n) + 6) = erasedByte :=
    read_eraseSlot_inside m 1 _ (by simp only [dataAddress]; omega) (by simp only [dataAddress, slotBytes]; omega)
  rw [copyPosition, h, byteAt_readRange _ _ (by omega), hread]
  decide

/-- R8. A program of a piece that failed or was cut off leaves no whole copy that was not there before. -/
theorem spoilPlanProgram_whole {position piece len : Nat} {c : Chip}
    (h : (wholePlanBody (copyPosition (spoilPlanProgram position piece len c) position)).isSome) :
    (wholePlanBody (copyPosition c position)).isSome := by
  unfold spoilPlanProgram at h
  dsimp only at h
  split at h
  · rwa [copyPosition_of_flash rfl] at h
  · next hnone => exact absurd h hnone

/-- R8. An erase of slot 1 that failed or was cut off leaves no whole copy. -/
theorem spoilPlanErase_whole {c : Chip} {n : Nat} (hn : n < 16) : wholePlanBody (copyPosition (spoilPlanErase c) n) = none := by
  unfold spoilPlanErase
  dsimp only
  split
  · exact wholePlanBody_erased rfl hn
  · next hnone =>
    simp only [List.any_eq_true, List.mem_range, not_exists, not_and] at hnone
    simpa using hnone n hn

theorem spoilPlanProgram_failed (position piece len : Nat) (c : Chip) :
    ProgramFailed c.store.flash (spoilPlanProgram position piece len c).store.flash (dataAddress 1 (512 * position + 128 * piece)) len := by
  obtain ⟨f, h, hf⟩ := spoilPlanProgram_does position piece len c
  rw [h]
  rcases hf with rfl | rfl
  · exact fun _ _ => rfl
  · exact spoilProgram_failed _ _ _

theorem spoilPlanErase_failed (c : Chip) : EraseFailed c.store.flash (spoilPlanErase c).store.flash 1 := by
  obtain ⟨f, h, hf⟩ := spoilPlanErase_does c
  rw [h]
  rcases hf with rfl | rfl
  · exact spoilErase_failed _ _
  · exact fun x hx => (read_eraseSlot_outside _ _ x hx).trans (spoilErase_failed 1 c x hx)

/-- A failed program or erase of the copy changes the flash and counts the free bytes. -/
def SpoilsFlash (c d : Chip) : Prop := ∃ f n, d = { c with store := { c.store with flash := f }, freeCount := n }

theorem spoilPlanProgram_spoils (position piece len : Nat) (c : Chip) : SpoilsFlash c (spoilPlanProgram position piece len c) :=
  let ⟨_, h, _⟩ := spoilPlanProgram_does position piece len c
  ⟨_, _, h⟩

theorem spoilPlanErase_spoils (c : Chip) : SpoilsFlash c (spoilPlanErase c) :=
  let ⟨_, h, _⟩ := spoilPlanErase_does c
  ⟨_, _, h⟩

/-! ## A write goes on and ends (R8) -/

/-- R8. The persist state after a write of serial `written` has ended: a request noted meanwhile writes the held body when its serial differs. -/
def persistAfter (written : Nat) (c : Chip) : Persist :=
  if c.plans.persistNoted && heldSerial c != written then
    (if c.plans.nextPosition < 16 then .writing c.plans.body c.plans.nextPosition 0 false else .writing c.plans.body 0 0 true)
  else .idle

theorem persistEnded_does (written : Nat) (c : Chip) :
    ∃ queue, persistEnded written c =
      { c with
        plans := { c.plans with persistNoted := false, persist := persistAfter written c }
        store := { c.store with portQueue := queue } } := by
  have hserial : heldSerial { c with plans := { c.plans with persist := .idle, persistNoted := false } } = heldSerial c := heldSerial_of_plans rfl
  unfold persistEnded persistAfter
  dsimp only
  rw [hserial]
  by_cases h : (c.plans.persistNoted && heldSerial c != written) = true
  · obtain ⟨queue, hstart⟩ := startPersist_does { c with plans := { c.plans with persist := .idle, persistNoted := false } }
    rw [if_pos h, if_pos h, hstart]
    exact ⟨queue, rfl⟩
  · rw [if_neg h, if_neg h]
    exact ⟨c.store.portQueue, rfl⟩

theorem persistEnded_silent (written : Nat) (c : Chip) : Silent c (persistEnded written c) := by
  obtain ⟨queue, h⟩ := persistEnded_does written c
  rw [h]
  simp [Silent]

theorem reported_persistEnded (written : Nat) (kind : ReportKind) (subject : Subject) (detail : Nat) (c : Chip) :
    Reported c.port.reports (settle (persistEnded written (report kind subject detail c))).port.reports kind subject detail c.now :=
  have hended := persistEnded_silent written (report kind subject detail c)
  reported_of_report (.refl _) ((Adds.of_silent hended).trans (settle_adds (persistEnded written (report kind subject detail c))))

/-- R8. After a piece the next one is presented; after the last the write ends, with the next position one higher. -/
theorem pieceProgrammed_does {c : Chip} {body : List Byte} {pos piece : Nat} (h : c.plans.persist = .writing body pos piece false) :
    standing (settle (pieceProgrammed c)) =
      { standing c with
        plans :=
          if piece + 1 < planPieces body then { c.plans with persist := .writing body pos (piece + 1) false }
          else
            { c.plans with
              nextPosition := pos + 1
              persistNoted := false
              persist := persistAfter (planSerial body) { c with plans.nextPosition := pos + 1 } } } := by
  have hpiece : pieceProgrammed c =
      if piece + 1 < planPieces body then presentPiece body pos (piece + 1) c
      else persistEnded (planSerial body) { c with plans.nextPosition := pos + 1 } := by
    simp [pieceProgrammed, h]
  rw [settle_standing, hpiece]
  by_cases hmore : piece + 1 < planPieces body
  · rw [if_pos hmore, if_pos hmore]
    rfl
  · obtain ⟨queue, hended⟩ := persistEnded_does (planSerial body) { c with plans.nextPosition := pos + 1 }
    rw [if_neg hmore, if_neg hmore, hended]
    rfl

/-- R8. After a failed operation the write ends with STORE_ERROR and next position 16. -/
theorem copyFailed_does {c d : Chip} {body : List Byte} {pos piece : Nat} {erase : Bool} (hspoils : SpoilsFlash c d)
    (h : c.plans.persist = .writing body pos piece erase) (detail : Nat) :
    (settle (copyFailed detail d)).store.flash = d.store.flash ∧
      standing (settle (copyFailed detail d)) =
        { standing c with
          flash := (settle (copyFailed detail d)).store.flash
          freeCount := (settle (copyFailed detail d)).freeCount
          plans :=
            { c.plans with
              nextPosition := 16
              persistNoted := false
              persist := if c.plans.persistNoted && heldSerial c != planSerial body then .writing c.plans.body 0 0 true else .idle } } ∧
      Reported c.port.reports (settle (copyFailed detail d)).port.reports .storeError (.number 1) detail c.now := by
  obtain ⟨f, n, rfl⟩ := hspoils
  have hfailed : copyFailed detail { c with store := { c.store with flash := f }, freeCount := n } =
      persistEnded (planSerial body)
        (report .storeError (.number 1) detail
          { c with store := { c.store with flash := f }, freeCount := n, plans := { c.plans with nextPosition := 16 } }) := by
    simp only [copyFailed, h]
  have hreported := reported_persistEnded (planSerial body) .storeError (.number 1) detail
    { c with store := { c.store with flash := f }, freeCount := n, plans := { c.plans with nextPosition := 16 } }
  rw [← hfailed] at hreported
  have hstanding := settle_standing (copyFailed detail { c with store := { c.store with flash := f }, freeCount := n })
  generalize settle (copyFailed detail { c with store := { c.store with flash := f }, freeCount := n }) = t at hreported hstanding ⊢
  rw [hfailed] at hstanding
  have hplans := report_plans .storeError (.number 1) detail
    { c with store := { c.store with flash := f }, freeCount := n, plans := { c.plans with nextPosition := 16 } }
  have hstands : standing (report .storeError (.number 1) detail
      { c with store := { c.store with flash := f }, freeCount := n, plans := { c.plans with nextPosition := 16 } }) =
      { standing c with flash := f, freeCount := n, plans := { c.plans with nextPosition := 16 } } := by simp [standing]
  generalize report .storeError (.number 1) detail
    { c with store := { c.store with flash := f }, freeCount := n, plans := { c.plans with nextPosition := 16 } } = e at hplans hstands hstanding
  obtain ⟨queue, hended⟩ := persistEnded_does (planSerial body) e
  have hserial : heldSerial e = heldSerial c := heldSerial_of_plans (by rw [hplans])
  have hall : standing t = { standing e with plans := { e.plans with persistNoted := false, persist := persistAfter (planSerial body) e } } := by
    rw [hstanding, hended]
    rfl
  rw [hstands, persistAfter, hserial, hplans] at hall
  have hflash : t.store.flash = f := congrArg Standing.flash hall
  have hfree : t.freeCount = n := congrArg Standing.freeCount hall
  refine ⟨hflash, ?_, hreported⟩
  rw [hall, hflash, hfree]
  rfl

/-! ## The ends of its operations (R8, R96) -/

theorem planProgrammed_does {s : State} {pos piece : Nat} {data body : List Byte} {live : Bool}
    (hcurrent : s.chip.store.current = some { op := .planProgram pos piece data, live := live })
    (hpersist : s.chip.plans.persist = .writing body pos piece false) :
    let again := s.chip.plans.persistNoted && heldSerial s.chip != planSerial body
    ∃ t, exec .planCopyProgramComplete s = .next t ∧ t.pending = s.pending ∧
      Programmed s.chip.store.flash t.chip.store.flash (dataAddress 1 (512 * pos + 128 * piece)) data ∧
      standing t.chip = { standing s.chip with flash := t.chip.store.flash, plans := t.chip.plans } ∧
      t.chip.plans.body = s.chip.plans.body ∧
      if piece + 1 < (body.length + 127) / 128 then
        t.chip.plans = { s.chip.plans with persist := .writing body pos (piece + 1) false }
      else
        t.chip.plans.nextPosition = pos + 1 ∧ t.chip.plans.persistNoted = false ∧
          t.chip.plans.persist =
            if again then (if pos + 1 < 16 then .writing s.chip.plans.body (pos + 1) 0 false else .writing s.chip.plans.body 0 0 true) else .idle := by
  intro again
  have hrun : planProgrammed s.chip =
      pieceProgrammed (programFlash (dataAddress 1 (512 * pos + 128 * piece)) data (freeDevice s.chip)) := by
    simp only [planProgrammed, hcurrent]
  have hflash := program_programmed s.chip.store.flash (dataAddress 1 (512 * pos + 128 * piece)) data
  have hstanding := pieceProgrammed_does (c := programFlash (dataAddress 1 (512 * pos + 128 * piece)) data (freeDevice s.chip)) hpersist
  refine ⟨{ s with chip := settle (planProgrammed s.chip) }, rfl, rfl, ?_⟩
  rw [hrun]
  generalize settle (pieceProgrammed (programFlash (dataAddress 1 (512 * pos + 128 * piece)) data (freeDevice s.chip))) = t at hstanding ⊢
  have hplans : t.plans = _ := congrArg Standing.plans hstanding
  have hnow : t.store.flash = Memory.program s.chip.store.flash (dataAddress 1 (512 * pos + 128 * piece)) data := congrArg Standing.flash hstanding
  refine ⟨by rw [hnow]; exact hflash, ?_, ?_⟩
  · show standing t = { standing s.chip with flash := t.store.flash, plans := t.plans }
    rw [hstanding, hnow, hplans]
    rfl
  · show t.plans.body = s.chip.plans.body ∧
      if piece + 1 < planPieces body then t.plans = { s.chip.plans with persist := .writing body pos (piece + 1) false }
      else
        t.plans.nextPosition = pos + 1 ∧ t.plans.persistNoted = false ∧
          t.plans.persist = persistAfter (planSerial body) { s.chip with plans.nextPosition := pos + 1 }
    rw [hplans]
    by_cases hmore : piece + 1 < planPieces body
    · rw [if_pos hmore, if_pos hmore]
      exact ⟨rfl, rfl⟩
    · rw [if_neg hmore, if_neg hmore]
      exact ⟨rfl, rfl, rfl, rfl⟩

theorem planProgramFailed_does {s : State} {pos piece : Nat} {data body : List Byte} {live : Bool}
    (hcurrent : s.chip.store.current = some { op := .planProgram pos piece data, live := live })
    (hpersist : s.chip.plans.persist = .writing body pos piece false) :
    let again := s.chip.plans.persistNoted && heldSerial s.chip != planSerial body
    ∃ t, exec .planCopyProgramFailed s = .next t ∧ t.pending = s.pending ∧
      ProgramFailed s.chip.store.flash t.chip.store.flash (dataAddress 1 (512 * pos + 128 * piece)) data.length ∧
      ((wholePlanBody (copyPosition t.chip pos)).isSome → (wholePlanBody (copyPosition s.chip pos)).isSome) ∧
      standing t.chip = { standing s.chip with flash := t.chip.store.flash, plans := t.chip.plans, freeCount := t.chip.freeCount } ∧
      t.chip.plans =
        { s.chip.plans with
          nextPosition := 16
          persistNoted := false
          persist := if again then .writing s.chip.plans.body 0 0 true else .idle } ∧
      Reported s.chip.port.reports t.chip.port.reports .storeError (.number 1) 1 s.chip.now := by
  intro again
  have hrun : planProgramFailed s.chip = copyFailed 1 (spoilPlanProgram pos piece data.length (freeDevice s.chip)) := by
    simp only [planProgramFailed, hcurrent]
  have hwhole := @spoilPlanProgram_whole pos piece data.length (freeDevice s.chip)
  have hfailed := spoilPlanProgram_failed pos piece data.length (freeDevice s.chip)
  have hspoils := spoilPlanProgram_spoils pos piece data.length (freeDevice s.chip)
  refine ⟨{ s with chip := settle (planProgramFailed s.chip) }, rfl, rfl, ?_⟩
  rw [hrun]
  generalize spoilPlanProgram pos piece data.length (freeDevice s.chip) = d at hwhole hfailed hspoils
  obtain ⟨hflash, hstanding, hreported⟩ := copyFailed_does hspoils hpersist 1
  generalize settle (copyFailed 1 d) = t at hflash hstanding hreported
  have hplans : t.plans = _ := congrArg Standing.plans hstanding
  refine ⟨by rw [hflash]; exact hfailed, fun h => hwhole (copyPosition_of_flash hflash pos ▸ h), ?_, hplans, hreported⟩
  show standing t = { standing s.chip with flash := t.store.flash, plans := t.plans, freeCount := t.freeCount }
  rw [hstanding, hplans]
  rfl

theorem planErased_does {s : State} {pos piece : Nat} {body : List Byte} {live : Bool}
    (hcurrent : s.chip.store.current = some { op := .planErase, live := live }) (hpersist : s.chip.plans.persist = .writing body pos piece true) :
    ∃ t, exec .planCopyEraseComplete s = .next t ∧ t.pending = s.pending ∧ Erased s.chip.store.flash t.chip.store.flash 1 ∧
      standing t.chip =
        { standing s.chip with flash := t.chip.store.flash, plans := { s.chip.plans with persist := .writing body pos 0 false } } := by
  have hrun : planErased s.chip = presentPiece body pos 0 (eraseFlash 1 (freeDevice s.chip)) := by
    have herased : copyErased (eraseFlash 1 (freeDevice s.chip)) = presentPiece body pos 0 (eraseFlash 1 (freeDevice s.chip)) := by
      have : (eraseFlash 1 (freeDevice s.chip)).plans.persist = .writing body pos piece true := hpersist
      simp only [copyErased, this]
    simp only [planErased, hcurrent, herased]
  have hstanding := settle_standing (presentPiece body pos 0 (eraseFlash 1 (freeDevice s.chip)))
  refine ⟨{ s with chip := settle (planErased s.chip) }, rfl, rfl, ?_⟩
  rw [hrun]
  generalize settle (presentPiece body pos 0 (eraseFlash 1 (freeDevice s.chip))) = t at hstanding ⊢
  have hnow : t.store.flash = Memory.eraseSlot s.chip.store.flash 1 := congrArg Standing.flash hstanding
  rw [hstanding, hnow]
  exact ⟨eraseSlot_erased _ _, rfl⟩

theorem planEraseFailed_does {s : State} {pos piece : Nat} {body : List Byte} {live : Bool}
    (hcurrent : s.chip.store.current = some { op := .planErase, live := live }) (hpersist : s.chip.plans.persist = .writing body pos piece true) :
    let again := s.chip.plans.persistNoted && heldSerial s.chip != planSerial body
    ∃ t, exec .planCopyEraseFailed s = .next t ∧ t.pending = s.pending ∧ EraseFailed s.chip.store.flash t.chip.store.flash 1 ∧
      (∀ n < 16, wholePlanBody (copyPosition t.chip n) = none) ∧
      standing t.chip =
        { standing s.chip with
          flash := t.chip.store.flash
          freeCount := t.chip.freeCount
          plans :=
            { s.chip.plans with
              nextPosition := 16
              persistNoted := false
              persist := if again then .writing s.chip.plans.body 0 0 true else .idle } } ∧
      Reported s.chip.port.reports t.chip.port.reports .storeError (.number 1) 3 s.chip.now := by
  intro again
  have hrun : planEraseFailed s.chip = copyFailed 3 (spoilPlanErase (freeDevice s.chip)) := by
    simp only [planEraseFailed, hcurrent]
  have hwhole := fun n hn => spoilPlanErase_whole (c := freeDevice s.chip) (n := n) hn
  have hfailed := spoilPlanErase_failed (freeDevice s.chip)
  have hspoils := spoilPlanErase_spoils (freeDevice s.chip)
  refine ⟨{ s with chip := settle (planEraseFailed s.chip) }, rfl, rfl, ?_⟩
  rw [hrun]
  generalize spoilPlanErase (freeDevice s.chip) = d at hwhole hfailed hspoils
  obtain ⟨hflash, hstanding, hreported⟩ := copyFailed_does hspoils hpersist 3
  generalize settle (copyFailed 3 d) = t at hflash hstanding hreported
  exact ⟨by rw [hflash]; exact hfailed, fun n hn => copyPosition_of_flash hflash n ▸ hwhole n hn, hstanding, hreported⟩

/-- Settles O7, by the four ends of a plan copy's operations. -/
theorem planCopyWriteProceeds : Obligations.PlanCopyWriteProceeds := by
  unfold Obligations.PlanCopyWriteProceeds
  exact ⟨fun _ _ _ _ _ _ hc hp => ⟨planProgrammed_does hc hp, planProgramFailed_does hc hp⟩,
    fun _ _ _ _ _ hc hp => ⟨planErased_does hc hp, planEraseFailed_does hc hp⟩⟩

end Sys2Proof.Machine
end

