-- ==== Sys2Proof/Proofs/Restoration.lean ====
section
/-!
SUPPORT. What the reads of slot 1 restore (R9), and the admission that a start runs over a catalog without records (R13).
-/
namespace Sys2Proof.Machine

/-! ## The copies (R9) -/

/-- R9. A copy is restored exactly when some position holds a whole one. -/
theorem greatestCopy_eq_none {ps : List (List Byte)} : greatestCopy ps = none ↔ ∀ p ∈ ps, wholePlanBody p = none := by
  induction ps with
  | nil => simp [greatestCopy]
  | cons p ps ih =>
    rw [List.forall_mem_cons, ← ih]
    cases hl : greatestCopy ps with
    | none => simp [greatestCopy, hl]
    | some a =>
      cases hp : wholePlanBody p with
      | none => simp [greatestCopy, hl, hp]
      | some b =>
        simp only [greatestCopy, hl, hp, reduceCtorEq, false_and, iff_false]
        split <;> simp

/-- R9. What is restored is a whole copy. -/
theorem whole_of_greatestCopy {ps : List (List Byte)} {b : List Byte} (h : greatestCopy ps = some b) : ∃ p ∈ ps, wholePlanBody p = some b := by
  induction ps generalizing b with
  | nil => cases h
  | cons p ps ih =>
    rw [List.exists_mem_cons_iff]
    cases hlater : greatestCopy ps with
    | none => exact .inl (by simpa [greatestCopy, hlater] using h)
    | some l =>
      cases hp : wholePlanBody p with
      | none => exact .inr (ih (hlater.trans (by simpa [greatestCopy, hlater, hp] using h)))
      | some e =>
        simp only [greatestCopy, hlater, hp] at h
        split at h
        · exact .inl h
        · exact .inr (ih (hlater.trans h))

/-- R9. No whole copy has a greater serial than the one restored. -/
theorem serial_le_greatestCopy {ps : List (List Byte)} {b : List Byte} (h : greatestCopy ps = some b) :
    ∀ p ∈ ps, ∀ a, wholePlanBody p = some a → planSerial a ≤ planSerial b := by
  induction ps generalizing b with
  | nil => simp
  | cons p ps ih =>
    rw [List.forall_mem_cons]
    cases hlater : greatestCopy ps with
    | none =>
      have hb : wholePlanBody p = some b := by simpa [greatestCopy, hlater] using h
      exact ⟨fun a ha => by simp_all, fun q hq a ha => by simp [greatestCopy_eq_none.mp hlater q hq] at ha⟩
    | some l =>
      have hl := ih hlater
      cases hp : wholePlanBody p with
      | none =>
        obtain rfl : l = b := by simpa [greatestCopy, hlater, hp] using h
        exact ⟨fun a ha => (by cases ha), hl⟩
      | some e =>
        simp only [greatestCopy, hlater, hp] at h
        split at h
        · next hlt =>
          obtain rfl := Option.some.inj h
          exact ⟨fun a ha => by simp_all, fun q hq a ha => (hl q hq a ha).trans hlt.le⟩
        · next hle =>
          obtain rfl := Option.some.inj h
          exact ⟨fun a ha => Option.some.inj ha ▸ Nat.le_of_not_lt hle, hl⟩

/-- R9. The next position follows the highest written one. -/
theorem nextAfterWritten_of_written {ps : List (List Byte)} (h : ∃ p ∈ ps, allErased p = false) (i : Nat) :
    ∃ n p, ps[n]? = some p ∧ allErased p = false ∧ (∀ m q, n < m → ps[m]? = some q → allErased q = true) ∧ nextAfterWritten i ps = i + n + 1 := by
  induction ps generalizing i with
  | nil => simp at h
  | cons p ps ih =>
    by_cases hlater : ∃ p ∈ ps, allErased p = false
    · obtain ⟨n, q, hq, hwritten, herased, hnext⟩ := ih hlater (i + 1)
      refine ⟨n + 1, q, by simpa using hq, hwritten, fun m r hm hr => ?_, ?_⟩
      · obtain ⟨m, rfl⟩ : ∃ k, m = k + 1 := ⟨m - 1, by omega⟩
        exact herased m r (by omega) (by simpa using hr)
      · simp [nextAfterWritten, hnext]
        omega
    · have hp : allErased p = false := by simpa [hlater] using h
      have hrest : ∀ q ∈ ps, allErased q = true := by simpa using hlater
      have hzero : ∀ i, nextAfterWritten i ps = 0 := by
        clear ih h hlater
        induction ps with
        | nil => exact fun _ => rfl
        | cons q ps ih => exact fun i => by simp [nextAfterWritten, ih (fun r hr => hrest r (by simp [hr])) (i + 1), hrest q (by simp)]
      refine ⟨0, p, rfl, hp, fun m q hm hq => ?_, by simp [nextAfterWritten, hzero, hp]⟩
      obtain ⟨m, rfl⟩ : ∃ k, m = k + 1 := ⟨m - 1, by omega⟩
      exact hrest q (List.mem_of_getElem? (by simpa using hq))

theorem nextAfterWritten_eq_zero {ps : List (List Byte)} (i : Nat) : nextAfterWritten i ps = 0 ↔ ∀ p ∈ ps, allErased p = true := by
  induction ps generalizing i with
  | nil => simp [nextAfterWritten]
  | cons p ps ih =>
    rw [List.forall_mem_cons, ← ih (i + 1), nextAfterWritten]
    by_cases hlater : nextAfterWritten (i + 1) ps = 0 <;> by_cases hp : allErased p = true <;> simp [hlater, hp]

/-- R8. A position that holds a whole copy is not erased. -/
theorem allErased_of_whole {bs body : List Byte} (h : wholePlanBody bs = some body) : allErased bs = false := by
  by_contra herased
  rw [Bool.not_eq_false, allErased, List.all_eq_true] at herased
  by_cases hlen : bs.length < 11
  · simp [wholePlanBody, hlen] at h
  · have hbyte : byteAt bs 6 = 255 := by
      have hget : bs[6]? = some bs[6] := List.getElem?_eq_getElem (by omega)
      have hff : bs[6] = 0xFF#8 := by simpa using herased bs[6] (List.getElem_mem _)
      rw [byteAt, List.getD_eq_getElem?_getD, hget, hff]
      rfl
    rw [wholePlanBody_of_count (by omega)] at h
    cases h

/-! ## The plan restored (R9) -/

/-- The 16 copy positions. -/
def copiesOf (c : Chip) : List (List Byte) := (List.range 16).map (copyPosition c)

theorem mem_copiesOf {c : Chip} {p : List Byte} : p ∈ copiesOf c ↔ ∃ n < 16, copyPosition c n = p := by simp [copiesOf]

theorem copiesOf_getElem? {c : Chip} {n : Nat} {p : List Byte} : (copiesOf c)[n]? = some p ↔ n < 16 ∧ copyPosition c n = p := by
  by_cases hn : n < 16
  · simp [copiesOf, hn]
  · simp [copiesOf, hn]

/-- R9. The chip with the restored copy as its plan, before PLAN_RESTORED. -/
def restoredChip (c : Chip) : Chip :=
  { c with
    plans :=
      { c.plans with
        body := (greatestCopy (copiesOf c)).getD [], relayPending := false, nextPosition := restoredPosition (copiesOf c), persist := .idle,
        persistNoted := false } }

theorem restorePlan_of_none {c : Chip} (h : greatestCopy (copiesOf c) = none) :
    restorePlan c = report .planRestored .none (if nextAfterWritten 0 (copiesOf c) = 0 then 1 else 2) (restoredChip c) := by
  have : restorePlan c = reportRestored (copiesOf c) (restoredChip c) := rfl
  rw [this, reportRestored, h]

theorem restorePlan_of_some {c : Chip} {body : List Byte} (h : greatestCopy (copiesOf c) = some body) :
    restorePlan c = report .planRestored (.serial (planSerial body)) 0 (restoredChip c) := by
  have : restorePlan c = reportRestored (copiesOf c) (restoredChip c) := rfl
  rw [this, reportRestored, h]

theorem restorePlan_does (c : Chip) :
    standing (restorePlan c) = standing (restoredChip c) ∧ (restorePlan c).catalog = c.catalog := by
  cases h : greatestCopy (copiesOf c) with
  | none =>
    rw [restorePlan_of_none h]
    exact ⟨by simp [standing], by rw [report_catalog]; rfl⟩
  | some body =>
    rw [restorePlan_of_some h]
    exact ⟨by simp [standing], by rw [report_catalog]; rfl⟩

/-! ## Admission into a catalog without records (R11, R13) -/

theorem applyAdmission_of_no_records {c : Chip} (h : c.catalog.records = []) (admitted : List Admitted) :
    applyAdmission admitted c = askSelection { c with catalog.records := admitted.map newRecord } := by
  have hnew : recordFor [] = newRecord := rfl
  simp [applyAdmission, h, forEach, hnew]

theorem takeIn_of_no_records {c : Chip} (h : c.catalog.records = []) (order : List Admitted) :
    Stands c (takeIn order c) ∧ (takeIn order c).catalog.records = (admittedSet (liveEntries c) order).map newRecord ∧ Adds c (takeIn order c) := by
  have happly := applyAdmission_of_no_records h (admittedSet (liveEntries c) order)
  have hadds : Adds c (applyAdmission (admittedSet (liveEntries c) order) c) := by
    rw [happly]
    exact .of_silent (by simp [Silent])
  have hfull : ∀ d, Adds d (reportFull order d) := fun d => by
    unfold reportFull
    split
    · exact report_adds _ _ _ d (by decide)
    · exact .refl d
  refine ⟨?_, ?_, (hadds.trans (hfull _)).trans (.of_silent (evaluateWaiting_silent _))⟩
  · simp [takeIn, happly, Stands]
  · rw [takeIn_catalog, happly]
    simp

/-- R13. At start the first 12 live entries get new records, as OWN. -/
theorem startAdmission_of_no_records {c : Chip} (h : c.catalog.records = []) :
    Stands c (startAdmission c) ∧ (startAdmission c).catalog.records = ((liveEntries c).take 12).map (fun x => freshRecord x.2 .own) ∧
      Adds c (startAdmission c) ∧
      (12 < (liveEntries c).length →
        Appended c.port.reports (startAdmission c).port.reports .catalogFull .none ((liveEntries c).length - 12) c.now) := by
  rw [startAdmission_eq]
  obtain ⟨hstands, hrecords, hadds⟩ := takeIn_of_no_records h ((liveEntries c).map (candidateOf (fun _ => .own)))
  have hfull := (takeIn_reports ((liveEntries c).map (candidateOf (fun _ => .own))) c).2
  rw [List.length_map] at hfull
  refine ⟨hstands, ?_, hadds, hfull⟩
  rw [hrecords, admittedSet_map (live := liveEntries c) _ (liveOf_pairwise _) (fun _ hx => hx), filter_mem_take (liveEntries c) _ (liveOf_nodup _),
    List.map_map]
  rfl

/-- R9, R13, R108. After the last read of slot 1 the plan is restored, the start admission runs and the sweep begins. -/
theorem planCopyRead_does {c : Chip} {live : Bool} (hcurrent : c.store.current = some { op := .scanPlan 63, live := live })
    (hrecords : c.catalog.records = []) :
    standing (settle (planCopyRead c)) = { standing c with scanPhase := .sweep, scanNext := 8, plans := (restoredChip c).plans } ∧
      (settle (planCopyRead c)).catalog.records = ((liveOf (restoredChip c).plans.body).take 12).map (fun x => freshRecord x.2 .own) ∧
      (12 < (liveOf (restoredChip c).plans.body).length →
        Appended c.port.reports (settle (planCopyRead c)).port.reports .catalogFull .none ((liveOf (restoredChip c).plans.body).length - 12) c.now) ∧
      ∀ subject detail, restorePlan (freeDevice c) = report .planRestored subject detail (restoredChip (freeDevice c)) →
        Reported c.port.reports (settle (planCopyRead c)).port.reports .planRestored subject detail c.now := by
  have hread : planCopyRead c =
      { startAdmission (restorePlan (freeDevice c)) with
        store := { (startAdmission (restorePlan (freeDevice c))).store with scanPhase := .sweep, scanNext := 8 } } := by
    simp only [planCopyRead, hcurrent]
    rfl
  have hgrows : Grows c.port.reports (restorePlan (freeDevice c)).port.reports := by
    cases h : greatestCopy (copiesOf (freeDevice c)) with
    | none => rw [restorePlan_of_none h]; exact report_grows _ _ _ (restoredChip (freeDevice c))
    | some body => rw [restorePlan_of_some h]; exact report_grows _ _ _ (restoredChip (freeDevice c))
  obtain ⟨hrestored, hcatalog⟩ := restorePlan_does (freeDevice c)
  have hnone : (restorePlan (freeDevice c)).catalog.records = [] := by rw [hcatalog]; exact hrecords
  have hplans : (restorePlan (freeDevice c)).plans = (restoredChip c).plans := congrArg Standing.plans hrestored
  have hnow : (restorePlan (freeDevice c)).now = c.now := congrArg Standing.now hrestored
  obtain ⟨hstands, hlive, hadds, hfull⟩ := startAdmission_of_no_records hnone
  rw [liveEntries, hplans] at hlive hfull
  have hreported : ∀ subject detail, restorePlan (freeDevice c) = report .planRestored subject detail (restoredChip (freeDevice c)) →
      Reported c.port.reports (startAdmission (restorePlan (freeDevice c))).port.reports .planRestored subject detail c.now :=
    fun subject detail h => reported_of_report (c := restoredChip (freeDevice c)) (.refl _) (by rw [← h]; exact hadds)
  generalize restorePlan (freeDevice c) = r at *
  generalize startAdmission r = a at *
  have hsettled := settle_catalog_of_scanning { a with store := { a.store with scanPhase := .sweep, scanNext := 8 } } (by simp)
  have hstanding := settle_standing { a with store := { a.store with scanPhase := .sweep, scanNext := 8 } }
  have hset := settle_adds { a with store := { a.store with scanPhase := .sweep, scanNext := 8 } }
  rw [hread]
  generalize settle { a with store := { a.store with scanPhase := .sweep, scanNext := 8 } } = t at *
  have hall : standing a = { standing c with plans := (restoredChip c).plans } := by
    rw [standing_of_stands hstands, hrestored]
    rfl
  refine ⟨?_, by rw [hsettled]; exact hlive, fun hlen => ?_, fun subject detail h => (hreported subject detail h).after hset.1⟩
  · have he : standing { a with store := { a.store with scanPhase := .sweep, scanNext := 8 } } =
        { standing a with scanPhase := .sweep, scanNext := 8 } := rfl
    rw [hstanding, he, hall]
  · exact (hnow ▸ (hfull hlen).before hgrows).after hset.grows

/-- R9. Whether a copy is restored, and what next position and PLAN_RESTORED go with it. -/
theorem restoredChip_of_none {c : Chip} (h : ∀ n < 16, wholePlanBody (copyPosition c n) = none) :
    greatestCopy (copiesOf c) = none ∧ (restoredChip c).plans.body = [] ∧
      (restoredChip c).plans.nextPosition = (if nextAfterWritten 0 (copiesOf c) = 0 then 0 else 16) ∧
      (nextAfterWritten 0 (copiesOf c) = 0 ↔ (List.range 16).all (fun n => allErased (copyPosition c n)) = true) := by
  have hnone : greatestCopy (copiesOf c) = none := greatestCopy_eq_none.mpr fun p hp => by
    obtain ⟨n, hn, rfl⟩ := mem_copiesOf.mp hp
    exact h n hn
  have hall : nextAfterWritten 0 (copiesOf c) = 0 ↔ (List.range 16).all (fun n => allErased (copyPosition c n)) = true := by
    rw [nextAfterWritten_eq_zero]
    simp [copiesOf]
  exact ⟨hnone, by simp [restoredChip, hnone], by simp [restoredChip, restoredPosition, hnone], hall⟩

theorem restoredChip_of_whole {c : Chip} (h : ∃ n < 16, (wholePlanBody (copyPosition c n)).isSome) :
    greatestCopy (copiesOf c) = some (restoredChip c).plans.body ∧ (∃ n < 16, wholePlanBody (copyPosition c n) = some (restoredChip c).plans.body) ∧
      (∀ n < 16, ∀ b, wholePlanBody (copyPosition c n) = some b → planSerial b ≤ planSerial (restoredChip c).plans.body) ∧
      ∃ n < 16, allErased (copyPosition c n) = false ∧ (∀ m < 16, n < m → allErased (copyPosition c m) = true) ∧
        (restoredChip c).plans.nextPosition = n + 1 := by
  obtain ⟨n, hn, hsome⟩ := h
  obtain ⟨b, hb⟩ := Option.isSome_iff_exists.mp hsome
  cases hgreatest : greatestCopy (copiesOf c) with
  | none =>
    have := greatestCopy_eq_none.mp hgreatest _ (mem_copiesOf.mpr ⟨n, hn, rfl⟩)
    rw [hb] at this
    cases this
  | some body =>
    obtain ⟨p, hp, hwhole⟩ := whole_of_greatestCopy hgreatest
    have hmax := serial_le_greatestCopy hgreatest
    obtain ⟨k, hk, rfl⟩ := mem_copiesOf.mp hp
    have hbody : (restoredChip c).plans.body = body := by simp [restoredChip, hgreatest]
    obtain ⟨m, q, hq, hwritten, hlater, hnext⟩ :=
      nextAfterWritten_of_written ⟨_, mem_copiesOf.mpr ⟨n, hn, rfl⟩, allErased_of_whole hb⟩ 0
    obtain ⟨hm, rfl⟩ := copiesOf_getElem?.mp hq
    rw [hbody]
    refine ⟨rfl, ⟨k, hk, hwhole⟩, fun i hi a ha => hmax _ (mem_copiesOf.mpr ⟨i, hi, rfl⟩) a ha, m, hm, hwritten, fun i hi hlt => ?_, ?_⟩
    · exact hlater i _ hlt (copiesOf_getElem?.mpr ⟨hi, rfl⟩)
    · simp [restoredChip, restoredPosition, hgreatest, hnext]

/-- Settles O8: the reads of slot 1, what they restore and what the start then admits, what an admitted set makes of the records, and what a run admits. -/
theorem planCopyRestored : Obligations.PlanCopyRestored := by
  unfold Obligations.PlanCopyRestored
  refine ⟨fun s index live hcurrent hindex => ?_, fun s live hcurrent hrecords => ?_, fun c admitted hnodup => ?_, admission_recordKeys⟩
  · have hread : planCopyRead s.chip = pushPort (.scanPlan (index + 1)) none (freeDevice s.chip) := by
      simp only [planCopyRead, hcurrent, if_pos hindex]
    refine ⟨{ s with chip := settle (planCopyRead s.chip) }, planCopyRead s.chip, rfl, rfl, ?_, ?_⟩
    · show standing (settle (planCopyRead s.chip)) = _
      rw [settle_standing, hread]
      rfl
    · rw [hread]
      rfl
  · obtain ⟨hstanding, hlive, hfull, hreported⟩ := planCopyRead_does hcurrent hrecords
    refine ⟨{ s with chip := settle (planCopyRead s.chip) }, rfl, rfl, ?_⟩
    dsimp only
    generalize settle (planCopyRead s.chip) = t at *
    have hplans : t.plans = (restoredChip s.chip).plans := congrArg Standing.plans hstanding
    rw [hplans]
    refine ⟨hstanding, fun hnone => ?_, fun hwhole => ?_, hlive, hfull⟩
    · obtain ⟨hgreatest, hbody, hnext, herased⟩ := restoredChip_of_none hnone
      have hrestored := hreported _ _ (restorePlan_of_none hgreatest)
      refine ⟨hbody, ?_⟩
      rw [hnext]
      by_cases hall : (List.range 16).all (fun n => allErased (copyPosition s.chip n)) = true
      · have hzero : nextAfterWritten 0 (copiesOf (freeDevice s.chip)) = 0 := herased.mpr hall
        rw [if_pos hzero] at hrestored
        rw [if_pos hall]
        exact ⟨if_pos hzero, hrestored⟩
      · have hzero : ¬nextAfterWritten 0 (copiesOf (freeDevice s.chip)) = 0 := fun h => hall (herased.mp h)
        rw [if_neg hzero] at hrestored
        rw [if_neg hall]
        exact ⟨if_neg hzero, hrestored⟩
    · obtain ⟨hgreatest, hbody, hmax, hnext⟩ := restoredChip_of_whole hwhole
      exact ⟨hbody, hmax, hnext, hreported _ _ (restorePlan_of_some hgreatest)⟩
  · exact applyAdmission_does c admitted hnodup

end Sys2Proof.Machine
end

