-- ==== Sys2Proof/Proofs/ManifestScan.lean ====
section
/-!
SUPPORT. The start scan's MANIFESTS and DATA phases (R111, R112): what they leave of the findings, of the flash and of a record that is judged, and the
judgement of a manifest finding's bytes (R14, R16).
-/
namespace Sys2Proof.Machine

/-! ## The record of an image -/

theorem findRecord_of_map {c d : Chip} {g : ImageRecord → ImageRecord} (h : d.catalog.records = c.catalog.records.map g)
    (hg : ∀ r, (g r).image = r.image) (k : ImageKey) : findRecord d k = (findRecord c k).map g := by
  have hkey : ((fun r : ImageRecord => r.image == k) ∘ g) = fun r => r.image == k := funext fun r => by simp [hg]
  rw [findRecord, h, List.find?_map, hkey, findRecord]

theorem findRecord_of_catalog {c d : Chip} (h : d.catalog = c.catalog) (k : ImageKey) : findRecord d k = findRecord c k := by simp [findRecord, h]

theorem findRecord_image {c : Chip} {k : ImageKey} {r : ImageRecord} (h : findRecord c k = some r) : r.image = k := by
  simpa using List.find?_some h

theorem findRecord_updateRecord {c : Chip} {k : ImageKey} {r : ImageRecord} (h : findRecord c k = some r) {f : ImageRecord → ImageRecord}
    (hf : ∀ r, (f r).image = r.image) : findRecord (updateRecord k f c) k = some (f r) := by
  rw [findRecord_of_map (c := c) (g := fun r => if r.image = k then f r else r) (updateRecord_catalog_records k f c) (fun r => by split <;> simp [hf]), h]
  simp [findRecord_image h]

theorem findRecord_recount {c : Chip} {k : ImageKey} {r : ImageRecord} (h : findRecord c k = some r) :
    findRecord (recount c) k = some (countRecord c.peers r) := by
  obtain ⟨asked, hdoes⟩ := recount_does c
  rw [findRecord_of_map (c := c) (g := countRecord c.peers) (by rw [hdoes]) (fun _ => rfl), h, Option.map_some]

theorem onImage_image {k : ImageKey} {f : ImageRecord → ImageRecord} (hf : ∀ r, (f r).image = r.image) (r : ImageRecord) :
    (onImage k f r).image = r.image := by
  unfold onImage
  split
  exacts [hf r, rfl]

/-- The image has a record with this property. -/
def RecordHas (k : ImageKey) (P : ImageRecord → Prop) (c : Chip) : Prop := ∃ r, findRecord c k = some r ∧ P r

theorem RecordHas.of_catalog {k : ImageKey} {P : ImageRecord → Prop} {c d : Chip} (h : d.catalog = c.catalog) (hc : RecordHas k P c) :
    RecordHas k P d := by
  unfold RecordHas
  rw [findRecord_of_catalog h]
  exact hc

theorem RecordHas.of_map {k : ImageKey} {P : ImageRecord → Prop} {c d : Chip} {g : ImageRecord → ImageRecord}
    (h : d.catalog.records = c.catalog.records.map g) (hg : ∀ r, (g r).image = r.image) (hP : ∀ r, P r → P (g r)) (hc : RecordHas k P c) :
    RecordHas k P d := by
  obtain ⟨r, hr, hp⟩ := hc
  exact ⟨g r, by rw [findRecord_of_map h hg, hr, Option.map_some], hP r hp⟩

theorem RecordHas.segState {k : ImageKey} {P : ImageRecord → Prop} {c : Chip} {seg : Nat} {st : SegState}
    (hP : ∀ r, P r → (r.entries[seg]?).map (fun e => e.state) = some st) (h : RecordHas k P c) : segState c k seg = some st := by
  obtain ⟨r, hr, hp⟩ := h
  simp only [Machine.segState, hr]
  exact hP r hp

/-! ## Going on with the scan (R111, R112) -/

/-- What a part of the scan keeps: the flash and the time; findings only leave the list, and reports are only appended. -/
structure Scans (c d : Chip) : Prop where
  flash : d.store.flash = c.store.flash
  now : d.now = c.now
  findings : ∀ x ∈ d.store.findings, x ∈ c.store.findings
  reports : Grows c.port.reports d.port.reports

theorem Scans.trans {c d e : Chip} (h : Scans c d) (k : Scans d e) : Scans c e :=
  ⟨k.flash.trans h.flash, k.now.trans h.now, fun x hx => h.findings x (k.findings x hx), h.reports.trans k.reports⟩

theorem Scans.of_stands {c d : Chip} (h : Stands c d) (hg : Grows c.port.reports d.port.reports) : Scans c d := by
  simp only [Stands] at h
  exact ⟨by simp [h], by simp [h], by simp [h], hg⟩

theorem Scans.refl (c : Chip) : Scans c c := ⟨rfl, rfl, fun _ h => h, .refl _⟩

theorem release_scans (slot : Nat) (c : Chip) : Scans c (release slot c) := .of_stands (release_keeps slot c) (Adds.of_silent (release_silent slot c)).grows

/-- R14. The image whose last data segment has become HELD is COMPLETE; another record, or one that is not gathering, stands. -/
theorem completeIfHeld_does (k : ImageKey) (c : Chip) :
    (Stands c (completeIfHeld k c) ∧ Grows c.port.reports (completeIfHeld k c).port.reports) ∧
      ((completeIfHeld k c).catalog = c.catalog ∨
        (∃ r, findRecord c k = some r ∧ r.state = .gathering) ∧
          (completeIfHeld k c).catalog.records = c.catalog.records.map (onImage k (fun r => { r with state := .complete }))) := by
  unfold completeIfHeld
  split
  · next r hr =>
    split
    · next hall =>
      have hgathering : r.state = .gathering := by
        rw [Bool.and_eq_true, decide_eq_true_eq] at hall
        exact hall.1
      have hrecords : (askSelection (updateRecord k (fun r => { r with state := .complete }) c)).catalog.records =
          c.catalog.records.map (onImage k (fun r => { r with state := .complete })) := rfl
      have hstands : Stands c (askSelection (updateRecord k (fun r => { r with state := .complete }) c)) := by simp [Stands]
      have hport : (askSelection (updateRecord k (fun r => { r with state := .complete }) c)).port = c.port := rfl
      dsimp only
      generalize askSelection (updateRecord k (fun r => { r with state := .complete }) c) = d at *
      have hkept : Stands c (evaluateWaiting d) ∧ Stands c (evaluateWaiting (report .imageComplete (.image k) 0 d)) := by
        simp only [Stands] at hstands
        constructor <;> simp [Stands, hstands]
      have hgrows : Grows c.port.reports (report .imageComplete (.image k) 0 d).port.reports := hport ▸ report_grows .imageComplete (.image k) 0 d
      split
      · exact ⟨⟨hkept.2, hgrows.trans (.of_eq (by simp))⟩, .inr ⟨⟨r, hr, hgathering⟩, by simp [hrecords]⟩⟩
      · exact ⟨⟨hkept.1, .of_eq (by simp [hport])⟩, .inr ⟨⟨r, hr, hgathering⟩, by simp [hrecords]⟩⟩
    · exact ⟨⟨by simp [Stands], .refl _⟩, .inl rfl⟩
  · exact ⟨⟨by simp [Stands], .refl _⟩, .inl rfl⟩

theorem offerData_stands (f : Finding) (c : Chip) : Stands c (offerData f c) ∧ Grows c.port.reports (offerData f c).port.reports := by
  unfold offerData
  split
  · obtain ⟨⟨hs, hg⟩, _⟩ := completeIfHeld_does f.image (setSegState f.image f.segment (.held f.slot)
      (setSlot f.slot { cond := .full, owner := some (.segment f.image f.segment) } c))
    exact ⟨.of_standing ((standing_of_stands hs).trans (standing_of_stands (by simp [Stands]))), Grows.trans (.of_eq (by simp)) hg⟩
  · exact ⟨release_keeps _ _, (Adds.of_silent (release_silent f.slot c)).grows⟩

/-- R112. The reports of the images that became COMPLETE. -/
theorem reportsComplete_does (rs : List ImageRecord) (c : Chip) :
    Stands c (forEach rs reportComplete c) ∧ Grows c.port.reports (forEach rs reportComplete c).port.reports ∧
      (forEach rs reportComplete c).catalog = c.catalog := by
  have one : ∀ r c, Stands c (reportComplete r c) ∧ Grows c.port.reports (reportComplete r c).port.reports ∧ (reportComplete r c).catalog = c.catalog :=
    fun r c => by
      unfold reportComplete
      split
      · exact ⟨by simp [Stands], report_grows _ _ _ c, report_catalog _ _ _ c⟩
      · exact ⟨by simp [Stands], .refl _, rfl⟩
  refine ⟨.of_standing (forEach_same (g := standing) (fun r _ c => standing_of_stands (one r c).1) c), ?_,
    forEach_same (g := Chip.catalog) (fun r _ c => (one r c).2.2) c⟩
  exact forEach_keeps (R := fun c d => Grows c.port.reports d.port.reports) (fun _ => .refl _) .trans (fun r _ c => (one r c).2.1) c

/-- R112. The scan's end: no finding is left, the part is running, and where the port is on the offer rounds begin. -/
theorem scanDone_does (c : Chip) :
    Scans c (scanDone c) ∧ ScanMovedOn (scanDone c) ∧ (scanDone c).catalog = c.catalog ∧ (scanDone c).store.findings = [] := by
  obtain ⟨hs, hg, hc⟩ := reportsComplete_does c.catalog.records { c with store := { c.store with scanPhase := .done, findings := [] } }
  unfold scanDone
  dsimp only
  generalize forEach c.catalog.records reportComplete { c with store := { c.store with scanPhase := .done, findings := [] } } = d at hs hg hc ⊢
  simp only [Stands] at hs
  by_cases hon : d.yard.mode = .on
  · have hif : (if (askSelection { d with port.part := .running }).yard.mode = .on then startRound (askSelection { d with port.part := .running })
        else askSelection { d with port.part := .running }) = startRound (askSelection { d with port.part := .running }) := if_pos hon
    rw [hif]
    exact ⟨⟨by simp [startRound, hs], by simp [startRound, hs], by simp [startRound, hs], hg⟩,
      .inr ⟨by simp [startRound, hs], by simp [startRound, hs], rfl, fun _ => rfl⟩, hc, by simp [startRound, hs]⟩
  · have hif : (if (askSelection { d with port.part := .running }).yard.mode = .on then startRound (askSelection { d with port.part := .running })
        else askSelection { d with port.part := .running }) = askSelection { d with port.part := .running } := if_neg hon
    rw [hif]
    exact ⟨⟨by simp [hs], by simp [hs], by simp [hs], hg⟩, .inr ⟨by simp [hs], by simp [hs], rfl, fun h => absurd h hon⟩, hc, by simp [hs]⟩

theorem dataPhase_does (c : Chip) : Scans c (dataPhase c) ∧ ScanMovedOn (dataPhase c) := by
  obtain ⟨hdone, hmoved, _, _⟩ := scanDone_does (forEach c.store.findings offerData { c with store.scanPhase := .data })
  have hoffers : Scans { c with store.scanPhase := .data } (forEach c.store.findings offerData { c with store.scanPhase := .data }) :=
    forEach_keeps (R := Scans) .refl .trans (fun f _ c => .of_stands (offerData_stands f c).1 (offerData_stands f c).2) _
  have hphase : Scans c { c with store.scanPhase := .data } := ⟨rfl, rfl, fun _ h => h, .refl _⟩
  exact ⟨(hphase.trans hoffers).trans hdone, hmoved⟩

theorem dropFinding_findings (f : Finding) (c : Chip) : (dropFinding f c).store.findings = c.store.findings.filter (fun x => x.slot != f.slot) := rfl

theorem dropFinding_scans (f : Finding) (c : Chip) : Scans c (dropFinding f c) :=
  ⟨rfl, rfl, fun _ h => List.mem_of_mem_filter h, .refl _⟩

/-- R111. The MANIFESTS phase comes to a finding that is to be read, or through DATA to the scan's end: each finding passed over leaves the list. -/
theorem manifestSteps_does (n : Nat) (c : Chip) (hn : c.store.findings.length < n) (hphase : c.store.scanPhase = .manifests) :
    Scans c (manifestSteps n c) ∧ ScanMovedOn (manifestSteps n c) := by
  induction n generalizing c with
  | zero => omega
  | succ n ih =>
    unfold manifestSteps
    split
    · exact dataPhase_does c
    · next f hf =>
      split
      · next hconsiders => exact ⟨.refl c, .inl ⟨hphase, f, hf, hconsiders⟩⟩
      · have hmem : f ∈ c.store.findings := List.mem_of_find?_eq_some hf
        have hfindings : (release f.slot (dropFinding f c)).store.findings = c.store.findings.filter (fun x => x.slot != f.slot) := by
          simp [dropFinding_findings]
        have hshorter : (c.store.findings.filter (fun x => x.slot != f.slot)).length < c.store.findings.length :=
          List.length_filter_lt_length_iff_exists.mpr ⟨f, hmem, by simp⟩
        obtain ⟨hscans, hmoved⟩ := ih (release f.slot (dropFinding f c)) (by rw [hfindings]; omega)
          (by simp [dropFinding, hphase])
        exact ⟨((dropFinding_scans f c).trans (release_scans _ _)).trans hscans, hmoved⟩

theorem manifestPhase_does (c : Chip) : Scans c (manifestPhase c) ∧ ScanMovedOn (manifestPhase c) := by
  obtain ⟨hscans, hmoved⟩ := manifestSteps_does (c.store.findings.length + 1) { c with store.scanPhase := .manifests } (Nat.lt_succ_self _) rfl
  exact ⟨⟨hscans.flash, hscans.now, hscans.findings, hscans.reports⟩, hmoved⟩

/-! ## A judged record stands (R14, R17) -/

/-- The property outlives the offers of data segments: a change of a data segment's state, and a gathering record's becoming COMPLETE. -/
structure OutlivesOffers (P : ImageRecord → Prop) : Prop where
  segment : ∀ (r : ImageRecord) (seg : Nat) (st : SegState), 1 ≤ seg → P r → P (withSegState seg st r)
  complete : ∀ r : ImageRecord, r.state = .gathering → P r → P { r with state := .complete }

theorem completeIfHeld_recordHas {k : ImageKey} {P : ImageRecord → Prop} (hP : OutlivesOffers P) (k' : ImageKey) {c : Chip} (h : RecordHas k P c) :
    RecordHas k P (completeIfHeld k' c) := by
  obtain ⟨_, hsame | ⟨⟨r', hr', hgathering⟩, hrecords⟩⟩ := completeIfHeld_does k' c
  · exact h.of_catalog hsame
  · obtain ⟨r, hr, hp⟩ := h
    refine ⟨_, (findRecord_of_map hrecords (onImage_image (by exact fun _ => rfl)) k).trans (by rw [hr, Option.map_some]), ?_⟩
    unfold onImage
    split
    · next hk =>
      obtain rfl : k = k' := (findRecord_image hr).symm.trans hk
      obtain rfl : r' = r := Option.some.inj (hr'.symm.trans hr)
      exact hP.complete r' hgathering hp
    · exact hp

theorem offerData_recordHas {k : ImageKey} {P : ImageRecord → Prop} (hP : OutlivesOffers P) (f : Finding) {c : Chip} (h : RecordHas k P c) :
    RecordHas k P (offerData f c) := by
  unfold offerData
  split
  · next haccepts =>
    have hseg : 1 ≤ f.segment := by
      unfold acceptsData at haccepts
      split at haccepts
      · split at haccepts
        · simp only [Bool.and_eq_true, decide_eq_true_eq] at haccepts
          exact haccepts.1.1.1.2
        · cases haccepts
      · cases haccepts
    refine completeIfHeld_recordHas hP _ (h.of_map (setSegState_records _ _ _ _) (onImage_image (by exact fun _ => rfl)) fun r hp => ?_)
    unfold onImage
    split
    exacts [hP.segment r f.segment _ hseg hp, hp]
  · exact h.of_catalog (release_unmoved _ _).1

/-- R111, R112. What is left of the scan leaves a judged record judged. -/
theorem manifestPhase_recordHas {k : ImageKey} {P : ImageRecord → Prop} (hP : OutlivesOffers P) {c : Chip} (h : RecordHas k P c) :
    RecordHas k P (manifestPhase c) := by
  have hdata : ∀ {c}, RecordHas k P c → RecordHas k P (dataPhase c) := fun {c} hc => by
    have hoffers := forEach_keeps (R := fun c d => RecordHas k P c → RecordHas k P d) (xs := c.store.findings) (fun _ h => h)
      (fun h1 h2 h => h2 (h1 h)) (fun f _ c hc => offerData_recordHas hP f hc) { c with store := { c.store with scanPhase := .data } }
    exact (hoffers (hc.of_catalog rfl)).of_catalog (scanDone_does _).2.2.1
  have hsteps : ∀ n c, RecordHas k P c → RecordHas k P (manifestSteps n c) := by
    intro n
    induction n with
    | zero => exact fun _ hc => hc
    | succ n ih =>
      intro c hc
      unfold manifestSteps
      split
      · exact hdata hc
      · next f _ =>
        split
        · exact hc
        · exact ih _ (hc.of_catalog (release_unmoved f.slot (dropFinding f c)).1)
  exact hsteps _ _ (h.of_catalog rfl)

/-! ## The judgement (R14, R16) -/

/-- R16. The record of an image whose manifest was found valid in a slot. -/
def TookManifest (slot : Nat) (m : Manifest) (r : ImageRecord) : Prop :=
  r.manifest = some m ∧ (r.state = .gathering ∨ r.state = .complete) ∧ r.entries.length = m.count + 1 ∧
    (r.entries[0]?).map (fun e => e.state) = some (.held slot)

/-- R14. The record of an image whose manifest was rejected. -/
def WasRejected (r : ImageRecord) : Prop := r.state = .rejected ∧ (r.entries[0]?).map (fun e => e.state) = some .absent

theorem withSegState_first {seg : Nat} (h : 1 ≤ seg) (st : SegState) (r : ImageRecord) : (withSegState seg st r).entries[0]? = r.entries[0]? := by
  have hne : seg ≠ 0 := by omega
  simp [withSegState, hne]

theorem tookManifest_outlives (slot : Nat) (m : Manifest) : OutlivesOffers (TookManifest slot m) where
  segment := fun r seg st h ⟨hm, hs, hl, h0⟩ => ⟨hm, hs, by simpa [withSegState] using hl, by rw [withSegState_first h, h0]⟩
  complete := fun _ _ ⟨hm, _, hl, h0⟩ => ⟨hm, .inr rfl, hl, h0⟩

theorem wasRejected_outlives : OutlivesOffers WasRejected where
  segment := fun r seg st h ⟨hs, h0⟩ => ⟨hs, by rw [withSegState_first h, h0]⟩
  complete := fun r hg ⟨hs, _⟩ => by rw [hg] at hs; cases hs

theorem countEntries_states (peers : List PeerRecord) (k : ImageKey) (seg : Nat) (es : List SegEntry) :
    (countEntries peers k seg es).map (fun e => e.state) = es.map (fun e => e.state) := by
  induction es generalizing seg with
  | nil => rfl
  | cons e es ih => simp [countEntries, ih]

/-- R16. The record with its manifest taken: segment 0 HELD in the slot, the data segments ABSENT and not yet counted. -/
def withManifest (slot : Nat) (m : Manifest) (r : ImageRecord) : ImageRecord :=
  { r with
    state := .gathering
    manifest := some m
    entries :=
      { state := .held slot, holders := match r.entries with | e :: _ => e.holders | [] => 0 } ::
        List.replicate m.count { state := .absent, holders := 0 } }

theorem takeManifest_eq (k : ImageKey) (slot : Nat) (m : Manifest) (c : Chip) :
    takeManifest k slot m c = recount (askSelection (updateRecord k (withManifest slot m) c)) := rfl

theorem takeManifest_recordHas {k : ImageKey} {r : ImageRecord} {c : Chip} (h : findRecord c k = some r) (slot : Nat) (m : Manifest) :
    RecordHas k (TookManifest slot m) (takeManifest k slot m c) := by
  have hupdated : findRecord (askSelection (updateRecord k (withManifest slot m) c)) k = some (withManifest slot m r) :=
    findRecord_updateRecord h fun _ => rfl
  rw [takeManifest_eq]
  refine ⟨_, findRecord_recount hupdated, rfl, .inl rfl, ?_, rfl⟩
  have hstates := congrArg List.length (countEntries_states c.peers r.image 1 (List.replicate m.count { state := .absent, holders := 0 }))
  simpa [countRecord, withManifest, countEntries] using hstates

theorem rejectManifest_recordHas {k : ImageKey} {r : ImageRecord} {c : Chip} (h : findRecord c k = some r) (hlen : 0 < r.entries.length)
    (slot reason : Nat) : RecordHas k WasRejected (rejectManifest k slot reason c) := by
  have hupdated := findRecord_updateRecord h (f := fun r => { r with state := .rejected }) (fun _ => rfl)
  have hset : findRecord (setSegState k 0 .absent (updateRecord k (fun r => { r with state := .rejected }) c)) k = some _ :=
    findRecord_updateRecord hupdated (f := withSegState 0 .absent) (fun _ => rfl)
  have hcatalog : (rejectManifest k slot reason c).catalog =
      (setSegState k 0 .absent (updateRecord k (fun r => { r with state := .rejected }) c)).catalog := by
    rw [rejectManifest, report_catalog, (release_unmoved slot _).1]
  refine ⟨_, (findRecord_of_catalog hcatalog k).trans hset, rfl, ?_⟩
  simp [withSegState, hlen]

/-- R59. The chip with a segment's slot FULL, as its manifest is judged. -/
def slotTaken (k : ImageKey) (slot : Nat) (c : Chip) : Chip := setSlot slot { cond := .full, owner := some (.segment k 0) } c

theorem readData_of_flash {c d : Chip} (h : d.store.flash = c.store.flash) (slot : Nat) : readData d slot = readData c slot := by
  rw [readData, h, readData]

theorem holdSegment_of_valid {k : ImageKey} {r : ImageRecord} {c : Chip} (h : findRecord c k = some r) {slot : Nat} {m : Manifest}
    (hv : validateManifest k r.model (readData c slot) = .ok m) : holdSegment k 0 slot c = takeManifest k slot m (slotTaken k slot c) := by
  have hread : readData (slotTaken k slot c) slot = readData c slot := readData_of_flash rfl slot
  unfold slotTaken at hread ⊢
  simp only [holdSegment, h, hread, hv, if_true]

theorem holdSegment_of_invalid {k : ImageKey} {r : ImageRecord} {c : Chip} (h : findRecord c k = some r) {slot reason : Nat}
    (hv : validateManifest k r.model (readData c slot) = .error reason) : holdSegment k 0 slot c = rejectManifest k slot reason (slotTaken k slot c) := by
  have hread : readData (slotTaken k slot c) slot = readData c slot := readData_of_flash rfl slot
  unfold slotTaken at hread ⊢
  simp only [holdSegment, h, hread, hv, if_true]

theorem takeManifest_scans (k : ImageKey) (slot : Nat) (m : Manifest) (c : Chip) : Scans c (takeManifest k slot m c) := by
  obtain ⟨asked, h⟩ := recount_does (askSelection (updateRecord k (withManifest slot m) c))
  rw [takeManifest_eq, h]
  exact ⟨rfl, rfl, fun _ h => h, .refl _⟩

theorem rejectManifest_scans (k : ImageKey) (slot reason : Nat) (c : Chip) :
    Scans c (rejectManifest k slot reason c) ∧
      Appended c.port.reports (rejectManifest k slot reason c).port.reports .manifestRejected (.image k) reason c.now := by
  have hbefore : Scans c (release slot (setSegState k 0 .absent (updateRecord k (fun r => { r with state := .rejected }) c))) :=
    Scans.trans (d := setSegState k 0 .absent (updateRecord k (fun r => { r with state := .rejected }) c)) ⟨rfl, rfl, fun _ h => h, .refl _⟩
      (release_scans slot _)
  unfold rejectManifest
  generalize release slot (setSegState k 0 .absent (updateRecord k (fun r => { r with state := .rejected }) c)) = d at hbefore ⊢
  refine ⟨hbefore.trans (.of_stands (by simp [Stands]) (report_grows _ _ _ d)), ?_⟩
  rw [← hbefore.now]
  exact appended_of_report hbefore.reports (.refl _)

/-- The bytes of a manifest finding have been read: its slot leaves the list, they are judged, and the scan goes on. -/
theorem manifestRead_judges {c : Chip} {slot : Nat} {live : Bool} {f : Finding}
    (hcurrent : c.store.current = some { op := .scanManifest slot 63, live := live }) (hfind : c.store.findings.find? (fun x => x.slot == slot) = some f)
    (hconsiders : considersManifest c f = true) :
    manifestRead c = manifestPhase (holdSegment f.image 0 slot (dropFinding f (freeDevice c))) := by
  have hfind' : (freeDevice c).store.findings.find? (fun x => x.slot == slot) = some f := hfind
  have hconsiders' : considersManifest (freeDevice c) f = true := hconsiders
  simp only [manifestRead, hcurrent, hfind', hconsiders', if_true]
  rfl

/-- R105, log 7. Each of the 64 reads but the last is followed by the next. -/
theorem manifestRead_next {c : Chip} {slot index : Nat} {live : Bool}
    (hcurrent : c.store.current = some { op := .scanManifest slot index, live := live }) (hindex : index < 63) :
    manifestRead c = presentOp { op := .scanManifest slot (index + 1), owner := none } (freeDevice c) := by
  simp only [manifestRead, hcurrent, if_pos hindex]

/-- R14, R16. What the judgement of a manifest's bytes in the slot makes of its image's record, from one chip to another. -/
def ManifestJudged (k : ImageKey) (slot : Nat) (c d : Chip) : Except Nat Manifest → Prop
  | .ok m => RecordHas k (TookManifest slot m) d
  | .error reason => RecordHas k WasRejected d ∧ Appended c.port.reports d.port.reports .manifestRejected (.image k) reason c.now

theorem holdSegment_judges {k : ImageKey} {r : ImageRecord} {c : Chip} (h : findRecord c k = some r) (hlen : 0 < r.entries.length) (slot : Nat) :
    Scans c (holdSegment k 0 slot c) ∧ ManifestJudged k slot c (holdSegment k 0 slot c) (validateManifest k r.model (readData c slot)) := by
  have htaken : Scans c (slotTaken k slot c) := ⟨rfl, rfl, fun _ h => h, .refl _⟩
  have hfound : findRecord (slotTaken k slot c) k = some r := h
  cases hv : validateManifest k r.model (readData c slot) with
  | ok m =>
    rw [holdSegment_of_valid h hv]
    exact ⟨htaken.trans (takeManifest_scans _ _ _ _), takeManifest_recordHas hfound slot m⟩
  | error reason =>
    rw [holdSegment_of_invalid h hv]
    obtain ⟨hscans, happended⟩ := rejectManifest_scans k slot reason (slotTaken k slot c)
    exact ⟨htaken.trans hscans, rejectManifest_recordHas hfound hlen slot reason, happended⟩

/-- R111. What is left of the scan leaves the judgement standing. -/
theorem ManifestJudged.scanned {k : ImageKey} {slot : Nat} {c d : Chip} {v : Except Nat Manifest} (h : ManifestJudged k slot c d v) :
    ManifestJudged k slot c (manifestPhase d) v := by
  cases v with
  | ok m => exact manifestPhase_recordHas (tookManifest_outlives slot m) h
  | error reason =>
    obtain ⟨hrecord, happended⟩ := h
    exact ⟨manifestPhase_recordHas wasRejected_outlives hrecord, happended.after (manifestPhase_does d).1.reports⟩

/-- Settles O37, by the judgement of the finding's bytes, which what is left of the scan leaves standing. -/
theorem manifestFindingJudged : Obligations.ManifestFindingJudged := by
  unfold Obligations.ManifestFindingJudged
  refine ⟨fun s slot index live hcurrent hindex => ?_, fun s slot live f r hcurrent hfind hrecord hconsiders hlen => ?_⟩
  · have hstanding := settle_standing (manifestRead s.chip)
    refine ⟨{ s with chip := settle (manifestRead s.chip) }, manifestRead s.chip, rfl, rfl, ?_⟩
    rw [manifestRead_next hcurrent hindex] at hstanding ⊢
    exact ⟨hstanding, rfl, rfl⟩
  · have hslot : f.slot = slot := by simpa using List.find?_some hfind
    have hdropped : Scans s.chip (dropFinding f (freeDevice s.chip)) := ⟨rfl, rfl, fun _ h => List.mem_of_mem_filter h, .refl _⟩
    have hlist : ∀ x ∈ (dropFinding f (freeDevice s.chip)).store.findings, x.slot ≠ slot := fun x hx => by
      simpa [hslot] using (List.mem_filter.mp hx).2
    have hdata : readData (dropFinding f (freeDevice s.chip)) slot = readData s.chip slot := readData_of_flash rfl slot
    have hfound : findRecord (dropFinding f (freeDevice s.chip)) f.image = some r := hrecord
    refine ⟨{ s with chip := settle (manifestRead s.chip) }, manifestRead s.chip, rfl, rfl, ?_⟩
    rw [manifestRead_judges hcurrent hfind hconsiders, ← hdata]
    generalize dropFinding f (freeDevice s.chip) = d at *
    obtain ⟨hheld, hjudged⟩ := holdSegment_judges hfound hlen slot
    have hscanned := hjudged.scanned
    generalize holdSegment f.image 0 slot d = e at *
    obtain ⟨hscans, hmoved⟩ := manifestPhase_does e
    have hset := settle_standing (manifestPhase e)
    have hsettled := settle_grows (manifestPhase e)
    generalize manifestPhase e = c' at *
    generalize settle c' = t at *
    have hflash : t.store.flash = c'.store.flash := congrArg Standing.flash hset
    have hall := (hdropped.trans hheld).trans hscans
    refine ⟨hflash.trans hall.flash, hmoved, fun x hx => ⟨hlist x ((hheld.trans hscans).findings x hx), hall.findings x hx⟩, ?_⟩
    cases hv : validateManifest f.image r.model (readData d slot) with
    | ok m =>
      rw [hv] at hscanned
      obtain ⟨r', hr', htook⟩ := hscanned
      have hstate : segState _ f.image 0 = some (.held slot) := RecordHas.segState (fun _ h => h.2.2.2) ⟨r', hr', htook⟩
      obtain ⟨hmanifest, hstates, hentries, _⟩ := htook
      exact ⟨r', hr', hmanifest, hstates, hentries, hstate⟩
    | error reason =>
      rw [hv] at hscanned
      obtain ⟨⟨r', hr', hwas⟩, happended⟩ := hscanned
      have hstate : segState _ f.image 0 = some .absent := RecordHas.segState (fun _ h => h.2) ⟨r', hr', hwas⟩
      rw [hdropped.now] at happended
      exact ⟨r', hr', hwas.1, hstate, (happended.before hdropped.reports).after hsettled⟩

end Sys2Proof.Machine
end

