-- ==== Sys2Proof/Proofs/OpenFetches.lean ====
section
/-!
SUPPORT. What setting the blocks going keeps of the open fetches and of a cooling segment (R18, R47): selection opens FREE fetch slots for ABSENT segments,
and evicts HELD ones.
-/
namespace Sys2Proof.Machine

/-! ## Fetch slots and their Asks (R38, R48) -/

theorem fetchSlot_of_slots {c d : Chip} (h : d.fetch.slots = c.fetch.slots) (i : Nat) : fetchSlot d i = fetchSlot c i := by simp [fetchSlot, h]

theorem fetchSlot_setFetchSlot {c : Chip} {i : Nat} (h : i < c.fetch.slots.length) (v : FetchSlot) : fetchSlot (setFetchSlot i v c) i = v := by
  rw [fetchSlot_of_set (c := c) rfl h, if_pos rfl]

theorem fetchSlot_setFetchSlot_ne {i j : Nat} (h : j ≠ i) (v : FetchSlot) (c : Chip) : fetchSlot (setFetchSlot i v c) j = fetchSlot c j := by
  simp [fetchSlot, setFetchSlot, List.getD_eq_getElem?_getD, List.getElem?_set_ne (Ne.symm h)]

theorem updateOpen_of_opened {c : Chip} {i : Nat} {x : OpenFetch} (h : fetchSlot c i = .opened x) (f : OpenFetch → OpenFetch) :
    updateOpen i f c = setFetchSlot i (.opened (f x)) c := by
  simp only [updateOpen, h]

theorem fetchSlot_updateOpen_ne {i j : Nat} (h : j ≠ i) (f : OpenFetch → OpenFetch) (c : Chip) : fetchSlot (updateOpen i f c) j = fetchSlot c j := by
  unfold updateOpen
  split
  · exact fetchSlot_setFetchSlot_ne h _ _
  · rfl

theorem updateOpen_parts (i : Nat) (f : OpenFetch → OpenFetch) (c : Chip) :
    (updateOpen i f c).fetch.asks = c.fetch.asks ∧ (updateOpen i f c).peers = c.peers ∧ (updateOpen i f c).yard = c.yard := by
  unfold updateOpen
  split <;> exact ⟨rfl, rfl, rfl⟩

/-- R48. An OPEN slot whose Ask is queued has no timer running, and its Ask waits where the port is on. -/
theorem queueAsk_opened {c : Chip} {i : Nat} {x : OpenFetch} (h : fetchSlot c i = .opened x) :
    fetchSlot (queueAsk i c) i = .opened { x with timer := none } ∧ (c.yard.mode = .on → i ∈ (queueAsk i c).fetch.asks) := by
  have hw : fetchSlot (withdrawAsk i c) i = .opened x := h
  have hset : fetchSlot (setFetchSlot i (.opened { x with timer := none }) (withdrawAsk i c)) i = .opened { x with timer := none } :=
    fetchSlot_setFetchSlot (fetchSlot_opened_lt hw) _
  unfold queueAsk
  rw [updateOpen_of_opened hw]
  dsimp only
  split
  · exact ⟨hset, fun _ => by simp⟩
  · next hoff => exact ⟨hset, fun hon => absurd hon hoff⟩

theorem queueAsk_others {i j : Nat} (h : j ≠ i) (c : Chip) :
    fetchSlot (queueAsk i c) j = fetchSlot c j ∧ (j ∈ c.fetch.asks → j ∈ (queueAsk i c).fetch.asks) := by
  have hslot : fetchSlot (updateOpen i (fun f => { f with timer := none }) (withdrawAsk i c)) j = fetchSlot c j :=
    (fetchSlot_updateOpen_ne h _ _).trans rfl
  have hasks : j ∈ c.fetch.asks → j ∈ (updateOpen i (fun f => { f with timer := none }) (withdrawAsk i c)).fetch.asks := fun hj => by
    rw [(updateOpen_parts _ _ _).1]
    simp [withdrawAsk, hj, h]
  unfold queueAsk
  dsimp only
  split
  · exact ⟨hslot, fun hj => List.mem_append_left _ (hasks hj)⟩
  · exact ⟨hslot, hasks⟩

theorem queueAsk_peers (i : Nat) (c : Chip) : (queueAsk i c).peers = c.peers := by
  unfold queueAsk
  dsimp only
  split
  · exact (updateOpen_parts _ _ _).2.1
  · exact (updateOpen_parts _ _ _).2.1

/-! ## Open fetches stay open -/

@[simp] theorem setSegState_slots (k : ImageKey) (seg : Nat) (st : SegState) (c : Chip) :
    (setSegState k seg st c).fetch.slots = c.fetch.slots ∧ (setSegState k seg st c).fetch.asks = c.fetch.asks := ⟨rfl, rfl⟩

/-- Every open fetch stands as it was, with its waiting Ask. -/
def KeepsOpen (c d : Chip) : Prop :=
  ∀ i x, fetchSlot c i = .opened x → fetchSlot d i = .opened x ∧ (i ∈ c.fetch.asks → i ∈ d.fetch.asks)

theorem KeepsOpen.trans {c d e : Chip} (h : KeepsOpen c d) (k : KeepsOpen d e) : KeepsOpen c e := fun i x hx =>
  have hd := h i x hx
  have he := k i x hd.1
  ⟨he.1, fun ha => he.2 (hd.2 ha)⟩

theorem KeepsOpen.of_fetch {c d : Chip} (hs : d.fetch.slots = c.fetch.slots) (ha : d.fetch.asks = c.fetch.asks) : KeepsOpen c d := fun i _ hx =>
  ⟨(fetchSlot_of_slots hs i).trans hx, fun h => ha ▸ h⟩

theorem freeSlot_free {c : Chip} {i : Nat} (h : freeSlot c = some i) : fetchSlot c i = .free := by
  obtain ⟨hi, hfree, _⟩ := List.findIdx?_eq_some_iff_getElem.mp h
  simpa [fetchSlot, List.getD_eq_getElem?_getD, hi] using hfree

/-- R47. A fetch is opened in a FREE slot. -/
theorem openFetch_keepsOpen {c : Chip} {i : Nat} (h : freeSlot c = some i) (slot : Nat) (x : Candidate) (p : PeerRecord) :
    KeepsOpen c (openFetch i slot x p c) := by
  intro j y hy
  have hne : j ≠ i := fun e => by
    rw [e, freeSlot_free h] at hy
    cases hy
  obtain ⟨hslot, hasks⟩ := queueAsk_others hne
    (setFetchSlot i
      (.opened
        { image := x.image, segment := x.segment, peer := p.id, counted := true, base := 0, bitmap := 0, reask := false, switches := 0,
          switchOwed := false, lastAsk := none, timer := none, windowStart := none, lastAccept := none, accepted := 0, storeSlot := slot,
          claimed := false })
      (raiseOpen p.id (setSegState x.image x.segment (.fetching slot) (allocate slot (.fetch i) c))))
  rw [fetchSlot_setFetchSlot_ne hne] at hslot
  have hopened : KeepsOpen c (raiseOpen p.id (setSegState x.image x.segment (.fetching slot) (allocate slot (.fetch i) c))) :=
    .of_fetch (by simp) (by simp)
  obtain ⟨hstill, hwaits⟩ := hopened j y hy
  exact ⟨hslot.trans hstill, fun ha => hasks (hwaits ha)⟩

theorem leaveComplete_keepsOpen (k : ImageKey) (c : Chip) : KeepsOpen c (leaveComplete k c) := by
  unfold leaveComplete
  split
  · exact .of_fetch (by simp) (by simp)
  · exact .of_fetch rfl rfl

/-- R46. An eviction leaves the fetches alone. -/
theorem evictSegment_keepsOpen (k : ImageKey) (seg slot : Nat) (c : Chip) : KeepsOpen c (evictSegment k seg slot c) :=
  KeepsOpen.trans (d := release slot (endServes (fun e => e.image == k && e.segment == seg) (setSegState k seg .absent c)))
    (.of_fetch (by simp) (by simp)) (leaveComplete_keepsOpen k _)

theorem settle_keepsOpen (c : Chip) : KeepsOpen c (settle c) :=
  settle_does (R := KeepsOpen) KeepsOpen.trans (fun _ h => .of_fetch h.2.1 h.2.2)
    (runSelection_does (R := KeepsOpen) KeepsOpen.trans (fun _ h => .of_fetch h.2.1 h.2.2)
      (fun _ _ slot x p hi _ => openFetch_keepsOpen hi slot x p) (fun _ _ _ _ => evictSegment_keepsOpen _ _ _ _)) c

/-! ## A cooling segment keeps cooling (R18) -/

/-- The segment has an entry, and every entry of it is COOLING until `u`. -/
def Cools (k : ImageKey) (seg u : Nat) (c : Chip) : Prop :=
  RecordHas k (fun r => seg < r.entries.length) c ∧ ∀ r ∈ c.catalog.records, r.image = k → ∀ e, r.entries[seg]? = some e → e.state = .cooling u

theorem Cools.segState {k : ImageKey} {seg u : Nat} {c : Chip} (h : Cools k seg u c) : segState c k seg = some (.cooling u) := by
  obtain ⟨⟨r, hr, hlen⟩, hall⟩ := h
  have hget : r.entries[seg]? = some r.entries[seg] := List.getElem?_eq_getElem hlen
  have hstate := hall r (List.mem_of_find?_eq_some hr) (findRecord_image hr) _ hget
  simp [Machine.segState, hr, hget, hstate]

theorem Cools.of_catalog {k : ImageKey} {seg u : Nat} {c d : Chip} (h : d.catalog = c.catalog) (hc : Cools k seg u c) : Cools k seg u d :=
  ⟨hc.1.of_catalog h, by rw [h]; exact hc.2⟩

/-- A change of records that keeps the images, the entries' number and the segment's entry leaves it cooling. -/
theorem Cools.of_map {k : ImageKey} {seg u : Nat} {c d : Chip} {g : ImageRecord → ImageRecord} (h : d.catalog.records = c.catalog.records.map g)
    (himage : ∀ r, (g r).image = r.image) (hlen : ∀ r, (g r).entries.length = r.entries.length)
    (hentry : ∀ r, r.image = k → (g r).entries[seg]? = r.entries[seg]?) (hc : Cools k seg u c) : Cools k seg u d := by
  refine ⟨hc.1.of_map h himage fun r hr => by rw [hlen]; exact hr, fun r' hr' himage' e he => ?_⟩
  rw [h] at hr'
  obtain ⟨r, hr, rfl⟩ := List.mem_map.mp hr'
  have hk : r.image = k := (himage r).symm.trans himage'
  exact hc.2 r hr hk e (by rw [← hentry r hk]; exact he)

/-- A change of another segment's state leaves a segment cooling. -/
theorem Cools.of_segState {k k' : ImageKey} {seg seg' u : Nat} {st : SegState} {c d : Chip} (hne : ¬(k' = k ∧ seg' = seg))
    (h : d.catalog.records = c.catalog.records.map (onImage k' (withSegState seg' st))) (hc : Cools k seg u c) : Cools k seg u d := by
  refine hc.of_map h (onImage_image (by exact fun _ => rfl)) (fun r => ?_) fun r hk => ?_
  · unfold onImage
    split <;> simp [withSegState]
  · unfold onImage
    split
    · next hk' =>
      have : seg' ≠ seg := fun e => hne ⟨hk'.symm.trans hk, e⟩
      simp [withSegState, this]
    · rfl

/-- R41. A candidate is an ABSENT segment. -/
theorem recordCandidates_mem {c : Chip} {r : ImageRecord} {seg : Nat} {es : List SegEntry} {x : Candidate} (h : x ∈ recordCandidates c r seg es) :
    x.image = r.image ∧ ∃ j e, x.segment = seg + j ∧ es[j]? = some e ∧ e.state = .absent := by
  induction es generalizing seg with
  | nil => simp [recordCandidates] at h
  | cons e es ih =>
    rw [recordCandidates] at h
    rcases List.mem_append.mp h with h | h
    · split at h
      · next hc =>
        obtain rfl := List.mem_singleton.mp h
        refine ⟨rfl, 0, e, rfl, rfl, ?_⟩
        simp only [isCandidate, Bool.and_eq_true, beq_iff_eq] at hc
        exact hc.1.1.1
      · cases h
    · obtain ⟨himage, j, e', hseg, hget, hstate⟩ := ih h
      exact ⟨himage, j + 1, e', by omega, by simpa using hget, hstate⟩

theorem candidates_absent {c : Chip} {x : Candidate} (h : x ∈ candidates c) :
    ∃ r ∈ c.catalog.records, ∃ e, r.image = x.image ∧ r.entries[x.segment]? = some e ∧ e.state = .absent := by
  obtain ⟨r, hr, hx⟩ := List.mem_flatMap.mp h
  obtain ⟨himage, j, e, hseg, hget, hstate⟩ := recordCandidates_mem hx
  have : x.segment = j := by omega
  exact ⟨r, hr, e, himage.symm, this ▸ hget, hstate⟩

/-- R46. An evictable segment is HELD. -/
theorem recordEvictable_mem {c : Chip} {priv : Bool} {k : ImageKey} {seg : Nat} {es : List SegEntry} {v : Evictable}
    (h : v ∈ recordEvictable c priv k seg es) : v.image = k ∧ ∃ j e, v.segment = seg + j ∧ es[j]? = some e ∧ e.state = .held v.slot := by
  induction es generalizing seg with
  | nil => simp [recordEvictable] at h
  | cons e es ih =>
    rw [recordEvictable] at h
    rcases List.mem_append.mp h with h | h
    · split at h
      · next slot hheld =>
        split at h
        · obtain rfl := List.mem_singleton.mp h
          exact ⟨rfl, 0, e, rfl, rfl, hheld⟩
        · cases h
      · cases h
    · obtain ⟨himage, j, e', hseg, hget, hstate⟩ := ih h
      exact ⟨himage, j + 1, e', by omega, by simpa using hget, hstate⟩

theorem evictables_held {c : Chip} {priv : Bool} {v : Evictable} (h : v ∈ evictables c priv) :
    ∃ r ∈ c.catalog.records, ∃ e, r.image = v.image ∧ r.entries[v.segment]? = some e ∧ e.state = .held v.slot := by
  obtain ⟨r, hr, hv⟩ := List.mem_flatMap.mp h
  split at hv
  · obtain ⟨himage, j, e, hseg, hget, hstate⟩ := recordEvictable_mem hv
    rw [List.getElem?_drop, ← hseg] at hget
    exact ⟨r, hr, e, himage.symm, hget, hstate⟩
  · cases hv

theorem Cools.ne_of_state {k : ImageKey} {seg u : Nat} {c : Chip} (hc : Cools k seg u c) {k' : ImageKey} {seg' : Nat} {st : SegState}
    (h : ∃ r ∈ c.catalog.records, ∃ e, r.image = k' ∧ r.entries[seg']? = some e ∧ e.state = st) (hst : st ≠ .cooling u) :
    ¬(k' = k ∧ seg' = seg) := by
  rintro ⟨rfl, rfl⟩
  obtain ⟨r, hr, e, himage, hget, hstate⟩ := h
  exact hst (hstate.symm.trans (hc.2 r hr himage e hget))

theorem evictSegment_cools {k : ImageKey} {seg u : Nat} {k' : ImageKey} {seg' slot : Nat} {c : Chip} (hne : ¬(k' = k ∧ seg' = seg))
    (hc : Cools k seg u c) : Cools k seg u (evictSegment k' seg' slot c) := by
  have hset : Cools k seg u (setSegState k' seg' .absent c) := hc.of_segState hne (setSegState_records _ _ _ _)
  rcases evictSegment_records k' seg' slot c with h | h
  · exact hc.of_segState hne h
  · rw [← setSegState_records] at h
    refine hset.of_map h (onImage_image (by exact fun _ => rfl)) (fun r => ?_) fun r _ => ?_
    all_goals
      unfold onImage
      split <;> rfl

theorem settle_cools {k : ImageKey} {seg u : Nat} {c : Chip} (h : Cools k seg u c) : Cools k seg u (settle c) :=
  settle_does (R := fun c d => Cools k seg u c → Cools k seg u d) (fun h1 h2 h => h2 (h1 h)) (fun _ hu h => h.of_catalog hu.1)
    (runSelection_does (R := fun c d => Cools k seg u c → Cools k seg u d) (fun h1 h2 h => h2 (h1 h)) (fun _ hu h => h.of_catalog hu.1)
      (fun c i slot x p _ hx h => h.of_segState (h.ne_of_state (candidates_absent hx) (by simp)) (openFetch_records i slot x p c))
      (fun _ _ v hv h => evictSegment_cools (h.ne_of_state (evictables_held hv) (by simp)) h)) c h

end Sys2Proof.Machine
end

