-- ==== Sys2Proof/Proofs/FetchTimes.lean ====
section
/-!
SUPPORT. The end of a fetch slot's timer (R51, R56, R57) and of a segment's cooling (R18).
-/
namespace Sys2Proof.Machine

/-! ## The window's missing blocks (R48) -/

theorem shiftedMark_ne_zero {p : Nat} (hp : p < 16) : (1#16 <<< p) ≠ 0#16 := by
  intro h
  have hbit := congrArg (fun m : BitVec 16 => m.getLsbD p) h
  simp [hp] at hbit

/-- A mask names no position exactly when no position is to be named. -/
theorem maskOf_eq_zero (f : Nat → Bool) : maskOf f = 0#16 ↔ ∀ p < 16, f p = false := by
  have hfold : ∀ ps : List Nat, (∀ p ∈ ps, p < 16) → ∀ m : BitVec 16,
      ps.foldl (fun m p => if f p then m ||| (1#16 <<< p) else m) m = 0#16 ↔ m = 0#16 ∧ ∀ p ∈ ps, f p = false := by
    intro ps
    induction ps with
    | nil => simp
    | cons p ps ih =>
      intro hps m
      have hp := shiftedMark_ne_zero (hps p (by simp))
      rw [List.foldl_cons, ih (fun q hq => hps q (by simp [hq])), List.forall_mem_cons]
      by_cases hf : f p = true
      · simp [hf, BitVec.or_eq_zero_iff, hp]
      · simp [hf]
  rw [maskOf, hfold _ (by simp) 0#16]
  simp

theorem missingMask_eq_zero {c : Chip} {i : Nat} {x : OpenFetch} : missingMask c i x = 0#16 ↔ ∀ p < 16, missing c i x (x.base + p) = false :=
  maskOf_eq_zero _

/-! ## The peer table through a switch (R33) -/

theorem raiseOpen_bodies (id : Nat) (c : Chip) : (raiseOpen id c).peers.map peerBody = c.peers.map peerBody := by
  simp only [raiseOpen, updatePeer, List.map_map]
  refine List.map_congr_left fun p _ => ?_
  simp only [Function.comp]
  split <;> rfl

theorem lowerOpen_bodies (id : Nat) (counted : Bool) (c : Chip) : (lowerOpen id counted c).peers.map peerBody = c.peers.map peerBody := by
  unfold lowerOpen
  split
  · simp only [askSelection, updatePeer, List.map_map]
    refine List.map_congr_left fun p _ => ?_
    simp only [Function.comp]
    split <;> rfl
  · rfl

/-! ## Switching and abandonment (R56, R57) -/

/-- R56. The open fetch moved to another peer. -/
def movedTo (p : PeerRecord) (x : OpenFetch) : OpenFetch :=
  { x with
    peer := p.id, counted := true, switches := x.switches + 1, reask := false, switchOwed := false, timer := none, windowStart := none, accepted := 0 }

theorem moveToPeer_does {c : Chip} {i : Nat} (hi : i < c.fetch.slots.length) (x : OpenFetch) (p : PeerRecord) :
    fetchSlot (moveToPeer i x p c) i = .opened (movedTo p x) ∧ (c.yard.mode = .on → i ∈ (moveToPeer i x p c).fetch.asks) ∧
      (moveToPeer i x p c).peers.map peerBody = c.peers.map peerBody := by
  have hmove : moveToPeer i x p c = queueAsk i (setFetchSlot i (.opened (movedTo p x)) (raiseOpen p.id (lowerOpen x.peer x.counted c))) := rfl
  have hlower : (raiseOpen p.id (lowerOpen x.peer x.counted c)).fetch.slots = c.fetch.slots := by simp [raiseOpen, lowerOpen_store]
  have hmode : (raiseOpen p.id (lowerOpen x.peer x.counted c)).yard.mode = c.yard.mode := by simp
  have hbodies : (raiseOpen p.id (lowerOpen x.peer x.counted c)).peers.map peerBody = c.peers.map peerBody :=
    (raiseOpen_bodies _ _).trans (lowerOpen_bodies _ _ _)
  rw [hmove]
  generalize raiseOpen p.id (lowerOpen x.peer x.counted c) = d at hlower hmode hbodies
  obtain ⟨hslot, hasks⟩ := queueAsk_opened (fetchSlot_setFetchSlot (c := d) (hlower ▸ hi) (.opened (movedTo p x)))
  refine ⟨hslot, fun hon => hasks (hmode.trans hon), ?_⟩
  rw [queueAsk_peers]
  exact hbodies

theorem freeFetch_bodies (i peer : Nat) (counted : Bool) (c : Chip) : (freeFetch i peer counted c).peers.map peerBody = c.peers.map peerBody :=
  lowerOpen_bodies peer counted _

/-- A segment of the catalog that is made COOLING cools. -/
theorem cools_of_set {k : ImageKey} {seg u : Nat} {c d : Chip} (hsome : (segState c k seg).isSome)
    (h : d.catalog.records = c.catalog.records.map (onImage k (withSegState seg (.cooling u)))) : Cools k seg u d := by
  have himage : ∀ r, (onImage k (withSegState seg (.cooling u)) r).image = r.image := onImage_image (by exact fun _ => rfl)
  constructor
  · unfold segState at hsome
    split at hsome
    · next r hr =>
      refine ⟨_, (findRecord_of_map h himage k).trans (by rw [hr, Option.map_some]), ?_⟩
      simpa [onImage, findRecord_image hr, withSegState] using hsome
    · cases hsome
  · intro r' hr' himage' e he
    rw [h] at hr'
    obtain ⟨r, hr, rfl⟩ := List.mem_map.mp hr'
    have hk : r.image = k := (himage r).symm.trans himage'
    simp only [onImage, hk, if_true, withSegState, List.getElem?_modify_eq, Option.map_eq_map, Option.map_eq_some_iff] at he
    obtain ⟨_, _, rfl⟩ := he
    rfl

/-- R57. An abandoned fetch's segment cools for 30,000 ms, and FETCH_ABANDONED is reported. -/
theorem abandonFetch_does (i detail : Nat) (x : OpenFetch) (c : Chip) :
    ((segState c x.image x.segment).isSome → Cools x.image x.segment (c.now + 30000) (abandonFetch i detail x c)) ∧
      (abandonFetch i detail x c).peers.map peerBody = c.peers.map peerBody ∧
      Reported c.port.reports (abandonFetch i detail x c).port.reports .fetchAbandoned (.segment x.image x.segment) detail c.now := by
  have hquiet : Quiet c (setSegState x.image x.segment (.cooling (c.now + 30000)) (release x.storeSlot (freeFetch i x.peer x.counted c))) :=
    Quiet.trans (Quiet.trans (freeFetch_quiet i x.peer x.counted c) (release_quiet _ _)) (setSegState_quiet _ _ _ _)
  have hrecords : (setSegState x.image x.segment (.cooling (c.now + 30000)) (release x.storeSlot (freeFetch i x.peer x.counted c))).catalog.records =
      c.catalog.records.map (onImage x.image (withSegState x.segment (.cooling (c.now + 30000)))) := by
    rw [setSegState_records, (release_unmoved _ _).1, (freeFetch_does _ _ _ _).2.1]
  have hbodies : (setSegState x.image x.segment (.cooling (c.now + 30000)) (release x.storeSlot (freeFetch i x.peer x.counted c))).peers.map peerBody =
      c.peers.map peerBody := by
    have hset : (setSegState x.image x.segment (.cooling (c.now + 30000)) (release x.storeSlot (freeFetch i x.peer x.counted c))).peers =
        (freeFetch i x.peer x.counted c).peers := (release_parts _ _).1
    rw [hset, freeFetch_bodies]
  unfold abandonFetch
  generalize setSegState x.image x.segment (.cooling (c.now + 30000)) (release x.storeSlot (freeFetch i x.peer x.counted c)) = d at hquiet hrecords hbodies ⊢
  obtain ⟨⟨hstands, _, _⟩, hreports⟩ := hquiet
  have hnow : d.now = c.now := by
    simp only [Stands] at hstands
    simp [hstands]
  refine ⟨fun hsome => cools_of_set hsome (by rw [report_catalog, hrecords]), by rw [report_peers, hbodies], ?_⟩
  rw [← hnow]
  exact reported_of_report (.of_eq hreports) (.refl _)

/-! ## The window's end (R51) -/

/-- R51. The chip with the window's timer stopped. -/
def stopTimer (i : Nat) (x : OpenFetch) (c : Chip) : Chip := setFetchSlot i (.opened { x with timer := none }) c

/-- R51. A window that ends with nothing missing stops its timer; otherwise it is re-asked once, and then the peer is struck and the slot switches. -/
theorem endWindow_of_opened {c : Chip} {i : Nat} {x : OpenFetch} (h : fetchSlot c i = .opened x) :
    endWindow i c =
      if missingMask c i x = 0#16 then stopTimer i x c
      else if x.reask then switchFetch i (strike x.peer x.counted (stopTimer i x c))
      else queueAsk i (updateOpen i (fun f => { f with reask := true }) (stopTimer i x c)) := by
  have hmask : missingMask (stopTimer i x c) i x = missingMask c i x := rfl
  simp only [endWindow, h]
  rw [← hmask]
  rfl

theorem stopTimer_opened {c : Chip} {i : Nat} {x : OpenFetch} (h : fetchSlot c i = .opened x) :
    fetchSlot (stopTimer i x c) i = .opened { x with timer := none } := fetchSlot_setFetchSlot (fetchSlot_opened_lt h) _

/-- R51. The one re-ask. -/
theorem endWindow_reasks {c : Chip} {i : Nat} {x : OpenFetch} (h : fetchSlot c i = .opened x) (hmissing : missingMask c i x ≠ 0#16)
    (hreask : x.reask = false) :
    fetchSlot (endWindow i c) i = .opened { x with timer := none, reask := true } ∧ (c.yard.mode = .on → i ∈ (endWindow i c).fetch.asks) ∧
      (endWindow i c).peers = c.peers := by
  have hend : endWindow i c = queueAsk i (updateOpen i (fun f => { f with reask := true }) (stopTimer i x c)) := by
    rw [endWindow_of_opened h, if_neg hmissing, hreask]
    rfl
  have hopened : fetchSlot (updateOpen i (fun f => { f with reask := true }) (stopTimer i x c)) i = .opened { x with timer := none, reask := true } := by
    rw [updateOpen_of_opened (stopTimer_opened h)]
    exact fetchSlot_setFetchSlot (fetchSlot_opened_lt (stopTimer_opened h)) _
  obtain ⟨_, hpeers, hyard⟩ := updateOpen_parts i (fun f => { f with reask := true }) (stopTimer i x c)
  obtain ⟨hslot, hasks⟩ := queueAsk_opened hopened
  rw [hend]
  exact ⟨hslot, fun hon => hasks (by rw [hyard]; exact hon), (queueAsk_peers _ _).trans hpeers⟩

/-- R56, R57. The holder that the slot switches to, if it may switch and there is one. -/
def nextHolder (x : OpenFetch) (c : Chip) : Option PeerRecord :=
  if x.switches < 3 then chooseHolder c x.image x.segment (some x.peer) else none

theorem switchFetch_of_some {c : Chip} {i : Nat} {x : OpenFetch} {p : PeerRecord} (h : fetchSlot c i = .opened x) (hp : nextHolder x c = some p) :
    switchFetch i c = moveToPeer i x p c := by
  unfold nextHolder at hp
  split at hp
  · next hlt =>
    have : ¬3 ≤ x.switches := by omega
    simp [switchFetch, h, hp, this]
  · cases hp

theorem switchFetch_of_none {c : Chip} {i : Nat} {x : OpenFetch} (h : fetchSlot c i = .opened x) (hp : nextHolder x c = none) :
    switchFetch i c = abandonFetch i (if x.switches < 3 then 2 else 1) x c := by
  by_cases hlt : x.switches < 3
  · have : ¬3 ≤ x.switches := by omega
    rw [nextHolder, if_pos hlt] at hp
    simp [switchFetch, h, hp, hlt, this]
  · have : 3 ≤ x.switches := by omega
    simp [switchFetch, h, hlt, this]

theorem nextHolder_of_peers {c d : Chip} (h : d.peers = c.peers) (x : OpenFetch) : nextHolder x d = nextHolder x c := by
  simp [nextHolder, chooseHolder, h]

/-- R31, R51. After the re-ask the peer is struck, and the fetch moves to another holder or is abandoned. -/
theorem endWindow_switches {c : Chip} {i : Nat} {x : OpenFetch} (h : fetchSlot c i = .opened x) (hmissing : missingMask c i x ≠ 0#16)
    (hreask : x.reask = true) :
    (endWindow i c).peers.map peerBody = (strike x.peer x.counted c).peers.map peerBody ∧
      (∀ p, nextHolder x (strike x.peer x.counted c) = some p →
        fetchSlot (endWindow i c) i = .opened (movedTo p x) ∧ (c.yard.mode = .on → i ∈ (endWindow i c).fetch.asks)) ∧
      (nextHolder x (strike x.peer x.counted c) = none →
        ((segState c x.image x.segment).isSome → Cools x.image x.segment (c.now + 30000) (endWindow i c)) ∧
          Reported c.port.reports (endWindow i c).port.reports .fetchAbandoned (.segment x.image x.segment) (if x.switches < 3 then 2 else 1) c.now) := by
  have hstruck : Unmoved (stopTimer i x c) (strike x.peer x.counted (stopTimer i x c)) := strike_unmoved _ _ _
  have hopened : fetchSlot (strike x.peer x.counted (stopTimer i x c)) i = .opened { x with timer := none } :=
    (fetchSlot_of_slots hstruck.2.1 i).trans (stopTimer_opened h)
  have hpeers : (strike x.peer x.counted (stopTimer i x c)).peers = (strike x.peer x.counted c).peers := by
    unfold strike
    split <;> rfl
  obtain ⟨⟨hstands, _, _⟩, hreports⟩ := strike_quiet x.peer x.counted (stopTimer i x c)
  have hend : endWindow i c = switchFetch i (strike x.peer x.counted (stopTimer i x c)) := by
    rw [endWindow_of_opened h, if_neg hmissing, hreask]
    rfl
  have hsegments : segState (strike x.peer x.counted (stopTimer i x c)) x.image x.segment = segState c x.image x.segment := by
    rw [segState, findRecord_of_catalog hstruck.1]
    rfl
  rw [hend]
  generalize strike x.peer x.counted (stopTimer i x c) = d at *
  have hnow : d.now = c.now := congrArg Standing.now (standing_of_stands hstands)
  have hmode : d.yard.mode = c.yard.mode := congrArg Standing.mode (standing_of_stands hstands)
  rw [← nextHolder_of_peers hpeers x, ← hpeers]
  cases hholder : nextHolder x d with
  | some p =>
    rw [switchFetch_of_some hopened (p := p) hholder]
    obtain ⟨hslot, hasks, hbodies⟩ := moveToPeer_does (fetchSlot_opened_lt hopened) { x with timer := none } p
    refine ⟨hbodies, fun q hq => ?_, fun hnone => by cases hnone⟩
    obtain rfl := Option.some.inj hq
    exact ⟨hslot, fun hon => hasks (hmode.trans hon)⟩
  | none =>
    rw [switchFetch_of_none hopened hholder]
    obtain ⟨hcools, hbodies, hreported⟩ := abandonFetch_does i (if x.switches < 3 then 2 else 1) { x with timer := none } d
    rw [hnow, hreports] at hreported
    rw [hnow, hsegments] at hcools
    exact ⟨hbodies, fun q hq => (by cases hq), fun _ => ⟨hcools, hreported⟩⟩

/-! ## The timer and the cooling (R18, R51) -/

theorem fetchTimerExpires_of_opened {c : Chip} {i : Nat} {x : OpenFetch} {u : Nat} (h : fetchSlot c i = .opened x) (htimer : x.timer = some u) :
    fetchTimerExpires i c = if u ≤ c.now then endWindow i c else c := by
  simp [fetchTimerExpires, h, htimer, due, reached]

theorem coolingEnds_of_reached {c : Chip} {k : ImageKey} {seg u : Nat} (h : segState c k seg = some (.cooling u)) (hu : u ≤ c.now) :
    coolingEnds k seg c = setSegState k seg .absent c := by
  simp [coolingEnds, h, reached, hu]

/-- R18. Before the time, and of a segment that does not cool, nothing changes. -/
theorem coolingEnds_of_not_reached {c : Chip} {k : ImageKey} {seg : Nat} (h : ∀ u, segState c k seg = some (.cooling u) → c.now < u) :
    coolingEnds k seg c = c := by
  unfold coolingEnds
  split
  · next u hu =>
    have : ¬u ≤ c.now := Nat.not_le.mpr (h u hu)
    simp [reached, this]
  · rfl

theorem segState_setSegState {c : Chip} {k : ImageKey} {seg : Nat} (h : (segState c k seg).isSome) (st : SegState) :
    segState (setSegState k seg st c) k seg = some st := by
  unfold segState at h
  split at h
  · next r hr =>
    have hset : findRecord (setSegState k seg st c) k = some (withSegState seg st r) :=
      findRecord_updateRecord hr (f := withSegState seg st) (fun _ => rfl)
    rw [segState, hset]
    cases he : r.entries[seg]? with
    | none => simp [he] at h
    | some e => simp [withSegState, he]
  · cases h

/-- R51, R56, R57. What the blocks set going after the window's end leave of it: open fetches stand with their waiting Asks, and so do the peers' bodies. -/
theorem settle_endWindow (i : Nat) (c : Chip) :
    standing (settle (endWindow i c)) = standing c ∧ (settle (endWindow i c)).peers.map peerBody = (endWindow i c).peers.map peerBody ∧
      ∀ y, fetchSlot (endWindow i c) i = .opened y →
        fetchSlot (settle (endWindow i c)) i = .opened y ∧ (i ∈ (endWindow i c).fetch.asks → i ∈ (settle (endWindow i c)).fetch.asks) :=
  ⟨(settle_standing _).trans (standing_of_stands (endWindow_reports i c).1.1), (settle_adds _).2.2, settle_keepsOpen _ i⟩

/-- Settles O18, by what the window's end does in each of its cases, which the blocks set going after it leave standing. -/
theorem fetchTimesReached : Obligations.FetchTimesReached := by
  unfold Obligations.FetchTimesReached
  refine ⟨fun s i x u hi hopened htimer => ⟨fun hbefore => ?_, fun hreached => ?_⟩, fun s k seg => ⟨fun u hcools hu => ?_, fun hbefore => ?_⟩⟩
  · have hrun : exec (.fetchTimerExpiry i) s = .next { s with chip := settle (fetchTimerExpires i s.chip) } := rfl
    rw [NoEffect, hrun, fetchTimerExpires_of_opened hopened htimer, if_neg (by omega)]
  · have hsome : (∃ p < 16, missing s.chip i x (x.base + p) = true) → missingMask s.chip i x ≠ 0#16 := fun ⟨p, hp, hm⟩ hzero =>
      Bool.false_ne_true ((missingMask_eq_zero.mp hzero p hp).symm.trans hm)
    obtain ⟨hstands, hbodies, hkeeps⟩ := settle_endWindow i s.chip
    refine ⟨{ s with chip := settle (fetchTimerExpires i s.chip) }, rfl, rfl, ?_⟩
    rw [fetchTimerExpires_of_opened hopened htimer, if_pos hreached]
    refine ⟨hstands, fun hnone => ?_, fun hmissing hreask => ?_, fun hmissing hreask => ?_⟩
    · have hend : endWindow i s.chip = stopTimer i x s.chip := by
        rw [endWindow_of_opened hopened, if_pos (missingMask_eq_zero.mpr hnone)]
      rw [hend] at hkeeps hbodies ⊢
      exact ⟨(hkeeps _ (stopTimer_opened hopened)).1, hbodies⟩
    · obtain ⟨hslot, hasks, hpeers⟩ := endWindow_reasks hopened (hsome hmissing) hreask
      obtain ⟨hstill, hwaits⟩ := hkeeps _ hslot
      exact ⟨hstill, fun hon => hwaits (hasks hon), hbodies.trans (by rw [hpeers])⟩
    · obtain ⟨hstruck, hmoves, habandons⟩ := endWindow_switches hopened (hsome hmissing) hreask
      refine ⟨hbodies.trans hstruck, ?_⟩
      have hother : (if x.switches < 3 then chooseHolder (strike x.peer x.counted s.chip) x.image x.segment (some x.peer) else none) =
          nextHolder x (strike x.peer x.counted s.chip) := rfl
      rw [hother]
      cases hholder : nextHolder x (strike x.peer x.counted s.chip) with
      | some p =>
        obtain ⟨hslot, hasks⟩ := hmoves p hholder
        obtain ⟨hstill, hwaits⟩ := hkeeps _ hslot
        exact ⟨hstill, fun hon => hwaits (hasks hon)⟩
      | none =>
        obtain ⟨hcools, hreported⟩ := habandons hholder
        exact ⟨hreported.after (settle_adds _).1, fun hsegment => (settle_cools (hcools hsegment)).segState⟩
  · have hstands := (settle_standing (setSegState k seg .absent s.chip)).trans (standing_of_stands (setSegState_keeps _ _ _ _))
    refine ⟨{ s with chip := settle (coolingEnds k seg s.chip) }, coolingEnds k seg s.chip, rfl, rfl, ?_⟩
    rw [coolingEnds_of_reached hcools hu]
    exact ⟨hstands, segState_setSegState (by rw [hcools]; rfl) _, rfl, rfl⟩
  · have hrun : exec (.coolingEnd k seg) s = .next { s with chip := settle (coolingEnds k seg s.chip) } := rfl
    rw [NoEffect, hrun, coolingEnds_of_not_reached hbefore]

end Sys2Proof.Machine
end

