-- ==== Sys2Proof/Proofs/PeerRules.lean ====
section
/-!
SUPPORT. The tick on an empty queue (log 3), and the strikes and estimates of the Peer Table (R31, R34).
-/
namespace Sys2Proof.Machine

/-! ## What a tick queues (log 3) -/

theorem mem_dueOf {α : Type} {l : List α} {f : α → Bool} {g : α → Instr} {i : Instr} : i ∈ dueOf l f g ↔ ∃ x ∈ l, f x = true ∧ g x = i := by
  simp [dueOf, and_assoc]

theorem mem_dueIf {b : Bool} {i j : Instr} : j ∈ dueIf b i ↔ b = true ∧ j = i := by
  cases b <;> simp [dueIf]

/-- R113. Among what a tick queues the end of QUIET is a matter of the line state alone. -/
theorem lineQuietElapsed_due (c : Chip) : Instr.lineQuietElapsed ∈ dueCommands c ↔ ∃ since, c.line.state = .quiet since ∧ since + 2 ≤ c.now := by
  have access : Instr.lineQuietElapsed ∉ accessDue c := by
    unfold accessDue
    split <;> simp [mem_dueIf]
  have hold : Instr.lineQuietElapsed ∉ holdDue c := by
    unfold holdDue
    split <;> simp [mem_dueIf]
  have pauses : Instr.lineQuietElapsed ∉ pausesDue c := by
    unfold pausesDue
    split <;> simp [mem_dueIf]
  have cabin : Instr.lineQuietElapsed ∈ cabinDue c ↔ ∃ since, c.line.state = .quiet since ∧ since + 2 ≤ c.now := by
    unfold cabinDue
    cases hs : c.line.state <;> simp [mem_dueIf, hold, reached]
  simp [dueCommands, mem_dueOf, mem_dueIf, access, cabin, pauses, coolingDue, probationsDue]

/-- Settles O2, by what stands in the list of due commands. -/
theorem stepTicksOnEmptyQueue : Obligations.StepTicksOnEmptyQueue := by
  unfold Obligations.StepTicksOnEmptyQueue
  intro c
  refine ⟨tick { chip := c, pending := [] }, rfl, rfl, fun p hp hdue => ?_, fun hdue => ?_, fun since hstate => ?_⟩
  · have hmem : Instr.peerExpiry p.id ∈ dueOf c.peers (fun p => reached { c with now := c.now + 1 } (p.lastHeard + 30000)) (fun p => .peerExpiry p.id) :=
      mem_dueOf.mpr ⟨p, hp, by simpa [reached] using hdue, rfl⟩
    simp [tick, dueCommands, hmem]
  · simp [tick, dueCommands, mem_dueIf, reached, hdue]
  · simp [tick, lineQuietElapsed_due, hstate]

/-! ## Strikes and estimates (R31, R34) -/

theorem sampleOf_le (bytes elapsed : Nat) : sampleOf bytes elapsed ≤ 1000000 := Nat.min_le_right _ _

/-- R34. A quarter of the way from one value to another, both at most a bound, is at most the bound. -/
theorem smooth_le {e s bound : Nat} (he : e ≤ bound) (hs : s ≤ bound) : smooth e s ≤ bound := by
  unfold smooth
  omega

/-- Settles O15, by the strikes before, and by the bound on the sample. -/
theorem strikesAndEstimates : Obligations.StrikesAndEstimates := by
  unfold Obligations.StrikesAndEstimates
  refine ⟨fun now p => ⟨fun hfew => by simp [struck, hfew], fun hthird => ?_⟩, fun bytes elapsed e he => ?_⟩
  · refine ⟨max (now + 60000) (p.shunnedUntil.getD 0), by simp [struck, hthird], Nat.le_max_left _ _, fun hnone => ?_, fun v hv => ?_⟩
    · simp [hnone]
    · simp [hv]
  · refine ⟨rfl, smooth_le he (sampleOf_le _ _), fun hzero => ?_, fun hpos => ?_⟩
    · simp [sampleOf, hzero]
    · simp [sampleOf, Nat.ne_of_gt hpos]

end Sys2Proof.Machine
end

