-- ==== Sys2Proof/Proofs/RangeLists.lean ====
section
/-!
SUPPORT. Range lists (R24): what cutting a span, adding a run and dropping runs do to coverage and to the form of a list (R27, R28).
-/
namespace Sys2Proof.Machine

/-! ## The form of a list (R24) -/

/-- R24. A list in form: each run has first ≤ last, and every later run begins at least one segment further on. -/
theorem runsApart_iff (l : List SegRun) :
    runsApart l = true ↔ (∀ r ∈ l, r.first ≤ r.last) ∧ l.Pairwise (fun r q => r.last + 1 < q.first) := by
  induction l with
  | nil => simp [runsApart]
  | cons r rs ih =>
    cases rs with
    | nil => simp [runsApart]
    | cons q qs =>
      simp only [runsApart, Bool.and_eq_true, decide_eq_true_eq] at ih ⊢
      simp only [List.pairwise_cons, List.mem_cons, forall_eq_or_imp] at ih ⊢
      constructor
      · rintro ⟨⟨hr, hrq⟩, hform⟩
        obtain ⟨⟨hq, hqs⟩, hlater, hpair⟩ := ih.mp hform
        exact ⟨⟨hr, hq, hqs⟩, ⟨hrq, fun x hx => by have := hlater x hx; omega⟩, hlater, hpair⟩
      · rintro ⟨⟨hr, hq, hqs⟩, ⟨hrq, _⟩, hlater, hpair⟩
        exact ⟨⟨hr, hrq⟩, ih.mpr ⟨⟨hq, hqs⟩, hlater, hpair⟩⟩

theorem runsApart_cons {r : SegRun} {rs : List SegRun} :
    runsApart (r :: rs) = true ↔ r.first ≤ r.last ∧ (∀ q ∈ rs, r.last + 1 < q.first) ∧ runsApart rs = true := by
  simp only [runsApart_iff, List.pairwise_cons, List.mem_cons, forall_eq_or_imp]
  tauto

theorem covers_cons (r : SegRun) (rs : List SegRun) (seg : Nat) : covers (r :: rs) seg = (r.has seg || covers rs seg) := rfl

theorem covers_append (l m : List SegRun) (seg : Nat) : covers (l ++ m) seg = (covers l seg || covers m seg) := by simp [covers]

theorem SegRun.has_iff (r : SegRun) (seg : Nat) : r.has seg = true ↔ r.first ≤ seg ∧ seg ≤ r.last := by simp [SegRun.has]

/-! ## Cutting a span (R27) -/

/-- R27. What is left of a run lies within it and outside the span, and is in form. -/
theorem cutRun_parts {a b : Nat} {r q : SegRun} (hr : r.first ≤ r.last) (h : q ∈ cutRun a b r) :
    r.first ≤ q.first ∧ q.first ≤ q.last ∧ q.last ≤ r.last := by
  unfold cutRun at h
  split at h
  · simp_all
  · next hmeets =>
    simp only [Bool.or_eq_true, decide_eq_true_eq] at hmeets
    rcases List.mem_append.mp h with h | h <;> (split at h <;> simp at h; subst h; dsimp only; omega)

theorem cutRun_apart {a b : Nat} (hab : a ≤ b) {r : SegRun} (hr : r.first ≤ r.last) : runsApart (cutRun a b r) = true := by
  unfold cutRun
  split
  · simp [runsApart, hr]
  · split <;> split <;> simp [runsApart] <;> omega

theorem covers_cutRun {a b : Nat} (hab : a ≤ b) (r : SegRun) (seg : Nat) :
    covers (cutRun a b r) seg = (r.has seg && !(decide (a ≤ seg) && decide (seg ≤ b))) := by
  rw [Bool.eq_iff_iff]
  unfold cutRun covers
  split
  · simp only [Bool.or_eq_true, decide_eq_true_eq] at *
    simp [SegRun.has]
    omega
  · split <;> split <;> simp [SegRun.has] at * <;> omega

/-- R27. A removed span is covered no more, the rest as before. -/
theorem covers_removeSpan {a b : Nat} (hab : a ≤ b) (l : List SegRun) (seg : Nat) :
    covers (removeSpan a b l) seg = (covers l seg && !(decide (a ≤ seg) && decide (seg ≤ b))) := by
  unfold removeSpan
  induction l with
  | nil => rfl
  | cons r rs ih => rw [List.flatMap_cons, covers_append, ih, covers_cutRun hab, covers_cons, Bool.and_or_distrib_right]

theorem removeSpan_apart {a b : Nat} (hab : a ≤ b) {l : List SegRun} (h : runsApart l = true) : runsApart (removeSpan a b l) = true := by
  unfold removeSpan
  induction l with
  | nil => rfl
  | cons r rs ih =>
    obtain ⟨hr, hlater, hrs⟩ := runsApart_cons.mp h
    have hpieces := (runsApart_iff _).mp (cutRun_apart hab hr)
    have hrest := (runsApart_iff _).mp (ih hrs)
    rw [List.flatMap_cons, runsApart_iff]
    refine ⟨fun q hq => (List.mem_append.mp hq).elim (hpieces.1 q) (hrest.1 q), List.pairwise_append.mpr ⟨hpieces.2, hrest.2, fun p hp q hq => ?_⟩⟩
    obtain ⟨r', hr', hq'⟩ := List.mem_flatMap.mp hq
    have hform := ((runsApart_iff _).mp hrs).1 r' hr'
    have h1 := cutRun_parts hr hp
    have h2 := cutRun_parts hform hq'
    have h3 := hlater r' hr'
    omega

/-! ## Adding runs (R27) -/

/-- R27. A run added to a list in form lies in its place or is joined with all it meets; either way every bound on the first segments stays. -/
theorem addRun_first_le {bound : Nat} {r : SegRun} {l : List SegRun} (hr : bound ≤ r.first) (hl : ∀ q ∈ l, bound ≤ q.first) :
    ∀ q ∈ addRun r l, bound ≤ q.first := by
  induction l generalizing r with
  | nil => simpa [addRun] using hr
  | cons q qs ih =>
    unfold addRun
    obtain ⟨hq, hqs⟩ := List.forall_mem_cons.mp hl
    split
    · simpa [hr, hq] using hqs
    · split
      · simpa [hq] using ih hr hqs
      · exact ih (Nat.le_min.mpr ⟨hr, hq⟩) hqs

theorem addRun_apart {r : SegRun} {l : List SegRun} (hr : r.first ≤ r.last) (hl : runsApart l = true) : runsApart (addRun r l) = true := by
  induction l generalizing r with
  | nil => simp [addRun, runsApart, hr]
  | cons q qs ih =>
    obtain ⟨hq, hlater, hqs⟩ := runsApart_cons.mp hl
    unfold addRun
    split
    · next hbefore =>
      refine runsApart_cons.mpr ⟨hr, fun p hp => ?_, hl⟩
      rcases List.mem_cons.mp hp with rfl | hp
      · exact hbefore
      · have := hlater p hp
        omega
    · split
      · next hafter =>
        exact runsApart_cons.mpr ⟨hq, addRun_first_le (bound := q.last + 2) hafter hlater, ih hr hqs⟩
      · exact ih (by dsimp only; omega) hqs

/-- R27. The added run's segments are covered, and those covered before. -/
theorem covers_addRun {r : SegRun} {l : List SegRun} (hr : r.first ≤ r.last) (hl : runsApart l = true) (seg : Nat) :
    covers (addRun r l) seg = (r.has seg || covers l seg) := by
  induction l generalizing r with
  | nil => rfl
  | cons q qs ih =>
    obtain ⟨hq, hlater, hqs⟩ := runsApart_cons.mp hl
    unfold addRun
    split
    · rfl
    · split
      · rw [covers_cons, ih hr hqs, covers_cons, Bool.or_left_comm]
      · next hnotBefore hnotAfter =>
        have hjoined : (SegRun.mk (min r.first q.first) (max r.last q.last)).has seg = (r.has seg || q.has seg) := by
          rw [Bool.eq_iff_iff]
          simp only [Bool.or_eq_true, SegRun.has_iff]
          omega
        rw [ih (by dsimp only; omega) hqs, hjoined, covers_cons, Bool.or_assoc]

theorem addRuns_apart {l new : List SegRun} (hnew : ∀ r ∈ new, r.first ≤ r.last) (hl : runsApart l = true) : runsApart (addRuns l new) = true := by
  unfold addRuns
  induction new generalizing l with
  | nil => exact hl
  | cons r rs ih =>
    obtain ⟨hr, hrs⟩ := List.forall_mem_cons.mp hnew
    exact ih hrs (addRun_apart hr hl)

theorem covers_addRuns {l new : List SegRun} (hnew : ∀ r ∈ new, r.first ≤ r.last) (hl : runsApart l = true) (seg : Nat) :
    covers (addRuns l new) seg = (covers new seg || covers l seg) := by
  unfold addRuns
  induction new generalizing l with
  | nil => rfl
  | cons r rs ih =>
    obtain ⟨hr, hrs⟩ := List.forall_mem_cons.mp hnew
    rw [List.foldl_cons, ih hrs (addRun_apart hr hl), covers_addRun hr hl, covers_cons, Bool.or_assoc, Bool.or_left_comm]

/-- R27. Runs within a span cover nothing outside it. -/
theorem covers_outside {a b : Nat} {new : List SegRun} (h : ∀ r ∈ new, a ≤ r.first ∧ r.first ≤ r.last ∧ r.last ≤ b) {seg : Nat}
    (hseg : ¬(a ≤ seg ∧ seg ≤ b)) : covers new seg = false := by
  simp only [covers, List.any_eq_false, SegRun.has_iff]
  intro r hr hin
  have := h r hr
  omega

/-! ## Pruning (R28) -/

/-- R28. The order in which runs are dropped: the shorter first, and among equals the one that begins later. -/
def DropsBefore (r q : SegRun) : Prop := r.last - r.first < q.last - q.first ∨ (r.last - r.first = q.last - q.first ∧ q.first < r.first)

/-- R28. The run to drop next is a run of the list that comes before every other. -/
theorem dropCandidate_some {l : List SegRun} (hl : l.Pairwise (fun r q => r.first < q.first)) (hne : l ≠ []) :
    ∃ r, dropCandidate l = some r ∧ r ∈ l ∧ ∀ q ∈ l, q ≠ r → DropsBefore r q := by
  induction l with
  | nil => exact absurd rfl hne
  | cons x xs ih =>
    obtain ⟨hx, hxs⟩ := List.pairwise_cons.mp hl
    cases xs with
    | nil => exact ⟨x, rfl, by simp, by simp⟩
    | cons y ys =>
      obtain ⟨r, hr, hmem, hbefore⟩ := ih hxs (by simp)
      have hxr := hx r hmem
      unfold dropCandidate
      rw [hr]
      dsimp only
      split
      · next hfirst =>
        have hxfirst : DropsBefore x r := by simpa [DropsBefore] using hfirst
        refine ⟨x, rfl, by simp, fun q hq hqx => ?_⟩
        rcases List.mem_cons.mp hq with rfl | hq
        · exact absurd rfl hqx
        · by_cases hqr : q = r
          · exact hqr ▸ hxfirst
          · have := hbefore q hq hqr
            unfold DropsBefore at *
            omega
      · next hnot =>
        refine ⟨r, rfl, List.mem_cons_of_mem _ hmem, fun q hq hqr => ?_⟩
        rcases List.mem_cons.mp hq with rfl | hq
        · simp at hnot
          unfold DropsBefore
          omega
        · exact hbefore q hq hqr

/-- R28. Dropping runs leaves a sublist, shorter by their number, and every dropped run comes before every run kept. -/
theorem dropRuns_does (n : Nat) {l : List SegRun} (hl : l.Pairwise (fun r q => r.first < q.first)) (hn : n ≤ l.length) :
    (dropRuns n l).Sublist l ∧ (dropRuns n l).length = l.length - n ∧ ∀ r ∈ l, r ∉ dropRuns n l → ∀ q ∈ dropRuns n l, DropsBefore r q := by
  induction n generalizing l with
  | zero => exact ⟨List.Sublist.refl l, rfl, fun r hr hnot => absurd hr hnot⟩
  | succ n ih =>
    have hne : l ≠ [] := by rintro rfl; simp at hn
    obtain ⟨r, hcand, hmem, hbefore⟩ := dropCandidate_some hl hne
    have hlen : (l.erase r).length = l.length - 1 := List.length_erase_of_mem hmem
    have hnodup : l.Nodup := hl.imp fun h => by rintro rfl; exact Nat.lt_irrefl _ h
    obtain ⟨hsub, hlength, hdropped⟩ := ih (l := l.erase r) (hl.sublist List.erase_sublist) (by omega)
    have hstep : dropRuns (n + 1) l = dropRuns n (l.erase r) := by simp only [dropRuns, hcand]
    rw [hstep]
    refine ⟨hsub.trans List.erase_sublist, by omega, fun x hx hgone q hq => ?_⟩
    obtain ⟨hqr, hql⟩ := (hnodup.mem_erase_iff).mp (hsub.mem hq)
    by_cases hxr : x = r
    · exact hxr ▸ hbefore q hql hqr
    · exact hdropped x ((hnodup.mem_erase_iff).mpr ⟨hxr, hx⟩) hgone q hq

theorem runsApart_ascending {l : List SegRun} (h : runsApart l = true) : l.Pairwise (fun r q => r.first < q.first) := by
  obtain ⟨hform, hpair⟩ := (runsApart_iff l).mp h
  exact hpair.imp_of_mem fun hr _ hlt => by have := hform _ hr; omega

theorem runsApart_sublist {l m : List SegRun} (h : m.Sublist l) (hl : runsApart l = true) : runsApart m = true := by
  obtain ⟨hform, hpair⟩ := (runsApart_iff l).mp hl
  exact (runsApart_iff m).mpr ⟨fun r hr => hform r (h.mem hr), hpair.sublist h⟩

/-- Settles O11, by the coverage of a cut and of an addition, and by the order in which runs are dropped. -/
theorem rangeListsMergedAndPruned : Obligations.RangeListsMergedAndPruned := by
  unfold Obligations.RangeListsMergedAndPruned
  refine ⟨fun a b new old hab hold hnew => ?_, fun l hl => ?_⟩
  · have hform : ∀ r ∈ new, r.first ≤ r.last := fun r hr => (hnew r hr).2.1
    have hcut := removeSpan_apart hab hold
    refine ⟨addRuns_apart hform hcut, fun seg => ?_, rfl⟩
    rw [covers_addRuns hform hcut, covers_removeSpan hab]
    split
    · next hin => simp [hin]
    · next hout =>
      have hkept : (decide (a ≤ seg) && decide (seg ≤ b)) = false := by simpa using hout
      rw [covers_outside hnew hout, hkept]
      simp
  · obtain ⟨hsub, hlength, hdropped⟩ := dropRuns_does (l.length - 24) (runsApart_ascending hl) (Nat.sub_le _ _)
    exact ⟨by rw [prune, hlength]; omega, hsub, runsApart_sublist hsub hl, hdropped⟩

end Sys2Proof.Machine
end

