-- ==== Sys2Proof/Proofs/Holdings.lean ====
section
/-!
SUPPORT. What peers hold and what holder counts say of it (R24, R25): the parts of the chip that both are about, and the operations that leave them alone.
-/
namespace Sys2Proof.Machine

/-- R25. An image record's holder counts, with the image they are of. -/
def holdersOf (r : ImageRecord) : ImageKey × List Nat := (r.image, r.entries.map (fun e => e.holders))

/-- The second chip has the range lists and the holder counts of the first. -/
abbrev SameHoldings (c d : Chip) : Prop :=
  d.peers.map (fun p => p.lists) = c.peers.map (fun p => p.lists) ∧ d.catalog.records.map holdersOf = c.catalog.records.map holdersOf

theorem SameHoldings.refl (c : Chip) : SameHoldings c c := ⟨rfl, rfl⟩

theorem SameHoldings.trans {c d e : Chip} (h : SameHoldings c d) (k : SameHoldings d e) : SameHoldings c e := ⟨k.1.trans h.1, k.2.trans h.2⟩

/-! ## Records and peers changed in other parts -/

theorem updateRecord_holdings {f : ImageRecord → ImageRecord} (hf : ∀ r, holdersOf (f r) = holdersOf r) (k : ImageKey) (c : Chip) :
    SameHoldings c (updateRecord k f c) := by
  refine ⟨rfl, ?_⟩
  rw [updateRecord_catalog_records, List.map_map]
  refine List.map_congr_left fun r _ => ?_
  simp only [Function.comp]
  split
  exacts [hf r, rfl]

theorem updatePeer_holdings {f : PeerRecord → PeerRecord} (hf : ∀ p, (f p).lists = p.lists) (id : Nat) (c : Chip) :
    SameHoldings c (updatePeer id f c) := by
  refine ⟨?_, rfl⟩
  rw [updatePeer_peers, List.map_map]
  refine List.map_congr_left fun p _ => ?_
  simp only [Function.comp]
  split
  exacts [hf p, rfl]

@[simp] theorem holdersOf_withSegState (seg : Nat) (st : SegState) (r : ImageRecord) : holdersOf (withSegState seg st r) = holdersOf r := by
  refine Prod.ext rfl (List.ext_getElem? fun i => ?_)
  simp only [holdersOf, withSegState, List.getElem?_map, List.getElem?_modify]
  split <;> cases r.entries[i]? <;> rfl

@[simp] theorem setSegState_holdings (k : ImageKey) (seg : Nat) (st : SegState) (c : Chip) : SameHoldings c (setSegState k seg st c) :=
  updateRecord_holdings (holdersOf_withSegState seg st) k c

@[simp] theorem holdersOf_onImage (k : ImageKey) (seg : Nat) (st : SegState) (r : ImageRecord) :
    holdersOf (onImage k (withSegState seg st) r) = holdersOf r := by
  unfold onImage
  split
  exacts [holdersOf_withSegState seg st r, rfl]

@[simp] theorem holdersOf_comp_onImage (k : ImageKey) (seg : Nat) (st : SegState) : holdersOf ∘ onImage k (withSegState seg st) = holdersOf := by
  funext r
  exact holdersOf_onImage k seg st r

/-- R14. An image's state may change with no count of it. -/
theorem updateState_holdings (k : ImageKey) (st : ImageState) (c : Chip) : SameHoldings c (updateRecord k (fun r => { r with state := st }) c) :=
  updateRecord_holdings (by exact fun _ => rfl) k c

theorem forEach_holdings {α : Type} {f : α → Chip → Chip} {xs : List α} (h : ∀ x ∈ xs, ∀ c, SameHoldings c (f x c)) (c : Chip) :
    SameHoldings c (forEach xs f c) :=
  forEach_keeps SameHoldings.refl SameHoldings.trans h c

/-! ## Units and notice (R138 to R141) -/

@[simp] theorem noticeChanged_holdings (c : Chip) : SameHoldings c (noticeChanged c) := by
  simp [noticeChanged, SameHoldings]

@[simp] theorem reportNoTarget_holdings (before after : UnitEntry) (c : Chip) : SameHoldings c (reportNoTarget before after c) := by
  unfold reportNoTarget
  (repeat' split) <;> simp [SameHoldings]

@[simp] theorem selectUnit_holdings (address : Nat) (c : Chip) : SameHoldings c (selectUnit address c) := by
  unfold selectUnit
  (repeat' split) <;> simp [SameHoldings]

@[simp] theorem selectUnits_holdings (c : Chip) : SameHoldings c (selectUnits c) := forEach_holdings (fun _ _ c => selectUnit_holdings _ c) c

/-! ## Peers (R31 to R36) -/

@[simp] theorem raiseOpen_holdings (id : Nat) (c : Chip) : SameHoldings c (raiseOpen id c) := updatePeer_holdings (by exact fun _ => rfl) id c

@[simp] theorem lowerOpen_holdings (id : Nat) (counted : Bool) (c : Chip) : SameHoldings c (lowerOpen id counted c) := by
  unfold lowerOpen
  split
  exacts [updatePeer_holdings (by exact fun _ => rfl) id c, .refl c]

@[simp] theorem strike_holdings (id : Nat) (counted : Bool) (c : Chip) : SameHoldings c (strike id counted c) := by
  unfold strike
  split
  exacts [updatePeer_holdings (fun p => by unfold struck; split <;> rfl) id c, .refl c]

@[simp] theorem markBusy_holdings (id : Nat) (c : Chip) : SameHoldings c (markBusy id c) := updatePeer_holdings (by exact fun _ => rfl) id c

@[simp] theorem giveSample_holdings (id bytes elapsed : Nat) (c : Chip) : SameHoldings c (giveSample id bytes elapsed c) := by
  unfold giveSample
  split
  exacts [.refl c, updatePeer_holdings (by exact fun _ => rfl) id c]

@[simp] theorem askIf_holdings (b : Bool) (c : Chip) : SameHoldings c (askIf b c) := by
  unfold askIf
  (repeat' split) <;> simp [SameHoldings]

@[simp] theorem recordBeacon_holdings (sender depth : Nat) (c : Chip) : SameHoldings c (recordBeacon sender depth c) :=
  updatePeer_holdings (by exact fun _ => rfl) sender c

/-! ## Store slots (R101 to R104) -/

@[simp] theorem release_holdings (slot : Nat) (c : Chip) : SameHoldings c (release slot c) := by
  unfold release
  dsimp only
  (repeat' split) <;> simp [SameHoldings]

@[simp] theorem retire_holdings (slot detail : Nat) (c : Chip) : SameHoldings c (retire slot detail c) := by
  simp [retire, SameHoldings]

@[simp] theorem finishRelease_holdings (slot : Nat) (c : Chip) : SameHoldings c (finishRelease slot c) := by
  unfold finishRelease
  (repeat' split) <;> simp [SameHoldings]

/-! ## The urgent lane and serve slots (R69, R73) -/

@[simp] theorem pushUrgent_holdings (f : UrgentFrame) (c : Chip) : SameHoldings c (pushUrgent f c) := by
  unfold pushUrgent
  (repeat' split) <;> simp [SameHoldings]

@[simp] theorem queueReply_holdings (kind : ReplyKind) (e : AskEntry) (c : Chip) : SameHoldings c (queueReply kind e c) := by
  simp [queueReply, SameHoldings]

@[simp] theorem endServeIf_holdings (hit : AskEntry → Bool) (i : Nat) (c : Chip) : SameHoldings c (endServeIf hit i c) := by
  unfold endServeIf
  (repeat' split) <;> simp [SameHoldings]

@[simp] theorem endServes_holdings (hit : AskEntry → Bool) (c : Chip) : SameHoldings c (endServes hit c) := by
  simp [endServes, SameHoldings]

/-! ## The catalog (R14, R46, R91) -/

@[simp] theorem completeIfHeld_holdings (k : ImageKey) (c : Chip) : SameHoldings c (completeIfHeld k c) := by
  unfold completeIfHeld
  split
  · split
    · refine (updateState_holdings k .complete c).trans ?_
      dsimp only
      split <;> simp [SameHoldings]
    · exact .refl c
  · exact .refl c

@[simp] theorem rejectManifest_holdings (k : ImageKey) (slot reason : Nat) (c : Chip) : SameHoldings c (rejectManifest k slot reason c) :=
  (updateState_holdings k .rejected c).trans (by simp [rejectManifest, SameHoldings])

@[simp] theorem leaveComplete_holdings (k : ImageKey) (c : Chip) : SameHoldings c (leaveComplete k c) := by
  have h := updateState_holdings k .gathering c
  unfold leaveComplete
  split
  · simpa [SameHoldings] using h
  · exact .refl c

@[simp] theorem evictSegment_holdings (k : ImageKey) (seg slot : Nat) (c : Chip) : SameHoldings c (evictSegment k seg slot c) := by
  simp [evictSegment, SameHoldings]

@[simp] theorem buildRoundOffer_holdings (c : Chip) : SameHoldings c (buildRoundOffer c) := by
  unfold buildRoundOffer
  split
  · exact .refl c
  · next r _ =>
    have h := updateRecord_holdings (f := fun q => { q with spanCursor := (buildOffer r).2 }) (by exact fun _ => rfl) r.image c
    simpa [SameHoldings] using h

/-! ## Fetches (R47 to R61) -/

@[simp] theorem withdrawAsk_holdings (i : Nat) (c : Chip) : SameHoldings c (withdrawAsk i c) := by
  simp [withdrawAsk, SameHoldings]

@[simp] theorem dropFetchOps_holdings (i : Nat) (c : Chip) : SameHoldings c (dropFetchOps i c) := by
  simp [dropFetchOps, SameHoldings]

@[simp] theorem freeFetch_holdings (i peer : Nat) (counted : Bool) (c : Chip) : SameHoldings c (freeFetch i peer counted c) := by
  simp [freeFetch, SameHoldings]

@[simp] theorem abandonFetch_holdings (i detail : Nat) (f : OpenFetch) (c : Chip) : SameHoldings c (abandonFetch i detail f c) := by
  simp [abandonFetch, SameHoldings]

@[simp] theorem cancelFetch_holdings (i : Nat) (f : OpenFetch) (c : Chip) : SameHoldings c (cancelFetch i f c) := by
  simp [cancelFetch, SameHoldings]

@[simp] theorem failFetch_holdings (i detail : Nat) (f : OpenFetch) (c : Chip) : SameHoldings c (failFetch i detail f c) := by
  simp [failFetch, SameHoldings]

@[simp] theorem moveToPeer_holdings (i : Nat) (f : OpenFetch) (p : PeerRecord) (c : Chip) : SameHoldings c (moveToPeer i f p c) := by
  simp [moveToPeer, SameHoldings]

@[simp] theorem switchFetch_holdings (i : Nat) (c : Chip) : SameHoldings c (switchFetch i c) := by
  unfold switchFetch
  (repeat' split) <;> simp [SameHoldings]

@[simp] theorem demandSwitch_holdings (i : Nat) (owes : Bool) (c : Chip) : SameHoldings c (demandSwitch i owes c) := by
  unfold demandSwitch
  (repeat' split) <;> simp [SameHoldings]

@[simp] theorem switchAway_holdings (peer : Nat) (c : Chip) : SameHoldings c (switchAway peer c) :=
  forEach_holdings (fun i _ c => by split; exacts [demandSwitch_holdings i true c, .refl c]) c

@[simp] theorem endWindow_holdings (i : Nat) (c : Chip) : SameHoldings c (endWindow i c) := by
  unfold endWindow
  dsimp only
  (repeat' split) <;> simp [SameHoldings]

@[simp] theorem acceptBlock_holdings (i : Nat) (f : OpenFetch) (b : BlockBody) (c : Chip) : SameHoldings c (acceptBlock i f b c) := by
  simp [acceptBlock, SameHoldings]

@[simp] theorem blockAt_holdings (sender : Nat) (b : BlockBody) (i : Nat) (c : Chip) : SameHoldings c (blockAt sender b i c) := by
  unfold blockAt
  (repeat' split) <;> simp [SameHoldings]

@[simp] theorem onBlock_holdings (sender : Nat) (b : BlockBody) (c : Chip) : SameHoldings c (onBlock sender b c) :=
  forEach_holdings (fun i _ c => blockAt_holdings sender b i c) c

@[simp] theorem windowSample_holdings (f : OpenFetch) (c : Chip) : SameHoldings c (windowSample f c) := by
  unfold windowSample
  (repeat' split) <;> simp [SameHoldings]

@[simp] theorem enterCheck_holdings (i : Nat) (f : OpenFetch) (c : Chip) : SameHoldings c (enterCheck i f c) := by
  simp [enterCheck, SameHoldings]

@[simp] theorem completeWindow_holdings (i : Nat) (c : Chip) : SameHoldings c (completeWindow i c) := by
  unfold completeWindow
  (repeat' split) <;> simp [SameHoldings]

@[simp] theorem blockProgrammed_holdings (i b : Nat) (c : Chip) : SameHoldings c (blockProgrammed i b c) := by
  unfold blockProgrammed
  dsimp only
  (repeat' split) <;> simp [SameHoldings]

@[simp] theorem askSent_holdings (i : Nat) (k : ImageKey) (seg peer base : Nat) (mask : BitVec 16) (c : Chip) : SameHoldings c (askSent i k seg peer base mask c) := by
  unfold askSent
  (repeat' split) <;> simp [SameHoldings]

@[simp] theorem openFetch_holdings (i slot : Nat) (x : Candidate) (p : PeerRecord) (c : Chip) : SameHoldings c (openFetch i slot x p c) := by
  simp [openFetch, SameHoldings]

@[simp] theorem departFetch_holdings (i : Nat) (c : Chip) : SameHoldings c (departFetch i c) := by
  unfold departFetch
  (repeat' split) <;> simp [SameHoldings]

@[simp] theorem departCheck_holdings (q : CheckRequest) (c : Chip) : SameHoldings c (departCheck q c) := by
  unfold departCheck
  (repeat' split) <;> simp [SameHoldings]

@[simp] theorem departFetches_holdings (c : Chip) : SameHoldings c (departFetches c) := by
  have h := forEach_holdings (f := departFetch) (xs := [0, 1, 2, 3]) (fun i _ c => departFetch_holdings i c) c
  have k := forEach_holdings (f := departCheck) (xs := c.store.checkQueue.filter (fun q => q.source.isSome)) (fun q _ c => departCheck_holdings q c)
  exact h.trans (k _)

/-! ## Asks and serving (R64 to R75) -/

@[simp] theorem dropQueued_holdings (e : AskEntry) (c : Chip) : SameHoldings c (dropQueued e c) := by
  simp [dropQueued, SameHoldings]

@[simp] theorem replaceInSlot_holdings (i : Nat) (e : AskEntry) (c : Chip) : SameHoldings c (replaceInSlot i e c) := by
  unfold replaceInSlot
  (repeat' split) <;> simp [SameHoldings]

@[simp] theorem answerAsk_holdings (e : AskEntry) (c : Chip) : SameHoldings c (answerAsk e c) := by
  unfold answerAsk
  (repeat' split) <;> simp [SameHoldings]

@[simp] theorem onAsk_holdings (server : Nat) (e : AskEntry) (c : Chip) : SameHoldings c (onAsk server e c) := by
  unfold onAsk
  (repeat' split) <;> simp [SameHoldings]

@[simp] theorem serveReadDone_holdings (i : Nat) (bytes : List Byte) (c : Chip) : SameHoldings c (serveReadDone i bytes c) := by
  unfold serveReadDone
  (repeat' split) <;> simp [SameHoldings]

@[simp] theorem blockSent_holdings (i asker : Nat) (k : ImageKey) (seg : Nat) (c : Chip) : SameHoldings c (blockSent i asker k seg c) := by
  unfold blockSent
  (repeat' split) <;> simp [SameHoldings]

@[simp] theorem suspendServing_holdings (c : Chip) : SameHoldings c (suspendServing c) := by
  simp [suspendServing, SameHoldings]

@[simp] theorem dropReadyFor_holdings (asker i : Nat) (c : Chip) : SameHoldings c (dropReadyFor asker i c) := by
  unfold dropReadyFor
  (repeat' split) <;> simp [SameHoldings]

/-! ## The cabin line (R113 to R125) -/

@[simp] theorem discardLine_holdings (client : LineClient) (address : Nat) (c : Chip) : SameHoldings c (discardLine client address c) := by
  simp [discardLine, SameHoldings]

@[simp] theorem lineQuiet_holdings (c : Chip) : SameHoldings c (lineQuiet c) := by
  simp [lineQuiet, SameHoldings]

@[simp] theorem closeRecovery_holdings (c : Chip) : SameHoldings c (closeRecovery c) := by
  unfold closeRecovery
  (repeat' split) <;> simp [SameHoldings]

@[simp] theorem wireChange_holdings (clock data : Bool) (c : Chip) : SameHoldings c (wireChange clock data c) := by
  unfold wireChange
  dsimp only
  (repeat' split) <;> simp [SameHoldings]

@[simp] theorem quietElapsed_holdings (c : Chip) : SameHoldings c (quietElapsed c) := by
  unfold quietElapsed
  (repeat' split) <;> simp [SameHoldings]

@[simp] theorem leaveLine_holdings (steps : List LineStep) (c : Chip) : SameHoldings c (leaveLine steps c) := by
  simp [leaveLine, SameHoldings]

@[simp] theorem abandonLine_holdings (c : Chip) : SameHoldings c (abandonLine c) := by
  simp [abandonLine, SameHoldings]

@[simp] theorem loseLine_holdings (q : CurrentRequest) (c : Chip) : SameHoldings c (loseLine q c) := by
  simp [loseLine, SameHoldings]

@[simp] theorem reportLineFault_holdings (address : Nat) (wire : Wire) (c : Chip) : SameHoldings c (reportLineFault address wire c) := by
  simp [reportLineFault, SameHoldings]

@[simp] theorem recoverLine_holdings (c : Chip) : SameHoldings c (recoverLine c) := by
  simp [recoverLine, SameHoldings]

@[simp] theorem reportStuck_holdings (c : Chip) : SameHoldings c (reportStuck c) := by
  unfold reportStuck
  (repeat' split) <;> simp [SameHoldings]

/-! ## The census and the job (R133 to R157) -/

@[simp] theorem takeIdentity_holdings (address : Nat) (r : Identity) (c : Chip) : SameHoldings c (takeIdentity address r c) := by
  unfold takeIdentity
  (repeat' split) <;> simp [SameHoldings]

@[simp] theorem endJob_holdings (address : Nat) (c : Chip) : SameHoldings c (endJob address c) := by
  simp [endJob, SameHoldings]

@[simp] theorem flashReadDone_holdings (packet : Nat) (raw : List Byte) (c : Chip) : SameHoldings c (flashReadDone packet raw c) := by
  simp [flashReadDone, SameHoldings]

@[simp] theorem failJob_holdings (j : JobRecord) (r : FailReason) (c : Chip) : SameHoldings c (failJob j r c) := by
  simp [failJob, SameHoldings]

@[simp] theorem failAttempt_holdings (j : JobRecord) (r : FailReason) (c : Chip) : SameHoldings c (failAttempt j r c) := by
  unfold failAttempt
  dsimp only
  (repeat' split) <;> simp [SameHoldings]

@[simp] theorem finishCancel_holdings (j : JobRecord) (c : Chip) : SameHoldings c (finishCancel j c) := by
  simp [finishCancel, SameHoldings]

@[simp] theorem finishStop_holdings (j : JobRecord) (c : Chip) : SameHoldings c (finishStop j c) := by
  unfold finishStop
  (repeat' split) <;> simp [SameHoldings]

@[simp] theorem jobBoundary_holdings (c : Chip) : SameHoldings c (jobBoundary c) := by
  unfold jobBoundary
  (repeat' split) <;> simp [SameHoldings]

@[simp] theorem cancelJob_holdings (c : Chip) : SameHoldings c (cancelJob c) := by
  simp [cancelJob, SameHoldings]

@[simp] theorem replanJob_holdings (c : Chip) : SameHoldings c (replanJob c) := by
  unfold replanJob
  (repeat' split) <;> simp [SameHoldings]

@[simp] theorem stopFlashing_holdings (c : Chip) : SameHoldings c (stopFlashing c) := by
  unfold stopFlashing
  (repeat' split) <;> simp [SameHoldings]

@[simp] theorem enterProbation_holdings (j : JobRecord) (c : Chip) : SameHoldings c (enterProbation j c) := by
  simp [enterProbation, SameHoldings]

@[simp] theorem beginPackets_holdings (j : JobRecord) (r : Identity) (c : Chip) : SameHoldings c (beginPackets j r c) := by
  simp [beginPackets, SameHoldings]

@[simp] theorem identifyDone_holdings (j : JobRecord) (bytes : List Byte) (c : Chip) : SameHoldings c (identifyDone j bytes c) := by
  unfold identifyDone
  (repeat' split) <;> simp [SameHoldings]

@[simp] theorem packetDone_holdings (j : JobRecord) (command : CabinCommand) (bytes : List Byte) (c : Chip) : SameHoldings c (packetDone j command bytes c) := by
  unfold packetDone
  (repeat' split) <;> simp [SameHoldings]

@[simp] theorem retryOrFail_holdings (j : JobRecord) (r : FailReason) (c : Chip) : SameHoldings c (retryOrFail j r c) := by
  unfold retryOrFail
  (repeat' split) <;> simp [SameHoldings]

@[simp] theorem pauseOrFail_holdings (j : JobRecord) (c : Chip) : SameHoldings c (pauseOrFail j c) := by
  unfold pauseOrFail
  (repeat' split) <;> simp [SameHoldings]

@[simp] theorem plainOutcome_holdings (j : JobRecord) (command : CabinCommand) (o : LineOutcome) (c : Chip) : SameHoldings c (plainOutcome j command o c) := by
  unfold plainOutcome
  (repeat' split) <;> simp [SameHoldings]

@[simp] theorem noteCompleted_holdings (j : JobRecord) (command : CabinCommand) (o : LineOutcome) (c : Chip) : SameHoldings c (noteCompleted j command o c) := by
  unfold noteCompleted
  (repeat' split) <;> simp [SameHoldings]

@[simp] theorem jobOutcome_holdings (command : CabinCommand) (o : LineOutcome) (c : Chip) : SameHoldings c (jobOutcome command o c) := by
  unfold jobOutcome
  (repeat' split) <;> simp [SameHoldings]

@[simp] theorem jobPauseEnd_holdings (c : Chip) : SameHoldings c (jobPauseEnd c) := by
  unfold jobPauseEnd
  (repeat' split) <;> simp [SameHoldings]

/-! ## Probation (R157 to R162) -/

@[simp] theorem dropProbation_holdings (address : Nat) (c : Chip) : SameHoldings c (dropProbation address c) := by
  simp [dropProbation, SameHoldings]

@[simp] theorem presentProbation_holdings (address : Nat) (k : ProbationRequest) (c : Chip) : SameHoldings c (presentProbation address k c) := by
  simp [presentProbation, SameHoldings]

@[simp] theorem pollDue_holdings (address : Nat) (c : Chip) : SameHoldings c (pollDue address c) := by
  unfold pollDue
  (repeat' split) <;> simp [SameHoldings]

@[simp] theorem finalDue_holdings (address : Nat) (c : Chip) : SameHoldings c (finalDue address c) := by
  unfold finalDue
  (repeat' split) <;> simp [SameHoldings]

@[simp] theorem repeatDue_holdings (address : Nat) (c : Chip) : SameHoldings c (repeatDue address c) := by
  unfold repeatDue
  (repeat' split) <;> simp [SameHoldings]

@[simp] theorem afterPoll_holdings (address : Nat) (c : Chip) : SameHoldings c (afterPoll address c) := by
  unfold afterPoll
  (repeat' split) <;> simp [SameHoldings]

@[simp] theorem repeatLater_holdings (address : Nat) (k : ProbationRequest) (c : Chip) : SameHoldings c (repeatLater address k c) := by
  simp [repeatLater, SameHoldings]

@[simp] theorem endRolledBack_holdings (address reason : Nat) (c : Chip) : SameHoldings c (endRolledBack address reason c) := by
  simp [endRolledBack, SameHoldings]

@[simp] theorem endDone_holdings (address : Nat) (c : Chip) : SameHoldings c (endDone address c) := by
  simp [endDone, SameHoldings]

@[simp] theorem endUnreachable_holdings (address : Nat) (c : Chip) : SameHoldings c (endUnreachable address c) := by
  simp [endUnreachable, SameHoldings]

@[simp] theorem endConfirmed_holdings (address : Nat) (new : Bank) (c : Chip) : SameHoldings c (endConfirmed address new c) := by
  simp [endConfirmed, SameHoldings]

@[simp] theorem setActive_holdings (address : Nat) (k : Bank) (c : Chip) : SameHoldings c (setActive address k c) := by
  simp [setActive, SameHoldings]

@[simp] theorem afterUnanswered_holdings (address : Nat) (k : ProbationRequest) (c : Chip) : SameHoldings c (afterUnanswered address k c) := by
  unfold afterUnanswered
  (repeat' split) <;> simp [SameHoldings]

@[simp] theorem unansweredRequest_holdings (p : ProbationRecord) (k : ProbationRequest) (c : Chip) : SameHoldings c (unansweredRequest p k c) := by
  unfold unansweredRequest
  (repeat' split) <;> simp [SameHoldings]

@[simp] theorem actOnVerdict_holdings (p : ProbationRecord) (v : HealthVerdict) (c : Chip) : SameHoldings c (actOnVerdict p v c) := by
  unfold actOnVerdict
  (repeat' split) <;> simp [SameHoldings]

@[simp] theorem healthDone_holdings (p : ProbationRecord) (k : ProbationRequest) (bytes : List Byte) (c : Chip) : SameHoldings c (healthDone p k bytes c) := by
  unfold healthDone
  dsimp only
  (repeat' split) <;> simp [SameHoldings]

@[simp] theorem confirmDone_holdings (p : ProbationRecord) (bytes : List Byte) (c : Chip) : SameHoldings c (confirmDone p bytes c) := by
  unfold confirmDone
  (repeat' split) <;> simp [SameHoldings]

@[simp] theorem probationDone_holdings (p : ProbationRecord) (k : ProbationRequest) (bytes : List Byte) (c : Chip) : SameHoldings c (probationDone p k bytes c) := by
  unfold probationDone
  (repeat' split) <;> simp [SameHoldings]

@[simp] theorem probationOutcome_holdings (address : Nat) (o : LineOutcome) (c : Chip) : SameHoldings c (probationOutcome address o c) := by
  unfold probationOutcome
  (repeat' split) <;> simp [SameHoldings]

/-! ## Plans, admission and loads (R5 to R13, R188) -/

@[simp] theorem presentPiece_holdings (body : List Byte) (position i : Nat) (c : Chip) : SameHoldings c (presentPiece body position i c) := by
  simp [presentPiece, SameHoldings]

@[simp] theorem startPersist_holdings (c : Chip) : SameHoldings c (startPersist c) := by
  unfold startPersist
  (repeat' split) <;> simp [SameHoldings]

@[simp] theorem persistRequest_holdings (c : Chip) : SameHoldings c (persistRequest c) := by
  unfold persistRequest
  (repeat' split) <;> simp [SameHoldings]

@[simp] theorem persistEnded_holdings (written : Nat) (c : Chip) : SameHoldings c (persistEnded written c) := by
  unfold persistEnded
  dsimp only
  (repeat' split) <;> simp [SameHoldings]

@[simp] theorem pieceProgrammed_holdings (c : Chip) : SameHoldings c (pieceProgrammed c) := by
  unfold pieceProgrammed
  (repeat' split) <;> simp [SameHoldings]

@[simp] theorem copyErased_holdings (c : Chip) : SameHoldings c (copyErased c) := by
  unfold copyErased
  (repeat' split) <;> simp [SameHoldings]

@[simp] theorem copyFailed_holdings (detail : Nat) (c : Chip) : SameHoldings c (copyFailed detail c) := by
  unfold copyFailed
  (repeat' split) <;> simp [SameHoldings]

@[simp] theorem endLoad_holdings (l : Load) (detail : Nat) (c : Chip) : SameHoldings c (endLoad l detail c) := by
  simp [endLoad, SameHoldings]

@[simp] theorem cancelFetchOf_holdings (k : ImageKey) (i : Nat) (c : Chip) : SameHoldings c (cancelFetchOf k i c) := by
  unfold cancelFetchOf
  (repeat' split) <;> simp [SameHoldings]

@[simp] theorem releaseLoadSlot_holdings (l : Load) (c : Chip) : SameHoldings c (releaseLoadSlot l c) := by
  unfold releaseLoadSlot
  (repeat' split) <;> simp [SameHoldings]

@[simp] theorem dropLoadOf_holdings (k : ImageKey) (c : Chip) : SameHoldings c (dropLoadOf k c) := by
  unfold dropLoadOf
  (repeat' split) <;> simp [SameHoldings]

@[simp] theorem reportFull_holdings (order : List Admitted) (c : Chip) : SameHoldings c (reportFull order c) := by
  unfold reportFull
  (repeat' split) <;> simp [SameHoldings]

@[simp] theorem replanUnits_holdings (c : Chip) : SameHoldings c (replanUnits c) := by
  simp [replanUnits, SameHoldings]

@[simp] theorem compareSerial_holdings (f : RxFrame) (c : Chip) : SameHoldings c (compareSerial f c) := by
  unfold compareSerial
  (repeat' split) <;> simp [SameHoldings]

@[simp] theorem onPlanAsk_holdings (named : Nat) (c : Chip) : SameHoldings c (onPlanAsk named c) := by
  unfold onPlanAsk
  (repeat' split) <;> simp [SameHoldings]

@[simp] theorem spoilPlanProgram_holdings (position piece len : Nat) (c : Chip) : SameHoldings c (spoilPlanProgram position piece len c) := by
  unfold spoilPlanProgram
  dsimp only
  (repeat' split) <;> simp [SameHoldings]

@[simp] theorem spoilPlanErase_holdings (c : Chip) : SameHoldings c (spoilPlanErase c) := by
  unfold spoilPlanErase
  dsimp only
  (repeat' split) <;> simp [SameHoldings]

@[simp] theorem reportRestored_holdings (copies : List (List Byte)) (c : Chip) : SameHoldings c (reportRestored copies c) := by
  unfold reportRestored
  (repeat' split) <;> simp [SameHoldings]

/-! ## The ends of a census (R132 to R136) -/

@[simp] theorem censusBegin_holdings (c : Chip) : SameHoldings c (censusBegin c) := by
  unfold censusBegin
  (repeat' split) <;> simp [SameHoldings]

@[simp] theorem abandonCensus_holdings (detail : Nat) (c : Chip) : SameHoldings c (abandonCensus detail c) := by
  simp [abandonCensus, SameHoldings]

@[simp] theorem departCensus_holdings (c : Chip) : SameHoldings c (departCensus c) := by
  unfold departCensus
  (repeat' split) <;> simp [SameHoldings]

@[simp] theorem endLostProbations_holdings (units : List UnitEntry) (c : Chip) : SameHoldings c (endLostProbations units c) :=
  forEach_holdings (fun a _ c => dropProbation_holdings a c) c

@[simp] theorem reportOverflow_holdings (l : List (Nat × Identity)) (c : Chip) : SameHoldings c (reportOverflow l c) := by
  unfold reportOverflow
  (repeat' split) <;> simp [SameHoldings]

@[simp] theorem reportIdentity_holdings (detail : Nat) (c : Chip) : SameHoldings c (reportIdentity detail c) := by
  simp [reportIdentity, SameHoldings]

@[simp] theorem censusPauseEnd_holdings (c : Chip) : SameHoldings c (censusPauseEnd c) := by
  unfold censusPauseEnd
  (repeat' split) <;> simp [SameHoldings]

@[simp] theorem recovered_holdings (c : Chip) : SameHoldings c (recovered c) := by
  unfold recovered
  (repeat' split) <;> simp [SameHoldings]

/-! ## The Yard port's access and transmissions (R81 to R93) -/

@[simp] theorem openWindow_holdings (c : Chip) : SameHoldings c (openWindow c) := by
  unfold openWindow
  (repeat' split) <;> simp [SameHoldings]

@[simp] theorem sendFrame_holdings (source : TxSource) (bytes : List Byte) (c : Chip) : SameHoldings c (sendFrame source bytes c) := by
  simp [sendFrame, SameHoldings]

@[simp] theorem sendScheduled_holdings (source : TxSource) (bytes : List Byte) (c : Chip) : SameHoldings c (sendScheduled source bytes c) := by
  simp [sendScheduled, SameHoldings]

@[simp] theorem takeBlock_holdings (n : Nat) (c : Chip) : SameHoldings c (takeBlock n c) := by
  unfold takeBlock
  (repeat' split) <;> simp [SameHoldings]

theorem takeOther_holdings (c : Chip) : SameHoldings c (takeLater.takeOther c) := by
  unfold takeLater.takeOther
  (repeat' split) <;> simp [SameHoldings]

@[simp] theorem takeLater_holdings (c : Chip) : SameHoldings c (takeLater c) := by
  unfold takeLater
  split
  · split
    exacts [takeBlock_holdings _ c, takeOther_holdings c]
  · exact takeOther_holdings c

theorem takeAsk_holdings {i : Nat} {c d : Chip} (h : takeAsk i c = some d) : SameHoldings c d := by
  unfold takeAsk at h
  dsimp only at h
  (repeat' split at h) <;> cases h
  simp [SameHoldings]

theorem takeAsks_holdings (is : List Nat) (c : Chip) : SameHoldings c (takeAsks is c) := by
  induction is generalizing c with
  | nil => exact takeLater_holdings c
  | cons i is ih =>
    unfold takeAsks
    split
    · exact takeLater_holdings c
    · split
      · next d hd => exact takeAsk_holdings hd
      · exact (withdrawAsk_holdings i c).trans (ih _)

@[simp] theorem opportunity_holdings (c : Chip) : SameHoldings c (opportunity c) := by
  unfold opportunity
  split
  · simp [SameHoldings]
  · split
    exacts [takeAsks_holdings _ c, by simp [SameHoldings]]

@[simp] theorem gapElapsed_holdings (c : Chip) : SameHoldings c (gapElapsed c) := by
  unfold gapElapsed
  (repeat' split) <;> simp [SameHoldings]

@[simp] theorem deferElapsed_holdings (c : Chip) : SameHoldings c (deferElapsed c) := by
  unfold deferElapsed
  dsimp only
  (repeat' split) <;> simp [SameHoldings]

@[simp] theorem countdownElapsed_holdings (c : Chip) : SameHoldings c (countdownElapsed c) := by
  unfold countdownElapsed
  (repeat' split) <;> simp [SameHoldings]

@[simp] theorem busyRise_holdings (c : Chip) : SameHoldings c (busyRise c) := by
  unfold busyRise
  dsimp only
  (repeat' split) <;> simp [SameHoldings]

@[simp] theorem busyFall_holdings (c : Chip) : SameHoldings c (busyFall c) := by
  unfold busyFall
  dsimp only
  (repeat' split) <;> simp [SameHoldings]

@[simp] theorem tellSource_holdings (s : TxSource) (c : Chip) : SameHoldings c (tellSource s c) := by
  unfold tellSource
  (repeat' split) <;> simp [SameHoldings]

@[simp] theorem transmissionEnds_holdings (c : Chip) : SameHoldings c (transmissionEnds c) := by
  unfold transmissionEnds
  (repeat' split) <;> simp [SameHoldings]

@[simp] theorem spendOnAir_holdings (c : Chip) : SameHoldings c (spendOnAir c) := by
  simp [spendOnAir, SameHoldings]

@[simp] theorem startRound_holdings (c : Chip) : SameHoldings c (startRound c) := by
  simp [startRound, SameHoldings]

@[simp] theorem roundExpires_holdings (c : Chip) : SameHoldings c (roundExpires c) := by
  unfold roundExpires
  (repeat' split) <;> simp [SameHoldings]

@[simp] theorem portDeparted_holdings (c : Chip) : SameHoldings c (portDeparted c) := by
  simp [portDeparted, SameHoldings]

@[simp] theorem portReturned_holdings (c : Chip) : SameHoldings c (portReturned c) := by
  unfold portReturned
  dsimp only
  (repeat' split) <;> simp [SameHoldings]

/-! ## The clock (R165 to R169) -/

@[simp] theorem reportAdoption_holdings (before : ClockState) (sender depth : Nat) (change : Int) (c : Chip) : SameHoldings c (reportAdoption before sender depth change c) := by
  unfold reportAdoption
  (repeat' split) <;> simp [SameHoldings]

@[simp] theorem relayBeacon_holdings (depth : Nat) (c : Chip) : SameHoldings c (relayBeacon depth c) := by
  unfold relayBeacon
  (repeat' split) <;> simp [SameHoldings]

@[simp] theorem adoptBeacon_holdings (sender depth : Nat) (time : Word32) (c : Chip) : SameHoldings c (adoptBeacon sender depth time c) := by
  unfold adoptBeacon
  dsimp only
  (repeat' split) <;> simp [SameHoldings]

@[simp] theorem onBeacon_holdings (f : RxFrame) (c : Chip) : SameHoldings c (onBeacon f c) := by
  unfold onBeacon
  dsimp only
  (repeat' split) <;> simp [SameHoldings]

@[simp] theorem beaconExpires_holdings (c : Chip) : SameHoldings c (beaconExpires c) := by
  unfold beaconExpires
  (repeat' split) <;> simp [SameHoldings]

@[simp] theorem freeRun_holdings (c : Chip) : SameHoldings c (freeRun c) := by
  unfold freeRun
  (repeat' split) <;> simp [SameHoldings]

@[simp] theorem notBeforeReached_holdings (address : Nat) (c : Chip) : SameHoldings c (notBeforeReached address c) := by
  unfold notBeforeReached
  (repeat' split) <;> simp [SameHoldings]

/-! ## Departure (R175 to R178) -/

@[simp] theorem lineEdge_holdings (asserted : Bool) (c : Chip) : SameHoldings c (lineEdge asserted c) := by
  unfold lineEdge
  dsimp only
  (repeat' split) <;> simp [SameHoldings]

@[simp] theorem departBlocks_holdings (c : Chip) : SameHoldings c (departBlocks c) := by
  simp [departBlocks, SameHoldings]

@[simp] theorem queueLeave_holdings (c : Chip) : SameHoldings c (queueLeave c) := by
  simp [queueLeave, SameHoldings]

@[simp] theorem lineAsserted_holdings (c : Chip) : SameHoldings c (lineAsserted c) := by
  unfold lineAsserted
  (repeat' split) <;> simp [SameHoldings]

@[simp] theorem readLineAtStart_holdings (c : Chip) : SameHoldings c (readLineAtStart c) := by
  unfold readLineAtStart
  (repeat' split) <;> simp [SameHoldings]

@[simp] theorem leaveExpires_holdings (c : Chip) : SameHoldings c (leaveExpires c) := by
  unfold leaveExpires
  (repeat' split) <;> simp [SameHoldings]

/-! ## Ends of store operations (R101 to R107) -/

@[simp] theorem fetchBlockDone_holdings (c : Chip) : SameHoldings c (fetchBlockDone c) := by
  unfold fetchBlockDone
  dsimp only
  (repeat' split) <;> simp [SameHoldings]

@[simp] theorem fetchBlockFailed_holdings (c : Chip) : SameHoldings c (fetchBlockFailed c) := by
  unfold fetchBlockFailed
  dsimp only
  (repeat' split) <;> simp [SameHoldings]

@[simp] theorem failLoad_holdings (l : Load) (detail : Nat) (c : Chip) : SameHoldings c (failLoad l detail c) := by
  simp [failLoad, SameHoldings]

@[simp] theorem claimDone_holdings (c : Chip) : SameHoldings c (claimDone c) := by
  unfold claimDone
  dsimp only
  (repeat' split) <;> simp [SameHoldings]

@[simp] theorem claimFailed_holdings (c : Chip) : SameHoldings c (claimFailed c) := by
  unfold claimFailed
  dsimp only
  (repeat' split) <;> simp [SameHoldings]

@[simp] theorem freeChecked_holdings (q : CheckRequest) (c : Chip) : SameHoldings c (freeChecked q c) := by
  unfold freeChecked
  (repeat' split) <;> simp [SameHoldings]

@[simp] theorem endCheckedLoad_holdings (q : CheckRequest) (detail : Nat) (c : Chip) : SameHoldings c (endCheckedLoad q detail c) := by
  unfold endCheckedLoad
  (repeat' split) <;> simp [SameHoldings]

@[simp] theorem dropCheck_holdings (q : CheckRequest) (c : Chip) : SameHoldings c (dropCheck q c) := by
  simp [dropCheck, SameHoldings]

@[simp] theorem reportSpoiled_holdings (q : CheckRequest) (peer : Option Nat) (c : Chip) : SameHoldings c (reportSpoiled q peer c) := by
  unfold reportSpoiled
  (repeat' split) <;> simp [SameHoldings]

@[simp] theorem checkMismatch_holdings (q : CheckRequest) (peer : Option Nat) (c : Chip) : SameHoldings c (checkMismatch q peer c) := by
  simp [checkMismatch, SameHoldings]

@[simp] theorem compareCheck_holdings (q : CheckRequest) (c : Chip) : SameHoldings c (compareCheck q c) := by
  unfold compareCheck
  (repeat' split) <;> simp [SameHoldings]

@[simp] theorem feedCheck_holdings (bytes : List Byte) (q : CheckRequest) (c : Chip) : SameHoldings c (feedCheck bytes q c) := by
  unfold feedCheck
  dsimp only
  (repeat' split) <;> simp [SameHoldings]

@[simp] theorem checkReadDone_holdings (c : Chip) : SameHoldings c (checkReadDone c) := by
  unfold checkReadDone
  dsimp only
  (repeat' split) <;> simp [SameHoldings]

@[simp] theorem headerFailed_holdings (c : Chip) : SameHoldings c (headerFailed c) := by
  unfold headerFailed
  dsimp only
  (repeat' split) <;> simp [SameHoldings]

@[simp] theorem serveRead_holdings (c : Chip) : SameHoldings c (serveRead c) := by
  unfold serveRead
  (repeat' split) <;> simp [SameHoldings]

@[simp] theorem flasherRead_holdings (c : Chip) : SameHoldings c (flasherRead c) := by
  unfold flasherRead
  (repeat' split) <;> simp [SameHoldings]

@[simp] theorem slotErased_holdings (c : Chip) : SameHoldings c (slotErased c) := by
  unfold slotErased
  (repeat' split) <;> simp [SameHoldings]

@[simp] theorem slotEraseFailed_holdings (c : Chip) : SameHoldings c (slotEraseFailed c) := by
  unfold slotEraseFailed
  (repeat' split) <;> simp [SameHoldings]

@[simp] theorem eraseMarked_holdings (c : Chip) : SameHoldings c (eraseMarked c) := by
  unfold eraseMarked
  (repeat' split) <;> simp [SameHoldings]

@[simp] theorem eraseMarkFailed_holdings (c : Chip) : SameHoldings c (eraseMarkFailed c) := by
  unfold eraseMarkFailed
  (repeat' split) <;> simp [SameHoldings]

@[simp] theorem retiredMarkEnded_holdings (completed : Bool) (c : Chip) : SameHoldings c (retiredMarkEnded completed c) := by
  unfold retiredMarkEnded
  (repeat' split) <;> simp [SameHoldings]

/-! ## The plan copies and the commission record (R8, R96) -/

@[simp] theorem planProgrammed_holdings (c : Chip) : SameHoldings c (planProgrammed c) := by
  unfold planProgrammed
  (repeat' split) <;> simp [SameHoldings]

@[simp] theorem planProgramFailed_holdings (c : Chip) : SameHoldings c (planProgramFailed c) := by
  unfold planProgramFailed
  (repeat' split) <;> simp [SameHoldings]

@[simp] theorem planErased_holdings (c : Chip) : SameHoldings c (planErased c) := by
  unfold planErased
  (repeat' split) <;> simp [SameHoldings]

@[simp] theorem planEraseFailed_holdings (c : Chip) : SameHoldings c (planEraseFailed c) := by
  unfold planEraseFailed
  (repeat' split) <;> simp [SameHoldings]

@[simp] theorem commissionErased_holdings (c : Chip) : SameHoldings c (commissionErased c) := by
  unfold commissionErased
  (repeat' split) <;> simp [SameHoldings]

@[simp] theorem failCommission_holdings (detail : Nat) (c : Chip) : SameHoldings c (failCommission detail c) := by
  simp [failCommission, SameHoldings]

@[simp] theorem commissionEraseFailed_holdings (c : Chip) : SameHoldings c (commissionEraseFailed c) := by
  unfold commissionEraseFailed
  (repeat' split) <;> simp [SameHoldings]

@[simp] theorem commissioned_holdings (c : Chip) : SameHoldings c (commissioned c) := by
  unfold commissioned
  (repeat' split) <;> simp [SameHoldings]

@[simp] theorem commissionProgramFailed_holdings (c : Chip) : SameHoldings c (commissionProgramFailed c) := by
  unfold commissionProgramFailed
  (repeat' split) <;> simp [SameHoldings]

@[simp] theorem loadBlockDone_holdings (c : Chip) : SameHoldings c (loadBlockDone c) := by
  unfold loadBlockDone
  dsimp only
  (repeat' split) <;> simp [SameHoldings]

@[simp] theorem loadBlockFailed_holdings (c : Chip) : SameHoldings c (loadBlockFailed c) := by
  unfold loadBlockFailed
  dsimp only
  (repeat' split) <;> simp [SameHoldings]

/-! ## The start scan (R108 to R112) -/

@[simp] theorem unconfigure_holdings (c : Chip) : SameHoldings c (unconfigure c) := by
  simp [unconfigure, SameHoldings]

@[simp] theorem takeConfig_holdings (r : ConfigRecord) (c : Chip) : SameHoldings c (takeConfig r c) := by
  simp [takeConfig, SameHoldings]

@[simp] theorem configRead_holdings (c : Chip) : SameHoldings c (configRead c) := by
  unfold configRead
  dsimp only
  (repeat' split) <;> simp [SameHoldings]

@[simp] theorem reportComplete_holdings (r : ImageRecord) (c : Chip) : SameHoldings c (reportComplete r c) := by
  unfold reportComplete
  split <;> simp [SameHoldings]

@[simp] theorem scanDone_holdings (c : Chip) : SameHoldings c (scanDone c) := by
  have h := forEach_holdings (f := reportComplete) (xs := c.catalog.records) (fun r _ c => reportComplete_holdings r c)
    { c with store.scanPhase := .done, store.findings := [] }
  unfold scanDone
  dsimp only
  split <;> exact h.trans (by simp [SameHoldings])

@[simp] theorem dropFinding_holdings (f : Finding) (c : Chip) : SameHoldings c (dropFinding f c) := by
  simp [dropFinding, SameHoldings]

@[simp] theorem offerData_holdings (f : Finding) (c : Chip) : SameHoldings c (offerData f c) := by
  unfold offerData
  (repeat' split) <;> simp [SameHoldings]

@[simp] theorem dataPhase_holdings (c : Chip) : SameHoldings c (dataPhase c) := by
  have h := forEach_holdings (f := offerData) (xs := c.store.findings) (fun f _ c => offerData_holdings f c) { c with store.scanPhase := .data }
  exact SameHoldings.trans h (scanDone_holdings _)

theorem manifestSteps_holdings (n : Nat) (c : Chip) : SameHoldings c (manifestSteps n c) := by
  induction n generalizing c with
  | zero => exact .refl c
  | succ n ih =>
    unfold manifestSteps
    split
    · exact dataPhase_holdings c
    · split
      · exact .refl c
      · exact .trans (by simp [SameHoldings]) (ih _)

@[simp] theorem manifestPhase_holdings (c : Chip) : SameHoldings c (manifestPhase c) := manifestSteps_holdings _ _

@[simp] theorem classifySlot_holdings (slot : Nat) (k : SpareClass) (c : Chip) : SameHoldings c (classifySlot slot k c) := by
  unfold classifySlot
  (repeat' split) <;> simp [SameHoldings]

@[simp] theorem sweepRead_holdings (c : Chip) : SameHoldings c (sweepRead c) := by
  unfold sweepRead
  dsimp only
  (repeat' split) <;> simp [SameHoldings]

/-! ## Commands of the local port (R179 to R191) -/

@[simp] theorem say_holdings (status : Status) (code : Nat) (c : Chip) : SameHoldings c (say status code c) := by
  simp [say, SameHoldings]

@[simp] theorem onStatus_holdings (c : Chip) : SameHoldings c (onStatus c) := by
  simp [onStatus, SameHoldings]

theorem handled_holdings {f : Chip → Chip} (h : ∀ c, SameHoldings c (f c)) (k : CommandClass) (code : Nat) (c : Chip) :
    SameHoldings c (handled k code f c) := by
  unfold handled
  split
  exacts [.refl c, h c]

@[simp] theorem onReadUnits_holdings (c : Chip) : SameHoldings c (onReadUnits c) := handled_holdings (by exact fun _ => ⟨rfl, rfl⟩) _ _ c

@[simp] theorem onReadCatalog_holdings (position : Byte) (first : BitVec 16) (c : Chip) : SameHoldings c (onReadCatalog position first c) :=
  handled_holdings (by exact fun _ => ⟨rfl, rfl⟩) _ _ c

@[simp] theorem onReadReports_holdings (n : BitVec 16) (c : Chip) : SameHoldings c (onReadReports n c) := handled_holdings (by exact fun _ => ⟨rfl, rfl⟩) _ _ c

@[simp] theorem onSetDeparture_holdings (seconds : Word32) (c : Chip) : SameHoldings c (onSetDeparture seconds c) :=
  handled_holdings (fun c => by dsimp only; split <;> simp [SameHoldings]) _ _ c

@[simp] theorem onClearDeparture_holdings (c : Chip) : SameHoldings c (onClearDeparture c) :=
  handled_holdings (fun c => by dsimp only; (repeat' split) <;> simp [SameHoldings]) _ _ c

@[simp] theorem onCensus_holdings (c : Chip) : SameHoldings c (onCensus c) :=
  handled_holdings (fun c => by (repeat' split) <;> simp [SameHoldings]) _ _ c

@[simp] theorem onRestart_holdings (c : Chip) : SameHoldings c (onRestart c) := by
  simp [onRestart, SameHoldings]

@[simp] theorem onCommission_holdings (record : List Byte) (c : Chip) : SameHoldings c (onCommission record c) := by
  unfold onCommission
  (repeat' split) <;> simp [SameHoldings]

@[simp] theorem openLoad_holdings (k : ImageKey) (seg slot : Nat) (c : Chip) : SameHoldings c (openLoad k seg slot c) := by
  simp [openLoad, SameHoldings]

theorem originOnly_holdings {f : Chip → Chip} (h : ∀ c, SameHoldings c (f c)) (code : Nat) (c : Chip) : SameHoldings c (originOnly code f c) :=
  handled_holdings (fun c => by split; exacts [say_holdings _ _ c, h c]) _ _ c

@[simp] theorem onLoadOpen_holdings (id version segment slot : BitVec 16) (c : Chip) : SameHoldings c (onLoadOpen id version segment slot c) :=
  originOnly_holdings (fun c => .trans (by split; exacts [openLoad_holdings _ _ _ c, .refl c]) (say_holdings _ 0x11 _)) _ c

@[simp] theorem onLoadBlock_holdings (index : Byte) (data : List Byte) (c : Chip) : SameHoldings c (onLoadBlock index data c) := by
  unfold onLoadBlock
  split
  · exact say_holdings _ _ c
  · exact originOnly_holdings (fun c => by dsimp only; (repeat' split) <;> simp [SameHoldings]) _ c

@[simp] theorem closeCheck_holdings (l : Load) (c : Chip) : SameHoldings c (closeCheck l c) := by
  simp [closeCheck, SameHoldings]

@[simp] theorem closeDiscard_holdings (l : Load) (c : Chip) : SameHoldings c (closeDiscard l c) := by
  simp [closeDiscard, SameHoldings]

@[simp] theorem onLoadClose_holdings (mode : Byte) (c : Chip) : SameHoldings c (onLoadClose mode c) :=
  originOnly_holdings (fun c => by (repeat' split) <;> simp [SameHoldings]) _ c

@[simp] theorem onBadFrame_holdings (frame : List Byte) (c : Chip) : SameHoldings c (onBadFrame frame c) := by
  unfold onBadFrame
  (repeat' split) <;> simp [SameHoldings]

/-! ## Times reached (R18, R31, R32, R51) -/

@[simp] theorem fetchTimerExpires_holdings (i : Nat) (c : Chip) : SameHoldings c (fetchTimerExpires i c) := by
  unfold fetchTimerExpires
  (repeat' split) <;> simp [SameHoldings]

@[simp] theorem coolingEnds_holdings (k : ImageKey) (seg : Nat) (c : Chip) : SameHoldings c (coolingEnds k seg c) := by
  unfold coolingEnds
  (repeat' split) <;> simp [SameHoldings]

@[simp] theorem shunEnds_holdings (id : Nat) (c : Chip) : SameHoldings c (shunEnds id c) := by
  unfold shunEnds
  split
  · split
    exacts [updatePeer_holdings (by exact fun _ => rfl) id c, .refl c]
  · exact .refl c

@[simp] theorem busyMarkEnds_holdings (id : Nat) (c : Chip) : SameHoldings c (busyMarkEnds id c) := by
  unfold busyMarkEnds
  split
  · split
    exacts [updatePeer_holdings (by exact fun _ => rfl) id c, .refl c]
  · exact .refl c

end Sys2Proof.Machine
end

