-- ==== Sys2Proof/Proofs/HolderCounts.lean ====
section
/-!
SUPPORT. Holder counts (R25) and tracked lists (R24) through every operation: those that leave holdings alone, those that end with a recount, and those by
which an image's record comes and goes (R11, R12).
-/
namespace Sys2Proof.Machine

/-! ## The two invariants as facts about holdings -/

/-- R25. Exact counts, said of the range lists and the counts alone. -/
theorem holdersExact_iff (c : Chip) :
    HoldersExact c ↔ ∀ h ∈ c.catalog.records.map holdersOf, ∀ i n, h.2[i]? = some n →
      n = (c.peers.map (fun p => p.lists)).countP (fun ls => covers ((ls.lookup h.1).getD []) i) := by
  simp only [HoldersExact, List.forall_mem_map, holdersOf, List.getElem?_map, Option.map_eq_some_iff, List.countP_map]
  exact forall₂_congr fun r _ => forall_congr' fun i =>
    ⟨fun h n ⟨e, he, hn⟩ => hn ▸ h e he, fun h e he => h e.holders ⟨e, he, rfl⟩⟩

theorem findRecord_isSome_iff (c : Chip) (k : ImageKey) : (findRecord c k).isSome ↔ ∃ r ∈ c.catalog.records, r.image = k := by
  simp [findRecord, List.find?_isSome]

/-- R24. Tracked lists, said of the range lists and the images alone. -/
theorem listsTracked_iff (c : Chip) :
    ListsTracked c ↔ ∀ ls ∈ c.peers.map (fun p => p.lists), ∀ k, (ls.lookup k).getD [] ≠ [] → ∃ h ∈ c.catalog.records.map holdersOf, h.1 = k := by
  rw [List.forall_mem_map]
  simp only [ListsTracked, findRecord_isSome_iff, List.mem_map, exists_exists_and_eq_and]
  rfl

theorem SameHoldings.holdersExact {c d : Chip} (h : SameHoldings c d) (hc : HoldersExact c) : HoldersExact d := by
  rw [holdersExact_iff] at hc ⊢
  rwa [h.1, h.2]

theorem SameHoldings.listsTracked {c d : Chip} (h : SameHoldings c d) (hc : ListsTracked c) : ListsTracked d := by
  rw [listsTracked_iff] at hc ⊢
  rwa [h.1, h.2]

/-- Going from one chip to another, exact counts and tracked lists are kept. -/
def KeepsCounts (c d : Chip) : Prop := HoldersExact c → ListsTracked c → HoldersExact d ∧ ListsTracked d

theorem SameHoldings.keeps {c d : Chip} (h : SameHoldings c d) : KeepsCounts c d := fun he ht => ⟨h.holdersExact he, h.listsTracked ht⟩

theorem KeepsCounts.refl (c : Chip) : KeepsCounts c c := (SameHoldings.refl c).keeps

theorem KeepsCounts.trans {c d e : Chip} (h : KeepsCounts c d) (k : KeepsCounts d e) : KeepsCounts c e := fun he ht =>
  have ⟨he', ht'⟩ := h he ht
  k he' ht'

/-! ## Settling -/

theorem lists_of_bodies {c d : Chip} (h : d.peers.map peerBody = c.peers.map peerBody) :
    d.peers.map (fun p => p.lists) = c.peers.map (fun p => p.lists) := by
  have := congrArg (List.map (fun p : PeerRecord => p.lists)) h
  simpa [List.map_map, Function.comp_def, peerBody] using this

/-- Log 13. Settling leaves range lists and holder counts alone: it opens fetches and evicts segments. -/
theorem settle_holdings (c : Chip) : SameHoldings c (settle c) :=
  ⟨lists_of_bodies (settle_adds c).2.2,
    settle_does (R := fun c d => d.catalog.records.map holdersOf = c.catalog.records.map holdersOf) (fun h k => k.trans h) (fun _ k => by rw [k.1])
      (runSelection_does (R := fun c d => d.catalog.records.map holdersOf = c.catalog.records.map holdersOf) (fun h k => k.trans h)
        (fun _ k => by rw [k.1]) (fun c i slot x p _ _ => (openFetch_holdings i slot x p c).2) (fun c _ v _ => (evictSegment_holdings _ _ _ c).2)) c⟩

/-! ## Recounting (R25) -/

theorem countEntries_getElem? (peers : List PeerRecord) (k : ImageKey) (seg : Nat) (es : List SegEntry) (i : Nat) :
    (countEntries peers k seg es)[i]? = (es[i]?).map (fun e => { e with holders := coverCount peers k (seg + i) }) := by
  induction es generalizing seg i with
  | nil => rfl
  | cons e es ih =>
    cases i with
    | zero => rfl
    | succ i =>
      have key : seg + 1 + i = seg + (i + 1) := by omega
      rw [countEntries, List.getElem?_cons_succ, ih, List.getElem?_cons_succ, key]

theorem holdersExact_of_recounted {d : Chip} {rs : List ImageRecord} (h : d.catalog.records = rs.map (countRecord d.peers)) : HoldersExact d := by
  intro r hr i e he
  rw [h] at hr
  obtain ⟨q, _, rfl⟩ := List.mem_map.mp hr
  rw [countRecord, countEntries_getElem?, Nat.zero_add] at he
  obtain ⟨e', _, rfl⟩ := Option.map_eq_some_iff.mp he
  rfl

/-- R25. After a recount every count is exact, whatever the counts were. -/
theorem recount_exact (c : Chip) : HoldersExact (recount c) := by
  obtain ⟨a, h⟩ := recount_does c
  exact holdersExact_of_recounted (rs := c.catalog.records) (by rw [h])

theorem listsTracked_of_images {c d : Chip} (hp : d.peers = c.peers)
    (hr : d.catalog.records.map (fun r => r.image) = c.catalog.records.map (fun r => r.image)) (hc : ListsTracked c) : ListsTracked d := by
  intro p hmem k hne
  rw [hp] at hmem
  obtain ⟨r, hrec, himage⟩ := (findRecord_isSome_iff c k).mp (hc p hmem k hne)
  have : k ∈ d.catalog.records.map (fun r => r.image) := hr ▸ List.mem_map.mpr ⟨r, hrec, himage⟩
  exact (findRecord_isSome_iff d k).mpr (List.mem_map.mp this)

theorem recount_tracked {c : Chip} (h : ListsTracked c) : ListsTracked (recount c) := by
  obtain ⟨a, e⟩ := recount_does c
  rw [e]
  exact listsTracked_of_images (c := c) rfl (by simp [countRecord, Function.comp_def]) h

/-- R24. Where every list of the second table was a list of the first, or is empty, tracked lists stay tracked. -/
theorem listsTracked_of_lists {c d : Chip} (hcat : d.catalog = c.catalog)
    (h : ∀ p' ∈ d.peers, ∀ k, rangeList p' k ≠ [] → (findRecord c k).isSome ∨ ∃ p ∈ c.peers, rangeList p k ≠ []) (hc : ListsTracked c) : ListsTracked d := by
  intro p' hp' k hne
  rw [findRecord_of_catalog hcat]
  rcases h p' hp' k hne with hsome | ⟨p, hp, hne'⟩
  exacts [hsome, hc p hp k hne']

/-! ## One peer's list (R27, R29) -/

/-- R24. A range list that is replaced is the new one, and the other lists stand. -/
theorem rangeList_setRangeList (k k' : ImageKey) (l : List SegRun) (p : PeerRecord) :
    rangeList (setRangeList k l p) k' = if k' = k then l else rangeList p k' := by
  unfold rangeList setRangeList
  by_cases hl : l = []
  · rw [if_pos hl, List.nil_append, lookup_filter_of_key (fun key => key != k)]
    by_cases h : k' = k <;> simp [h, hl]
  · rw [if_neg hl]
    by_cases h : k' = k
    · simp [h]
    · simp [h, List.lookup_cons, lookup_filter_of_key (fun key => key != k), beq_false_of_ne h]

theorem changeList_exact (id : Nat) (k : ImageKey) (f : List SegRun → List SegRun) (c : Chip) : HoldersExact (changeList id k f c) :=
  (askIf_holdings _ _).holdersExact (recount_exact _)

theorem changeList_tracked {id : Nat} {k : ImageKey} {f : List SegRun → List SegRun} {c : Chip} (h : f [] = [] ∨ (findRecord c k).isSome)
    (hc : ListsTracked c) : ListsTracked (changeList id k f c) := by
  refine (askIf_holdings _ _).listsTracked (recount_tracked (listsTracked_of_lists (c := c) rfl ?_ hc))
  intro p' hp' k' hne
  rw [updatePeer_peers] at hp'
  obtain ⟨p, hp, rfl⟩ := List.mem_map.mp hp'
  by_cases hsame : rangeList p k' = []
  · left
    split at hne
    · rw [rangeList_setRangeList] at hne
      split at hne
      · next hk =>
        subst hk
        exact h.resolve_left fun hnil => hne (by rw [hsame, hnil])
      · exact absurd hsame hne
    · exact absurd hsame hne
  · exact .inr ⟨p, hp, hsame⟩

theorem changeList_counts {id : Nat} {k : ImageKey} {f : List SegRun → List SegRun} {c : Chip} (h : f [] = [] ∨ (findRecord c k).isSome) :
    KeepsCounts c (changeList id k f c) := fun _ ht => ⟨changeList_exact id k f c, changeList_tracked h ht⟩

theorem withdrawSegment_counts (id : Nat) (k : ImageKey) (seg : Nat) (c : Chip) : KeepsCounts c (withdrawSegment id k seg c) := changeList_counts (.inl rfl)

theorem withdrawImage_counts (id : Nat) (k : ImageKey) (c : Chip) : KeepsCounts c (withdrawImage id k c) := changeList_counts (.inl rfl)

theorem mergeOffer_counts (sender : Nat) (o : OfferBody) (c : Chip) : KeepsCounts c (mergeOffer sender o c) := by
  unfold mergeOffer
  split
  · exact .refl c
  · split
    · exact .refl c
    · next htest => exact changeList_counts (.inr (by cases hrec : findRecord c o.image <;> simp_all))

/-! ## Records of peers (R20 to R23, R29, R30) -/

theorem withdrawAll_exact (id : Nat) (c : Chip) : HoldersExact (withdrawAll id c) := (askIf_holdings _ _).holdersExact (recount_exact _)

theorem withdrawAll_counts (id : Nat) (c : Chip) : KeepsCounts c (withdrawAll id c) := fun _ ht => by
  refine ⟨withdrawAll_exact id c, (askIf_holdings _ _).listsTracked (recount_tracked (listsTracked_of_lists (c := c) rfl ?_ ht))⟩
  intro p' hp' k hne
  rw [updatePeer_peers] at hp'
  obtain ⟨p, hp, rfl⟩ := List.mem_map.mp hp'
  split at hne
  · exact absurd rfl hne
  · exact .inr ⟨p, hp, hne⟩

theorem removePeer_exact (id : Nat) (c : Chip) : HoldersExact (removePeer id c) := (askIf_holdings _ _).holdersExact (recount_exact _)

theorem removePeer_counts (id : Nat) (c : Chip) : KeepsCounts c (removePeer id c) := fun _ ht =>
  ⟨removePeer_exact id c, (askIf_holdings _ _).listsTracked (recount_tracked (listsTracked_of_lists (c := c) rfl
    (fun p hp _ hne => .inr ⟨p, List.mem_of_mem_filter hp, hne⟩) ht))⟩

theorem makeRoom_counts (c : Chip) : KeepsCounts c (makeRoom c) := by
  unfold makeRoom
  split
  · exact .refl c
  · split
    exacts [removePeer_counts _ c, removePeer_counts _ c, .refl c]

theorem emptyPeers_counts (c : Chip) : KeepsCounts c (emptyPeers c) := fun _ _ =>
  have h : SameHoldings (recount { c with peers := [] }) (emptyPeers c) := ⟨rfl, rfl⟩
  ⟨h.holdersExact (recount_exact _), h.listsTracked (recount_tracked (by simp [ListsTracked]))⟩

/-- R30. A departure withdraws all coverage on its way; what comes after leaves the counts alone. -/
theorem announceDeparture_after_withdrawal (id : Nat) (c : Chip) :
    SameHoldings (withdrawAll id c)
      (askSelection (switchAway id (dropReadyFor id 2 (dropReadyFor id 1 (dropReadyFor id 0 (withdrawAll id c)))))) := by
  simp [SameHoldings]

theorem announceDeparture_counts (id : Nat) (c : Chip) : KeepsCounts c (announceDeparture id c) := by
  unfold announceDeparture
  split
  · exact .refl c
  · split
    · exact .refl c
    · exact ((updatePeer_holdings (by exact fun _ => rfl) id c).keeps.trans (withdrawAll_counts id _)).trans
        (announceDeparture_after_withdrawal id _).keeps

/-- R20. A record put in its place among those of other stations counts like one put in front. -/
theorem insertPeer_perm {p : PeerRecord} {ps : List PeerRecord} (h : ∀ q ∈ ps, q.id ≠ p.id) : (insertPeer p ps).Perm (p :: ps) := by
  have hlater : ps.filter (fun q => decide (p.id < q.id)) = ps.filter (fun q => !decide (q.id < p.id)) :=
    List.filter_congr fun q hq => by
      have := h q hq
      rw [Bool.eq_iff_iff]
      simp
      omega
  unfold insertPeer
  rw [hlater]
  exact List.perm_middle.trans ((List.filter_append_perm _ ps).cons p)

theorem insertPeer_counts {p : PeerRecord} {c : Chip} (hid : ∀ q ∈ c.peers, q.id ≠ p.id) (hlists : p.lists = []) :
    KeepsCounts c { c with peers := insertPeer p c.peers } := fun he ht => by
  have hperm := insertPeer_perm hid
  have hempty : ∀ k, rangeList p k = [] := fun k => by simp [rangeList, hlists]
  refine ⟨fun r hr i e hi => ?_, listsTracked_of_lists (c := c) rfl (fun q hq k hne => ?_) ht⟩
  · rw [hperm.countP_eq, List.countP_cons_of_neg (by simp [hempty, covers])]
    exact he r hr i e hi
  · rcases List.mem_cons.mp (hperm.mem_iff.mp hq) with rfl | hq
    · exact absurd (hempty k) hne
    · exact .inr ⟨q, hq, hne⟩

theorem findPeer_eq_none {c : Chip} {id : Nat} : findPeer c id = none ↔ ∀ q ∈ c.peers, q.id ≠ id := by simp [findPeer]

theorem recount_peers (c : Chip) : (recount c).peers = c.peers := by
  obtain ⟨a, h⟩ := recount_does c
  rw [h]

theorem askIf_peers (b : Bool) (c : Chip) : (askIf b c).peers = c.peers := by
  unfold askIf
  split <;> rfl

theorem removePeer_peers (id : Nat) (c : Chip) : (removePeer id c).peers = c.peers.filter (fun p => p.id != id) := by
  rw [removePeer, askIf_peers, recount_peers]

/-- R22. Making room leaves the records there are, or all but those of one station. -/
theorem makeRoom_peers (c : Chip) : (makeRoom c).peers = c.peers ∨ (48 ≤ c.peers.length ∧ ∃ id, (makeRoom c).peers = c.peers.filter (fun p => p.id != id)) := by
  unfold makeRoom
  split
  · exact .inl rfl
  · next hfull =>
    split
    exacts [.inr ⟨by omega, _, removePeer_peers _ c⟩, .inr ⟨by omega, _, removePeer_peers _ c⟩, .inl rfl]

theorem makeRoom_mem {c : Chip} {q : PeerRecord} (h : q ∈ (makeRoom c).peers) : q ∈ c.peers := by
  rcases makeRoom_peers c with e | ⟨_, _, e⟩ <;> rw [e] at h
  exacts [h, List.mem_of_mem_filter h]

theorem presence_counts (f : RxFrame) (c : Chip) : KeepsCounts c (presence f c) := by
  unfold presence
  split
  · have hrefresh := updatePeer_holdings (f := refreshPeer f c.now) (by exact fun _ => rfl) f.sender c
    dsimp only
    split
    · have htake := serveTake_adds (announceDeparture f.sender (updatePeer f.sender (refreshPeer f c.now) c))
      have hsame : SameHoldings _ (serveTake (announceDeparture f.sender (updatePeer f.sender (refreshPeer f c.now) c))) :=
        ⟨lists_of_bodies htake.2.2, by rw [(serveTake_unmoved _).1]⟩
      exact (hrefresh.keeps.trans (announceDeparture_counts _ _)).trans hsame.keeps
    · split
      · exact (hrefresh.trans (updatePeer_holdings (by exact fun _ => rfl) _ _)).keeps
      · exact hrefresh.keeps
  · next hnone =>
    split
    · exact .refl c
    · exact (makeRoom_counts c).trans (insertPeer_counts (fun q hq => findPeer_eq_none.mp hnone q (makeRoom_mem hq)) rfl)

/-! ## Records of images (R11, R12, R14) -/

/-- R14, R25. A manifest taken gives the image new entries, whose counts are then those of the lists. -/
theorem takeManifest_counts (k : ImageKey) (slot : Nat) (m : Manifest) (c : Chip) : KeepsCounts c (takeManifest k slot m c) := fun _ ht => by
  refine ⟨recount_exact _, recount_tracked (listsTracked_of_images (c := c) rfl ?_ ht)⟩
  rw [askSelection_catalog, updateRecord_catalog_records, List.map_map]
  refine List.map_congr_left fun r _ => ?_
  simp only [Function.comp]
  split <;> rfl

theorem holdSegment_counts (k : ImageKey) (seg slot : Nat) (c : Chip) : KeepsCounts c (holdSegment k seg slot c) := by
  have hslot : SameHoldings c (setSlot slot { cond := .full, owner := some (.segment k seg) } c) := .refl c
  unfold holdSegment
  split
  · exact (release_holdings slot c).keeps
  · dsimp only
    split
    · split
      · exact hslot.keeps.trans (takeManifest_counts _ _ _ _)
      · exact (hslot.trans (rejectManifest_holdings _ _ _ _)).keeps
    · exact (hslot.trans ((setSegState_holdings _ _ _ _).trans (completeIfHeld_holdings _ _))).keeps

/-- R12. An image forgotten by the peers and by the catalog leaves the other counts and lists as they are. -/
theorem forgetImage_counts (k : ImageKey) (c : Chip) : KeepsCounts c (forgetImage k c) := fun he ht => by
  refine ⟨fun r hr i e hi => ?_, fun p' hp' k' hne => ?_⟩
  · obtain ⟨hr, himage⟩ := List.mem_filter.mp hr
    have hother : r.image ≠ k := by simpa using himage
    simp only [forgetImage, List.countP_map, Function.comp_def, rangeList_setRangeList, if_neg hother]
    exact he r hr i e hi
  · obtain ⟨p, hp, rfl⟩ := List.mem_map.mp hp'
    rw [rangeList_setRangeList] at hne
    split at hne
    · exact absurd rfl hne
    · next hk =>
      obtain ⟨r, hr, himage⟩ := (findRecord_isSome_iff c k').mp (ht p hp k' hne)
      exact (findRecord_isSome_iff _ k').mpr ⟨r, List.mem_filter.mpr ⟨hr, by simpa [himage] using hk⟩, himage⟩

theorem clearImage_holdings (r : ImageRecord) (c : Chip) : SameHoldings c (clearImage r c) := by
  have hcancel := forEach_holdings (f := cancelFetchOf r.image) (xs := [0, 1, 2, 3]) (fun i _ c => cancelFetchOf_holdings r.image i c) c
  have hrelease := forEach_holdings (f := release) (xs := heldSlots r) (fun s _ c => release_holdings s c)
  exact hcancel.trans (.trans (by simp [orphanChecks, SameHoldings]) (hrelease (endServes _ (orphanChecks r.image _))))

theorem removeRecord_counts (r : ImageRecord) (c : Chip) : KeepsCounts c (removeRecord r c) := by
  rw [removeRecord_eq]
  exact ((clearImage_holdings r c).keeps.trans (forgetImage_counts r.image _)).trans (SameHoldings.keeps (by simp [SameHoldings]))

/-- R11. No two candidates of an admitted set are for one image. -/
def ImagesDiffer (admitted : List Admitted) : Prop := ∀ a ∈ admitted, ∀ b ∈ admitted, a.entry.image = b.entry.image → a = b

theorem recordFor_image (records : List ImageRecord) (a : Admitted) : (recordFor records a).image = a.entry.image := congrArg Prod.fst (recordKey_recordFor records a)

/-- R12. Of the records left by removals, one that has an admitted image stays beside the admitted one. -/
theorem left_stays {admitted : List Admitted} (hdiffer : ImagesDiffer admitted) {c : Chip} {r : ImageRecord}
    (hr : r ∈ (forEach (goneRecords admitted c) removeRecord c).catalog.records) :
    ∃ a ∈ admitted, survives r a = true ∧ ∀ b ∈ admitted, b.entry.image = r.image → b = a := by
  rw [removals_records, List.mem_filter] at hr
  obtain ⟨hmem, hall⟩ := hr
  by_contra hnone
  have hgone : r ∈ goneRecords admitted c := by
    refine List.mem_filter.mpr ⟨hmem, ?_⟩
    simp only [Bool.not_eq_true', List.any_eq_false]
    intro a ha hs
    have himage : r.image = a.entry.image := ((survives_iff r a).mp hs).1
    exact hnone ⟨a, ha, hs, fun b hb hbr => hdiffer b hb a ha (hbr.trans himage)⟩
  simpa using List.all_eq_true.mp hall r hgone

/-- R11, R12. The records of an admitted set: the surviving ones with their counts, and new ones for images that no peer's list names. -/
theorem applyAdmission_counts {admitted : List Admitted} (hdiffer : ImagesDiffer admitted) (c : Chip) : KeepsCounts c (applyAdmission admitted c) := by
  have hremoved : KeepsCounts c (forEach (goneRecords admitted c) removeRecord c) :=
    forEach_keeps KeepsCounts.refl KeepsCounts.trans (fun r _ c => removeRecord_counts r c) c
  refine hremoved.trans fun he ht => ?_
  have hleft : ∀ r ∈ (forEach (goneRecords admitted c) removeRecord c).catalog.records, _ := fun r hr => left_stays hdiffer hr
  have hrecords := applyAdmission_records admitted c
  have hpeers : (applyAdmission admitted c).peers = (forEach (goneRecords admitted c) removeRecord c).peers := rfl
  generalize hd : forEach (goneRecords admitted c) removeRecord c = d at *
  refine ⟨fun r hr i e hi => ?_, fun p hp k hne => ?_⟩
  · rw [hrecords] at hr
    obtain ⟨a, ha, rfl⟩ := List.mem_map.mp hr
    rw [hpeers, recordFor_image]
    unfold recordFor at hi
    split at hi
    · next q hq =>
      have himage : q.image = a.entry.image := ((survives_iff q a).mp (List.find?_some (p := fun r => survives r a) hq)).1
      rw [← himage]
      exact he q (List.mem_of_find?_eq_some hq) i e hi
    · next hnone =>
      have hfree : ∀ p ∈ d.peers, rangeList p a.entry.image = [] := by
        intro p hp
        by_contra hne
        obtain ⟨r, hr, himage⟩ := (findRecord_isSome_iff d _).mp (ht p hp _ hne)
        obtain ⟨b, _, hs, honly⟩ := hleft r hr
        obtain rfl := honly a ha himage.symm
        exact List.find?_eq_none.mp hnone r hr hs
      have hzero : e.holders = 0 := by
        obtain ⟨hi0, rfl⟩ : i = 0 ∧ ({ state := .absent, holders := 0 } : SegEntry) = e := by
          simpa [newRecord, List.getElem?_singleton] using hi
        rfl
      rw [hzero, eq_comm, List.countP_eq_zero]
      intro p hp
      rw [hfree p hp]
      simp [covers]
  · obtain ⟨r, hr, himage⟩ := (findRecord_isSome_iff d k).mp (ht p (hpeers ▸ hp) k hne)
    obtain ⟨a, ha, hs, _⟩ := hleft r hr
    refine (findRecord_isSome_iff _ k).mpr ⟨recordFor d.catalog.records a, hrecords ▸ List.mem_map_of_mem ha, ?_⟩
    rw [recordFor_image, ← ((survives_iff r a).mp hs).1, himage]

/-- R3, R11. The candidates that live entries make are for different images. -/
theorem imagesDiffer_of_live {body : List Byte} {xs : List (Nat × PlanEntry)} (hsub : ∀ x ∈ xs, x ∈ liveOf body) (need : Nat × PlanEntry → NeedClass) :
    ImagesDiffer (xs.map (candidateOf need)) := by
  intro a ha b hb himage
  obtain ⟨x, hx, rfl⟩ := List.mem_map.mp ha
  obtain ⟨y, hy, rfl⟩ := List.mem_map.mp hb
  have hnodup : ((liveOf body).map (fun x => x.2.image)).Nodup :=
    List.pairwise_map.mpr ((liveFrom_pairwise 0 [] _).imp fun h => image_ne_of_not_clashes h.2)
  rw [List.inj_on_of_nodup_map hnodup (hsub x hx) (hsub y hy) himage]

/-- R11. An admission run over candidates made of live entries keeps the counts. -/
theorem takeIn_counts {c : Chip} {passes : List (Nat × PlanEntry)} (hsub : ∀ x ∈ passes, x ∈ liveEntries c) (need : Nat × PlanEntry → NeedClass) :
    KeepsCounts c (takeIn (passes.map (candidateOf need)) c) := by
  have hset := admittedSet_map need (liveOf_pairwise c.plans.body) hsub
  have hdiffer : ImagesDiffer (admittedSet (liveEntries c) (passes.map (candidateOf need))) := by
    rw [liveEntries, hset]
    exact imagesDiffer_of_live (fun x hx => List.mem_of_mem_filter hx) need
  exact (applyAdmission_counts hdiffer c).trans (SameHoldings.keeps (by simp [takeIn, SameHoldings]))

theorem admission_counts (c : Chip) : KeepsCounts c (admission c) := by
  rw [admission, admissionOrder_eq]
  exact takeIn_counts admissionPasses_subset _

theorem startAdmission_counts (c : Chip) : KeepsCounts c (startAdmission c) := by
  rw [startAdmission_eq]
  exact takeIn_counts (fun _ hx => hx) _

end Sys2Proof.Machine
end

