-- ==== Sys2Proof/Proofs/HolderCountsKept.lean ====
section
/-!
SUPPORT. Exact holder counts and tracked lists through every command (R24, R25, R29).
-/
namespace Sys2Proof.Machine

/-! ## Received frames (R80) -/

theorem onReply_counts {effect : Chip → Chip} (h : ∀ c, KeepsCounts c (effect c)) (sender asker : Nat) (k : ImageKey) (seg : Nat) (c : Chip) :
    KeepsCounts c (onReply effect sender asker k seg c) := by
  unfold onReply
  split
  exacts [(h c).trans (demandSwitch_holdings _ _ _).keeps, .refl c]

theorem onBusy_counts (unknown : Bool) (f : RxFrame) (c : Chip) : KeepsCounts c (onBusy unknown f c) := by
  have hmark : ∀ b : Bool, KeepsCounts c (if b then markBusy f.sender c else c) := fun b => by
    split
    exacts [(markBusy_holdings _ _).keeps, .refl c]
  exact (hmark _).trans (onReply_counts (fun c => (markBusy_holdings _ c).keeps) _ _ _ _ _)

theorem adoptPlan_counts (body : List Byte) (c : Chip) : KeepsCounts c (adoptPlan body c) := by
  have hbody : SameHoldings c { persistRequest { c with plans.body := body } with plans.relayPending := true } := by simp [SameHoldings]
  have hunits : ∀ d, SameHoldings d (report .planAdopted (.number (planAuthor body)) (inertCount (replanUnits d)) (replanUnits d)) := fun d => by
    simp [SameHoldings]
  exact (hbody.keeps.trans (admission_counts _)).trans (hunits _).keeps

theorem onPlan_counts (originFlag : Bool) (payload : List Byte) (c : Chip) : KeepsCounts c (onPlan originFlag payload c) := by
  unfold onPlan
  split
  · split
    · split
      exacts [adoptPlan_counts _ c, .refl c]
    · exact .refl c
  · exact .refl c

/-- R80. A received frame: what presence, the frame's owner and the comparison keep. -/
theorem receive_counts {owner : RxFrame → Chip → Chip} (h : ∀ f c, KeepsCounts c (owner f c)) (kind : FrameKind) (frame : List Byte) (c : Chip) :
    KeepsCounts c (receive kind owner frame c) := by
  unfold receive
  split
  · exact .refl c
  · split
    · exact .refl c
    · next f _ =>
      split
      exacts [((presence_counts f c).trans (h f _)).trans (compareSerial_holdings f _).keeps, .refl c]

/-! ## The census and the cabin line (R119, R134) -/

theorem completeCensus_counts (c : Chip) : KeepsCounts c (completeCensus c) := by
  have hafter : ∀ d, SameHoldings d (selectUnits (askSelection d)) := fun d => selectUnits_holdings (askSelection d)
  unfold completeCensus
  exact KeepsCounts.trans (SameHoldings.keeps (by simp [SameHoldings])) ((admission_counts _).trans (hafter _).keeps)

theorem surveyNext_counts (c : Chip) : KeepsCounts c (surveyNext c) := by
  unfold surveyNext
  split
  · exact SameHoldings.keeps (by simp [SameHoldings])
  · exact KeepsCounts.trans (SameHoldings.keeps (by simp [SameHoldings])) (completeCensus_counts _)

theorem censusOutcome_counts (o : LineOutcome) (c : Chip) : KeepsCounts c (censusOutcome o c) := by
  have surveyed : ∀ d, SameHoldings c d → KeepsCounts c (surveyNext d) := fun d h => h.keeps.trans (surveyNext_counts d)
  unfold censusOutcome
  cases o with
  | completed bytes =>
    dsimp only
    split <;> exact surveyed _ (by simp [SameHoldings])
  | absent => exact surveyed c (.refl c)
  | refused => exact surveyed _ (reportIdentity_holdings 2 c)
  | contended =>
    dsimp only
    split <;> exact SameHoldings.keeps (by simp [SameHoldings])
  | lineFault => exact (abandonCensus_holdings 2 c).keeps
  | holdTimeout =>
    dsimp only
    split
    · exact SameHoldings.keeps (by simp [SameHoldings])
    · exact surveyed _ (reportIdentity_holdings 3 c)

theorem deliver_counts (q : CurrentRequest) (o : LineOutcome) (c : Chip) : KeepsCounts c (deliver q o c) := by
  unfold deliver
  split
  · exact .refl c
  · split
    exacts [censusOutcome_counts o c, (jobOutcome_holdings _ o c).keeps, (probationOutcome_holdings _ o c).keeps]

theorem transactionEnds_counts (nak : Option Nat) (received : List Byte) (c : Chip) : KeepsCounts c (transactionEnds nak received c) := by
  unfold transactionEnds
  split
  exacts [.refl c, (leaveLine_holdings _ c).keeps.trans (deliver_counts _ _ _)]

theorem arbitrationLoss_counts (c : Chip) : KeepsCounts c (arbitrationLoss c) := by
  unfold arbitrationLoss
  split
  · exact .refl c
  · split
    exacts [(loseLine_holdings _ c).keeps, (loseLine_holdings _ c).keeps.trans (deliver_counts _ _ _)]

theorem lineFault_counts (wire : Wire) (c : Chip) : KeepsCounts c (lineFault wire c) := by
  unfold lineFault
  split
  · exact .refl c
  · exact KeepsCounts.trans (SameHoldings.keeps (by simp [SameHoldings])) (deliver_counts _ _ _)

theorem holdTimeout_counts (heldMs : Nat) (c : Chip) : KeepsCounts c (holdTimeout heldMs c) := by
  unfold holdTimeout
  split
  · exact .refl c
  · split
    exacts [(recoverLine_holdings c).keeps.trans (deliver_counts _ _ _), .refl c]

/-! ## The start and its scan (R108 to R112, R184) -/

/-- R184. After a start there are no records of peers or images. -/
theorem startPart_counts (pins : Pins) (detail : Nat) (c : Chip) : KeepsCounts c (startPart pins detail c) := fun _ _ =>
  ⟨fun _ h => (List.not_mem_nil h).elim, fun _ h => (List.not_mem_nil h).elim⟩

theorem planCopyRead_counts (c : Chip) : KeepsCounts c (planCopyRead c) := by
  unfold planCopyRead
  split
  · dsimp only
    split
    · exact SameHoldings.keeps (by simp [SameHoldings])
    · have hrestored : SameHoldings c (restorePlan (freeDevice c)) := by simp [restorePlan, SameHoldings]
      exact (hrestored.keeps.trans (startAdmission_counts _)).trans (SameHoldings.keeps ⟨rfl, rfl⟩)
  · exact .refl c

theorem manifestRead_counts (c : Chip) : KeepsCounts c (manifestRead c) := by
  unfold manifestRead
  split
  · dsimp only
    split
    · exact SameHoldings.keeps (by simp [SameHoldings])
    · split
      · exact SameHoldings.keeps (by simp [SameHoldings])
      · next f _ =>
        have hdropped : SameHoldings c (dropFinding f (freeDevice c)) := by simp [SameHoldings]
        refine KeepsCounts.trans ?_ (manifestPhase_holdings _).keeps
        split
        exacts [hdropped.keeps.trans (holdSegment_counts _ _ _ _), (hdropped.trans (release_holdings _ _)).keeps]
  · exact .refl c

/-! ## Other events -/

theorem headerDone_counts (c : Chip) : KeepsCounts c (headerDone c) := by
  unfold headerDone
  split
  · dsimp only
    split
    · next q _ =>
      split
      · exact SameHoldings.keeps (by simp [SameHoldings])
      · exact KeepsCounts.trans (KeepsCounts.trans (SameHoldings.keeps (by simp [SameHoldings])) (holdSegment_counts _ _ _ _))
          (endCheckedLoad_holdings _ _ _).keeps
    · exact SameHoldings.keeps (by simp [SameHoldings])
  · exact .refl c

theorem peerExpires_counts (id : Nat) (c : Chip) : KeepsCounts c (peerExpires id c) := by
  unfold peerExpires
  split
  · split
    exacts [(removePeer_counts id c).trans (switchAway_holdings id _).keeps, .refl c]
  · exact .refl c

theorem lineReleased_counts (c : Chip) : KeepsCounts c (lineReleased c) := by
  have hafter : ∀ n d, SameHoldings d (report .returned .none n (noticeChanged d)) := fun n d => noticeChanged_holdings d
  unfold lineReleased
  split
  · exact KeepsCounts.trans (SameHoldings.keeps (by simp [SameHoldings])) ((emptyPeers_counts _).trans (hafter _ _).keeps)
  · exact .refl c

theorem onLoadPlan_counts (serial : Word32) (count : Byte) (entries : List Byte) (c : Chip) : KeepsCounts c (onLoadPlan serial count entries c) := by
  have hsay : ∀ st d, KeepsCounts d (say st 0x10 d) := fun st d => (say_holdings st 0x10 d).keeps
  unfold onLoadPlan originOnly handled
  split
  · exact SameHoldings.keeps (by simp [SameHoldings])
  · dsimp only
    split
    · exact hsay _ c
    · split
      · exact hsay _ c
      · split
        exacts [hsay _ c, (adoptPlan_counts _ c).trans (hsay _ _)]

/-! ## Every command -/

/-- R24, R25. Before what it sets going, a command's own effect keeps exact counts and tracked lists. -/
theorem exec_counts (i : Instr) (s : State) : ∃ d, exec i s = .next { s with chip := settle d } ∧ KeepsCounts s.chip d := by
  cases i with
  | powerOn pins => exact ⟨_, rfl, startPart_counts _ _ _⟩
  | restartSelectRelease =>
    refine ⟨_, rfl, ?_⟩
    dsimp only
    split
    exacts [startPart_counts _ _ _, .refl _]
  | offer frame => exact ⟨_, rfl, receive_counts (fun f c => mergeOffer_counts _ _ c) _ _ _⟩
  | ask frame => exact ⟨_, rfl, receive_counts (fun f c => (onAsk_holdings _ _ c).keeps) _ _ _⟩
  | block frame => exact ⟨_, rfl, receive_counts (fun f c => (onBlock_holdings _ _ c).keeps) _ _ _⟩
  | lacking frame => exact ⟨_, rfl, receive_counts (fun f c => onReply_counts (withdrawSegment_counts _ _ _) _ _ _ _ c) _ _ _⟩
  | refused frame => exact ⟨_, rfl, receive_counts (fun f c => onReply_counts (withdrawImage_counts _ _) _ _ _ _ c) _ _ _⟩
  | busy frame => exact ⟨_, rfl, receive_counts (fun f c => onBusy_counts _ f c) _ _ _⟩
  | plan frame => exact ⟨_, rfl, receive_counts (fun f c => onPlan_counts _ _ c) _ _ _⟩
  | planAsk frame => exact ⟨_, rfl, receive_counts (fun f c => (onPlanAsk_holdings _ c).keeps) _ _ _⟩
  | beacon frame => exact ⟨_, rfl, receive_counts (fun f c => (onBeacon_holdings f c).keeps) _ _ _⟩
  | leave frame => exact ⟨_, rfl, receive_counts (fun f c => announceDeparture_counts _ c) _ _ _⟩
  | fetchTimerExpiry slot => exact ⟨_, rfl, (fetchTimerExpires_holdings slot _).keeps⟩
  | fetchBlockProgramComplete => exact ⟨_, rfl, (fetchBlockDone_holdings _).keeps⟩
  | fetchBlockProgramFailed => exact ⟨_, rfl, (fetchBlockFailed_holdings _).keeps⟩
  | claimProgramComplete => exact ⟨_, rfl, (claimDone_holdings _).keeps⟩
  | claimProgramFailed => exact ⟨_, rfl, (claimFailed_holdings _).keeps⟩
  | coolingEnd image segment => exact ⟨_, rfl, (coolingEnds_holdings image segment _).keeps⟩
  | checkReadComplete => exact ⟨_, rfl, (checkReadDone_holdings _).keeps⟩
  | headerProgramComplete => exact ⟨_, rfl, headerDone_counts _⟩
  | headerProgramFailed => exact ⟨_, rfl, (headerFailed_holdings _).keeps⟩
  | serveReadComplete => exact ⟨_, rfl, (serveRead_holdings _).keeps⟩
  | slotEraseComplete => exact ⟨_, rfl, (slotErased_holdings _).keeps⟩
  | slotEraseFailed => exact ⟨_, rfl, (slotEraseFailed_holdings _).keeps⟩
  | slotEraseMarkProgramComplete => exact ⟨_, rfl, (eraseMarked_holdings _).keeps⟩
  | slotEraseMarkProgramFailed => exact ⟨_, rfl, (eraseMarkFailed_holdings _).keeps⟩
  | retiredMarkProgramEnd completed => exact ⟨_, rfl, (retiredMarkEnded_holdings completed _).keeps⟩
  | configReadComplete => exact ⟨_, rfl, (configRead_holdings _).keeps⟩
  | planCopyReadComplete => exact ⟨_, rfl, planCopyRead_counts _⟩
  | sweepReadComplete => exact ⟨_, rfl, (sweepRead_holdings _).keeps⟩
  | manifestReadComplete => exact ⟨_, rfl, manifestRead_counts _⟩
  | planCopyProgramComplete => exact ⟨_, rfl, (planProgrammed_holdings _).keeps⟩
  | planCopyProgramFailed => exact ⟨_, rfl, (planProgramFailed_holdings _).keeps⟩
  | planCopyEraseComplete => exact ⟨_, rfl, (planErased_holdings _).keeps⟩
  | planCopyEraseFailed => exact ⟨_, rfl, (planEraseFailed_holdings _).keeps⟩
  | commissionEraseComplete => exact ⟨_, rfl, (commissionErased_holdings _).keeps⟩
  | commissionEraseFailed => exact ⟨_, rfl, (commissionEraseFailed_holdings _).keeps⟩
  | commissionProgramComplete => exact ⟨_, rfl, (commissioned_holdings _).keeps⟩
  | commissionProgramFailed => exact ⟨_, rfl, (commissionProgramFailed_holdings _).keeps⟩
  | loadBlockProgramComplete => exact ⟨_, rfl, (loadBlockDone_holdings _).keeps⟩
  | loadBlockProgramFailed => exact ⟨_, rfl, (loadBlockFailed_holdings _).keeps⟩
  | transmissionEnd => exact ⟨_, rfl, (transmissionEnds_holdings _).keeps⟩
  | channelBusyRise => exact ⟨_, rfl, (busyRise_holdings _).keeps⟩
  | channelBusyFall => exact ⟨_, rfl, (busyFall_holdings _).keeps⟩
  | gapElapsed => exact ⟨_, rfl, (gapElapsed_holdings _).keeps⟩
  | deferSlotElapsed => exact ⟨_, rfl, (deferElapsed_holdings _).keeps⟩
  | countdownSlotElapsed => exact ⟨_, rfl, (countdownElapsed_holdings _).keeps⟩
  | allowanceWindowOpen => exact ⟨_, rfl, (openWindow_holdings _).keeps⟩
  | offerRoundExpiry => exact ⟨_, rfl, (roundExpires_holdings _).keeps⟩
  | peerExpiry station => exact ⟨_, rfl, peerExpires_counts station _⟩
  | shunEnd station => exact ⟨_, rfl, (shunEnds_holdings station _).keeps⟩
  | busyMarkEnd station => exact ⟨_, rfl, (busyMarkEnds_holdings station _).keeps⟩
  | beaconTimerExpiry => exact ⟨_, rfl, (beaconExpires_holdings _).keeps⟩
  | freeRunningTimeout => exact ⟨_, rfl, (freeRun_holdings _).keeps⟩
  | notBeforeReached address => exact ⟨_, rfl, (notBeforeReached_holdings address _).keeps⟩
  | departureLineEdge asserted => exact ⟨_, rfl, (lineEdge_holdings asserted _).keeps⟩
  | departureLineAsserted => exact ⟨_, rfl, (lineAsserted_holdings _).keeps⟩
  | leaveTimerExpiry => exact ⟨_, rfl, (leaveExpires_holdings _).keeps⟩
  | departureLineReleased => exact ⟨_, rfl, lineReleased_counts _⟩
  | lineWireChange clock data => exact ⟨_, rfl, (wireChange_holdings clock data _).keeps⟩
  | lineQuietElapsed => exact ⟨_, rfl, (quietElapsed_holdings _).keeps⟩
  | cabinTransactionEnd unacknowledged received => exact ⟨_, rfl, transactionEnds_counts _ _ _⟩
  | arbitrationLoss => exact ⟨_, rfl, arbitrationLoss_counts _⟩
  | lineFault wire => exact ⟨_, rfl, lineFault_counts wire _⟩
  | holdTimeout heldMs => exact ⟨_, rfl, holdTimeout_counts heldMs _⟩
  | recoveringClockReleased => exact ⟨_, rfl, (recovered_holdings _).keeps⟩
  | lineStuckTimeout => exact ⟨_, rfl, (reportStuck_holdings _).keeps⟩
  | censusPauseEnd => exact ⟨_, rfl, (censusPauseEnd_holdings _).keeps⟩
  | censusHoldoffEnd => exact ⟨_, rfl, (censusBegin_holdings _).keeps⟩
  | jobPauseEnd => exact ⟨_, rfl, (jobPauseEnd_holdings _).keeps⟩
  | flasherReadComplete => exact ⟨_, rfl, (flasherRead_holdings _).keeps⟩
  | probationPollDue address => exact ⟨_, rfl, (pollDue_holdings address _).keeps⟩
  | finalReadDue address => exact ⟨_, rfl, (finalDue_holdings address _).keeps⟩
  | probationRepeatDue address => exact ⟨_, rfl, (repeatDue_holdings address _).keeps⟩
  | status => exact ⟨_, rfl, (onStatus_holdings _).keeps⟩
  | readUnits => exact ⟨_, rfl, (onReadUnits_holdings _).keeps⟩
  | readCatalog position firstSegment => exact ⟨_, rfl, (onReadCatalog_holdings position firstSegment _).keeps⟩
  | readReports sequence => exact ⟨_, rfl, (onReadReports_holdings sequence _).keeps⟩
  | setDeparture seconds => exact ⟨_, rfl, (onSetDeparture_holdings seconds _).keeps⟩
  | clearDeparture => exact ⟨_, rfl, (onClearDeparture_holdings _).keeps⟩
  | census => exact ⟨_, rfl, (onCensus_holdings _).keeps⟩
  | restart => exact ⟨_, rfl, (onRestart_holdings _).keeps⟩
  | commission record => exact ⟨_, rfl, (onCommission_holdings record _).keeps⟩
  | loadPlan serial count entries => exact ⟨_, rfl, onLoadPlan_counts serial count entries _⟩
  | loadSegmentOpen id version segment slot => exact ⟨_, rfl, (onLoadOpen_holdings id version segment slot _).keeps⟩
  | loadBlock index data => exact ⟨_, rfl, (onLoadBlock_holdings index data _).keeps⟩
  | loadSegmentClose mode => exact ⟨_, rfl, (onLoadClose_holdings mode _).keeps⟩
  | badCommandFrame frame => exact ⟨_, rfl, (onBadFrame_holdings frame _).keeps⟩
  | exchangeDiscarded => exact ⟨id s.chip, rfl, .refl _⟩

/-- Settles O57, by what each command's own effect and then settling keep; a tick touches neither table. -/
theorem holderCountsStayExact : Obligations.HolderCountsStayExact := by
  unfold Obligations.HolderCountsStayExact
  intro s t hexact htracked hstep
  unfold step at hstep
  split at hstep
  · obtain rfl : tick s = t := Host.Outcome.next.inj hstep
    have hsame : SameHoldings s.chip (tick s).chip := ⟨rfl, rfl⟩
    exact hsame.keeps hexact htracked
  · next i rest _ =>
    obtain ⟨d, hrun, hkeeps⟩ := exec_counts i { s with pending := rest }
    obtain rfl := Host.Outcome.next.inj (hrun.symm.trans hstep)
    exact (hkeeps.trans (settle_holdings d).keeps) hexact htracked

end Sys2Proof.Machine
end

