-- ==== Sys2Proof/Proofs/SwitchedFetches.lean ====
section
/-!
SUPPORT. The holder chosen for a segment (R43), and how every open fetch leaves a station that departs or expires (R23, R30, R56), also through what is set
going after it.
-/
namespace Sys2Proof.Machine

/-! ## The holder chosen (R43) -/

/-- R43. A holder is preferred: the higher estimate, and at equal estimates the lower station id. -/
def Preferred (p q : PeerRecord) : Prop := q.estimate < p.estimate ∨ (q.estimate = p.estimate ∧ p.id ≤ q.id)

theorem betterHolder_does (p q : PeerRecord) :
    (betterHolder p q = p ∨ betterHolder p q = q) ∧ Preferred (betterHolder p q) p ∧ Preferred (betterHolder p q) q := by
  unfold betterHolder Preferred
  (repeat' split) <;> simp <;> omega

theorem bestHolder_some {l : List PeerRecord} {p : PeerRecord} (h : bestHolder l = some p) : p ∈ l ∧ ∀ q ∈ l, Preferred p q := by
  induction l generalizing p with
  | nil => cases h
  | cons x xs ih =>
    unfold bestHolder at h
    split at h
    · next hnone =>
      obtain rfl := Option.some.inj h
      cases xs with
      | nil => exact ⟨by simp, by simp [Preferred]⟩
      | cons y ys =>
        unfold bestHolder at hnone
        split at hnone <;> cases hnone
    · next q hq =>
      obtain rfl := Option.some.inj h
      obtain ⟨hmem, hbest⟩ := ih hq
      obtain ⟨hwhich, hx, hrest⟩ := betterHolder_does x q
      refine ⟨?_, fun y hy => ?_⟩
      · rcases hwhich with e | e <;> rw [e]
        exacts [by simp, List.mem_cons_of_mem _ hmem]
      · rcases List.mem_cons.mp hy with rfl | hy
        · exact hx
        · have := hbest y hy
          unfold Preferred at *
          omega

theorem bestHolder_eq_none {l : List PeerRecord} : bestHolder l = none ↔ l = [] := by
  cases l with
  | nil => simp [bestHolder]
  | cons x xs =>
    unfold bestHolder
    split <;> simp

/-- R43, R56. The holder chosen is an eligible one other than the peer it is to replace. -/
theorem chooseHolder_some {c : Chip} {k : ImageKey} {seg : Nat} {besides : Option Nat} {p : PeerRecord} (h : chooseHolder c k seg besides = some p) :
    p ∈ c.peers ∧ eligible k seg p = true ∧ some p.id ≠ besides := by
  obtain ⟨hp, htest⟩ := List.mem_filter.mp (bestHolder_some h).1
  simp only [Bool.and_eq_true, bne_iff_ne] at htest
  exact ⟨hp, htest⟩

/-! ## One slot's switch (R56, R57) -/

/-- R30. The fetch slot is not open on the station, unless it owes its switch. -/
def AwayFrom (station : Nat) (v : FetchSlot) : Prop := ∀ f, v = .opened f → f.peer = station → f.switchOwed = true

theorem switchedFrom_iff (c : Chip) (station : Nat) : SwitchedFrom c station ↔ ∀ i < 4, AwayFrom station (fetchSlot c i) := Iff.rfl

theorem abandonFetch_slots (i detail : Nat) (x : OpenFetch) (c : Chip) : (abandonFetch i detail x c).fetch.slots = c.fetch.slots.set i .free := by
  rw [abandonFetch, report_fetch, (setSegState_slots _ _ _ _).1, (release_unmoved _ _).2.1, (freeFetch_does _ _ _ _).1]

theorem moveToPeer_others {i j : Nat} (h : j ≠ i) (x : OpenFetch) (p : PeerRecord) (c : Chip) : fetchSlot (moveToPeer i x p c) j = fetchSlot c j := by
  unfold moveToPeer
  rw [(queueAsk_others h _).1, fetchSlot_setFetchSlot_ne h]
  exact fetchSlot_of_slots (by simp [raiseOpen, lowerOpen_store]) j

/-- R56, R57. The slot moves to another peer or becomes FREE; the other slots and the peers' bodies stand. -/
theorem switchFetch_does {c : Chip} {i : Nat} {x : OpenFetch} (h : fetchSlot c i = .opened x) :
    AwayFrom x.peer (fetchSlot (switchFetch i c) i) ∧ (∀ j ≠ i, fetchSlot (switchFetch i c) j = fetchSlot c j) ∧
      (switchFetch i c).peers.map peerBody = c.peers.map peerBody := by
  have hi := fetchSlot_opened_lt h
  cases hholder : nextHolder x c with
  | some p =>
    have hne : p.id ≠ x.peer := by
      unfold nextHolder at hholder
      split at hholder
      · exact fun e => (chooseHolder_some hholder).2.2 (by rw [e])
      · cases hholder
    obtain ⟨hslot, _, hbodies⟩ := moveToPeer_does hi x p
    rw [switchFetch_of_some h hholder]
    refine ⟨fun f hf hpeer => ?_, fun j hj => moveToPeer_others hj x p c, hbodies⟩
    rw [hslot] at hf
    cases hf
    exact absurd hpeer hne
  | none =>
    rw [switchFetch_of_none h hholder]
    have hslots := abandonFetch_slots i (if x.switches < 3 then 2 else 1) x c
    have hslot := fetchSlot_of_set hslots hi
    have hfree := (hslot i).trans (if_pos rfl)
    exact ⟨fun f hf => (by rw [hfree] at hf; cases hf), fun j hj => (hslot j).trans (if_neg hj), (abandonFetch_does i _ x c).2.1⟩

/-- R56. A demanded switch is made or owed; the other slots and the peers' bodies stand. -/
theorem demandSwitch_does (i : Nat) (owes : Bool) (c : Chip) :
    (owes = true → ∀ x, fetchSlot c i = .opened x → AwayFrom x.peer (fetchSlot (demandSwitch i owes c) i)) ∧
      (∀ j ≠ i, fetchSlot (demandSwitch i owes c) j = fetchSlot c j) ∧ (demandSwitch i owes c).peers.map peerBody = c.peers.map peerBody := by
  unfold demandSwitch
  split
  · next x hx =>
    split
    · split
      · refine ⟨fun _ y _ f hf _ => ?_, fun j hj => fetchSlot_setFetchSlot_ne hj _ c, rfl⟩
        rw [fetchSlot_setFetchSlot (fetchSlot_opened_lt hx)] at hf
        cases hf
        rfl
      · next howes => exact ⟨fun h => absurd h howes, fun _ _ => rfl, rfl⟩
    · obtain ⟨haway, hothers, hbodies⟩ := switchFetch_does hx
      refine ⟨fun _ y hy => ?_, hothers, hbodies⟩
      obtain rfl : x = y := FetchSlot.opened.inj (hx.symm.trans hy)
      exact haway
  · next hnot => exact ⟨fun _ x hx => absurd hx (hnot x), fun _ _ => rfl, rfl⟩

/-! ## All slots (R23, R30) -/

/-- R23. The turn of one fetch slot when a station's fetches are to switch. -/
def switchTurn (station i : Nat) (c : Chip) : Chip := if openOn c i station then demandSwitch i true c else c

theorem switchAway_eq (station : Nat) (c : Chip) : switchAway station c = forEach [0, 1, 2, 3] (switchTurn station) c := rfl

theorem switchTurn_does (station i : Nat) (c : Chip) :
    AwayFrom station (fetchSlot (switchTurn station i c) i) ∧ (∀ j ≠ i, fetchSlot (switchTurn station i c) j = fetchSlot c j) ∧
      (switchTurn station i c).peers.map peerBody = c.peers.map peerBody := by
  unfold switchTurn openOn
  cases hslot : fetchSlot c i with
  | opened x =>
    obtain ⟨haway, hothers, hbodies⟩ := demandSwitch_does i true c
    by_cases hpeer : x.peer = station
    · simp only [hpeer, beq_self_eq_true, if_true]
      exact ⟨hpeer ▸ haway rfl x hslot, hothers, hbodies⟩
    · simp only [beq_iff_eq, hpeer, if_false, hslot]
      exact ⟨fun f hf hp => absurd (FetchSlot.opened.inj hf ▸ hp) hpeer, by simp, by simp⟩
  | free => exact ⟨fun f hf => by simp [hslot] at hf, fun _ _ => rfl, by simp⟩
  | checking y => exact ⟨fun f hf => by simp [hslot] at hf, fun _ _ => rfl, by simp⟩

theorem switchTurns_away (station : Nat) (xs : List Nat) {j : Nat} {c : Chip} (h : j ∈ xs ∨ AwayFrom station (fetchSlot c j)) :
    AwayFrom station (fetchSlot (forEach xs (switchTurn station) c) j) := by
  induction xs generalizing c with
  | nil => exact h.resolve_left (List.not_mem_nil)
  | cons i xs ih =>
    obtain ⟨haway, hothers, _⟩ := switchTurn_does station i c
    refine ih (c := switchTurn station i c) ?_
    by_cases hj : j = i
    · exact .inr (hj ▸ haway)
    · rcases h with h | h
      · exact .inl (List.mem_of_ne_of_mem hj h)
      · exact .inr (by rwa [hothers j hj])

/-- R23, R30. No fetch stays open on the station but one that owes its switch. -/
theorem switchAway_switchedFrom (station : Nat) (c : Chip) : SwitchedFrom (switchAway station c) station := by
  rw [switchedFrom_iff]
  intro i hi
  rw [switchAway_eq]
  exact switchTurns_away station _ (.inl (by simp; omega))

theorem switchAway_bodies (station : Nat) (c : Chip) : (switchAway station c).peers.map peerBody = c.peers.map peerBody := by
  rw [switchAway_eq]
  exact forEach_same (g := fun c => c.peers.map peerBody) (fun i _ c => (switchTurn_does station i c).2.2) c

/-! ## Settling keeps away from a station that is no holder (R33) -/

/-- R30, R33. Every record of the station is marked as departing, so that none is an eligible holder. -/
def NoHolder (station : Nat) (c : Chip) : Prop := ∀ q ∈ c.peers, q.id = station → q.departing = true

theorem NoHolder.of_bodies {station : Nat} {c d : Chip} (h : d.peers.map peerBody = c.peers.map peerBody) (hc : NoHolder station c) : NoHolder station d := by
  intro q hq hid
  have hmem : peerBody q ∈ c.peers.map peerBody := h ▸ List.mem_map_of_mem hq
  obtain ⟨p, hp, e⟩ := List.mem_map.mp hmem
  have hdeparting : p.departing = q.departing := show (peerBody p).departing = (peerBody q).departing by rw [e]
  have hsame : p.id = q.id := show (peerBody p).id = (peerBody q).id by rw [e]
  exact hdeparting ▸ hc p hp (hsame.trans hid)

theorem NoHolder.ne_chosen {station : Nat} {c : Chip} (h : NoHolder station c) {k : ImageKey} {seg : Nat} {besides : Option Nat} {p : PeerRecord}
    (hp : chooseHolder c k seg besides = some p) : p.id ≠ station := by
  intro hid
  obtain ⟨hmem, heligible, _⟩ := chooseHolder_some hp
  simp [eligible, h p hmem hid] at heligible

section
variable {R : Chip → Chip → Prop}

/-- R40, R43, R47. A selection run is made of openings, each with the holder chosen, and of evictions; here what leaves the peers' bodies alone as well is
known to be kept. -/
theorem runSelection_made (trans : ∀ {c d e}, R c d → R d e → R c e)
    (still : ∀ {c d}, Stands c d → Unmoved c d → d.peers.map peerBody = c.peers.map peerBody → R c d)
    (opens : ∀ c i slot x p, freeSlot c = some i → chooseHolder c x.image x.segment none = some p → R c (openFetch i slot x p c))
    (evicts : ∀ c priv v, v ∈ evictables c priv → R c (evictSegment v.image v.segment v.slot c)) (c : Chip) : R c (runSelection c) := by
  have same : ∀ c, R c c := fun c => still (by simp [Stands]) (by simp [Unmoved]) rfl
  have short : ∀ x c, R c (dealShort x c) := fun x c =>
    dealShort_does (R := fun c d => d.peers.map peerBody = c.peers.map peerBody → R c d) (fun hs hu hb => still hs hu hb) (fun c priv v hv _ => evicts c priv v hv) x c
      (dealShort_adds x c).2.2
  have steps : ∀ n a b c, R c (selectionSteps n a b c) := by
    intro n
    induction n with
    | zero => exact fun _ _ c => same c
    | succ n ih =>
      intro a b c
      unfold selectionSteps
      split
      · exact same c
      · next i hi =>
        split
        · exact same c
        · next x hx =>
          split
          · next slot p _ hp => exact trans (opens c i slot x p hi hp) (ih _ _ _)
          · exact trans (short x c) (ih _ _ _)
          · exact same c
  have done : ∀ c, R c { c with fetch.selectionAsked := false } := fun c => still (by simp [Stands]) (by simp [Unmoved]) rfl
  unfold runSelection
  split
  · exact same c
  · dsimp only
    split
    exacts [trans (steps _ _ _ _) (done _), done c]

/-- Log 13. What a pass does after the selection. -/
def afterSelection (c : Chip) : Chip := accessWake (watchLine (lineBegin (jobPresent (storeRound (unitArbiter (censusBegin (serveTake c)))))))

theorem settlePass_eq (c : Chip) : settlePass c = afterSelection (runSelection (serveTake c)) := rfl

theorem afterSelection_bodies (c : Chip) : (afterSelection c).peers.map peerBody = c.peers.map peerBody := by
  have hbus : (afterSelection c).peers = (storeRound (unitArbiter (censusBegin (serveTake c)))).peers := by simp [afterSelection]
  have hserve : (censusBegin (serveTake c)).peers.map peerBody = c.peers.map peerBody := by
    rw [(censusBegin_silent _).2.2]
    exact (serveTake_adds c).2.2
  rw [hbus, (storeRound_adds _).2.2, (unitArbiter_adds _).2.2, hserve]

/-- Log 13. What selection keeps, and whatever leaves the standing part, the catalog, the fetch slots and the peers' bodies alone, settling keeps. -/
theorem settle_made (trans : ∀ {c d e}, R c d → R d e → R c e)
    (still : ∀ {c d}, Stands c d → Unmoved c d → d.peers.map peerBody = c.peers.map peerBody → R c d) (selects : ∀ c, R c (runSelection c)) (c : Chip) :
    R c (settle c) := by
  have pass : ∀ c, R c (settlePass c) := fun c => by
    rw [settlePass_eq]
    exact trans (still (d := serveTake c) (by simp [Stands]) (by simp [Unmoved]) (serveTake_adds c).2.2)
      (trans (selects _) (still (by simp [Stands, afterSelection]) (by simp [Unmoved, afterSelection]) (afterSelection_bodies _)))
  have attention : ∀ c, R c (driveAttention c) := fun c => still (by simp [Stands]) (by simp [Unmoved]) (by simp)
  exact trans (pass c) (trans (pass _) (attention _))

end

/-- Going from one chip to another, the peers' bodies stand, and a station that is no holder is kept away from. -/
def KeepsAway (station : Nat) (c d : Chip) : Prop :=
  d.peers.map peerBody = c.peers.map peerBody ∧ (NoHolder station c → SwitchedFrom c station → SwitchedFrom d station)

theorem KeepsAway.trans {station : Nat} {c d e : Chip} (h : KeepsAway station c d) (k : KeepsAway station d e) : KeepsAway station c e :=
  ⟨k.1.trans h.1, fun hn hs => k.2 (hn.of_bodies h.1) (h.2 hn hs)⟩

theorem SwitchedFrom.of_slots {station : Nat} {c d : Chip} (h : d.fetch.slots = c.fetch.slots) (hc : SwitchedFrom c station) : SwitchedFrom d station := by
  rw [switchedFrom_iff] at hc ⊢
  intro i hi
  rw [fetchSlot_of_slots h]
  exact hc i hi

theorem KeepsAway.of_slots {station : Nat} {c d : Chip} (hb : d.peers.map peerBody = c.peers.map peerBody) (h : d.fetch.slots = c.fetch.slots) :
    KeepsAway station c d := ⟨hb, fun _ hs => hs.of_slots h⟩

theorem leaveComplete_slots (k : ImageKey) (c : Chip) : (leaveComplete k c).fetch.slots = c.fetch.slots := by
  unfold leaveComplete
  split
  · simp
  · rfl

theorem evictSegment_slots (k : ImageKey) (seg slot : Nat) (c : Chip) : (evictSegment k seg slot c).fetch.slots = c.fetch.slots := by
  simp [evictSegment, leaveComplete_slots]

/-- R47. The open fetch that an opening makes. -/
def openedFor (slot : Nat) (x : Candidate) (p : PeerRecord) : OpenFetch :=
  { image := x.image, segment := x.segment, peer := p.id, counted := true, base := 0, bitmap := 0, reask := false, switches := 0,
    switchOwed := false, lastAsk := none, timer := none, windowStart := none, lastAccept := none, accepted := 0, storeSlot := slot,
    claimed := false }

/-- R47. What stands when the fetch slot is filled: the segment is FETCHING, its store slot FILLING, and the peer has one more open fetch. -/
def preparedFor (i slot : Nat) (x : Candidate) (p : PeerRecord) (c : Chip) : Chip :=
  raiseOpen p.id (setSegState x.image x.segment (.fetching slot) (allocate slot (.fetch i) c))

theorem openFetch_eq (i slot : Nat) (x : Candidate) (p : PeerRecord) (c : Chip) :
    openFetch i slot x p c = queueAsk i (setFetchSlot i (.opened (openedFor slot x p)) (preparedFor i slot x p c)) := rfl

theorem preparedFor_slots (i slot : Nat) (x : Candidate) (p : PeerRecord) (c : Chip) : (preparedFor i slot x p c).fetch.slots = c.fetch.slots := by
  simp [preparedFor]

/-- R47. The opening fills its fetch slot, and the other slots stand. -/
theorem openFetch_fills {i : Nat} {c : Chip} (hi : i < c.fetch.slots.length) (slot : Nat) (x : Candidate) (p : PeerRecord) :
    fetchSlot (openFetch i slot x p c) i = .opened (openedFor slot x p) ∧ (∀ j ≠ i, fetchSlot (openFetch i slot x p c) j = fetchSlot c j) ∧
      (c.yard.mode = .on → i ∈ (openFetch i slot x p c).fetch.asks) := by
  have hslots := preparedFor_slots i slot x p c
  have hmode : (preparedFor i slot x p c).yard.mode = c.yard.mode := by simp [preparedFor]
  have hset := fetchSlot_setFetchSlot (c := preparedFor i slot x p c) (hslots ▸ hi) (.opened (openedFor slot x p))
  obtain ⟨hopened, hasks⟩ := queueAsk_opened hset
  rw [openFetch_eq]
  refine ⟨hopened, fun j hj => ?_, fun hon => hasks (hmode.trans hon)⟩
  rw [(queueAsk_others hj _).1, fetchSlot_setFetchSlot_ne hj]
  exact fetchSlot_of_slots hslots j

theorem openFetch_bodies (i slot : Nat) (x : Candidate) (p : PeerRecord) (c : Chip) : (openFetch i slot x p c).peers.map peerBody = c.peers.map peerBody := by
  rw [openFetch_eq, queueAsk_peers]
  exact raiseOpen_bodies p.id _

theorem freeSlot_lt {c : Chip} {i : Nat} (h : freeSlot c = some i) : i < c.fetch.slots.length := (List.findIdx?_eq_some_iff_getElem.mp h).1

theorem openFetch_keepsAway {station i slot : Nat} {x : Candidate} {p : PeerRecord} {c : Chip} (hi : freeSlot c = some i)
    (hp : chooseHolder c x.image x.segment none = some p) : KeepsAway station c (openFetch i slot x p c) := by
  refine ⟨openFetch_bodies i slot x p c, fun hnone hs j hj f hf hpeer => ?_⟩
  obtain ⟨hfilled, hothers, _⟩ := openFetch_fills (freeSlot_lt hi) slot x p
  by_cases hji : j = i
  · rw [hji, hfilled] at hf
    cases hf
    exact absurd hpeer (hnone.ne_chosen hp)
  · rw [hothers j hji] at hf
    exact hs j hj f hf hpeer

/-- R30, R33. Settling opens no fetch on a station that is no holder. -/
theorem settle_keepsAway (station : Nat) (c : Chip) : KeepsAway station c (settle c) :=
  settle_made (R := KeepsAway station) .trans (fun _ hu hb => .of_slots hb hu.2.1)
    (runSelection_made (R := KeepsAway station) .trans (fun _ hu hb => .of_slots hb hu.2.1) (fun _ _ _ _ _ hi hp => openFetch_keepsAway hi hp)
      (fun c _ _ _ => .of_slots (evictSegment_adds _ _ _ c).2.2 (evictSegment_slots _ _ _ c))) c

end Sys2Proof.Machine
end

