-- ==== Sys2Proof/Proofs/PeerTimes.lean ====
section
/-!
SUPPORT. A peer's expiry, and the ends of its shunning and of its Busy mark (R23, R31, R32).
-/
namespace Sys2Proof.Machine

theorem removePeer_bodies (id : Nat) (c : Chip) : (removePeer id c).peers.map peerBody = (c.peers.map peerBody).filter (fun q => q.id != id) := by
  rw [removePeer_peers, List.filter_map]
  rfl

/-- R23, R25. A record past its time is removed, its fetches switch, and what is set going leaves that so. -/
theorem peerExpires_reached {c : Chip} {id : Nat} {p : PeerRecord} (hp : findPeer c id = some p) (hdue : p.lastHeard + 30000 ≤ c.now) :
    standing (settle (peerExpires id c)) = standing c ∧ findPeer (settle (peerExpires id c)) id = none ∧
      (settle (peerExpires id c)).peers.map peerBody = (c.peers.map peerBody).filter (fun q => q.id != id) ∧
      SwitchedFrom (settle (peerExpires id c)) id ∧ HoldersExact (settle (peerExpires id c)) := by
  have hrun : peerExpires id c = switchAway id (removePeer id c) := by simp [peerExpires, hp, reached, hdue]
  obtain ⟨hbodies, haway⟩ := settle_keepsAway id (switchAway id (removePeer id c))
  have hstands : standing (switchAway id (removePeer id c)) = standing c :=
    standing_of_stands (Apart.trans (removePeer_quiet id c).1 (switchAway_reports id _).1).1
  have hremoved := (switchAway_bodies id (removePeer id c)).trans (removePeer_bodies id c)
  have hnone : ∀ d : Chip, d.peers.map peerBody = (c.peers.map peerBody).filter (fun q => q.id != id) → ∀ q ∈ d.peers, q.id ≠ id := by
    intro d hd q hq hid
    have hmem : peerBody q ∈ (c.peers.map peerBody).filter (fun q => q.id != id) := hd ▸ List.mem_map_of_mem hq
    have : (peerBody q).id ≠ id := by simpa using (List.mem_filter.mp hmem).2
    exact this hid
  rw [hrun]
  refine ⟨(settle_standing _).trans hstands, findPeer_eq_none.mpr (hnone _ (hbodies.trans hremoved)), hbodies.trans hremoved,
    haway (fun q hq hid => absurd hid (hnone _ hremoved q hq)) (switchAway_switchedFrom id _), ?_⟩
  exact ((switchAway_holdings id _).trans (settle_holdings _)).holdersExact (removePeer_exact id c)

/-- R31, R32. A change of a part of one peer's body that does not count its open fetches. -/
theorem updatePeer_bodies {f : PeerRecord → PeerRecord} (hf : ∀ p, peerBody (f p) = f (peerBody p)) (id : Nat) (c : Chip) :
    (updatePeer id f c).peers.map peerBody = (c.peers.map peerBody).map (fun q => if q.id = id then f q else q) := by
  rw [updatePeer_peers, List.map_map, List.map_map]
  refine List.map_congr_left fun p _ => ?_
  simp only [Function.comp, apply_ite peerBody, hf]
  rfl

/-- R31, R32. The end of a mark on one peer changes that mark and asks for selection; what is set going leaves the bodies so. -/
theorem settle_markEnd {f : PeerRecord → PeerRecord} (hf : ∀ p, peerBody (f p) = f (peerBody p)) (id : Nat) (c : Chip) :
    standing (settle (askSelection (updatePeer id f c))) = standing c ∧
      (settle (askSelection (updatePeer id f c))).peers.map peerBody = (c.peers.map peerBody).map (fun q => if q.id = id then f q else q) :=
  ⟨(settle_standing _).trans rfl, (settle_adds _).2.2.trans (updatePeer_bodies hf id c)⟩

theorem due_iff (c : Chip) (u : Option Nat) : due c u = true ↔ ∃ t ∈ u, t ≤ c.now := by
  cases u <;> simp [due, reached]

/-- Settles O14, by the command's effect at its time and its lack of one before. -/
theorem peerTimesEnd : Obligations.PeerTimesEnd := by
  unfold Obligations.PeerTimesEnd
  intro s id p hp
  refine ⟨?_, ?_, ?_⟩
  · split
    · next hdue =>
      obtain ⟨hstands, hgone, hbodies, haway, hexact⟩ := peerExpires_reached hp hdue
      exact ⟨_, rfl, rfl, hstands, hgone, hbodies, haway, hexact⟩
    · next hearly =>
      have hrun : peerExpires id s.chip = s.chip := by simp [peerExpires, hp, reached, hearly]
      exact congrArg (fun c => Host.Outcome.next { s with chip := settle c }) hrun
  · split
    · next hdue =>
      have hrun : shunEnds id s.chip = askSelection (updatePeer id (fun p => { p with shunnedUntil := none }) s.chip) := by
        simp [shunEnds, hp, (due_iff _ _).mpr hdue]
      obtain ⟨hstands, hbodies⟩ := settle_markEnd (f := fun p => { p with shunnedUntil := none }) (by exact fun _ => rfl) id s.chip
      exact ⟨{ s with chip := settle (shunEnds id s.chip) }, rfl, rfl, hrun ▸ hstands, hrun ▸ hbodies⟩
    · next hearly =>
      have hrun : shunEnds id s.chip = s.chip := by
        simp only [shunEnds, hp, Bool.eq_false_iff.mpr (mt (due_iff s.chip p.shunnedUntil).mp hearly)]
        rfl
      exact congrArg (fun c => Host.Outcome.next { s with chip := settle c }) hrun
  · split
    · next hdue =>
      have hrun : busyMarkEnds id s.chip = askSelection (updatePeer id (fun p => { p with busyUntil := none }) s.chip) := by
        simp [busyMarkEnds, hp, (due_iff _ _).mpr hdue]
      obtain ⟨hstands, hbodies⟩ := settle_markEnd (f := fun p => { p with busyUntil := none }) (by exact fun _ => rfl) id s.chip
      exact ⟨{ s with chip := settle (busyMarkEnds id s.chip) }, rfl, rfl, hrun ▸ hstands, hrun ▸ hbodies⟩
    · next hearly =>
      have hrun : busyMarkEnds id s.chip = s.chip := by
        simp only [busyMarkEnds, hp, Bool.eq_false_iff.mpr (mt (due_iff s.chip p.busyUntil).mp hearly)]
        rfl
      exact congrArg (fun c => Host.Outcome.next { s with chip := settle c }) hrun

end Sys2Proof.Machine
end

