-- ==== Sys2Proof/Proofs/SenderRecords.lean ====
section
/-!
SUPPORT. The record of a frame's sender (R21, R30): what presence makes of it, and what the frame's owner, the comparison of its serial and settling leave
of it.
-/
namespace Sys2Proof.Machine

/-! ## One station's record, and the others' -/

/-- Where two tables agree in a part of the records that shows the station id, they agree in that part of a station's record. -/
theorem findPeer_of_map {α : Type} {g : PeerRecord → α} {key : α → Nat} (hkey : ∀ p, key (g p) = p.id) {c d : Chip} (h : d.peers.map g = c.peers.map g)
    (id : Nat) : (findPeer d id).map g = (findPeer c id).map g := by
  have shown : ∀ ps : List PeerRecord, (ps.find? (fun p => p.id == id)).map g = (ps.map g).find? (fun a => key a == id) := fun ps => by
    rw [List.find?_map]
    simp [hkey]
  unfold findPeer
  rw [shown, shown, h]

theorem findPeer_of_bodies {c d : Chip} (h : d.peers.map peerBody = c.peers.map peerBody) (id : Nat) :
    (findPeer d id).map peerBody = (findPeer c id).map peerBody := findPeer_of_map (key := fun p => p.id) (fun _ => rfl) h id

theorem otherBodies_eq (station : Nat) (ps : List PeerRecord) : otherBodies station ps = (ps.map peerBody).filter (fun p => p.id != station) := by
  rw [List.filter_map]
  rfl

theorem otherBodies_of_bodies {c d : Chip} (h : d.peers.map peerBody = c.peers.map peerBody) (station : Nat) :
    otherBodies station d.peers = otherBodies station c.peers := by rw [otherBodies_eq, otherBodies_eq, h]

/-- A change of one station's record, which keeps its id. -/
theorem findPeer_updatePeer {f : PeerRecord → PeerRecord} (hf : ∀ p, (f p).id = p.id) (id : Nat) (c : Chip) :
    findPeer (updatePeer id f c) id = (findPeer c id).map f := by
  have hid : ∀ p : PeerRecord, (if p.id = id then f p else p).id = p.id := fun p => by split <;> simp [hf]
  simp only [findPeer, updatePeer_peers, List.find?_map, Function.comp_def, hid]
  cases hp : c.peers.find? (fun p => p.id == id) with
  | none => rfl
  | some p => simp [show p.id = id by simpa using List.find?_some hp]

theorem otherBodies_updatePeer {f : PeerRecord → PeerRecord} (hf : ∀ p, (f p).id = p.id) (id : Nat) (c : Chip) :
    otherBodies id (updatePeer id f c).peers = otherBodies id c.peers := by
  unfold otherBodies
  rw [updatePeer_peers, List.filter_map, List.map_map]
  refine (congrArg (List.map _) (List.filter_congr fun p _ => ?_)).trans (List.map_congr_left fun p hp => ?_)
  · by_cases h : p.id = id <;> simp [h, hf]
  · have : p.id ≠ id := by simpa using (List.mem_filter.mp hp).2
    simp [this]

/-- R30. Every record of the station has no range list. -/
def NoLists (station : Nat) (c : Chip) : Prop := ∀ q ∈ c.peers, q.id = station → q.lists = []

theorem NoLists.of_bodies {station : Nat} {c d : Chip} (h : d.peers.map peerBody = c.peers.map peerBody) (hc : NoLists station c) : NoLists station d := by
  intro q hq hid
  have hmem : peerBody q ∈ c.peers.map peerBody := h ▸ List.mem_map_of_mem hq
  obtain ⟨p, hp, e⟩ := List.mem_map.mp hmem
  have hlists : p.lists = q.lists := show (peerBody p).lists = (peerBody q).lists by rw [e]
  have hsame : p.id = q.id := show (peerBody p).id = (peerBody q).id by rw [e]
  exact hlists ▸ hc p hp (hsame.trans hid)

/-! ## What a frame's owner leaves (R80) -/

/-- What a frame of a kind other than a Leave leaves of each record: a Block may strike, a Busy may mark, a Beacon may be recorded, and coverage may change. -/
def lasting (kind : FrameKind) (p : PeerRecord) : PeerRecord :=
  { p with
    openFetches := 0
    beacon := none
    lists := []
    strikes := if kind = .block then 0 else p.strikes
    shunnedUntil := if kind = .block then none else p.shunnedUntil
    busyUntil := if kind = .busy then none else p.busyUntil }

/-- Going from one chip to another, the lasting part of the records stands, and a station that is no holder gains neither coverage nor fetches. -/
structure Spares (kind : FrameKind) (station : Nat) (c d : Chip) : Prop where
  lasting : d.peers.map (lasting kind) = c.peers.map (lasting kind)
  lists : NoHolder station c → NoLists station c → NoLists station d
  away : NoHolder station c → SwitchedFrom c station → SwitchedFrom d station

variable {kind : FrameKind} {station : Nat} {c d e : Chip}

theorem NoHolder.of_lasting (h : d.peers.map (lasting kind) = c.peers.map (lasting kind)) (hc : NoHolder station c) : NoHolder station d := by
  intro q hq hid
  have hmem : Machine.lasting kind q ∈ c.peers.map (Machine.lasting kind) := h ▸ List.mem_map_of_mem hq
  obtain ⟨p, hp, e⟩ := List.mem_map.mp hmem
  have hdeparting : p.departing = q.departing := show (Machine.lasting kind p).departing = (Machine.lasting kind q).departing by rw [e]
  have hsame : p.id = q.id := show (Machine.lasting kind p).id = (Machine.lasting kind q).id by rw [e]
  exact hdeparting ▸ hc p hp (hsame.trans hid)

theorem Spares.refl (c : Chip) : Spares kind station c c := ⟨rfl, fun _ => id, fun _ => id⟩

theorem Spares.trans (h : Spares kind station c d) (k : Spares kind station d e) : Spares kind station c e :=
  ⟨k.lasting.trans h.lasting, fun hn hl => k.lists (hn.of_lasting h.lasting) (h.lists hn hl), fun hn hs => k.away (hn.of_lasting h.lasting) (h.away hn hs)⟩

theorem lasting_of_bodies (h : d.peers.map peerBody = c.peers.map peerBody) : d.peers.map (lasting kind) = c.peers.map (lasting kind) := by
  have key : lasting kind = lasting kind ∘ peerBody := rfl
  rw [key, ← List.map_map, ← List.map_map, h]

theorem Spares.of_keepsAway (h : KeepsAway station c d) : Spares kind station c d := ⟨lasting_of_bodies h.1, fun _ => .of_bodies h.1, h.2⟩

theorem Spares.of_same (hp : d.peers = c.peers) (hs : d.fetch.slots = c.fetch.slots) : Spares kind station c d :=
  .of_keepsAway (.of_slots (by rw [hp]) hs)

/-- A change of every record that leaves its lasting part and an empty coverage. -/
theorem Spares.of_map {f : PeerRecord → PeerRecord} (hf : ∀ p, Machine.lasting kind (f p) = Machine.lasting kind p) (hl : ∀ p, p.lists = [] → (f p).lists = [])
    (hp : d.peers = c.peers.map f) (hs : d.fetch.slots = c.fetch.slots) : Spares kind station c d := by
  refine ⟨?_, fun _ hc q hq hid => ?_, fun _ h => h.of_slots hs⟩
  · rw [hp, List.map_map]
    exact List.map_congr_left fun p _ => hf p
  · rw [hp] at hq
    obtain ⟨p, hmem, rfl⟩ := List.mem_map.mp hq
    have hsame : p.id = (f p).id := show (Machine.lasting kind p).id = (Machine.lasting kind (f p)).id by rw [hf]
    exact hl p (hc p hmem (hsame.trans hid))

theorem Spares.of_updatePeer {f : PeerRecord → PeerRecord} (hf : ∀ p, Machine.lasting kind (f p) = Machine.lasting kind p)
    (hl : ∀ p, p.lists = [] → (f p).lists = []) (id : Nat) (c : Chip) : Spares kind station c (updatePeer id f c) := by
  refine .of_map (f := fun p => if p.id = id then f p else p) (fun p => ?_) (fun p h => ?_) (updatePeer_peers _ _ _) rfl
  · split
    exacts [hf p, rfl]
  · split
    exacts [hl p h, h]

/-! ### Coverage (R25 to R29) -/

theorem recount_slots (c : Chip) : (recount c).fetch.slots = c.fetch.slots := by
  obtain ⟨a, h⟩ := recount_does c
  rw [h]

theorem askIf_slots (b : Bool) (c : Chip) : (askIf b c).fetch.slots = c.fetch.slots := by
  unfold askIf
  split <;> rfl

theorem setRangeList_nil {k : ImageKey} {l : List SegRun} {p : PeerRecord} (hl : l = []) (hp : p.lists = []) : (setRangeList k l p).lists = [] := by
  simp [setRangeList, hl, hp]

theorem changeList_spares {f : List SegRun → List SegRun} (hf : f [] = []) (id : Nat) (k : ImageKey) (c : Chip) :
    Spares kind station c (changeList id k f c) := by
  have hlist := Spares.of_updatePeer (kind := kind) (station := station) (f := fun p => setRangeList k (f (rangeList p k)) p) (by exact fun _ => rfl)
    (fun p h => setRangeList_nil (by simp [rangeList, h, hf]) h) id c
  exact hlist.trans (.of_same (by rw [changeList, askIf_peers, recount_peers]) (by rw [changeList, askIf_slots, recount_slots]))

theorem mem_of_findPeer {p : PeerRecord} {id : Nat} (h : findPeer c id = some p) : p ∈ c.peers ∧ p.id = id :=
  ⟨List.mem_of_find?_eq_some h, by simpa using List.find?_some h⟩

/-- R26. An Offer of a station that is leaving is not merged. -/
theorem mergeOffer_spares (o : OfferBody) (c : Chip) : Spares kind station c (mergeOffer station o c) := by
  have hmerged : ∀ f, (changeList station o.image f c).peers.map (lasting kind) = c.peers.map (lasting kind) := fun f => by
    have hpeers : (changeList station o.image f c).peers = (updatePeer station (fun p => setRangeList o.image (f (rangeList p o.image)) p) c).peers := by
      rw [changeList, askIf_peers, recount_peers]
    rw [hpeers, updatePeer_peers, List.map_map]
    exact List.map_congr_left fun p _ => by
      simp only [Function.comp]
      split <;> rfl
  have hleaving : NoHolder station c → mergeOffer station o c = c := fun hn => by
    unfold mergeOffer
    split
    · rfl
    · next p hp => simp [hn p (mem_of_findPeer hp).1 (mem_of_findPeer hp).2]
  refine ⟨?_, fun hn h => (hleaving hn).symm ▸ h, fun hn h => (hleaving hn).symm ▸ h⟩
  unfold mergeOffer
  split
  · rfl
  · split
    exacts [rfl, hmerged _]

/-! ### Replies and Blocks (R49 to R56) -/

theorem setFetchSlot_keepsAway {i : Nat} {x y : OpenFetch} (h : fetchSlot c i = .opened x) (hpeer : y.peer = x.peer) (howed : y.switchOwed = x.switchOwed) :
    KeepsAway station c (setFetchSlot i (.opened y) c) := by
  refine ⟨rfl, fun _ hs j hj f hf hid => ?_⟩
  by_cases hji : j = i
  · rw [hji, fetchSlot_setFetchSlot (fetchSlot_opened_lt h)] at hf
    obtain rfl := FetchSlot.opened.inj hf
    exact howed.trans (hs i (hji ▸ hj) x h (hpeer.symm.trans hid))
  · rw [fetchSlot_setFetchSlot_ne hji] at hf
    exact hs j hj f hf hid

theorem updateOpen_keepsAway {g : OpenFetch → OpenFetch} (hpeer : ∀ x, (g x).peer = x.peer) (howed : ∀ x, (g x).switchOwed = x.switchOwed) (i : Nat)
    (c : Chip) : KeepsAway station c (updateOpen i g c) := by
  unfold updateOpen
  split
  · next x hx => exact setFetchSlot_keepsAway hx (hpeer x) (howed x)
  · exact .of_slots rfl rfl

theorem queueAsk_keepsAway (i : Nat) (c : Chip) : KeepsAway station c (queueAsk i c) := by
  have htimer : KeepsAway station c (updateOpen i (fun f => { f with timer := none }) (withdrawAsk i c)) :=
    .trans (.of_slots rfl rfl) (updateOpen_keepsAway (by exact fun _ => rfl) (by exact fun _ => rfl) i _)
  unfold queueAsk
  dsimp only
  split
  exacts [htimer.trans (.of_slots rfl rfl), htimer]

theorem switchFetch_keepsAway (i : Nat) (c : Chip) : KeepsAway station c (switchFetch i c) := by
  cases hslot : fetchSlot c i with
  | opened x =>
    obtain ⟨_, hothers, hbodies⟩ := switchFetch_does hslot
    refine ⟨hbodies, fun hnone hs j hj f hf hid => ?_⟩
    by_cases hji : j = i
    · rw [hji] at hf
      cases hholder : nextHolder x c with
      | some p =>
        rw [switchFetch_of_some hslot hholder, (moveToPeer_does (fetchSlot_opened_lt hslot) x p).1] at hf
        obtain rfl := FetchSlot.opened.inj hf
        unfold nextHolder at hholder
        split at hholder
        exacts [absurd hid (hnone.ne_chosen hholder), by cases hholder]
      | none =>
        rw [switchFetch_of_none hslot hholder,
          (fetchSlot_of_set (abandonFetch_slots i _ x c) (fetchSlot_opened_lt hslot) i).trans (if_pos rfl)] at hf
        cases hf
    · exact hs j hj f (hothers j hji ▸ hf) hid
  | free => simpa [switchFetch, hslot] using .of_slots rfl rfl
  | checking y => simpa [switchFetch, hslot] using .of_slots rfl rfl

theorem demandSwitch_keepsAway (i : Nat) (c : Chip) : KeepsAway station c (demandSwitch i false c) := by
  unfold demandSwitch
  split
  · split
    exacts [.of_slots rfl rfl, switchFetch_keepsAway i c]
  · exact .of_slots rfl rfl

theorem onReply_spares {effect : Chip → Chip} (h : ∀ c, Spares kind station c (effect c)) (sender asker : Nat) (k : ImageKey) (seg : Nat) (c : Chip) :
    Spares kind station c (onReply effect sender asker k seg c) := by
  unfold onReply
  split
  exacts [(h c).trans (.of_keepsAway (demandSwitch_keepsAway _ _)), .refl c]

theorem markBusy_spares (id : Nat) (c : Chip) : Spares .busy station c (markBusy id c) := .of_updatePeer (by exact fun _ => rfl) (by exact fun _ h => h) id c

theorem onBusy_spares (unknown : Bool) (f : RxFrame) (c : Chip) : Spares .busy station c (onBusy unknown f c) := by
  have hmark : ∀ b : Bool, Spares .busy station c (if b then markBusy f.sender c else c) := fun b => by
    split
    exacts [markBusy_spares _ c, .refl c]
  exact (hmark _).trans (onReply_spares (fun c => markBusy_spares _ c) _ _ _ _ _)

theorem struck_lasting (now : Nat) (p : PeerRecord) : lasting .block (struck now p) = lasting .block p := by
  unfold struck
  split <;> rfl

theorem struck_lists (now : Nat) (p : PeerRecord) : (struck now p).lists = p.lists := by
  unfold struck
  split <;> rfl

theorem strike_spares (id : Nat) (counted : Bool) (c : Chip) : Spares .block station c (strike id counted c) := by
  unfold strike
  split
  exacts [.of_updatePeer (struck_lasting _) (fun p h => (struck_lists _ p).trans h) id c, .refl c]

theorem endWindow_spares (i : Nat) (c : Chip) : Spares .block station c (endWindow i c) := by
  unfold endWindow
  split
  · next x hx =>
    have htimer : Spares .block station c (setFetchSlot i (.opened { x with timer := none }) c) := .of_keepsAway (setFetchSlot_keepsAway hx rfl rfl)
    dsimp only
    split
    · exact htimer
    · split
      · exact (htimer.trans (strike_spares _ _ _)).trans (.of_keepsAway (switchFetch_keepsAway _ _))
      · exact (htimer.trans (.of_keepsAway (updateOpen_keepsAway (by exact fun _ => rfl) (by exact fun _ => rfl) i _))).trans
          (.of_keepsAway (queueAsk_keepsAway _ _))
  · exact .refl c

theorem blockAt_spares (sender : Nat) (b : BlockBody) (i : Nat) (c : Chip) : Spares .block station c (blockAt sender b i c) := by
  unfold blockAt
  split
  · next x hx =>
    split
    · exact .refl c
    · have taken : Spares .block station c (if missing c i x b.index && decide (c.fetch.buffer.length < 16) then acceptBlock i x b c else c) := by
        split
        · exact (Spares.of_same rfl rfl).trans
            (.of_keepsAway (setFetchSlot_keepsAway (c := { c with fetch.buffer := c.fetch.buffer ++ [{ fetch := i, index := b.index, data := b.data }] }) hx rfl rfl))
        · exact .refl c
      dsimp only
      split
      exacts [taken.trans (endWindow_spares i _), taken]
  · exact .refl c

theorem onBlock_spares (sender : Nat) (b : BlockBody) (c : Chip) : Spares .block station c (onBlock sender b c) :=
  forEach_keeps (R := Spares .block station) Spares.refl Spares.trans (fun i _ c => blockAt_spares sender b i c) c

/-! ### A plan's adoption (R5, R12) -/

theorem cancelFetchOf_bodies (k : ImageKey) (i : Nat) (c : Chip) : (cancelFetchOf k i c).peers.map peerBody = c.peers.map peerBody := by
  have hcancel : ∀ f, (cancelFetch i f c).peers = (freeFetch i f.peer f.counted c).peers := fun f => (release_parts _ _).1
  unfold cancelFetchOf
  split
  · split
    · rw [hcancel, freeFetch_bodies]
    · rfl
  · rfl

theorem clearImage_bodies (r : ImageRecord) (c : Chip) : (clearImage r c).peers.map peerBody = c.peers.map peerBody := by
  have hrelease : ∀ d, (forEach (heldSlots r) release d).peers = d.peers := forEach_same (g := Chip.peers) (fun s _ c => (release_parts s c).1)
  have hcancel := forEach_same (g := fun c : Chip => c.peers.map peerBody) (xs := [0, 1, 2, 3]) (fun i _ c => cancelFetchOf_bodies r.image i c) c
  rw [clearImage, hrelease, (endServes_adds _ _).2.2]
  exact hcancel

theorem dropLoadOf_peers (k : ImageKey) (c : Chip) : (dropLoadOf k c).peers = c.peers := by
  unfold dropLoadOf
  split
  · split
    · simp [endLoad, releaseLoadSlot, awaitEnd, apply_ite]
    · rfl
  · rfl

/-- R12. A removed image is forgotten by every peer, and its fetches end. -/
theorem removeRecord_spares (r : ImageRecord) (c : Chip) : Spares kind station c (removeRecord r c) := by
  have hforget : Spares kind station (clearImage r c) (forgetImage r.image (clearImage r c)) :=
    .of_map (f := setRangeList r.image []) (by exact fun _ => rfl) (fun _ h => setRangeList_nil rfl h) rfl rfl
  have hpeers : (removeRecord r c).peers = (forgetImage r.image (clearImage r c)).peers := by rw [removeRecord_eq, askSelection_peers, dropLoadOf_peers]
  refine ⟨?_, fun hn h => ?_, fun _ hs i hi f hf hid => ?_⟩
  · rw [hpeers, hforget.lasting, lasting_of_bodies (clearImage_bodies r c)]
  · have := hforget.lists (hn.of_bodies (clearImage_bodies r c)) (h.of_bodies (clearImage_bodies r c))
    rwa [NoLists, hpeers]
  · rcases (removeRecord_givesUp r c).fetches i hi with h | ⟨h, _⟩
    · exact hs i hi f (h ▸ hf) hid
    · rw [h] at hf
      cases hf

theorem admission_spares (c : Chip) : Spares kind station c (admission c) := by
  have hremoved : ∀ gone : List ImageRecord, Spares kind station c (forEach gone removeRecord c) := fun gone =>
    forEach_keeps (R := Spares kind station) Spares.refl Spares.trans (fun r _ c => removeRecord_spares r c) c
  have happlied : Spares kind station c (applyAdmission (admittedSet (liveEntries c) (admissionOrder c)) c) := (hremoved _).trans (.of_same rfl rfl)
  refine happlied.trans (.of_same ?_ ?_)
  · simp [admission, takeIn, reportFull, apply_ite]
  · simp [admission, takeIn]

theorem replanUnits_keepsAway (c : Chip) : KeepsAway station c (replanUnits c) := by
  have hselect : ∀ c, (selectUnits c).peers.map peerBody = c.peers.map peerBody := fun c =>
    forEach_same (g := fun c : Chip => c.peers.map peerBody) (fun a _ c => (selectUnit_adds a c).2.2) c
  have hjob : ∀ c, (replanJob c).peers.map peerBody = c.peers.map peerBody := fun c => by
    unfold replanJob
    split
    · rfl
    · split
      · rfl
      · split
        · split
          exacts [rfl, (cancelJob_adds c).2.2]
        all_goals exact (cancelJob_adds c).2.2
  obtain ⟨_, ⟨_, hslots, _⟩, _⟩ := replanUnits_does c
  exact .of_slots ((hjob _).trans (hselect _)) hslots

theorem onPlan_spares (originFlag : Bool) (payload : List Byte) (c : Chip) : Spares kind station c (onPlan originFlag payload c) := by
  have hadopt : ∀ body, Spares kind station c (adoptPlan body c) := fun body => by
    obtain ⟨persist, noted, queue, h, _⟩ := persistRequest_does { c with plans.body := body }
    have hholding : Spares kind station c (holdingPlan body c) := .of_same (by rw [holdingPlan, h]) (by rw [holdingPlan, h])
    rw [adoptPlan_eq]
    exact ((hholding.trans (admission_spares _)).trans (.of_keepsAway (replanUnits_keepsAway _))).trans (.of_same (by simp) (by simp))
  unfold onPlan
  split
  · split
    · split
      exacts [hadopt _, .refl c]
    · exact .refl c
  · exact .refl c

/-! ### Asks, Beacons and the comparison (R6, R36, R65) -/

/-- Neither the peers nor the fetch slots change. -/
abbrev LeavesPeers (c d : Chip) : Prop := d.peers = c.peers ∧ d.fetch.slots = c.fetch.slots

theorem LeavesPeers.trans (h : LeavesPeers c d) (k : LeavesPeers d e) : LeavesPeers c e := ⟨k.1.trans h.1, k.2.trans h.2⟩

theorem LeavesPeers.spares (h : LeavesPeers c d) : Spares kind station c d := .of_same h.1 h.2

theorem pushUrgent_leavesPeers (f : UrgentFrame) (c : Chip) : LeavesPeers c (pushUrgent f c) := by
  obtain ⟨lane, h⟩ := pushUrgent_does f c
  rw [h]
  exact ⟨rfl, rfl⟩

theorem replaceInSlot_leavesPeers (i : Nat) (e : AskEntry) (c : Chip) : LeavesPeers c (replaceInSlot i e c) := by
  unfold replaceInSlot
  split
  · exact ⟨rfl, rfl⟩
  · split <;> exact ⟨rfl, rfl⟩
  · split <;> exact ⟨rfl, rfl⟩
  · exact ⟨rfl, rfl⟩

theorem onAsk_leavesPeers (server : Nat) (e : AskEntry) (c : Chip) : LeavesPeers c (onAsk server e c) := by
  have reply : ∀ kind d, LeavesPeers c d → LeavesPeers c (queueReply kind e d) := fun kind d h => h.trans (pushUrgent_leavesPeers _ d)
  have same : LeavesPeers c c := ⟨rfl, rfl⟩
  have drop : LeavesPeers c (dropQueued e c) := ⟨rfl, rfl⟩
  unfold onAsk answerAsk
  split
  · dsimp only
    split
    · exact reply _ _ drop
    · split
      · exact reply _ _ drop
      · split
        · exact reply _ _ drop
        · split
          · exact same
          · split
            · exact replaceInSlot_leavesPeers _ _ _
            · split
              exacts [reply _ _ same, same]
  · exact same

theorem compareSerial_leavesPeers (f : RxFrame) (c : Chip) : LeavesPeers c (compareSerial f c) := by
  unfold compareSerial
  split
  exacts [pushUrgent_leavesPeers _ _, ⟨rfl, rfl⟩]

/-- R167. The Beacon is relayed: below depth 3, and not within 5,000 ms of a relay. -/
def Relays (c : Chip) (depth : Nat) : Prop := depth < 3 ∧ ∀ r, c.clock.lastRelay = some r → r + 5000 ≤ c.now

theorem relayBeacon_of_relays {c : Chip} {depth : Nat} (h : Relays c depth) :
    relayBeacon depth c = pushUrgent (.beacon (depth + 1)) { c with clock.lastRelay := some c.now } := by
  obtain ⟨hdepth, hlast⟩ := h
  unfold relayBeacon
  rw [if_pos]
  split <;> simp_all [reached]

theorem relayBeacon_of_not_relays {c : Chip} {depth : Nat} (h : ¬Relays c depth) : relayBeacon depth c = c := by
  unfold relayBeacon
  rw [if_neg]
  split <;> simp_all [Relays, reached]

/-- R166. The chip with the clock that an adopted Beacon gives it. -/
def clockTaken (sender depth : Nat) (time : Word32) (c : Chip) : Chip :=
  { c with
    clock :=
      { c.clock with
        state := .synced
        offset := time - BitVec.ofNat 32 c.now
        source := some sender
        depth := some depth
        lastAdoption := some c.now } }

/-- R166. What an adoption reports, and with a changed clock the waiting entries evaluated again. -/
def adoptionReported (sender depth : Nat) (time : Word32) (c : Chip) : Chip :=
  let told := reportAdoption c.clock.state sender depth (yardDiff time (yardNow c)) (clockTaken sender depth time c)
  if yardDiff time (yardNow c) ≠ 0 || c.clock.state = .unsynced then evaluateWaiting told else told

theorem adoptBeacon_eq (sender depth : Nat) (time : Word32) (c : Chip) :
    adoptBeacon sender depth time c = relayBeacon depth (adoptionReported sender depth time c) := rfl

theorem reportAdoption_leavesPeers (before : ClockState) (sender depth : Nat) (change : Int) (c : Chip) :
    LeavesPeers c (reportAdoption before sender depth change c) := by
  unfold reportAdoption
  split
  · exact ⟨rfl, rfl⟩
  · split <;> exact ⟨rfl, rfl⟩

theorem adoptBeacon_leavesPeers (sender depth : Nat) (time : Word32) (c : Chip) : LeavesPeers c (adoptBeacon sender depth time c) := by
  have htold : LeavesPeers c (adoptionReported sender depth time c) := by
    unfold adoptionReported
    dsimp only
    split <;> exact reportAdoption_leavesPeers _ _ _ _ (clockTaken sender depth time c)
  rw [adoptBeacon_eq]
  by_cases h : Relays (adoptionReported sender depth time c) depth
  · rw [relayBeacon_of_relays h]
    exact htold.trans (pushUrgent_leavesPeers _ _)
  · rwa [relayBeacon_of_not_relays h]

theorem onBeacon_spares (f : RxFrame) (c : Chip) : Spares kind station c (onBeacon f c) := by
  have recorded : ∀ depth, Spares kind station c (recordBeacon f.sender depth c) := fun depth =>
    .of_updatePeer (by exact fun _ => rfl) (by exact fun _ h => h) _ c
  unfold onBeacon
  split
  · exact .refl c
  · dsimp only
    split
    exacts [recorded _, (recorded _).trans (adoptBeacon_leavesPeers _ _ _ _).spares]

theorem onPlanAsk_spares (named : Nat) (c : Chip) : Spares kind station c (onPlanAsk named c) := by
  rw [onPlanAsk_does]
  exact .of_same rfl rfl

/-! ## A departure (R30) -/

/-- R30. The record marked as departing, its coverage withdrawn. -/
def departed (p : PeerRecord) : PeerRecord := { p with departing := true, lists := [] }

theorem updatePeer_updatePeer {f g : PeerRecord → PeerRecord} (hf : ∀ p, (f p).id = p.id) (id : Nat) (c : Chip) :
    (updatePeer id g (updatePeer id f c)).peers = (updatePeer id (g ∘ f) c).peers := by
  simp only [updatePeer_peers, List.map_map]
  refine List.map_congr_left fun p _ => ?_
  by_cases h : p.id = id <;> simp [h, hf]

theorem dropReadyFor_peers (asker i : Nat) (c : Chip) : (dropReadyFor asker i c).peers = c.peers := by
  unfold dropReadyFor
  (repeat' split) <;> rfl

/-- R30. A station that is marked as departing has no coverage left and no fetches but owed ones, and every count is exact. -/
theorem announceDeparture_new {id : Nat} {c : Chip} {p : PeerRecord} (hp : findPeer c id = some p) (hd : p.departing = false) :
    (announceDeparture id c).peers.map peerBody = (updatePeer id departed c).peers.map peerBody ∧
      SwitchedFrom (announceDeparture id c) id ∧ HoldersExact (announceDeparture id c) := by
  have hrun : announceDeparture id c =
      askSelection (switchAway id (dropReadyFor id 2 (dropReadyFor id 1 (dropReadyFor id 0
        (withdrawAll id (updatePeer id (fun p => { p with departing := true }) c)))))) := by simp [announceDeparture, hp, hd]
  have hwithdrawn : (withdrawAll id (updatePeer id (fun p => { p with departing := true }) c)).peers = (updatePeer id departed c).peers := by
    rw [withdrawAll, askIf_peers, recount_peers]
    exact updatePeer_updatePeer (by exact fun _ => rfl) id c
  have asked : ∀ d, SwitchedFrom d id → SwitchedFrom (askSelection d) id := fun d h => h.of_slots rfl
  have hexact := (announceDeparture_after_withdrawal id _).holdersExact (withdrawAll_exact id (updatePeer id (fun p => { p with departing := true }) c))
  rw [← hrun] at hexact
  refine ⟨?_, ?_, hexact⟩ <;> rw [hrun]
  · rw [askSelection_peers, switchAway_bodies, dropReadyFor_peers, dropReadyFor_peers, dropReadyFor_peers, hwithdrawn]
  · exact asked _ (switchAway_switchedFrom id _)

/-- R30. Where a station's records have departed none is a holder, and none has coverage. -/
theorem noHolder_of_departed {id : Nat} {c d : Chip} (h : d.peers.map peerBody = (updatePeer id departed c).peers.map peerBody) : NoHolder id d ∧ NoLists id d := by
  have hall : ∀ q ∈ (updatePeer id departed c).peers, q.id = id → q.departing = true ∧ q.lists = [] := by
    intro q hq hid
    rw [updatePeer_peers] at hq
    obtain ⟨r, _, rfl⟩ := List.mem_map.mp hq
    by_cases hr : r.id = id
    · simp [hr, departed]
    · simp [hr] at hid
  exact ⟨NoHolder.of_bodies h fun q hq hid => (hall q hq hid).1, NoLists.of_bodies h fun q hq hid => (hall q hq hid).2⟩

/-- R30. The sender's record after a departure is announced. -/
theorem announceDeparture_known {id : Nat} {c : Chip} {p : PeerRecord} (hp : findPeer c id = some p) :
    ∃ g : PeerRecord → PeerRecord, (∀ q, (g q).id = q.id) ∧ g p = (if p.departing then p else departed p) ∧
      (announceDeparture id c).peers.map peerBody = (updatePeer id g c).peers.map peerBody := by
  cases hd : p.departing with
  | true =>
    refine ⟨fun q => q, fun _ => rfl, rfl, ?_⟩
    have hsame : announceDeparture id c = c := by simp [announceDeparture, hp, hd]
    rw [hsame, updatePeer_peers]
    simp
  | false => exact ⟨departed, fun _ => rfl, rfl, (announceDeparture_new hp hd).1⟩

/-! ## Presence (R21, R30) -/

/-- R21. What presence makes of the sender's record: heard now, and departing as its flag says. -/
structure Refreshed (f : RxFrame) (now : Nat) (p q : PeerRecord) : Prop where
  heard : q.lastHeard = now
  departing : q.departing = f.departing
  origin : q.originAttr = if f.kind = .plan ∨ f.departing then p.originAttr else f.originFlag
  strikes : q.strikes = p.strikes ∧ q.shunnedUntil = p.shunnedUntil
  busy : q.busyUntil = p.busyUntil
  lists : f.departing = false → q.lists = p.lists

theorem refreshPeer_refreshed (f : RxFrame) (now : Nat) (p : PeerRecord) (departing : Bool) (lists : List (ImageKey × List SegRun))
    (hd : departing = f.departing) (hl : f.departing = false → lists = p.lists) :
    Refreshed f now p { refreshPeer f now p with departing := departing, lists := lists } :=
  ⟨rfl, hd, by simp [refreshPeer], ⟨rfl, rfl⟩, rfl, hl⟩

/-- R21, R30. The table after presence, the sender being known: of its record a refreshed one is made, and the others stand. -/
theorem presence_known {f : RxFrame} {c : Chip} {p : PeerRecord} (hp : findPeer c f.sender = some p) :
    ∃ g : PeerRecord → PeerRecord, (∀ q, (g q).id = q.id) ∧ Refreshed f c.now p (g p) ∧
      (presence f c).peers.map peerBody = (updatePeer f.sender g c).peers.map peerBody := by
  have hfound := findPeer_updatePeer (f := refreshPeer f c.now) (by exact fun _ => rfl) f.sender c
  rw [hp] at hfound
  cases hf : f.departing with
  | true =>
    obtain ⟨g, hg, hgp, hbodies⟩ := announceDeparture_known hfound
    refine ⟨g ∘ refreshPeer f c.now, fun q => hg _, ?_, ?_⟩
    · rw [Function.comp, hgp]
      split
      · next hdeparting => exact refreshPeer_refreshed f c.now p p.departing p.lists (hdeparting.trans hf.symm) (fun _ => rfl)
      · exact refreshPeer_refreshed f c.now p true [] hf.symm (by simp [hf])
    · have hrun : presence f c = serveTake (announceDeparture f.sender (updatePeer f.sender (refreshPeer f c.now) c)) := by simp [presence, hp, hf]
      rw [hrun, (serveTake_adds _).2.2, hbodies, updatePeer_updatePeer (by exact fun _ => rfl)]
  | false =>
    cases hd : p.departing with
    | true =>
      refine ⟨fun q => { refreshPeer f c.now q with departing := false }, fun _ => rfl,
        refreshPeer_refreshed f c.now p false p.lists hf.symm (fun _ => rfl), ?_⟩
      have hrun : presence f c = askSelection (updatePeer f.sender (fun p => { p with departing := false }) (updatePeer f.sender (refreshPeer f c.now) c)) := by
        simp [presence, hp, hf, hd]
      rw [hrun, askSelection_peers, updatePeer_updatePeer (by exact fun _ => rfl)]
      rfl
    | false =>
      refine ⟨refreshPeer f c.now, fun _ => rfl, refreshPeer_refreshed f c.now p p.departing p.lists (hd.trans hf.symm) (fun _ => rfl), ?_⟩
      have hrun : presence f c = updatePeer f.sender (refreshPeer f c.now) c := by simp [presence, hp, hf, hd]
      rw [hrun]

/-- R30. A sender that is marked as departing by the frame's flag. -/
theorem presence_departs {f : RxFrame} {c : Chip} {p : PeerRecord} (hp : findPeer c f.sender = some p) (hf : f.departing = true) (hd : p.departing = false) :
    NoHolder f.sender (presence f c) ∧ NoLists f.sender (presence f c) ∧ SwitchedFrom (presence f c) f.sender ∧ HoldersExact (presence f c) := by
  have hfound := findPeer_updatePeer (f := refreshPeer f c.now) (by exact fun _ => rfl) f.sender c
  rw [hp] at hfound
  obtain ⟨hbodies, haway, hexact⟩ := announceDeparture_new hfound hd
  have hrun : presence f c = serveTake (announceDeparture f.sender (updatePeer f.sender (refreshPeer f c.now) c)) := by simp [presence, hp, hf]
  have htake := (serveTake_adds (announceDeparture f.sender (updatePeer f.sender (refreshPeer f c.now) c))).2.2
  obtain ⟨hnone, hlists⟩ := noHolder_of_departed (htake.trans hbodies)
  rw [hrun]
  refine ⟨hnone, hlists,
    haway.of_slots (serveTake_unmoved _).2.1, ?_⟩
  have hsame : SameHoldings (announceDeparture f.sender (updatePeer f.sender (refreshPeer f c.now) c)) _ := ⟨lists_of_bodies htake, by rw [(serveTake_unmoved _).1]⟩
  exact hsame.holdersExact hexact

theorem findPeer_insertPeer (p : PeerRecord) (c : Chip) : findPeer { c with peers := insertPeer p c.peers } p.id = some p := by
  have hearlier : (c.peers.filter (fun q => decide (q.id < p.id))).find? (fun q => q.id == p.id) = none := by
    rw [List.find?_eq_none]
    intro q hq
    have : q.id < p.id := by simpa using (List.mem_filter.mp hq).2
    simp
    omega
  simp [findPeer, insertPeer, List.find?_append, hearlier]

/-- R20, R21. The record that an unknown sender gains. -/
theorem presence_unknown {f : RxFrame} {c : Chip} (hp : findPeer c f.sender = none) (hf : f.departing = false) :
    findPeer (presence f c) f.sender = some (newPeer f.sender c.now (f.kind != .plan && f.originFlag)) ∧
      (presence f c).peers = insertPeer (newPeer f.sender c.now (f.kind != .plan && f.originFlag)) (makeRoom c).peers := by
  have hrun : presence f c =
      { makeRoom c with peers := insertPeer (newPeer f.sender c.now (f.kind != .plan && f.originFlag)) (makeRoom c).peers } := by
    simp [presence, hp, hf]
  rw [hrun]
  exact ⟨findPeer_insertPeer (newPeer f.sender c.now (f.kind != .plan && f.originFlag)) (makeRoom c), rfl⟩

theorem presence_ignored {f : RxFrame} {c : Chip} (hp : findPeer c f.sender = none) (hf : f.departing = true) : presence f c = c := by
  simp [presence, hp, hf]

end Sys2Proof.Machine
end

