-- ==== Sys2Proof/Proofs/FramesOfPeers.lean ====
section
/-!
SUPPORT. What an accepted frame leaves of its sender's record once the blocks have been set going (R21, R30), and the merge of an Offer (R26, R27).
-/
namespace Sys2Proof.Machine

/-! ## After the owner (R80) -/

/-- R6, log 13. Of the standing part the comparison and settling change the time of the last PlanAsk alone. -/
theorem settle_compare_standing (f : RxFrame) {c d : Chip} (h : standing d = standing c) :
    standing (settle (compareSerial f d)) =
      { standing c with plans := { c.plans with lastPlanAsk := (settle (compareSerial f d)).plans.lastPlanAsk } } := by
  have hplans : (settle (compareSerial f d)).plans = (compareSerial f d).plans := by simp
  have hbefore : d.plans = c.plans := congrArg Standing.plans h
  rw [settle_standing, compareSerial_standing, hplans, h, hbefore]

theorem settle_compare_keepsAway (station : Nat) (f : RxFrame) (d : Chip) : KeepsAway station d (settle (compareSerial f d)) := by
  obtain ⟨hpeers, hslots⟩ := compareSerial_leavesPeers f d
  have hcompare : KeepsAway station d (compareSerial f d) := .of_slots (by rw [hpeers]) hslots
  exact hcompare.trans (settle_keepsAway station _)

theorem settle_compare_holdings (f : RxFrame) (d : Chip) : SameHoldings d (settle (compareSerial f d)) :=
  (compareSerial_holdings f d).trans (settle_holdings _)

/-! ## Frames other than a Leave (R21) -/

/-- R80. A frame goes to its owner, which but for a Leave spares the sender's record. -/
theorem frameRow_received (s : State) (kind : FrameKind) (frame : List Byte) :
    ∃ owner, exec (frameRow kind frame) s = .next { s with chip := settle (receive kind owner frame s.chip) } ∧
      (kind = .leave → owner = fun f => announceDeparture f.sender) ∧ (kind ≠ .leave → ∀ f c, Spares kind f.sender c (owner f c)) := by
  cases kind with
  | offer => exact ⟨_, rfl, by simp, fun _ f c => mergeOffer_spares _ c⟩
  | ask => exact ⟨_, rfl, by simp, fun _ f c => (onAsk_leavesPeers _ _ c).spares⟩
  | block => exact ⟨_, rfl, by simp, fun _ f c => onBlock_spares _ _ c⟩
  | lacking => exact ⟨_, rfl, by simp, fun _ f c => onReply_spares (fun c => changeList_spares rfl _ _ c) _ _ _ _ c⟩
  | refused => exact ⟨_, rfl, by simp, fun _ f c => onReply_spares (fun c => changeList_spares rfl _ _ c) _ _ _ _ c⟩
  | busy => exact ⟨_, rfl, by simp, fun _ f c => onBusy_spares _ f c⟩
  | plan => exact ⟨_, rfl, by simp, fun _ f c => onPlan_spares _ _ c⟩
  | planAsk => exact ⟨_, rfl, by simp, fun _ f c => onPlanAsk_spares _ c⟩
  | beacon => exact ⟨_, rfl, by simp, fun _ f c => onBeacon_spares f c⟩
  | leave => exact ⟨_, rfl, fun _ => rfl, by simp⟩

/-- A record that agrees with another in its lasting part. -/
structure Lasts (kind : FrameKind) (p q : PeerRecord) : Prop where
  heard : q.lastHeard = p.lastHeard
  departing : q.departing = p.departing
  origin : q.originAttr = p.originAttr
  estimate : q.estimate = p.estimate
  strikes : kind ≠ .block → q.strikes = p.strikes ∧ q.shunnedUntil = p.shunnedUntil
  busy : kind ≠ .busy → q.busyUntil = p.busyUntil

theorem Lasts.of_lasting {kind : FrameKind} {p q : PeerRecord} (h : lasting kind q = lasting kind p) : Lasts kind p q where
  heard := show (lasting kind q).lastHeard = (lasting kind p).lastHeard by rw [h]
  departing := show (lasting kind q).departing = (lasting kind p).departing by rw [h]
  origin := show (lasting kind q).originAttr = (lasting kind p).originAttr by rw [h]
  estimate := show (lasting kind q).estimate = (lasting kind p).estimate by rw [h]
  strikes := fun hk => by
    have h1 := congrArg PeerRecord.strikes h
    have h2 := congrArg PeerRecord.shunnedUntil h
    simp only [lasting, if_neg hk] at h1 h2
    exact ⟨h1, h2⟩
  busy := fun hk => by
    have h1 := congrArg PeerRecord.busyUntil h
    simpa only [lasting, if_neg hk] using h1

theorem findPeer_of_lasting {kind : FrameKind} {c d : Chip} (h : d.peers.map (lasting kind) = c.peers.map (lasting kind)) {id : Nat} {p : PeerRecord}
    (hp : findPeer c id = some p) : ∃ q, findPeer d id = some q ∧ Lasts kind p q := by
  have hmap := findPeer_of_map (g := lasting kind) (key := fun p => p.id) (fun _ => rfl) h id
  rw [hp] at hmap
  obtain ⟨q, hq, hsame⟩ := Option.map_eq_some_iff.mp hmap
  exact ⟨q, hq, .of_lasting hsame⟩

theorem findPeer_none_of_map {α : Type} {g : PeerRecord → α} {key : α → Nat} (hkey : ∀ p, key (g p) = p.id) {c d : Chip}
    (h : d.peers.map g = c.peers.map g) {id : Nat} (hc : findPeer c id = none) : findPeer d id = none := by
  have hmap := findPeer_of_map hkey h id
  rw [hc] at hmap
  exact Option.map_eq_none_iff.mp hmap

theorem body_eq {p q : PeerRecord} (h : peerBody q = peerBody p) :
    q.lastHeard = p.lastHeard ∧ q.departing = p.departing ∧ q.originAttr = p.originAttr ∧ q.estimate = p.estimate ∧ q.strikes = p.strikes ∧
      q.shunnedUntil = p.shunnedUntil ∧ q.busyUntil = p.busyUntil ∧ q.lists = p.lists ∧ q.beacon = p.beacon := by
  simp only [peerBody, PeerRecord.mk.injEq] at h
  tauto

/-- The record of a station whose table has the bodies of another with a change of that station's record. -/
theorem findPeer_of_changed {g : PeerRecord → PeerRecord} (hg : ∀ q, (g q).id = q.id) {c d : Chip} {id : Nat} {p : PeerRecord} (hp : findPeer c id = some p)
    (h : d.peers.map peerBody = (updatePeer id g c).peers.map peerBody) : ∃ q, findPeer d id = some q ∧ peerBody q = peerBody (g p) := by
  have hmap := findPeer_of_bodies h id
  rw [findPeer_updatePeer hg, hp] at hmap
  exact Option.map_eq_some_iff.mp hmap

/-- R21, R30. After a frame other than a Leave, a known sender's record has been refreshed, and its newly raised departing flag has cleared its coverage. -/
theorem otherFrame_known {kind : FrameKind} {f : RxFrame} {c d : Chip} (hspares : Spares kind f.sender (presence f c) d) {p : PeerRecord}
    (hp : findPeer c f.sender = some p) :
    ∃ q r, findPeer (settle (compareSerial f d)) f.sender = some q ∧ Refreshed f c.now p r ∧ Lasts kind r q ∧
      (q.departing = true → p.departing = false → q.lists = [] ∧ SwitchedFrom (settle (compareSerial f d)) f.sender) := by
  obtain ⟨g, hg, hfresh, hbodies⟩ := presence_known hp
  have hall : Spares kind f.sender (presence f c) (settle (compareSerial f d)) := hspares.trans (.of_keepsAway (settle_compare_keepsAway _ f d))
  have hfound : findPeer (updatePeer f.sender g c) f.sender = some (g p) := by rw [findPeer_updatePeer hg, hp, Option.map_some]
  obtain ⟨q, hq, hlasts⟩ := findPeer_of_lasting (hall.lasting.trans (lasting_of_bodies hbodies)) hfound
  refine ⟨q, g p, hq, hfresh, hlasts, fun hdeparting hd => ?_⟩
  obtain ⟨hnone, hlists, haway, _⟩ := presence_departs hp ((hfresh.departing.symm.trans hlasts.departing.symm).trans hdeparting) hd
  obtain ⟨hmem, hid⟩ := mem_of_findPeer hq
  exact ⟨hall.lists hnone hlists q hmem hid, hall.away hnone haway⟩

theorem Refreshed.of_body {f : RxFrame} {now : Nat} {p q r : PeerRecord} (h : Refreshed f now p q) (hr : peerBody r = peerBody q) : Refreshed f now p r := by
  obtain ⟨hheard, hdeparting, horigin, _, hstrikes, hshunned, hbusy, hlists, _⟩ := body_eq hr
  exact ⟨hheard.trans h.heard, hdeparting.trans h.departing, horigin.trans h.origin, ⟨hstrikes.trans h.strikes.1, hshunned.trans h.strikes.2⟩,
    hbusy.trans h.busy, fun hf => hlists.trans (h.lists hf)⟩

/-- R30. The record after a Leave: departing, and otherwise as it was but for its coverage. -/
theorem afterLeave_fields {q r : PeerRecord} (h : peerBody q = peerBody (if r.departing then r else departed r)) :
    q.lastHeard = r.lastHeard ∧ q.departing = true ∧ q.originAttr = r.originAttr ∧ q.estimate = r.estimate ∧ q.strikes = r.strikes ∧
      q.shunnedUntil = r.shunnedUntil ∧ q.busyUntil = r.busyUntil := by
  obtain ⟨hheard, hdeparting, horigin, hestimate, hstrikes, hshunned, hbusy, _, _⟩ := body_eq h
  cases hd : r.departing <;> simp_all [departed]

/-- R30. A Leave refreshes a known sender's record, which is then marked as departing; the other records stand. -/
theorem leave_known {f : RxFrame} {c : Chip} {p : PeerRecord} (hp : findPeer c f.sender = some p) :
    let t := settle (compareSerial f (announceDeparture f.sender (presence f c)))
    ∃ q r, findPeer t f.sender = some q ∧ Refreshed f c.now p r ∧ peerBody q = peerBody (if r.departing then r else departed r) ∧
      otherBodies f.sender t.peers = otherBodies f.sender c.peers ∧
      (p.departing = false → q.lists = [] ∧ SwitchedFrom t f.sender ∧ HoldersExact t) := by
  intro t
  obtain ⟨g, hg, hfresh, hbodies⟩ := presence_known hp
  obtain ⟨r, hr, hrbody⟩ := findPeer_of_changed hg hp hbodies
  obtain ⟨g', hg', hgr, hbodies'⟩ := announceDeparture_known hr
  have hkeep : KeepsAway f.sender (announceDeparture f.sender (presence f c)) t := settle_compare_keepsAway _ _ _
  have hexact : HoldersExact (announceDeparture f.sender (presence f c)) → HoldersExact t := (settle_compare_holdings _ _).holdersExact
  obtain ⟨q, hq, hqbody⟩ := findPeer_of_changed hg' hr (hkeep.1.trans hbodies')
  have hrfresh := hfresh.of_body hrbody
  refine ⟨q, r, hq, hrfresh, hgr ▸ hqbody, ?_, fun hd => ?_⟩
  · rw [otherBodies_of_bodies (hkeep.1.trans hbodies'), otherBodies_updatePeer hg', otherBodies_of_bodies hbodies, otherBodies_updatePeer hg]
  · obtain ⟨hmem, hid⟩ := mem_of_findPeer hq
    cases hf : f.departing with
    | true =>
      obtain ⟨hnone, hlists, haway, hcounts⟩ := presence_departs hp hf hd
      have hsame : announceDeparture f.sender (presence f c) = presence f c := by simp [announceDeparture, hr, hrfresh.departing, hf]
      rw [hsame] at hkeep hexact
      exact ⟨hlists.of_bodies hkeep.1 q hmem hid, hkeep.2 hnone haway, hexact hcounts⟩
    | false =>
      obtain ⟨hdeparted, haway, hcounts⟩ := announceDeparture_new hr (hrfresh.departing.trans hf)
      obtain ⟨hnone, hlists⟩ := noHolder_of_departed hdeparted
      exact ⟨hlists.of_bodies hkeep.1 q hmem hid, hkeep.2 hnone haway, hexact hcounts⟩

/-- R21, R30. Of the standing part a Leave changes nothing before the comparison. -/
theorem leave_standing (f : RxFrame) (c : Chip) : standing (announceDeparture f.sender (presence f c)) = standing c :=
  (standing_of_stands (announceDeparture_reports f.sender _).1.1).trans (standing_of_stands (presence_stands f c).1)

/-- A frame of an unknown sender with its departing flag set gives it no record. -/
theorem unknown_departing {kind : FrameKind} {f : RxFrame} {c d : Chip} (hp : findPeer c f.sender = none) (hf : f.departing = true)
    (hspares : Spares kind f.sender (presence f c) d) : findPeer (settle (compareSerial f d)) f.sender = none := by
  rw [presence_ignored hp hf] at hspares
  have hall := hspares.trans (.of_keepsAway (settle_compare_keepsAway f.sender f d))
  exact findPeer_none_of_map (g := lasting kind) (key := fun p => p.id) (fun _ => rfl) hall.lasting hp

/-- Settles O12, by what presence makes of the sender's record, what every kind's owner leaves of it, and what settling leaves of it. -/
theorem presenceOfSender : Obligations.PresenceOfSender := by
  unfold Obligations.PresenceOfSender
  intro s kind frame f haccepts
  obtain ⟨owner, hexec, hleave, hother⟩ := frameRow_received s kind frame
  have hkind : f.kind = kind := haccepts.2.2
  rw [receive_accepted haccepts] at hexec
  refine ⟨_, hexec, rfl, ?_⟩
  by_cases hk : kind = .leave
  · subst hk
    rw [hleave rfl]
    cases hp : findPeer s.chip f.sender with
    | some p =>
      obtain ⟨q, r, hq, hfresh, hbody, hothers, hnew⟩ := leave_known hp
      obtain ⟨hheard, hdeparting, horigin, _, hstrikes, hshunned, hbusy⟩ := afterLeave_fields hbody
      dsimp only
      refine ⟨q, hq, hheard.trans hfresh.heard, by simp [hdeparting], ?_, fun _ hd => ?_,
        fun _ => ⟨hstrikes.trans hfresh.strikes.1, hshunned.trans hfresh.strikes.2⟩, fun _ => hbusy.trans hfresh.busy, fun _ => ⟨?_, hothers⟩⟩
      · rw [← hkind]
        exact horigin.trans hfresh.origin
      · obtain ⟨hlists, haway, hexact⟩ := hnew hd
        exact ⟨hlists, haway, fun _ => hexact⟩
      · exact settle_compare_standing f (leave_standing f s.chip)
    | none =>
      dsimp only
      cases hf : f.departing with
      | true =>
        have hsame : announceDeparture f.sender (presence f s.chip) = presence f s.chip := by simp [announceDeparture, presence_ignored hp hf, hp]
        rw [hsame]
        exact unknown_departing (kind := .leave) hp hf (.refl _)
      | false =>
        have hmade := (presence_unknown hp hf).1
        obtain ⟨g, hg, hgp, hbodies⟩ := announceDeparture_known hmade
        obtain ⟨q, hq, hbody⟩ := findPeer_of_changed hg hmade ((settle_compare_keepsAway f.sender f _).1.trans hbodies)
        obtain ⟨hheard, hdeparting, horigin, hestimate, _⟩ := afterLeave_fields (hgp ▸ hbody)
        exact ⟨q, hq, hheard, by simp [hdeparting], fun _ => by rw [horigin, newPeer, hkind]; rfl, hestimate⟩
  · cases hp : findPeer s.chip f.sender with
    | some p =>
      obtain ⟨q, r, hq, hfresh, hlasts, hnew⟩ := otherFrame_known (hother hk f _) hp
      have hnot : (kind == .leave) = false := by simpa using hk
      refine ⟨q, hq, hlasts.heard.trans hfresh.heard, ?_, ?_, fun hdeparting hd => ?_, fun hb => ?_, fun hb => (hlasts.busy hb).trans hfresh.busy,
        fun h => absurd h hk⟩
      · rw [hnot, Bool.or_false]
        exact hlasts.departing.trans hfresh.departing
      · rw [← hkind]
        exact hlasts.origin.trans hfresh.origin
      · obtain ⟨hlists, haway⟩ := hnew hdeparting hd
        exact ⟨hlists, haway, fun h => absurd h hk⟩
      · obtain ⟨hstrikes, hshunned⟩ := hlasts.strikes hb
        exact ⟨hstrikes.trans hfresh.strikes.1, hshunned.trans hfresh.strikes.2⟩
    | none =>
      dsimp only
      cases hf : f.departing with
      | true => exact unknown_departing hp hf (hother hk f _)
      | false =>
        have hall := (hother hk f (presence f s.chip)).trans (.of_keepsAway (settle_compare_keepsAway f.sender f _))
        obtain ⟨q, hq, hlasts⟩ := findPeer_of_lasting hall.lasting (presence_unknown hp hf).1
        have hnot : (kind == .leave) = false := by simpa using hk
        refine ⟨q, hq, hlasts.heard, hlasts.departing.trans hnot.symm, fun hplan => ?_, hlasts.estimate⟩
        rw [hlasts.origin, newPeer, hkind]
        simp [hplan]

/-! ## An Offer (R26, R27) -/

theorem othersStand_of_subset {before after : List PeerRecord} {station : Nat} (h : otherBodies station after ⊆ otherBodies station before) :
    OthersStand before after station := by
  intro q hq hid
  have hmem : peerBody q ∈ otherBodies station before := h (List.mem_map_of_mem (List.mem_filter.mpr ⟨hq, by simpa using hid⟩))
  obtain ⟨p, hp, e⟩ := List.mem_map.mp hmem
  exact ⟨p, List.mem_of_mem_filter hp, e.symm⟩

theorem mem_insertPeer {p q : PeerRecord} {ps : List PeerRecord} (h : q.id ≠ p.id) : q ∈ insertPeer p ps ↔ q ∈ ps := by
  have hne : q ≠ p := fun e => h (by rw [e])
  have hsplit : q.id < p.id ∨ p.id < q.id := by omega
  simp only [insertPeer, List.mem_append, List.mem_cons, List.mem_filter, decide_eq_true_eq, hne, false_or]
  tauto

theorem otherBodies_insertPeer_subset (p : PeerRecord) (ps : List PeerRecord) :
    otherBodies p.id (insertPeer p ps) ⊆ otherBodies p.id ps ∧ otherBodies p.id ps ⊆ otherBodies p.id (insertPeer p ps) := by
  constructor
  all_goals
    intro x hx
    obtain ⟨q, hq, rfl⟩ := List.mem_map.mp hx
    obtain ⟨hmem, hid⟩ := List.mem_filter.mp hq
    have hne : q.id ≠ p.id := by simpa using hid
  · exact List.mem_map_of_mem (List.mem_filter.mpr ⟨(mem_insertPeer hne).mp hmem, hid⟩)
  · exact List.mem_map_of_mem (List.mem_filter.mpr ⟨(mem_insertPeer hne).mpr hmem, hid⟩)

theorem otherBodies_subset {station : Nat} {ps qs : List PeerRecord} (h : ∀ q ∈ ps, q ∈ qs) : otherBodies station ps ⊆ otherBodies station qs :=
  List.map_subset _ fun q hq => List.mem_filter.mpr ⟨h q (List.mem_of_mem_filter hq), (List.mem_filter.mp hq).2⟩

/-- R21, R22. After presence of a frame without the departing flag its sender has a record, not departing and with the coverage there was; the other records
were there before, and all are still there unless a full table had to make room. -/
theorem presence_present {f : RxFrame} {c : Chip} (hf : f.departing = false) :
    ∃ r, findPeer (presence f c) f.sender = some r ∧ r.departing = false ∧ (∀ k, rangeList r k = heldList c f.sender k) ∧
      otherBodies f.sender (presence f c).peers ⊆ otherBodies f.sender c.peers ∧
      ((findPeer c f.sender).isSome ∨ c.peers.length < 48 → otherBodies f.sender c.peers ⊆ otherBodies f.sender (presence f c).peers) := by
  cases hp : findPeer c f.sender with
  | some p =>
    obtain ⟨g, hg, hfresh, hbodies⟩ := presence_known hp
    obtain ⟨r, hr, hrbody⟩ := findPeer_of_changed hg hp hbodies
    have hrfresh := hfresh.of_body hrbody
    have hothers : otherBodies f.sender (presence f c).peers = otherBodies f.sender c.peers := by
      rw [otherBodies_of_bodies hbodies, otherBodies_updatePeer hg]
    refine ⟨r, hr, hrfresh.departing.trans hf, fun k => ?_, hothers ▸ List.Subset.refl _, fun _ => hothers ▸ List.Subset.refl _⟩
    simp [heldList, hp, rangeList, hrfresh.lists hf]
  | none =>
    obtain ⟨hmade, hpeers⟩ := presence_unknown hp hf
    obtain ⟨hsub, hsup⟩ := otherBodies_insertPeer_subset (newPeer f.sender c.now (f.kind != .plan && f.originFlag)) (makeRoom c).peers
    refine ⟨_, hmade, rfl, fun k => by simp [heldList, hp, rangeList, newPeer], ?_, fun hroom => ?_⟩
    · rw [hpeers]
      exact List.Subset.trans hsub (otherBodies_subset fun q hq => makeRoom_mem hq)
    · have hlength : c.peers.length < 48 := by simpa using hroom
      have hsame : makeRoom c = c := by simp [makeRoom, hlength]
      rw [hpeers]
      rwa [hsame] at hsup ⊢

/-- The images that have a record. -/
def imagesOf (c : Chip) : List ImageKey := c.catalog.records.map (fun r => r.image)

theorem findRecord_of_images {c d : Chip} (h : imagesOf d = imagesOf c) (k : ImageKey) : (findRecord d k).isSome = (findRecord c k).isSome := by
  have hmem : k ∈ imagesOf d ↔ k ∈ imagesOf c := by rw [h]
  rw [Bool.eq_iff_iff, findRecord_isSome_iff, findRecord_isSome_iff]
  simpa [imagesOf] using hmem

theorem removePeer_images (id : Nat) (c : Chip) : imagesOf (removePeer id c) = imagesOf c := by
  have hrecount : ∀ d, imagesOf (recount d) = imagesOf d := fun d => by
    obtain ⟨a, h⟩ := recount_does d
    rw [h]
    simp [imagesOf, countRecord, Function.comp_def]
  unfold removePeer askIf
  split <;> exact hrecount _

theorem makeRoom_images (c : Chip) : imagesOf (makeRoom c) = imagesOf c := by
  unfold makeRoom
  split
  · rfl
  · split
    exacts [removePeer_images _ c, removePeer_images _ c, rfl]

/-- R21, R25. Presence of a frame without the departing flag changes an image's record in its counts alone. -/
theorem presence_images {f : RxFrame} {c : Chip} (hf : f.departing = false) : imagesOf (presence f c) = imagesOf c := by
  unfold presence
  rw [hf]
  split
  · simp only [Bool.false_eq_true, if_false]
    split <;> rfl
  · exact makeRoom_images c

theorem offerWellFormed_iff (o : OfferBody) :
    offerWellFormed o = true ↔
      o.spanFirst ≤ o.spanLast ∧ o.spanLast ≤ 2024 ∧ ∀ r ∈ o.ranges, r.first ≤ r.last ∧ o.spanFirst ≤ r.first ∧ r.last ≤ o.spanLast := by
  simp [offerWellFormed, and_assoc]

/-- R26, R27. The sender's list after its Offer has reached the Peer Table, with the other records as they were. -/
theorem mergeOffer_does {c : Chip} {sender : Nat} {p : PeerRecord} (hp : findPeer c sender = some p) (hd : p.departing = false) (o : OfferBody) :
    ∃ q, findPeer (mergeOffer sender o c) sender = some q ∧ otherBodies sender (mergeOffer sender o c).peers = otherBodies sender c.peers ∧
      (∀ k, k ≠ o.image → rangeList q k = rangeList p k) ∧
      ((findRecord c o.image).isSome → offerWellFormed o = true →
        rangeList q o.image = mergeRuns o.spanFirst o.spanLast o.ranges (rangeList p o.image) ∧ HoldersExact (mergeOffer sender o c)) ∧
      (¬((findRecord c o.image).isSome ∧ offerWellFormed o = true) → rangeList q o.image = rangeList p o.image) := by
  by_cases hmerge : (findRecord c o.image).isSome ∧ offerWellFormed o = true
  · have hrun : mergeOffer sender o c = changeList sender o.image (mergeRuns o.spanFirst o.spanLast o.ranges) c := by
      obtain ⟨hrecord, hform⟩ := hmerge
      cases hrec : findRecord c o.image with
      | some r => simp [mergeOffer, hp, hd, hrec, hform]
      | none => simp [hrec] at hrecord
    have hpeers : (mergeOffer sender o c).peers =
        (updatePeer sender (fun p => setRangeList o.image (mergeRuns o.spanFirst o.spanLast o.ranges (rangeList p o.image)) p) c).peers := by
      rw [hrun, changeList, askIf_peers, recount_peers]
    have hid : ∀ p : PeerRecord, (setRangeList o.image (mergeRuns o.spanFirst o.spanLast o.ranges (rangeList p o.image)) p).id = p.id := fun _ => rfl
    refine ⟨setRangeList o.image (mergeRuns o.spanFirst o.spanLast o.ranges (rangeList p o.image)) p, ?_, ?_, fun k hk => ?_, fun _ _ => ⟨?_, ?_⟩,
      fun hnot => absurd hmerge hnot⟩
    · have := findPeer_updatePeer hid sender c
      rw [hp, Option.map_some] at this
      rwa [findPeer, hpeers]
    · rw [hpeers, otherBodies_updatePeer hid]
    · rw [rangeList_setRangeList, if_neg hk]
    · rw [rangeList_setRangeList, if_pos rfl]
    · rw [hrun]
      exact changeList_exact _ _ _ _
  · have hrun : mergeOffer sender o c = c := by
      rw [not_and_or, Bool.not_eq_true, Option.isSome_eq_false_iff, Bool.not_eq_true] at hmerge
      rcases hmerge with hrecord | hform
      · simp [mergeOffer, hp, hrecord]
      · simp [mergeOffer, hp, hform]
    rw [hrun]
    exact ⟨p, hp, rfl, fun _ _ => rfl, fun h k => absurd ⟨h, k⟩ hmerge, fun _ => rfl⟩

/-- Settles O13, by what presence makes of the sender's record, the change of its list, and the recount after it. -/
theorem offerMergedIntoList : Obligations.OfferMergedIntoList := by
  unfold Obligations.OfferMergedIntoList
  intro s frame f haccepts hf o wellFormed
  obtain ⟨p, hp, hpd, hlists, hsub, hsup⟩ := presence_present (c := s.chip) hf
  obtain ⟨r, hr, hothers, hother, hmerged, hleft⟩ := mergeOffer_does hp hpd o
  have hexec : exec (.offer frame) s = .next { s with chip := settle (compareSerial f (mergeOffer f.sender o (presence f s.chip))) } := by
    have hrun : exec (.offer frame) s =
        .next { s with chip := settle (receive .offer (fun f => mergeOffer f.sender (offerOf f.payload)) frame s.chip) } := rfl
    rw [hrun, receive_accepted haccepts]
  have hstands : standing (mergeOffer f.sender o (presence f s.chip)) = standing s.chip :=
    (standing_of_stands (mergeOffer_quiet f.sender o _).1.1).trans (standing_of_stands (presence_stands f s.chip).1)
  have hbodies := (settle_compare_keepsAway f.sender f (mergeOffer f.sender o (presence f s.chip))).1
  have hafter : otherBodies f.sender (settle (compareSerial f (mergeOffer f.sender o (presence f s.chip)))).peers =
      otherBodies f.sender (presence f s.chip).peers := (otherBodies_of_bodies hbodies _).trans hothers
  obtain ⟨q, hq, hbody⟩ := Option.map_eq_some_iff.mp ((findPeer_of_bodies hbodies f.sender).trans (congrArg (Option.map peerBody) hr))
  obtain ⟨_, _, _, _, _, _, _, hsame, _⟩ := body_eq hbody
  have hlist : ∀ k, rangeList q k = rangeList r k := fun k => by rw [rangeList, rangeList, hsame]
  have hform : offerWellFormed o = true ↔ wellFormed := offerWellFormed_iff o
  rw [findRecord_of_images (presence_images hf), hform] at hmerged hleft
  have hstanding := settle_compare_standing f hstands
  have hcounts := (settle_compare_holdings f (mergeOffer f.sender o (presence f s.chip))).holdersExact
  generalize settle (compareSerial f (mergeOffer f.sender o (presence f s.chip))) = t at hexec hstanding hcounts hafter hq
  refine ⟨_, q, hexec, rfl, hstanding, hq, othersStand_of_subset (hafter ▸ hsub), fun hroom => othersStand_of_subset (hafter ▸ hsup hroom),
    fun k hk => ?_, fun hrecord hwell => ?_, fun hnot => ?_⟩
  · rw [hlist, hother k hk, hlists]
  · obtain ⟨hmerge, hexact⟩ := hmerged hrecord hwell
    exact ⟨by rw [hlist, hmerge, hlists], hcounts hexact⟩
  · rw [hlist, hleft hnot, hlists]

end Sys2Proof.Machine
end

