-- ==== Sys2Proof/Proofs/BeaconAdoption.lean ====
section
/-!
SUPPORT. A Beacon: its record, the comparison with the pairs heard, the adoption with what it reports, and the relay (R36, R166, R167).
-/
namespace Sys2Proof.Machine

/-! ## The better pair (R36) -/

/-- R36. Some record heard within 15,000 ms has a lower depth than the Beacon, or an equal depth and a lower id. -/
def BetterHeard (c : Chip) (depth sender : Nat) : Prop :=
  ∃ p ∈ c.peers, ∃ b, p.beacon = some b ∧ c.now ≤ b.time + 15000 ∧ (b.depth < depth ∨ (b.depth = depth ∧ p.id < sender))

theorem heardBetter_iff (c : Chip) (depth sender : Nat) : heardBetter c depth sender = true ↔ BetterHeard c depth sender := by
  unfold heardBetter BetterHeard
  rw [List.any_eq_true]
  refine exists_congr fun p => and_congr_right fun _ => ?_
  cases p.beacon <;> simp [betterPair]

/-- R36. The comparison reads what no owner and no settling changes of the bodies. -/
theorem betterHeard_of_bodies {c d : Chip} (hnow : d.now = c.now) (h : d.peers.map peerBody = c.peers.map peerBody) {depth sender : Nat}
    (hc : BetterHeard c depth sender) : BetterHeard d depth sender := by
  obtain ⟨p, hp, b, hb, htime, hbetter⟩ := hc
  have hmem : peerBody p ∈ d.peers.map peerBody := h ▸ List.mem_map_of_mem hp
  obtain ⟨q, hq, e⟩ := List.mem_map.mp hmem
  have hbeacon : q.beacon = p.beacon := show (peerBody q).beacon = (peerBody p).beacon by rw [e]
  have hid : q.id = p.id := show (peerBody q).id = (peerBody p).id by rw [e]
  exact ⟨q, hq, b, hbeacon.trans hb, hnow ▸ htime, hid ▸ hbetter⟩

theorem betterHeard_iff_of_bodies {c d : Chip} (hnow : d.now = c.now) (h : d.peers.map peerBody = c.peers.map peerBody) (depth sender : Nat) :
    BetterHeard d depth sender ↔ BetterHeard c depth sender :=
  ⟨betterHeard_of_bodies hnow.symm h.symm, betterHeard_of_bodies hnow h⟩

/-! ## The adoption (R166) -/

theorem reportAdoption_does (before : ClockState) (sender depth : Nat) (change : Int) (c : Chip) :
    ∃ reports, reportAdoption before sender depth change c = { c with port := { c.port with reports := reports } } := by
  unfold reportAdoption
  (repeat' split) <;> exact ⟨_, rfl⟩

/-- R166. Before the relay an adoption has taken the clock and reported; the Yard's lane and the rest of the standing part stand. -/
theorem adoptionReported_does (sender depth : Nat) (time : Word32) (c : Chip) :
    let told := adoptionReported sender depth time c
    standing told = { standing c with clock := told.clock } ∧ told.clock = (clockTaken sender depth time c).clock ∧ told.now = c.now ∧ told.yard = c.yard ∧
      told.port.reports = (reportAdoption c.clock.state sender depth (yardDiff time (yardNow c)) (clockTaken sender depth time c)).port.reports := by
  obtain ⟨reports, h⟩ := reportAdoption_does c.clock.state sender depth (yardDiff time (yardNow c)) (clockTaken sender depth time c)
  unfold adoptionReported
  rw [h]
  dsimp only
  split <;> exact ⟨rfl, rfl, rfl, rfl, rfl⟩

/-- R167. A relay notes its time and queues its Beacon; without one nothing changes. -/
theorem relayBeacon_does (depth : Nat) (c : Chip) :
    standing (relayBeacon depth c) = { standing c with clock := (relayBeacon depth c).clock } ∧
      { (relayBeacon depth c).clock with lastRelay := c.clock.lastRelay } = c.clock ∧
      (Relays c depth → (relayBeacon depth c).clock.lastRelay = some c.now ∧
        (c.yard.mode = .on → c.yard.urgent.length < 8 → .beacon (depth + 1) ∈ (relayBeacon depth c).yard.urgent)) ∧
      (¬Relays c depth → (relayBeacon depth c).clock = c.clock) ∧ (relayBeacon depth c).port = c.port := by
  by_cases h : Relays c depth
  · rw [relayBeacon_of_relays h]
    have hlane := mem_pushUrgent (f := .beacon (depth + 1)) (c := { c with clock.lastRelay := some c.now })
    obtain ⟨lane, hpush⟩ := pushUrgent_does (.beacon (depth + 1)) { c with clock.lastRelay := some c.now }
    refine ⟨?_, ?_, fun _ => ⟨?_, hlane⟩, fun hnot => absurd h hnot, ?_⟩ <;> rw [hpush]
    rfl
  · rw [relayBeacon_of_not_relays h]
    exact ⟨rfl, rfl, fun hr => absurd hr h, fun _ => rfl, rfl⟩

/-- R166. What an adoption that finds the clock in the state reports. -/
theorem reportAdoption_reported (before : ClockState) (sender depth : Nat) (change : Int) (c : Chip) :
    let after := (reportAdoption before sender depth change c).port.reports
    (before = .unsynced → Reported c.port.reports after .clockSynced (.number sender) depth c.now) ∧
      (before ≠ .unsynced → 1000 < change → Reported c.port.reports after .clockStep (.number sender) 1 c.now) ∧
      (before ≠ .unsynced → change < -1000 → Reported c.port.reports after .clockStep (.number sender) 2 c.now) := by
  have told : ∀ kind detail, Reported c.port.reports (report kind (.number sender) detail c).port.reports kind (.number sender) detail c.now :=
    fun kind detail => reported_of_report (.refl _) (.refl _)
  have stepped : before ≠ .unsynced → 1000 < change.natAbs →
      reportAdoption before sender depth change c = report .clockStep (.number sender) (if 0 < change then 1 else 2) c := fun hb hc => by
    cases before <;> simp_all [reportAdoption]
  refine ⟨fun hb => ?_, fun hb hc => ?_, fun hb hc => ?_⟩
  · subst hb
    exact told _ _
  · have hfar : 1000 < change.natAbs := by omega
    have hsign : 0 < change := by omega
    rw [stepped hb hfar, if_pos hsign]
    exact told _ _
  · have hfar : 1000 < change.natAbs := by omega
    have hsign : ¬0 < change := by omega
    rw [stepped hb hfar, if_neg hsign]
    exact told _ _

/-- R166, R167. The clock after an adoption, with the relay, and what was reported. -/
theorem adoptBeacon_does (sender depth : Nat) (time : Word32) (c : Chip) :
    let d := adoptBeacon sender depth time c
    standing d = { standing c with clock := d.clock } ∧ { d.clock with lastRelay := c.clock.lastRelay } = (clockTaken sender depth time c).clock ∧
      (Relays c depth → d.clock.lastRelay = some c.now ∧ (c.yard.mode = .on → c.yard.urgent.length < 8 → .beacon (depth + 1) ∈ d.yard.urgent)) ∧
      (¬Relays c depth → d.clock.lastRelay = c.clock.lastRelay) ∧
      d.port.reports = (reportAdoption c.clock.state sender depth (yardDiff time (yardNow c)) (clockTaken sender depth time c)).port.reports := by
  obtain ⟨hstand, hclock, hnow, hyard, hreports⟩ := adoptionReported_does sender depth time c
  obtain ⟨hstand', hclock', hrelay, hnone, hport⟩ := relayBeacon_does depth (adoptionReported sender depth time c)
  have hlast : (adoptionReported sender depth time c).clock.lastRelay = c.clock.lastRelay := by rw [hclock]; rfl
  have hsame : Relays (adoptionReported sender depth time c) depth ↔ Relays c depth := by rw [Relays, Relays, hlast, hnow]
  rw [hsame, hnow, hyard] at hrelay
  rw [hsame] at hnone
  rw [adoptBeacon_eq]
  refine ⟨hstand'.trans (by rw [hstand]), ?_, hrelay, fun h => (congrArg Clock.lastRelay (hnone h)).trans hlast, (congrArg Port.reports hport).trans hreports⟩
  rw [← hclock, ← hclock', hlast]

/-! ## What comes after (R6, log 13) -/

theorem mem_pushUrgent_of_mem {x y : UrgentFrame} {c : Chip} (h : x ∈ c.yard.urgent) : x ∈ (pushUrgent y c).yard.urgent := by
  unfold pushUrgent
  dsimp only
  (repeat' split) <;> simp [h]

theorem settle_compare_lane {x : UrgentFrame} (f : RxFrame) {d : Chip} (h : x ∈ d.yard.urgent) : x ∈ (settle (compareSerial f d)).yard.urgent := by
  have hcompare : x ∈ (compareSerial f d).yard.urgent := by
    unfold compareSerial
    split
    exacts [mem_pushUrgent_of_mem h, h]
  obtain ⟨fs, _, hlane⟩ := (settle_adds (compareSerial f d)).2.1
  rw [hlane]
  exact List.mem_append_left _ hcompare

theorem settle_compare_reported {ring : List Report} {kind : ReportKind} {subject : Subject} {detail now : Nat} (f : RxFrame) {d : Chip}
    (h : Reported ring d.port.reports kind subject detail now) : Reported ring (settle (compareSerial f d)).port.reports kind subject detail now := by
  rw [← (compareSerial_same f d).2] at h
  exact h.after (settle_adds _).1

theorem standing_clock (c : Chip) : (standing c).clock = c.clock := rfl

theorem standing_now (c : Chip) : (standing c).now = c.now := rfl

/-- R166. Of the standing part the comparison and settling leave the clock as it is. -/
theorem settle_compare_clock (f : RxFrame) {c d : Chip} (h : standing d = { standing c with clock := d.clock }) :
    (settle (compareSerial f d)).clock = d.clock ∧
      standing (settle (compareSerial f d)) =
        { standing c with
          clock := (settle (compareSerial f d)).clock
          plans := { c.plans with lastPlanAsk := (settle (compareSerial f d)).plans.lastPlanAsk } } := by
  have hall := settle_compare_standing f (c := d) rfl
  have hclock : (settle (compareSerial f d)).clock = d.clock := (standing_clock _).symm.trans (by rw [hall]; rfl)
  have hplans : d.plans = c.plans := congrArg Standing.plans h
  refine ⟨hclock, hall.trans ?_⟩
  rw [h, hclock, hplans]

/-- R21, R36. The chip with the Beacon recorded against its sender, which presence has dealt with. -/
def beaconRecorded (f : RxFrame) (c : Chip) : Chip := recordBeacon f.sender (byteAt f.payload 4) (presence f c)

theorem beaconRecorded_does {f : RxFrame} {c : Chip} (hf : f.departing = false) :
    standing (beaconRecorded f c) = standing c ∧ (beaconRecorded f c).clock = c.clock ∧ (beaconRecorded f c).now = c.now ∧
      (beaconRecorded f c).role = c.role ∧ (beaconRecorded f c).yard.mode = c.yard.mode ∧ (beaconRecorded f c).yard.urgent = c.yard.urgent ∧
      (beaconRecorded f c).port.reports = c.port.reports ∧
      ∃ p, findPeer (beaconRecorded f c) f.sender = some p ∧ p.beacon = some ⟨byteAt f.payload 4, c.now⟩ := by
  obtain ⟨⟨hstands, _, hlane⟩, hreports⟩ := presence_quiet f c hf
  have hstanding : standing (presence f c) = standing c := standing_of_stands hstands
  simp only [Stands] at hstands
  have hnow : (presence f c).now = c.now := by simp [hstands]
  refine ⟨hstanding, by simp [beaconRecorded, recordBeacon, hstands], hnow, by simp [beaconRecorded, recordBeacon, hstands],
    by simp [beaconRecorded, recordBeacon, hstands], hlane, hreports, ?_⟩
  obtain ⟨r, hr, _⟩ := presence_present (c := c) hf
  have hfound := findPeer_updatePeer (f := fun p => { p with beacon := some ⟨byteAt f.payload 4, (presence f c).now⟩ }) (by exact fun _ => rfl) f.sender
    (presence f c)
  rw [hr] at hfound
  exact ⟨_, hfound, by simp [hnow]⟩

/-- R166, R167. What the adoption of a recorded Beacon leaves, after the comparison and settling. -/
theorem beacon_adopts {f : RxFrame} {c : Chip} (hf : f.departing = false) (hmode : c.yard.mode = .on) (sender depth : Nat) (time : Word32) :
    let t := settle (compareSerial f (adoptBeacon sender depth time (beaconRecorded f c)))
    standing t = { standing c with clock := t.clock, plans := { c.plans with lastPlanAsk := t.plans.lastPlanAsk } } ∧
      { t.clock with lastRelay := c.clock.lastRelay } = (clockTaken sender depth time c).clock ∧
      (Relays c depth → t.clock.lastRelay = some c.now ∧ (c.yard.urgent.length < 8 → .beacon (depth + 1) ∈ t.yard.urgent)) ∧
      (¬Relays c depth → t.clock.lastRelay = c.clock.lastRelay) ∧
      (c.clock.state = .unsynced → Reported c.port.reports t.port.reports .clockSynced (.number sender) depth c.now) ∧
      (c.clock.state ≠ .unsynced → 1000 < yardDiff time (yardNow c) → Reported c.port.reports t.port.reports .clockStep (.number sender) 1 c.now) ∧
      (c.clock.state ≠ .unsynced → yardDiff time (yardNow c) < -1000 → Reported c.port.reports t.port.reports .clockStep (.number sender) 2 c.now) := by
  obtain ⟨hstands, hclock, hnow, hrole, hon, hlane, hreports, _⟩ := beaconRecorded_does (c := c) hf
  obtain ⟨hadopted, htaken, hrelay, hnone, htold⟩ := adoptBeacon_does sender depth time (beaconRecorded f c)
  have hsame : Relays (beaconRecorded f c) depth ↔ Relays c depth := by rw [Relays, Relays, hclock, hnow]
  have hyard : yardNow (beaconRecorded f c) = yardNow c := by rw [yardNow, yardNow, hclock, hnow]
  have hgiven : (clockTaken sender depth time (beaconRecorded f c)).clock = (clockTaken sender depth time c).clock := by
    simp only [clockTaken, hclock, hnow]
  obtain ⟨hsynced, hforward, hback⟩ := reportAdoption_reported (beaconRecorded f c).clock.state sender depth (yardDiff time (yardNow (beaconRecorded f c)))
    (clockTaken sender depth time (beaconRecorded f c))
  have hnow' : (clockTaken sender depth time (beaconRecorded f c)).now = c.now := hnow
  have hreports' : (clockTaken sender depth time (beaconRecorded f c)).port.reports = c.port.reports := hreports
  rw [← htold, hnow', hreports', hclock] at hsynced hforward hback
  rw [hyard] at hforward hback
  rw [hsame, hnow, hon, hlane] at hrelay
  rw [hsame, hclock] at hnone
  rw [hclock, hgiven] at htaken
  rw [hstands] at hadopted
  generalize adoptBeacon sender depth time (beaconRecorded f c) = d at *
  intro t
  have htclock : t.clock = d.clock := (settle_compare_clock f hadopted).1
  have hstanding : standing t = { standing c with clock := t.clock, plans := { c.plans with lastPlanAsk := t.plans.lastPlanAsk } } :=
    (settle_compare_clock f hadopted).2
  have reported : ∀ kind subject detail, Reported c.port.reports d.port.reports kind subject detail c.now →
      Reported c.port.reports t.port.reports kind subject detail c.now := fun _ _ _ h => settle_compare_reported f h
  have lane : ∀ x, x ∈ d.yard.urgent → x ∈ t.yard.urgent := fun _ h => settle_compare_lane f h
  clear_value t
  refine ⟨hstanding, htclock ▸ htaken, fun h => ?_, fun h => htclock ▸ hnone h, fun h => reported _ _ _ (hsynced h),
    fun h k => reported _ _ _ (hforward h k), fun h k => reported _ _ _ (hback h k)⟩
  obtain ⟨hlast, hqueued⟩ := hrelay h
  exact ⟨htclock ▸ hlast, fun hroom => lane _ (hqueued hmode hroom)⟩

/-- R166. A bus station that has heard no better pair adopts the Beacon. -/
def Adopts (f : RxFrame) (c : Chip) : Prop := c.role = .busStation ∧ ¬BetterHeard (beaconRecorded f c) (byteAt f.payload 4) f.sender

theorem onBeacon_present {f : RxFrame} {c : Chip} (hf : f.departing = false) :
    onBeacon f (presence f c) =
      if c.role = .origin || heardBetter (beaconRecorded f c) (byteAt f.payload 4) f.sender then beaconRecorded f c
      else adoptBeacon f.sender (byteAt f.payload 4) (BitVec.ofNat 32 (be32 f.payload 0)) (beaconRecorded f c) := by
  obtain ⟨_, _, _, hrole, _⟩ := beaconRecorded_does (c := c) hf
  rw [onBeacon, hf, ← hrole]
  rfl

/-- R36, R166. A Beacon without the departing flag is recorded, and adopted by a bus station that has heard no better pair. -/
theorem onBeacon_of_adopts {f : RxFrame} {c : Chip} (hf : f.departing = false) (h : Adopts f c) :
    onBeacon f (presence f c) = adoptBeacon f.sender (byteAt f.payload 4) (BitVec.ofNat 32 (be32 f.payload 0)) (beaconRecorded f c) := by
  obtain ⟨hrole, hbetter⟩ := h
  rw [← heardBetter_iff] at hbetter
  rw [onBeacon_present hf, if_neg (by simp [hrole, hbetter])]

theorem onBeacon_of_not_adopts {f : RxFrame} {c : Chip} (hf : f.departing = false) (h : ¬Adopts f c) :
    onBeacon f (presence f c) = beaconRecorded f c := by
  rw [Adopts, ← heardBetter_iff] at h
  rw [onBeacon_present hf, if_pos]
  cases hrole : c.role <;> simp_all

/-- R36. The table of peers after a Beacon shows the one recorded, and the same better pairs as when it was taken. -/
theorem beacon_peers {f : RxFrame} {c : Chip} (hf : f.departing = false) (depth sender : Nat) :
    let t := settle (compareSerial f (onBeacon f (presence f c)))
    t.now = c.now ∧ (BetterHeard t depth sender ↔ BetterHeard (beaconRecorded f c) depth sender) ∧
      ∃ p, findPeer t f.sender = some p ∧ p.beacon = some ⟨byteAt f.payload 4, c.now⟩ := by
  obtain ⟨_, _, hnow, _, _, _, _, r, hr, hbeacon⟩ := beaconRecorded_does (c := c) hf
  have hpeers : (onBeacon f (presence f c)).peers = (beaconRecorded f c).peers := by
    by_cases h : Adopts f c
    · rw [onBeacon_of_adopts hf h, (adoptBeacon_leavesPeers _ _ _ _).1]
    · rw [onBeacon_of_not_adopts hf h]
  have hlater : (settle (compareSerial f (onBeacon f (presence f c)))).now = c.now := by
    obtain ⟨_, _, _, howner, _, _⟩ := onBeacon_leaves f (presence f c)
    have hpresence : (presence f c).now = c.now := congrArg Standing.now (standing_of_stands (presence_stands f c).1)
    have hafter : ∀ d, (settle (compareSerial f d)).now = d.now := fun d => (standing_now _).symm.trans (by rw [settle_compare_standing f (c := d) rfl]; rfl)
    rw [hafter, howner, hpresence]
  have hbodies : (settle (compareSerial f (onBeacon f (presence f c)))).peers.map peerBody = (beaconRecorded f c).peers.map peerBody := by
    rw [(settle_compare_keepsAway f.sender f _).1, hpeers]
  obtain ⟨q, hq, hbody⟩ := Option.map_eq_some_iff.mp ((findPeer_of_bodies hbodies f.sender).trans (congrArg (Option.map peerBody) hr))
  obtain ⟨_, _, _, _, _, _, _, _, hsame⟩ := body_eq hbody
  exact ⟨hlater, betterHeard_iff_of_bodies (hlater.trans hnow.symm) hbodies depth sender, q, hq, hsame.trans hbeacon⟩

/-- Settles O47, by the adoption with its relay, and what presence, the comparison and settling leave. -/
theorem beaconAdopted : Obligations.BeaconAdopted := by
  unfold Obligations.BeaconAdopted
  intro s frame f haccepts c depth time
  have hexec : exec (.beacon frame) s = .next { s with chip := settle (compareSerial f (onBeacon f (presence f c))) } := by
    have hrun : exec (.beacon frame) s = .next { s with chip := settle (receive .beacon onBeacon frame s.chip) } := rfl
    rw [hrun, receive_accepted haccepts]
  refine ⟨_, hexec, rfl, ?_⟩
  dsimp only
  cases hf : f.departing with
  | true =>
    have hstands : standing (presence f c) = standing c := standing_of_stands (presence_stands f c).1
    have hclock : (presence f c).clock = c.clock := (standing_clock _).symm.trans (by rw [hstands]; rfl)
    have hsame : onBeacon f (presence f c) = presence f c := by simp [onBeacon, hf]
    obtain ⟨hkept, hstanding⟩ := settle_compare_clock f (c := c) (d := presence f c) (by rw [hstands, hclock]; rfl)
    rw [hsame]
    exact ⟨hstanding, fun _ => hkept.trans hclock, by simp⟩
  | false =>
    obtain ⟨hnow, hbetter, hrecord⟩ := beacon_peers (c := c) hf depth f.sender
    have hbetter' : (∃ p ∈ (settle (compareSerial f (onBeacon f (presence f c)))).peers, ∃ b, p.beacon = some b ∧ c.now ≤ b.time + 15000 ∧
        (b.depth < depth ∨ (b.depth = depth ∧ p.id < f.sender))) ↔ BetterHeard (beaconRecorded f c) depth f.sender := by
      rw [← hbetter, BetterHeard, hnow]
    rw [hbetter']
    by_cases h : Adopts f c
    · obtain ⟨hstanding, hclock, hrelay, hnone, hreports⟩ := beacon_adopts (c := c) hf haccepts.1 f.sender (byteAt f.payload 4) (BitVec.ofNat 32 (be32 f.payload 0))
      rw [onBeacon_of_adopts hf h] at hrecord ⊢
      generalize settle (compareSerial f (adoptBeacon f.sender (byteAt f.payload 4) (BitVec.ofNat 32 (be32 f.payload 0)) (beaconRecorded f c))) = t at *
      exact ⟨hstanding, by simp, fun _ => ⟨hrecord, fun hnot => absurd h hnot, fun _ => ⟨hclock, hrelay, hnone, hreports⟩⟩⟩
    · obtain ⟨hrecorded, hrclock, _⟩ := beaconRecorded_does (c := c) hf
      obtain ⟨hkept, hstanding⟩ := settle_compare_clock f (c := c) (d := beaconRecorded f c) (by rw [hrecorded, hrclock]; rfl)
      rw [hrclock, ← onBeacon_of_not_adopts hf h] at hkept
      rw [← onBeacon_of_not_adopts hf h] at hstanding
      generalize settle (compareSerial f (onBeacon f (presence f c))) = t at *
      exact ⟨hstanding, by simp, fun _ => ⟨hrecord, fun _ => hkept, fun hadopted => absurd hadopted h⟩⟩

end Sys2Proof.Machine
end

