-- ==== Sys2Proof/Proofs/SelectionOrder.lean ====
section
/-!
SUPPORT. What selection chooses among: the holders (R43), the candidates and their order (R41, R42), and the evictable segments and the one evicted (R46).
-/
namespace Sys2Proof.Machine

/-! ## Holders (R33, R43) -/

/-- R33. The peer is an eligible holder of the segment, said of its record. -/
def Fit (c : Chip) (k : ImageKey) (seg : Nat) (p : PeerRecord) : Prop :=
  p ∈ c.peers ∧ p.departing = false ∧ p.shunnedUntil = none ∧ p.busyUntil = none ∧ p.openFetches < 2 ∧ covers (rangeList p k) seg = true

theorem fit_iff (c : Chip) (k : ImageKey) (seg : Nat) (p : PeerRecord) : Fit c k seg p ↔ p ∈ c.peers ∧ eligible k seg p = true := by
  simp [Fit, eligible, Bool.and_eq_true, and_assoc]

theorem exists_fit_iff (c : Chip) (k : ImageKey) (seg : Nat) : (∃ p, Fit c k seg p) ↔ c.peers.any (eligible k seg) = true := by
  simp only [fit_iff, List.any_eq_true]

/-- R43. No holder is chosen only when none is eligible. -/
theorem chooseHolder_none {c : Chip} {k : ImageKey} {seg : Nat} {besides : Option Nat} (h : chooseHolder c k seg besides = none) {p : PeerRecord}
    (hp : Fit c k seg p) : some p.id = besides := by
  obtain ⟨hmem, heligible⟩ := (fit_iff _ _ _ _).mp hp
  by_contra hne
  have := List.filter_eq_nil_iff.mp (bestHolder_eq_none.mp h) p hmem
  simp [heligible, hne] at this

/-- R43. The holder chosen is preferred to every other eligible one. -/
theorem chooseHolder_preferred {c : Chip} {k : ImageKey} {seg : Nat} {besides : Option Nat} {p : PeerRecord} (h : chooseHolder c k seg besides = some p)
    {q : PeerRecord} (hq : Fit c k seg q) (hne : some q.id ≠ besides) : Preferred p q := by
  obtain ⟨hmem, heligible⟩ := (fit_iff _ _ _ _).mp hq
  exact (bestHolder_some h).2 q (List.mem_filter.mpr ⟨hmem, by simp [heligible, hne]⟩)

theorem holder_choice (c : Chip) (k : ImageKey) (seg : Nat) (besides : Option Nat) :
    match chooseHolder c k seg besides with
    | none => ∀ p, Fit c k seg p → some p.id = besides
    | some p => Fit c k seg p ∧ some p.id ≠ besides ∧ ∀ q, Fit c k seg q → some q.id ≠ besides → Preferred p q := by
  cases h : chooseHolder c k seg besides with
  | none => exact fun p hp => chooseHolder_none h hp
  | some p =>
    obtain ⟨hmem, heligible, hne⟩ := chooseHolder_some h
    exact ⟨(fit_iff _ _ _ _).mpr ⟨hmem, heligible⟩, hne, fun q hq hq' => chooseHolder_preferred h hq hq'⟩

/-! ## The order of candidates (R42) -/

/-- R42. The keys of the order: need class, segment 0 first, holder count. -/
def orderKey (y : Candidate) : Nat × Nat × Nat := ((if y.need = .own then 0 else 1), (if y.segment = 0 then 0 else 1), y.holders)

def KeyBefore (a b : Nat × Nat × Nat) : Prop := a.1 < b.1 ∨ (a.1 = b.1 ∧ (a.2.1 < b.2.1 ∨ (a.2.1 = b.2.1 ∧ a.2.2 < b.2.2)))

theorem comesBefore_iff (a b : Candidate) : comesBefore a b = true ↔ KeyBefore (orderKey a) (orderKey b) := by
  unfold comesBefore KeyBefore orderKey
  by_cases ha : a.segment = 0 <;> by_cases hb : b.segment = 0 <;> cases hna : a.need <;> cases hnb : b.need <;> simp [ha, hb]

theorem firstCandidate_eq_none {l : List Candidate} : firstCandidate l = none ↔ l = [] := by
  cases l with
  | nil => simp [firstCandidate]
  | cons x xs =>
    unfold firstCandidate
    split
    · simp
    · split <;> simp

/-- R42. The first candidate comes strictly before those that precede it in the list, and none that follows it comes before it. -/
theorem firstCandidate_split {l : List Candidate} {x : Candidate} (h : firstCandidate l = some x) :
    ∃ l₁ l₂, l = l₁ ++ x :: l₂ ∧ (∀ y ∈ l₁, KeyBefore (orderKey x) (orderKey y)) ∧ ∀ y ∈ l₂, ¬KeyBefore (orderKey y) (orderKey x) := by
  induction l generalizing x with
  | nil => cases h
  | cons z zs ih =>
    unfold firstCandidate at h
    split at h
    · next hnone =>
      obtain rfl := Option.some.inj h
      obtain rfl := firstCandidate_eq_none.mp hnone
      exact ⟨[], [], rfl, by simp, by simp⟩
    · next y hy =>
      obtain ⟨l₁, l₂, rfl, hearlier, hlater⟩ := ih hy
      split at h
      · next hbefore =>
        obtain rfl := Option.some.inj h
        exact ⟨z :: l₁, l₂, rfl, List.forall_mem_cons.mpr ⟨(comesBefore_iff _ _).mp hbefore, hearlier⟩, hlater⟩
      · next hnot =>
        obtain rfl := Option.some.inj h
        rw [comesBefore_iff] at hnot
        refine ⟨[], l₁ ++ y :: l₂, rfl, by simp, fun w hw => ?_⟩
        have hw' : KeyBefore (orderKey y) (orderKey w) ∨ w = y ∨ ¬KeyBefore (orderKey w) (orderKey y) := by
          rcases List.mem_append.mp hw with hw | hw
          · exact .inl (hearlier w hw)
          · rcases List.mem_cons.mp hw with hw | hw
            exacts [.inr (.inl hw), .inr (.inr (hlater w hw))]
        rcases hw' with hw' | rfl | hw'
        · unfold KeyBefore at *
          omega
        · exact hnot
        · unfold KeyBefore at *
          omega

/-! ## Lists made of a record's entries -/

/-- What a function of position and entry makes of a record's entries from position `seg` on. -/
def fromEntries {α : Type} (f : Nat → SegEntry → List α) (seg : Nat) : List SegEntry → List α
  | [] => []
  | e :: es => f seg e ++ fromEntries f (seg + 1) es

variable {α : Type} {f : Nat → SegEntry → List α} {pos : α → Nat}

theorem mem_fromEntries {seg : Nat} {es : List SegEntry} {x : α} : x ∈ fromEntries f seg es ↔ ∃ j e, es[j]? = some e ∧ x ∈ f (seg + j) e := by
  induction es generalizing seg with
  | nil => simp [fromEntries]
  | cons e es ih =>
    rw [fromEntries, List.mem_append, ih]
    constructor
    · rintro (h | ⟨j, e', he, hx⟩)
      · exact ⟨0, e, rfl, h⟩
      · exact ⟨j + 1, e', he, by rwa [show seg + (j + 1) = seg + 1 + j by omega]⟩
    · rintro ⟨j, e', he, hx⟩
      cases j with
      | zero => exact .inl (Option.some.inj he ▸ hx)
      | succ j => exact .inr ⟨j, e', he, by rwa [show seg + 1 + j = seg + (j + 1) by omega]⟩

/-- Where each entry makes at most one thing, which shows its position, the positions rise. -/
theorem fromEntries_rise (hat : ∀ i e, ∀ x ∈ f i e, pos x = i) (hone : ∀ i e, (f i e).length ≤ 1) (seg : Nat) (es : List SegEntry) :
    (fromEntries f seg es).Pairwise (fun x y => pos x < pos y) := by
  induction es generalizing seg with
  | nil => exact .nil
  | cons e es ih =>
    have hsingle : (f seg e).Pairwise (fun x y => pos x < pos y) := by
      have := hone seg e
      match hf : f seg e with
      | [] => exact .nil
      | [x] => exact List.pairwise_singleton _ _
      | x :: y :: zs => simp [hf] at this
    refine List.pairwise_append.mpr ⟨hsingle, ih (seg + 1), fun x hx y hy => ?_⟩
    obtain ⟨j, e', _, hy⟩ := mem_fromEntries.mp hy
    rw [hat _ _ x hx, hat _ _ y hy]
    omega

/-- A thing made of the entry whose position it shows. -/
theorem mem_fromEntries_at (hat : ∀ i e, ∀ x ∈ f i e, pos x = i) {es : List SegEntry} {seg : Nat} {x : α} :
    x ∈ fromEntries f seg es ↔ seg ≤ pos x ∧ ∃ e, es[pos x - seg]? = some e ∧ x ∈ f (pos x) e := by
  rw [mem_fromEntries]
  constructor
  · rintro ⟨j, e, he, hx⟩
    have hj := hat _ _ x hx
    have hj' : pos x - seg = j := by omega
    exact ⟨by omega, e, hj' ▸ he, hj ▸ hx⟩
  · rintro ⟨hle, e, he, hx⟩
    exact ⟨pos x - seg, e, he, by rwa [Nat.add_sub_cancel' hle]⟩

/-! ## Candidates (R41) -/

/-- R41. The candidate that an entry makes, if any. -/
def candidateAt (c : Chip) (r : ImageRecord) (seg : Nat) (e : SegEntry) : List Candidate :=
  if isCandidate c r seg e then [{ image := r.image, segment := seg, need := r.need, holders := e.holders, privKind := r.need == .own && r.priv }] else []

theorem recordCandidates_eq (c : Chip) (r : ImageRecord) (seg : Nat) (es : List SegEntry) :
    recordCandidates c r seg es = fromEntries (candidateAt c r) seg es := by
  induction es generalizing seg with
  | nil => rfl
  | cons e es ih => rw [recordCandidates, ih, fromEntries, candidateAt]

theorem candidateAt_segment (c : Chip) (r : ImageRecord) (i : Nat) (e : SegEntry) : ∀ x ∈ candidateAt c r i e, x.segment = i := by
  unfold candidateAt
  split <;> simp

theorem candidateAt_length (c : Chip) (r : ImageRecord) (i : Nat) (e : SegEntry) : (candidateAt c r i e).length ≤ 1 := by
  unfold candidateAt
  split <;> simp

theorem loadNames_iff (c : Chip) (k : ImageKey) (seg : Nat) :
    loadNames c k seg = true ↔ ∃ l, (c.port.load = .opened l ∨ c.port.load = .checking l) ∧ l.image = k ∧ l.segment = seg := by
  unfold loadNames
  cases c.port.load <;> simp

/-- R41. What makes a segment of a record a candidate. -/
theorem isCandidate_iff (c : Chip) (r : ImageRecord) (seg : Nat) (e : SegEntry) :
    isCandidate c r seg e = true ↔
      e.state = .absent ∧ r.state = (if seg = 0 then .needsManifest else .gathering) ∧ (∃ p, Fit c r.image seg p) ∧
        ∀ l, (c.port.load = .opened l ∨ c.port.load = .checking l) → ¬(l.image = r.image ∧ l.segment = seg) := by
  have hload : loadNames c r.image seg = false ↔
      ∀ l, (c.port.load = .opened l ∨ c.port.load = .checking l) → ¬(l.image = r.image ∧ l.segment = seg) := by
    rw [← Bool.not_eq_true, loadNames_iff]
    simp only [not_exists, not_and]
  rw [exists_fit_iff, ← hload]
  unfold isCandidate
  by_cases hseg : seg = 0 <;> simp [hseg, and_assoc]

/-- R41. The candidates of a record. -/
theorem mem_recordCandidates (c : Chip) (r : ImageRecord) (x : Candidate) :
    x ∈ recordCandidates c r 0 r.entries ↔
      ∃ e, r.entries[x.segment]? = some e ∧ e.state = .absent ∧ r.state = (if x.segment = 0 then .needsManifest else .gathering) ∧
        (∃ p, Fit c r.image x.segment p) ∧
        (∀ l, (c.port.load = .opened l ∨ c.port.load = .checking l) → ¬(l.image = r.image ∧ l.segment = x.segment)) ∧
        x.image = r.image ∧ x.need = r.need ∧ x.holders = e.holders ∧ (x.privKind = true ↔ r.need = .own ∧ r.priv = true) := by
  have hmade : ∀ e, x ∈ candidateAt c r x.segment e ↔
      isCandidate c r x.segment e = true ∧ x.image = r.image ∧ x.need = r.need ∧ x.holders = e.holders ∧ (x.privKind = true ↔ r.need = .own ∧ r.priv = true) := by
    intro e
    have hpriv : (x.privKind = true ↔ r.need = .own ∧ r.priv = true) ↔ x.privKind = (r.need == .own && r.priv) := by
      rw [Bool.eq_iff_iff (b := _ && _)]
      simp
    rw [hpriv, candidateAt]
    obtain ⟨k, seg, need, holders, priv⟩ := x
    split <;> simp_all
  rw [recordCandidates_eq, mem_fromEntries_at (candidateAt_segment c r)]
  simp only [Nat.zero_le, true_and, Nat.sub_zero, hmade, isCandidate_iff, and_assoc]

theorem recordCandidates_rise (c : Chip) (r : ImageRecord) : (recordCandidates c r 0 r.entries).Pairwise (fun x y => x.segment < y.segment) := by
  rw [recordCandidates_eq]
  exact fromEntries_rise (candidateAt_segment c r) (candidateAt_length c r) 0 _

/-! ## Evictable segments (R46) -/

/-- R44, R97, R98. The slot lies in an area of the kind. -/
def OfKind (c : Chip) (priv : Bool) (slot : Nat) : Prop :=
  8 ≤ slot ∧ slot < segmentEnd c ∧ writeLocked c (areaOf c slot) = false ∧ serveLocked c (areaOf c slot) = priv

theorem areaOfKind_iff (c : Chip) (priv : Bool) (area : Nat) : areaOfKind c priv area = true ↔ writeLocked c area = false ∧ serveLocked c area = priv := by
  simp [areaOfKind]

theorem ofKind_iff (c : Chip) (priv : Bool) (slot : Nat) : OfKind c priv slot ↔ (8 ≤ slot ∧ slot < segmentEnd c) ∧ areaOfKind c priv (areaOf c slot) = true := by
  rw [areaOfKind_iff, OfKind, and_assoc]

/-- R46. The evictable segment that an entry makes, if any. -/
def evictableAt (c : Chip) (priv : Bool) (k : ImageKey) (seg : Nat) (e : SegEntry) : List Evictable :=
  match e.state with
  | .held slot => if areaOfKind c priv (areaOf c slot) then [{ image := k, segment := seg, slot := slot, holders := e.holders }] else []
  | _ => []

theorem recordEvictable_eq (c : Chip) (priv : Bool) (k : ImageKey) (seg : Nat) (es : List SegEntry) :
    recordEvictable c priv k seg es = fromEntries (evictableAt c priv k) seg es := by
  induction es generalizing seg with
  | nil => rfl
  | cons e es ih =>
    rw [recordEvictable, ih, fromEntries]
    rfl

theorem mem_evictableAt {c : Chip} {priv : Bool} {k : ImageKey} {seg : Nat} {e : SegEntry} {v : Evictable} :
    v ∈ evictableAt c priv k seg e ↔
      e.state = .held v.slot ∧ areaOfKind c priv (areaOf c v.slot) = true ∧ v.image = k ∧ v.segment = seg ∧ v.holders = e.holders := by
  obtain ⟨k', seg', slot', holders'⟩ := v
  unfold evictableAt
  split
  · next slot hheld =>
    rw [hheld, SegState.held.injEq]
    by_cases harea : areaOfKind c priv (areaOf c slot) = true
    · simp only [harea, if_true, List.mem_singleton, Evictable.mk.injEq]
      constructor
      · rintro ⟨rfl, rfl, rfl, rfl⟩
        exact ⟨rfl, harea, rfl, rfl, rfl⟩
      · rintro ⟨rfl, _, rfl, rfl, rfl⟩
        exact ⟨rfl, rfl, rfl, rfl⟩
    · rw [if_neg harea]
      simp only [List.not_mem_nil, false_iff]
      rintro ⟨rfl, h, _⟩
      exact harea h
  · next hnot =>
    simp only [List.not_mem_nil, false_iff]
    exact fun h => hnot slot' h.1

theorem evictableAt_segment (c : Chip) (priv : Bool) (k : ImageKey) (i : Nat) (e : SegEntry) : ∀ v ∈ evictableAt c priv k i e, v.segment = i := by
  intro v hv
  obtain ⟨_, _, _, hseg, _⟩ := mem_evictableAt.mp hv
  exact hseg

theorem evictableAt_length (c : Chip) (priv : Bool) (k : ImageKey) (i : Nat) (e : SegEntry) : (evictableAt c priv k i e).length ≤ 1 := by
  unfold evictableAt
  split
  · split <;> simp
  · simp

/-- R46. The evictable segments of a record for a kind. -/
def evictablesOf (c : Chip) (priv : Bool) (r : ImageRecord) : List Evictable :=
  if r.need = .courier then recordEvictable c priv r.image 1 (r.entries.drop 1) else []

theorem evictables_eq (c : Chip) (priv : Bool) : evictables c priv = c.catalog.records.flatMap (evictablesOf c priv) := rfl

theorem evictablesOf_rise (c : Chip) (priv : Bool) (r : ImageRecord) : (evictablesOf c priv r).Pairwise (fun x y => x.segment < y.segment) := by
  unfold evictablesOf
  split
  · rw [recordEvictable_eq]
    exact fromEntries_rise (evictableAt_segment c priv _) (evictableAt_length c priv _) 1 _
  · exact .nil

/-- R46. The held data segments of a COURIER image whose slots lie in areas of the kind. -/
theorem mem_evictablesOf {c : Chip} {priv : Bool} {r : ImageRecord}
    (hwhole : ∀ e ∈ r.entries, ∀ slot, e.state = .held slot → inSegmentArea c slot = true) (v : Evictable) :
    v ∈ evictablesOf c priv r ↔
      r.need = .courier ∧ 1 ≤ v.segment ∧
        ∃ e, r.entries[v.segment]? = some e ∧ e.state = .held v.slot ∧ OfKind c priv v.slot ∧ v.image = r.image ∧ v.holders = e.holders := by
  unfold evictablesOf
  split
  · next hneed =>
    rw [recordEvictable_eq, mem_fromEntries_at (pos := fun v : Evictable => v.segment) (evictableAt_segment c priv _)]
    simp only [hneed, true_and]
    refine and_congr_right fun hseg => exists_congr fun e => ?_
    rw [List.getElem?_drop, Nat.add_sub_cancel' hseg, mem_evictableAt, ofKind_iff]
    refine and_congr_right fun he => and_congr_right fun hheld => ?_
    have harea : 8 ≤ v.slot ∧ v.slot < segmentEnd c := by simpa [inSegmentArea] using hwhole e (List.mem_of_getElem? he) v.slot hheld
    simp [harea]
  · next hneed => simp [hneed]

theorem evictChoice_eq_none {l : List Evictable} : evictChoice l = none ↔ l = [] := by
  cases l with
  | nil => simp [evictChoice]
  | cons x xs =>
    unfold evictChoice
    split
    · simp
    · split <;> simp

/-- R46. The segment evicted has the highest holder count, and is the last of those that have it. -/
theorem evictChoice_split {l : List Evictable} {v : Evictable} (h : evictChoice l = some v) :
    ∃ l₁ l₂, l = l₁ ++ v :: l₂ ∧ (∀ y ∈ l₁, y.holders ≤ v.holders) ∧ ∀ y ∈ l₂, y.holders < v.holders := by
  induction l generalizing v with
  | nil => cases h
  | cons z zs ih =>
    unfold evictChoice at h
    split at h
    · next hnone =>
      obtain rfl := Option.some.inj h
      obtain rfl := evictChoice_eq_none.mp hnone
      exact ⟨[], [], rfl, by simp, by simp⟩
    · next y hy =>
      obtain ⟨l₁, l₂, rfl, hearlier, hlater⟩ := ih hy
      split at h
      · next hless =>
        obtain rfl := Option.some.inj h
        refine ⟨[], l₁ ++ y :: l₂, rfl, by simp, fun w hw => ?_⟩
        rcases List.mem_append.mp hw with hw | hw
        · exact Nat.lt_of_le_of_lt (hearlier w hw) hless
        · rcases List.mem_cons.mp hw with rfl | hw
          exacts [hless, (hlater w hw).trans hless]
      · next hnot =>
        obtain rfl := Option.some.inj h
        exact ⟨z :: l₁, l₂, rfl, List.forall_mem_cons.mpr ⟨by omega, hearlier⟩, hlater⟩

end Sys2Proof.Machine
end

