-- ==== Sys2Proof/Proofs/SlotsOfAKind.lean ====
section
/-!
SUPPORT. The slot map read slot by slot (R99): the lowest ERASED slot of a kind (R44), and whether some slot of a kind is DIRTY (R45).
-/
namespace Sys2Proof.Machine

/-! ## The map's entries -/

/-- A list in strictly rising key order gives for a key the word listed with it. -/
theorem lookup_of_mem_rising {β : Type} {m : List (Nat × β)} (hm : m.Pairwise (fun x y => x.1 < y.1)) {slot : Nat} {i : β} (h : (slot, i) ∈ m) :
    m.lookup slot = some i := by
  induction m with
  | nil => cases h
  | cons x xs ih =>
    obtain ⟨hfirst, hrest⟩ := List.pairwise_cons.mp hm
    rcases List.mem_cons.mp h with rfl | h
    · simp
    · have hne : slot ≠ x.1 := Nat.ne_of_gt (hfirst _ h)
      rw [List.lookup_cons, beq_false_of_ne hne]
      exact ih hrest h

theorem mem_of_lookup {β : Type} {m : List (Nat × β)} {slot : Nat} {i : β} (h : m.lookup slot = some i) : (slot, i) ∈ m := by
  obtain ⟨l₁, l₂, rfl, _⟩ := List.lookup_eq_some_iff.mp h
  simp

/-- R99. In a whole map a slot that is not DIRTY is listed with its word, and only such a slot is listed. -/
theorem slotInfo_eq_iff {c : Chip} (hwhole : MapWhole c) {slot : Nat} {i : SlotInfo} (hi : i.cond ≠ .dirty) :
    slotInfo c slot = i ↔ (slot, i) ∈ c.store.slotMap := by
  constructor
  · intro h
    unfold slotInfo at h
    cases hl : c.store.slotMap.lookup slot with
    | none =>
      rw [hl] at h
      exact absurd (h ▸ rfl) hi
    | some j =>
      rw [hl] at h
      exact mem_of_lookup (h ▸ hl)
  · intro h
    rw [slotInfo, lookup_of_mem_rising hwhole.1 h]
    rfl

/-! ## The lowest ERASED slot (R44) -/

/-- R44. The entry is for an ERASED slot of the kind. -/
def erasedOfKind (c : Chip) (priv : Bool) (e : Nat × SlotInfo) : Bool := e.2.cond == .erased && areaOfKind c priv (areaOf c e.1)

theorem lowestErased_eq (c : Chip) (priv : Bool) : lowestErased c priv = (c.store.slotMap.find? (erasedOfKind c priv)).map Prod.fst := rfl

theorem erased_iff {c : Chip} (hwhole : MapWhole c) (priv : Bool) (slot : Nat) :
    OfKind c priv slot ∧ (slotInfo c slot).cond = .erased ↔ ∃ e ∈ c.store.slotMap, erasedOfKind c priv e = true ∧ e.1 = slot := by
  rw [ofKind_iff]
  constructor
  · rintro ⟨⟨_, hkind⟩, herased⟩
    have hmem := (slotInfo_eq_iff hwhole (i := slotInfo c slot) (by rw [herased]; decide)).mp rfl
    exact ⟨_, hmem, by simp [erasedOfKind, herased, hkind], rfl⟩
  · rintro ⟨⟨s, i⟩, hmem, htest, rfl⟩
    simp only [erasedOfKind, Bool.and_eq_true, beq_iff_eq] at htest
    obtain ⟨herased, hkind⟩ := htest
    have hinfo : slotInfo c s = i := (slotInfo_eq_iff hwhole (by rw [herased]; decide)).mpr hmem
    exact ⟨⟨hwhole.2 _ hmem, hkind⟩, hinfo ▸ herased⟩

/-- R44. The slot taken is the lowest ERASED one of the kind. -/
theorem lowestErased_lowest {c : Chip} (hwhole : MapWhole c) (priv : Bool) :
    match lowestErased c priv with
    | none => ∀ slot, ¬(OfKind c priv slot ∧ (slotInfo c slot).cond = .erased)
    | some slot => (OfKind c priv slot ∧ (slotInfo c slot).cond = .erased) ∧
        ∀ x, OfKind c priv x ∧ (slotInfo c x).cond = .erased → slot ≤ x := by
  simp only [erased_iff hwhole, lowestErased_eq]
  cases h : c.store.slotMap.find? (erasedOfKind c priv) with
  | none =>
    rintro slot ⟨e, he, htest, _⟩
    exact List.find?_eq_none.mp h e he htest
  | some e =>
    obtain ⟨htest, l₁, l₂, hsplit, hnone⟩ := List.find?_eq_some_iff_append.mp h
    refine ⟨⟨e, List.mem_of_find?_eq_some h, htest, rfl⟩, ?_⟩
    rintro x ⟨e', he', htest', rfl⟩
    have hrise := hwhole.1
    rw [hsplit] at he' hrise
    rcases List.mem_append.mp he' with he' | he'
    · simpa [htest'] using hnone e' he'
    · rcases List.mem_cons.mp he' with rfl | he'
      · exact Nat.le_refl _
      · exact Nat.le_of_lt ((List.pairwise_cons.mp (List.pairwise_append.mp hrise).2.1).1 e' he')

/-! ## A DIRTY slot (R45) -/

/-- R97. The slots of an area. -/
def areaSlots (c : Chip) (area : Nat) : List Nat := List.range' (8 + area * areaSize c) (areaSize c)

theorem mem_areaSlots {c : Chip} {area slot : Nat} (harea : area < 16) : slot ∈ areaSlots c area ↔ 8 ≤ slot ∧ slot < segmentEnd c ∧ areaOf c slot = area := by
  unfold areaSlots segmentEnd areaOf
  rw [List.mem_range'_1]
  rcases Nat.eq_zero_or_pos (areaSize c) with hzero | hpos
  · simp only [hzero]
    omega
  · have hend : (area + 1) * areaSize c ≤ 16 * areaSize c := Nat.mul_le_mul_right _ harea
    rw [Nat.div_eq_iff hpos]
    rw [Nat.add_mul] at hend
    omega

theorem areaOf_lt {c : Chip} {slot : Nat} (h8 : 8 ≤ slot) (hend : slot < segmentEnd c) : areaOf c slot < 16 := by
  unfold segmentEnd at hend
  unfold areaOf
  rw [Nat.div_lt_iff_lt_mul (by by_contra h; simp_all; omega)]
  omega

/-- R45. The listed slots of an area that are not DIRTY. -/
def cleanSlots (c : Chip) (area : Nat) : List Nat :=
  (c.store.slotMap.filter (fun e => areaOf c e.1 == area && e.2.cond != .dirty)).map Prod.fst

theorem cleanSlots_length (c : Chip) (area : Nat) :
    (cleanSlots c area).length = c.store.slotMap.countP (fun e => areaOf c e.1 == area && e.2.cond != .dirty) := by
  rw [cleanSlots, List.length_map, List.countP_eq_length_filter]

theorem mem_cleanSlots {c : Chip} (hwhole : MapWhole c) {area slot : Nat} : slot ∈ cleanSlots c area ↔ areaOf c slot = area ∧ (slotInfo c slot).cond ≠ .dirty := by
  simp only [cleanSlots, List.mem_map, List.mem_filter, Bool.and_eq_true, beq_iff_eq, bne_iff_ne]
  constructor
  · rintro ⟨⟨s, i⟩, ⟨hmem, harea, hclean⟩, rfl⟩
    exact ⟨harea, (slotInfo_eq_iff hwhole hclean).mpr hmem ▸ hclean⟩
  · rintro ⟨harea, hclean⟩
    exact ⟨(slot, slotInfo c slot), ⟨(slotInfo_eq_iff hwhole hclean).mp rfl, harea, hclean⟩, rfl⟩

theorem cleanSlots_nodup {c : Chip} (hwhole : MapWhole c) (area : Nat) : (cleanSlots c area).Nodup :=
  List.pairwise_map.mpr ((hwhole.1.filter _).imp fun h => Nat.ne_of_lt h)

/-- R45. An area has a DIRTY slot when it lists fewer slots that are not DIRTY than it has slots. -/
theorem someDirtyIn_iff {c : Chip} (hwhole : MapWhole c) {area : Nat} (harea : area < 16) :
    (cleanSlots c area).length < areaSize c ↔ ∃ slot ∈ areaSlots c area, (slotInfo c slot).cond = .dirty := by
  have hsize : (areaSlots c area).length = areaSize c := List.length_range'
  have hsub : cleanSlots c area ⊆ areaSlots c area := fun slot h => by
    obtain ⟨hin, hclean⟩ := (mem_cleanSlots hwhole).mp h
    have hmem := (slotInfo_eq_iff hwhole hclean).mp rfl
    exact (mem_areaSlots harea).mpr ⟨(hwhole.2 _ hmem).1, (hwhole.2 _ hmem).2, hin⟩
  rw [← hsize]
  constructor
  · intro hlt
    by_contra hnone
    have hall : areaSlots c area ⊆ cleanSlots c area := fun slot h =>
      (mem_cleanSlots hwhole).mpr ⟨((mem_areaSlots harea).mp h).2.2, fun hd => hnone ⟨slot, h, hd⟩⟩
    have hnodup : (areaSlots c area).Nodup := List.nodup_range'
    exact absurd (hnodup.subperm hall).length_le (by omega)
  · rintro ⟨slot, hin, hdirty⟩
    have hmissing : slot ∉ cleanSlots c area := fun h => ((mem_cleanSlots hwhole).mp h).2 hdirty
    have hle := ((List.nodup_cons.mpr ⟨hmissing, cleanSlots_nodup hwhole area⟩).subperm (List.cons_subset.mpr ⟨hin, hsub⟩)).length_le
    simpa using hle

/-- R45. Some slot of the kind is DIRTY. -/
theorem someDirty_iff {c : Chip} (hwhole : MapWhole c) (priv : Bool) :
    someDirty c priv = true ↔ ∃ slot, OfKind c priv slot ∧ (slotInfo c slot).cond = .dirty := by
  simp only [someDirty, List.any_eq_true, List.mem_range, Bool.and_eq_true, decide_eq_true_eq, ← cleanSlots_length, ofKind_iff]
  constructor
  · rintro ⟨area, harea, hkind, hlt⟩
    obtain ⟨slot, hin, hdirty⟩ := (someDirtyIn_iff hwhole harea).mp hlt
    obtain ⟨h8, hend, rfl⟩ := (mem_areaSlots harea).mp hin
    exact ⟨slot, ⟨⟨h8, hend⟩, hkind⟩, hdirty⟩
  · rintro ⟨slot, ⟨⟨h8, hend⟩, hkind⟩, hdirty⟩
    have harea := areaOf_lt h8 hend
    exact ⟨_, harea, hkind, (someDirtyIn_iff hwhole harea).mpr ⟨slot, (mem_areaSlots harea).mpr ⟨h8, hend, rfl⟩, hdirty⟩⟩

/-! ## A slot's word replaced (R99, R101) -/

theorem slotInfo_setSlot (slot : Nat) (i : SlotInfo) (c : Chip) : slotInfo (setSlot slot i c) slot = i := by
  have hword : (if i = unlistedSlot then [] else [(slot, i)] : List (Nat × SlotInfo)).lookup slot = if i = unlistedSlot then none else some i := by
    split <;> simp
  rw [slotInfo, setSlot_store_slotMap, setSlotIn, List.lookup_append, List.lookup_append, hword, lookup_filter_of_key (fun k => decide (k < slot)),
    lookup_filter_of_key (fun k => decide (slot < k))]
  by_cases h : i = unlistedSlot <;> simp [h]

end Sys2Proof.Machine
end

