-- ==== Sys2Proof/Proofs/ShortageAndOpening.lean ====
section
/-!
SUPPORT. What is done about a short candidate (R45, R46, R73), and the opening of a fetch (R47).
-/
namespace Sys2Proof.Machine

/-! ## Eviction (R46, R73) -/

theorem evictSegment_eq (k : ImageKey) (seg slot : Nat) (c : Chip) :
    evictSegment k seg slot c =
      leaveComplete k (release slot (endServes (fun e => e.image == k && e.segment == seg) (setSegState k seg .absent c))) := rfl

/-- R14. After a data segment has left HELD its image is not COMPLETE; the reports, the store and the serve slots stand. -/
theorem leaveComplete_does (k : ImageKey) (c : Chip) :
    imageComplete (leaveComplete k c) k = false ∧ (leaveComplete k c).port.reports = c.port.reports ∧ (leaveComplete k c).store = c.store ∧
      (leaveComplete k c).serve = c.serve ∧ ∀ seg, segState (leaveComplete k c) k seg = segState c k seg := by
  unfold leaveComplete
  cases hcomplete : imageComplete c k with
  | false => exact ⟨hcomplete, rfl, rfl, rfl, fun _ => rfl⟩
  | true =>
    simp only [if_true]
    cases hr : findRecord c k with
    | none => simp [imageComplete, hr] at hcomplete
    | some r =>
      have hfound : findRecord (evaluateWaiting (askSelection (updateRecord k (fun r => { r with state := .gathering }) c))) k =
          some { r with state := .gathering } := findRecord_updateRecord hr (f := fun r => { r with state := .gathering }) (by exact fun _ => rfl)
      refine ⟨?_, rfl, rfl, rfl, fun seg => ?_⟩
      · rw [imageComplete, hfound]
        rfl
      · rw [segState, segState, hfound, hr]

theorem endServes_catalog (hit : AskEntry → Bool) (c : Chip) : (endServes hit c).catalog = c.catalog := (endServes_unmoved hit c).1

theorem segState_of_catalog {c d : Chip} (h : d.catalog = c.catalog) (k : ImageKey) (seg : Nat) : segState d k seg = segState c k seg := by
  rw [segState, segState, findRecord_of_catalog h]

/-- R46, R73. An eviction: the image is not COMPLETE, the segment ABSENT and its slot on its way to the dirty queue, and no serve slot works on it. -/
theorem evictSegment_does (k : ImageKey) (seg slot : Nat) (c : Chip) :
    imageComplete (evictSegment k seg slot c) k = false ∧ (evictSegment k seg slot c).port.reports = c.port.reports ∧
      OnItsWay (evictSegment k seg slot c) slot ∧
      (∀ i < 3, ∀ e, (serveSlot (evictSegment k seg slot c) i).entry? = some e → ¬(e.image = k ∧ e.segment = seg)) ∧
      ((segState c k seg).isSome → segState (evictSegment k seg slot c) k seg = some .absent) := by
  rw [evictSegment_eq]
  obtain ⟨hnot, hreports, hstore, hserve, hseg⟩ :=
    leaveComplete_does k (release slot (endServes (fun e => e.image == k && e.segment == seg) (setSegState k seg .absent c)))
  refine ⟨hnot, ?_, ?_, fun i hi e he => ?_, fun hsome => ?_⟩
  · rw [hreports, (release_parts _ _).2.2.1, endServes_port]
    rfl
  · have := (release_onItsWay slot (endServes (fun e => e.image == k && e.segment == seg) (setSegState k seg .absent c))).1
    rwa [OnItsWay, hstore]
  · have hsame : serveSlot (leaveComplete k (release slot (endServes (fun e => e.image == k && e.segment == seg) (setSegState k seg .absent c)))) i =
        serveSlot (endServes (fun e => e.image == k && e.segment == seg) (setSegState k seg .absent c)) i := by
      rw [serveSlot, hserve, (release_parts _ _).2.1]
      rfl
    rw [hsame] at he
    have hother := (endServes_serveSlot _ _ i hi e he).2
    simpa using hother
  · rw [hseg, segState_of_catalog (release_unmoved _ _).1, segState_of_catalog (endServes_catalog _ _)]
    exact segState_setSegState hsome .absent

/-! ## A short candidate (R45) -/

/-- R46. The segment evicted for a short candidate, if there is one. -/
def evictedFor (x : Candidate) (c : Chip) : Option Evictable := if x.need = .own then evictChoice (evictables c x.privKind) else none

theorem dealShort_of_dirty {x : Candidate} {c : Chip} (h : someDirty c x.privKind = true) : dealShort x c = c := by simp [dealShort, h]

theorem dealShort_of_evicted {x : Candidate} {c : Chip} {v : Evictable} (h : someDirty c x.privKind = false) (hv : evictedFor x c = some v) :
    dealShort x c = evictSegment v.image v.segment v.slot c := by
  rw [evictedFor] at hv
  simp [dealShort, h, hv]

/-- R45. STORE_FULL is held back by one appended within 3,600,000 ms. -/
def StoreFullRecent (c : Chip) : Prop := ∃ u, c.fetch.storeFullAt = some u ∧ c.now ≤ u + 3600000

theorem dealShort_of_recent {x : Candidate} {c : Chip} (h : someDirty c x.privKind = false) (hv : evictedFor x c = none) (hrecent : StoreFullRecent c) :
    dealShort x c = c := by
  obtain ⟨u, hu, hnow⟩ := hrecent
  rw [evictedFor] at hv
  simp [dealShort, h, hv, hu, hnow]

theorem dealShort_of_not_recent {x : Candidate} {c : Chip} (h : someDirty c x.privKind = false) (hv : evictedFor x c = none) (hrecent : ¬StoreFullRecent c) :
    dealShort x c = report .storeFull (.segment x.image x.segment) (if x.privKind then 1 else 0) { c with fetch.storeFullAt := some c.now } := by
  rw [evictedFor] at hv
  rw [dealShort, h, hv]
  simp only [Bool.false_eq_true, if_false]
  rw [if_neg]
  cases hu : c.fetch.storeFullAt with
  | none => simp
  | some u =>
    have : ¬c.now ≤ u + 3600000 := fun hle => hrecent ⟨u, hu, hle⟩
    simpa using this

/-- R45, R46. What is done about a short candidate, by case. -/
theorem dealShort_cases (x : Candidate) (c : Chip) :
    dealShort x c = c ∨ (∃ v, evictedFor x c = some v ∧ dealShort x c = evictSegment v.image v.segment v.slot c) ∨
      dealShort x c = report .storeFull (.segment x.image x.segment) (if x.privKind then 1 else 0) { c with fetch.storeFullAt := some c.now } := by
  cases h : someDirty c x.privKind with
  | true => exact .inl (dealShort_of_dirty h)
  | false =>
    cases hv : evictedFor x c with
    | some v => exact .inr (.inl ⟨v, rfl, dealShort_of_evicted h hv⟩)
    | none =>
      by_cases hrecent : StoreFullRecent c
      · exact .inl (dealShort_of_recent h hv hrecent)
      · exact .inr (.inr (dealShort_of_not_recent h hv hrecent))

theorem evictedFor_mem {x : Candidate} {c : Chip} {v : Evictable} (h : evictedFor x c = some v) : v ∈ evictables c x.privKind := by
  unfold evictedFor at h
  split at h
  exacts [evictChoice_mem h, by cases h]

/-! ## An opening (R47) -/

theorem queueAsk_store (i : Nat) (c : Chip) : (queueAsk i c).store = c.store := by
  have hopen : ∀ f d, (updateOpen i f d).store = d.store := fun f d => by
    unfold updateOpen
    split <;> rfl
  unfold queueAsk
  dsimp only
  split <;> exact hopen _ _

theorem openFetch_store (i slot : Nat) (x : Candidate) (p : PeerRecord) (c : Chip) :
    (openFetch i slot x p c).store = (allocate slot (.fetch i) c).store := by
  rw [openFetch_eq, queueAsk_store]
  rfl

/-- R47. What an opening makes of the fetch slot, the store slot, the segment, the peers and the lane. -/
theorem openFetch_does {i : Nat} {c : Chip} (hi : i < c.fetch.slots.length) (slot : Nat) (x : Candidate) (p : PeerRecord) :
    fetchSlot (openFetch i slot x p c) i = .opened (openedFor slot x p) ∧ slotInfo (openFetch i slot x p c) slot = ⟨.filling, some (.fetch i)⟩ ∧
      ((segState c x.image x.segment).isSome → segState (openFetch i slot x p c) x.image x.segment = some (.fetching slot)) ∧
      (openFetch i slot x p c).peers = c.peers.map (fun q => if q.id = p.id then { q with openFetches := q.openFetches + 1 } else q) ∧
      (c.yard.mode = .on → i ∈ (openFetch i slot x p c).fetch.asks) := by
  obtain ⟨hfilled, _, hasks⟩ := openFetch_fills hi slot x p
  have hseg : segState (openFetch i slot x p c) x.image x.segment = segState (setSegState x.image x.segment (.fetching slot) c) x.image x.segment := by
    have hrecords : (openFetch i slot x p c).catalog.records = (setSegState x.image x.segment (.fetching slot) c).catalog.records := by
      rw [openFetch_records, setSegState_records]
    rw [segState, segState, findRecord, findRecord, hrecords]
  refine ⟨hfilled, ?_, fun hsome => hseg.trans (segState_setSegState hsome _), ?_, hasks⟩
  · rw [slotInfo, openFetch_store]
    exact slotInfo_setSlot slot _ c
  · rw [openFetch_eq, queueAsk_peers]
    exact updatePeer_peers _ _ _

end Sys2Proof.Machine
end

