-- ==== Sys2Proof/Proofs/SelectionRun.lean ====
section
/-!
SUPPORT. A selection run (R40, R47): the FREE slot it fills, why it ends with none left or every candidate short, and that its openings stand.
-/
namespace Sys2Proof.Machine

/-! ## The FREE slot (R47) -/

theorem fetchSlot_eq_getElem {c : Chip} {i : Nat} (h : i < c.fetch.slots.length) : fetchSlot c i = c.fetch.slots[i] := by
  simp [fetchSlot, List.getD_eq_getElem?_getD, h]

/-- Log 50. The slot filled is the lowest FREE one. -/
theorem freeSlot_iff {c : Chip} (hlen : c.fetch.slots.length = 4) (i : Nat) :
    freeSlot c = some i ↔ i < 4 ∧ fetchSlot c i = .free ∧ ∀ j < i, fetchSlot c j ≠ .free := by
  rw [freeSlot, List.findIdx?_eq_some_iff_getElem]
  constructor
  · rintro ⟨hi, hfree, hbefore⟩
    refine ⟨hlen ▸ hi, by rw [fetchSlot_eq_getElem hi]; simpa using hfree, fun j hj => ?_⟩
    rw [fetchSlot_eq_getElem (hj.trans hi)]
    simpa using hbefore j hj
  · rintro ⟨hi, hfree, hbefore⟩
    have hi' : i < c.fetch.slots.length := hlen.symm ▸ hi
    refine ⟨hi', by rw [← fetchSlot_eq_getElem hi']; simpa using hfree, fun j hj => ?_⟩
    have := hbefore j hj
    rw [fetchSlot_eq_getElem (hj.trans hi')] at this
    simpa using this

theorem freeSlot_eq_none {c : Chip} (hlen : c.fetch.slots.length = 4) (h : freeSlot c = none) : ∀ i < 4, fetchSlot c i ≠ .free := by
  intro i hi
  rw [fetchSlot_eq_getElem (hlen.symm ▸ hi)]
  simpa using List.findIdx?_eq_none_iff.mp h _ (List.getElem_mem _)

/-- R47. How many of the four fetch slots are FREE. -/
def freeSlots (c : Chip) : Nat := [0, 1, 2, 3].countP (fun j => fetchSlot c j == .free)

theorem freeSlots_of_filled {c d : Chip} {i : Nat} {x : OpenFetch} (hi : i < 4) (hc : fetchSlot c i = .free) (hd : fetchSlot d i = .opened x)
    (hothers : ∀ j ≠ i, fetchSlot d j = fetchSlot c j) : freeSlots d + 1 = freeSlots c := by
  have hcases : i = 0 ∨ i = 1 ∨ i = 2 ∨ i = 3 := by omega
  rcases hcases with rfl | rfl | rfl | rfl
  all_goals simp [freeSlots, List.countP_cons, hc, hd, hothers]
  all_goals omega

theorem queueAsk_slots_length (i : Nat) (c : Chip) : (queueAsk i c).fetch.slots.length = c.fetch.slots.length := by
  have hopen : ∀ f d, (updateOpen i f d).fetch.slots.length = d.fetch.slots.length := fun f d => by
    unfold updateOpen
    split
    · simp
    · rfl
  unfold queueAsk
  dsimp only
  split <;> exact hopen _ _

theorem openFetch_slots_length (i slot : Nat) (x : Candidate) (p : PeerRecord) (c : Chip) :
    (openFetch i slot x p c).fetch.slots.length = c.fetch.slots.length := by
  rw [openFetch_eq, queueAsk_slots_length]
  simp [preparedFor_slots]

theorem dealShort_slots (x : Candidate) (c : Chip) : (dealShort x c).fetch.slots = c.fetch.slots := by
  rcases dealShort_cases x c with h | ⟨v, _, h⟩ | h <;> rw [h]
  exacts [evictSegment_slots _ _ _ c, rfl]

/-! ## No slot becomes ERASED in a run (R44, R101) -/

/-- R44. The lock map and the geometry stand, and every ERASED slot of the second chip is one of the first. -/
structure TakesErased (c d : Chip) : Prop where
  config : d.port.config = c.port.config
  total : d.total = c.total
  map : ∀ e ∈ d.store.slotMap, e.2.cond = .erased → ∃ i, (e.1, i) ∈ c.store.slotMap ∧ i.cond = .erased

theorem TakesErased.refl (c : Chip) : TakesErased c c := ⟨rfl, rfl, fun e he h => ⟨e.2, he, h⟩⟩

theorem TakesErased.trans {c d e : Chip} (h : TakesErased c d) (k : TakesErased d e) : TakesErased c e where
  config := k.config.trans h.config
  total := k.total.trans h.total
  map := fun x hx herased => by
    obtain ⟨i, hi, hcond⟩ := k.map x hx herased
    exact h.map (x.1, i) hi hcond

theorem TakesErased.of_map {c d : Chip} (hs : Stands c d) (hm : d.store.slotMap = c.store.slotMap) : TakesErased c d := by
  simp only [Stands] at hs
  exact ⟨by simp [hs], by simp [hs], fun e he h => ⟨e.2, hm ▸ he, h⟩⟩

theorem mem_setSlotIn {m : List (Nat × SlotInfo)} {slot : Nat} {i : SlotInfo} {e : Nat × SlotInfo} (h : e ∈ setSlotIn m slot i) : e ∈ m ∨ e = (slot, i) := by
  simp only [setSlotIn, List.mem_append, List.mem_filter] at h
  rcases h with h | h | h
  · exact .inl h.1
  · split at h
    · cases h
    · exact .inr (List.mem_singleton.mp h)
  · exact .inl h.1

/-- R99. A word that is not ERASED, or that repeats the slot's own condition, makes no slot ERASED. -/
theorem setSlot_takesErased {slot : Nat} {i : SlotInfo} (c : Chip) (hi : i.cond = .erased → (slotInfo c slot).cond = .erased) :
    TakesErased c (setSlot slot i c) := by
  refine ⟨rfl, rfl, fun e he herased => ?_⟩
  rcases mem_setSlotIn he with he | rfl
  · exact ⟨e.2, he, herased⟩
  · have hcond := hi herased
    unfold slotInfo at hcond
    cases hl : c.store.slotMap.lookup slot with
    | none => simp [hl, unlistedSlot] at hcond
    | some j => exact ⟨j, mem_of_lookup hl, by simpa [hl] using hcond⟩

theorem release_takesErased (slot : Nat) (c : Chip) : TakesErased c (release slot c) := by
  have hwithdrawn : TakesErased c (withdrawOps slot c) := ⟨rfl, rfl, fun e he h => ⟨e.2, he, h⟩⟩
  refine hwithdrawn.trans ?_
  unfold release
  dsimp only
  split
  · exact .trans (setSlot_takesErased (i := { slotInfo (withdrawOps slot c) slot with owner := none }) _ (fun h => h)) (.of_map (by simp [Stands]) rfl)
  · exact .trans (setSlot_takesErased (i := { cond := .dirty, owner := none }) _ (by simp)) (.of_map (by simp [Stands]) rfl)

theorem endServes_slotMap (hit : AskEntry → Bool) (c : Chip) : (endServes hit c).store.slotMap = c.store.slotMap := by
  have turn : ∀ i c, (endServeIf hit i c).store.slotMap = c.store.slotMap := fun i c => by
    rcases endServeIf_does hit i c with ⟨h, _⟩ | ⟨_, _, _, h, _⟩ <;> rw [h]
  exact (turn _ _).trans ((turn _ _).trans (turn _ _))

theorem evictSegment_takesErased (k : ImageKey) (seg slot : Nat) (c : Chip) : TakesErased c (evictSegment k seg slot c) := by
  rw [evictSegment_eq]
  have hserved : TakesErased c (endServes (fun e => e.image == k && e.segment == seg) (setSegState k seg .absent c)) :=
    .of_map (by simp [Stands]) (endServes_slotMap _ _)
  exact (hserved.trans (release_takesErased slot _)).trans (.of_map (by simp [Stands]) (congrArg Store.slotMap (leaveComplete_does k _).2.2.1))

theorem dealShort_takesErased (x : Candidate) (c : Chip) : TakesErased c (dealShort x c) := by
  rcases dealShort_cases x c with h | ⟨v, _, h⟩ | h <;> rw [h]
  exacts [.refl c, evictSegment_takesErased _ _ _ c, .of_map (by simp [Stands]) (by simp)]

theorem openFetch_takesErased (i slot : Nat) (x : Candidate) (p : PeerRecord) (c : Chip) : TakesErased c (openFetch i slot x p c) := by
  have htaken : TakesErased c (allocate slot (.fetch i) c) := setSlot_takesErased (i := { cond := .filling, owner := some (.fetch i) }) c (by simp)
  refine htaken.trans (.of_map (by simp [Stands]) ?_)
  rw [openFetch_store]

theorem lowestErased_eq_none {c : Chip} {priv : Bool} : lowestErased c priv = none ↔ ∀ e ∈ c.store.slotMap, erasedOfKind c priv e = false := by
  rw [lowestErased_eq, Option.map_eq_none_iff, List.find?_eq_none]
  simp

/-- R47. A kind without ERASED slots stays without. -/
theorem TakesErased.short {c d : Chip} (h : TakesErased c d) {priv : Bool} (hc : lowestErased c priv = none) : lowestErased d priv = none := by
  rw [lowestErased_eq_none] at hc ⊢
  intro e he
  rw [← Bool.not_eq_true]
  intro htest
  simp only [erasedOfKind, Bool.and_eq_true, beq_iff_eq] at htest
  obtain ⟨herased, hkind⟩ := htest
  obtain ⟨i, hi, hcond⟩ := h.map e he herased
  have hsame : areaOfKind d priv (areaOf d e.1) = areaOfKind c priv (areaOf c e.1) := by
    simp only [areaOfKind, writeLocked, serveLocked, areaOf, areaSize, h.config, h.total]
  have := hc _ hi
  simp [erasedOfKind, hcond, ← hsame, hkind] at this

/-! ## The run's end (R47) -/

/-- R47. No fetch slot is FREE, or every candidate is short. -/
def RunEnded (c : Chip) : Prop := (∀ i < 4, fetchSlot c i ≠ .free) ∨ ∀ x ∈ candidates c, lowestErased c x.privKind = none

theorem candidates_fit {c : Chip} {x : Candidate} (h : x ∈ candidates c) : ∃ p, Fit c x.image x.segment p := by
  obtain ⟨r, _, hx⟩ := List.mem_flatMap.mp h
  obtain ⟨_, _, _, _, hfit, _, himage, _⟩ := (mem_recordCandidates c r x).mp hx
  exact himage ▸ hfit

/-- R41, R43. A candidate has a holder. -/
theorem candidate_has_holder {c : Chip} {x : Candidate} (h : x ∈ candidates c) : chooseHolder c x.image x.segment none ≠ none := by
  obtain ⟨p, hp⟩ := candidates_fit h
  exact fun hnone => by simpa using chooseHolder_none hnone hp

/-- R47. The candidates whose kind has not been found short in the run. -/
def openKinds (shortCommon shortPrivate : Bool) (c : Chip) : List Candidate :=
  (candidates c).filter (fun x => if x.privKind then !shortPrivate else !shortCommon)

/-- How many kinds have not been found short. -/
def kindsLeft (shortCommon shortPrivate : Bool) : Nat := (if shortCommon then 0 else 1) + (if shortPrivate then 0 else 1)

theorem mem_openKinds {a b : Bool} {c : Chip} {x : Candidate} :
    x ∈ openKinds a b c ↔ x ∈ candidates c ∧ (x.privKind = true → b = false) ∧ (x.privKind = false → a = false) := by
  rw [openKinds, List.mem_filter]
  cases x.privKind <;> simp

/-- R47. A step with a FREE slot and a candidate: it opens a fetch, or deals with the shortage and goes on without the kind. -/
theorem selectionSteps_succ {n : Nat} {a b : Bool} {c : Chip} {i : Nat} {x : Candidate} (hi : freeSlot c = some i)
    (hx : firstCandidate (openKinds a b c) = some x) :
    (∃ slot p, lowestErased c x.privKind = some slot ∧ chooseHolder c x.image x.segment none = some p ∧
        selectionSteps (n + 1) a b c = selectionSteps n a b (openFetch i slot x p c)) ∨
      (lowestErased c x.privKind = none ∧
        selectionSteps (n + 1) a b c = selectionSteps n (a || !x.privKind) (b || x.privKind) (dealShort x c)) := by
  have hx' : firstCandidate ((candidates c).filter (fun x => if x.privKind then !b else !a)) = some x := hx
  cases hslot : lowestErased c x.privKind with
  | none => exact .inr ⟨rfl, by simp only [selectionSteps, hi, hx', hslot]⟩
  | some slot =>
    cases hp : chooseHolder c x.image x.segment none with
    | none => exact absurd hp (candidate_has_holder (mem_openKinds.mp (firstCandidate_mem hx)).1)
    | some p => exact .inl ⟨slot, p, rfl, rfl, by simp only [selectionSteps, hi, hx', hslot, hp]⟩

theorem selectionSteps_of_full {n : Nat} {a b : Bool} {c : Chip} (h : freeSlot c = none) : selectionSteps n a b c = c := by
  cases n <;> simp [selectionSteps, h]

theorem selectionSteps_of_no_candidate {n : Nat} {a b : Bool} {c : Chip} (h : firstCandidate (openKinds a b c) = none) : selectionSteps n a b c = c := by
  have h' : firstCandidate ((candidates c).filter (fun x => if x.privKind then !b else !a)) = none := h
  cases n with
  | zero => rfl
  | succ n =>
    rw [selectionSteps]
    split
    · rfl
    · rw [h']

/-- R47. With fuel for every FREE slot and every kind, a run goes on until no slot is FREE or every candidate is short. -/
theorem selectionSteps_ends (n : Nat) {a b : Bool} {c : Chip} (hlen : c.fetch.slots.length = 4) (ha : a = true → lowestErased c false = none)
    (hb : b = true → lowestErased c true = none) (hfuel : freeSlots c + kindsLeft a b < n) : RunEnded (selectionSteps n a b c) := by
  induction n generalizing a b c with
  | zero => omega
  | succ n ih =>
    cases hi : freeSlot c with
    | none =>
      rw [selectionSteps_of_full hi]
      exact .inl (freeSlot_eq_none hlen hi)
    | some i =>
      cases hx : firstCandidate (openKinds a b c) with
      | none =>
        rw [selectionSteps_of_no_candidate hx]
        have hempty := firstCandidate_eq_none.mp hx
        refine .inr fun x hmem => ?_
        have hnot : x ∉ openKinds a b c := by simp [hempty]
        rw [mem_openKinds] at hnot
        cases hpriv : x.privKind <;> simp_all
      | some x =>
        obtain ⟨_, hshortPrivate, hshortCommon⟩ := mem_openKinds.mp (firstCandidate_mem hx)
        rcases selectionSteps_succ (n := n) hi hx with ⟨slot, p, hslot, hp, hrun⟩ | ⟨hslot, hrun⟩ <;> rw [hrun]
        · have htakes := openFetch_takesErased i slot x p c
          obtain ⟨hi4, hfree, _⟩ := (freeSlot_iff hlen i).mp hi
          obtain ⟨hfilled, hothers, _⟩ := openFetch_fills (freeSlot_lt hi) slot x p
          have hcount := freeSlots_of_filled hi4 hfree hfilled hothers
          exact ih ((openFetch_slots_length _ _ _ _ _).trans hlen) (fun h => htakes.short (ha h)) (fun h => htakes.short (hb h)) (by omega)
        · have htakes := dealShort_takesErased x c
          have hsame : freeSlots (dealShort x c) = freeSlots c := by
            simp only [freeSlots, fetchSlot_of_slots (dealShort_slots x c)]
          refine ih (by rw [dealShort_slots, hlen]) (fun h => htakes.short ?_) (fun h => htakes.short ?_) ?_
          · cases hpriv : x.privKind <;> simp_all
          · cases hpriv : x.privKind <;> simp_all
          · rw [hsame]
            cases hpriv : x.privKind <;> simp_all [kindsLeft] <;> omega

end Sys2Proof.Machine
end

