-- ==== Sys2Proof/Proofs/SelectionSettled.lean ====
section
/-!
SUPPORT. The openings of a selection run stand to its end (R38, R47); and what selection prefers, put together (R40 to R47).
-/
namespace Sys2Proof.Machine

/-! ## A segment's state, with one record for its image (R11, R17) -/

/-- R11. No two records are for one image. -/
def OneRecordEach (c : Chip) : Prop := (c.catalog.records.map (fun r => r.image)).Nodup

/-- R17. A record of the image has the segment in this state. -/
def HasState (k : ImageKey) (seg : Nat) (st : SegState) (c : Chip) : Prop :=
  ∃ r ∈ c.catalog.records, ∃ e, r.image = k ∧ r.entries[seg]? = some e ∧ e.state = st

variable {k k' : ImageKey} {seg seg' : Nat} {st st' : SegState} {c d : Chip}

theorem HasState.unique (hone : OneRecordEach c) (h : HasState k seg st c) (h' : HasState k seg st' c) : st = st' := by
  obtain ⟨r, hr, e, himage, hget, rfl⟩ := h
  obtain ⟨r', hr', e', himage', hget', rfl⟩ := h'
  obtain rfl := eq_of_image hone hr hr' (himage.trans himage'.symm)
  rw [Option.some.inj (hget.symm.trans hget')]

theorem HasState.segState (hone : OneRecordEach c) (h : HasState k seg st c) : segState c k seg = some st := by
  obtain ⟨r, hr, e, himage, hget, hstate⟩ := h
  have hsome : (findRecord c k).isSome := (findRecord_isSome_iff c k).mpr ⟨r, hr, himage⟩
  obtain ⟨q, hq⟩ := Option.isSome_iff_exists.mp hsome
  obtain rfl := eq_of_image hone (List.mem_of_find?_eq_some hq) hr ((findRecord_image hq).trans himage.symm)
  simp [Machine.segState, hq, hget, hstate]

/-- R17. A change of another segment's state leaves a segment's state. -/
theorem HasState.of_other (hne : ¬(k' = k ∧ seg' = seg)) (h : d.catalog.records = c.catalog.records.map (onImage k' (withSegState seg' st')))
    (hc : HasState k seg st c) : HasState k seg st d := by
  obtain ⟨r, hr, e, himage, hget, hstate⟩ := hc
  refine ⟨_, h ▸ List.mem_map_of_mem hr, e, (onImage_image (by exact fun _ => rfl) r).trans himage, ?_, hstate⟩
  unfold onImage
  split
  · next hk' =>
    have : seg' ≠ seg := fun e => hne ⟨hk'.symm.trans himage, e⟩
    simp [withSegState, this, hget]
  · exact hget

/-- R17. The segment whose state is changed has the new one. -/
theorem HasState.of_set (h : d.catalog.records = c.catalog.records.map (onImage k (withSegState seg st'))) (hc : HasState k seg st c) :
    HasState k seg st' d := by
  obtain ⟨r, hr, e, himage, hget, _⟩ := hc
  refine ⟨_, h ▸ List.mem_map_of_mem hr, { e with state := st' }, (onImage_image (by exact fun _ => rfl) r).trans himage, ?_, rfl⟩
  simp [onImage, himage, withSegState, hget]

theorem HasState.evictSegment (hne : ¬(k' = k ∧ seg' = seg)) (slot : Nat) (hc : HasState k seg st c) : HasState k seg st (evictSegment k' seg' slot c) := by
  have hset : HasState k seg st (setSegState k' seg' .absent c) := hc.of_other hne (setSegState_records _ _ _ _)
  rcases evictSegment_records k' seg' slot c with h | h
  · exact hc.of_other hne h
  · rw [← setSegState_records] at h
    obtain ⟨r, hr, e, himage, hget, hstate⟩ := hset
    refine ⟨_, h ▸ List.mem_map_of_mem hr, e, (onImage_image (by exact fun _ => rfl) r).trans himage, ?_, hstate⟩
    unfold onImage
    split <;> exact hget

theorem openFetch_images (i slot : Nat) (x : Candidate) (p : PeerRecord) (c : Chip) : imagesOf (openFetch i slot x p c) = imagesOf c := by
  rw [imagesOf, openFetch_records, List.map_map]
  exact List.map_congr_left fun r _ => onImage_image (by exact fun _ => rfl) r

theorem evictSegment_images (k : ImageKey) (seg slot : Nat) (c : Chip) : imagesOf (evictSegment k seg slot c) = imagesOf c := by
  have hstate : ∀ r, (onImage k (withSegState seg .absent) r).image = r.image := onImage_image (by exact fun _ => rfl)
  have hgathering : ∀ r, (onImage k (fun r => { r with state := .gathering }) r).image = r.image := onImage_image (by exact fun _ => rfl)
  rcases evictSegment_records k seg slot c with h | h <;> simp [imagesOf, h, Function.comp_def, hstate, hgathering]

theorem dealShort_images (x : Candidate) (c : Chip) : imagesOf (dealShort x c) = imagesOf c := by
  rcases dealShort_cases x c with h | ⟨v, _, h⟩ | h <;> rw [h]
  exacts [evictSegment_images _ _ _ c, rfl]

/-! ## An opening stands (R38, R47) -/

/-- R47. The fetch slot is open for the candidate at its start, and the segment is FETCHING into the store slot. -/
structure Opened (i slot : Nat) (x : Candidate) (p : PeerRecord) (c : Chip) : Prop where
  fetch : fetchSlot c i = .opened (openedFor slot x p)
  one : OneRecordEach c
  fetching : HasState x.image x.segment (.fetching slot) c

theorem Opened.of_openFetch {i slot : Nat} {x : Candidate} {p : PeerRecord} (hone : OneRecordEach c) (hi : freeSlot c = some i) (hx : x ∈ candidates c) :
    Opened i slot x p (openFetch i slot x p c) where
  fetch := (openFetch_fills (freeSlot_lt hi) slot x p).1
  one := show (imagesOf _).Nodup from (openFetch_images i slot x p c).symm ▸ hone
  fetching := .of_set (openFetch_records i slot x p c) (candidates_absent hx)

variable {i slot : Nat} {x : Candidate} {p : PeerRecord}

theorem Opened.openFetch (h : Opened i slot x p c) {i' slot' : Nat} {x' : Candidate} {p' : PeerRecord} (hi : freeSlot c = some i') (hx : x' ∈ candidates c) :
    Opened i slot x p (openFetch i' slot' x' p' c) where
  fetch := by
    have hne : i ≠ i' := fun e => by
      have hfree := freeSlot_free hi
      rw [← e, h.fetch] at hfree
      cases hfree
    exact ((openFetch_fills (freeSlot_lt hi) slot' x' p').2.1 i hne).trans h.fetch
  one := show (imagesOf _).Nodup from (openFetch_images i' slot' x' p' c).symm ▸ h.one
  fetching := by
    refine h.fetching.of_other ?_ (openFetch_records i' slot' x' p' c)
    rintro ⟨himage, hseg⟩
    have habsent : HasState x.image x.segment .absent c := himage ▸ hseg ▸ candidates_absent hx
    cases h.fetching.unique h.one habsent

theorem Opened.dealShort (h : Opened i slot x p c) (x' : Candidate) : Opened i slot x p (dealShort x' c) where
  fetch := (fetchSlot_of_slots (dealShort_slots x' c) i).trans h.fetch
  one := show (imagesOf _).Nodup from (dealShort_images x' c).symm ▸ h.one
  fetching := by
    rcases dealShort_cases x' c with hd | ⟨v, hv, hd⟩ | hd <;> rw [hd]
    · exact h.fetching
    · refine h.fetching.evictSegment ?_ v.slot
      rintro ⟨himage, hseg⟩
      have hheld : HasState x.image x.segment (.held v.slot) c := himage ▸ hseg ▸ evictables_held (evictedFor_mem hv)
      cases h.fetching.unique h.one hheld
    · exact h.fetching

/-- R47. What a run's steps do not undo stands at its end. -/
theorem selectionSteps_preserves {P : Chip → Prop} (opens : ∀ {c i slot x p}, P c → freeSlot c = some i → x ∈ candidates c → P (openFetch i slot x p c))
    (shorts : ∀ {c x}, P c → P (dealShort x c)) (n : Nat) {a b : Bool} {c : Chip} (h : P c) : P (selectionSteps n a b c) := by
  induction n generalizing a b c with
  | zero => exact h
  | succ n ih =>
    cases hi : freeSlot c with
    | none => rwa [selectionSteps_of_full hi]
    | some i =>
      cases hx : firstCandidate (openKinds a b c) with
      | none => rwa [selectionSteps_of_no_candidate hx]
      | some x =>
        rcases selectionSteps_succ (n := n) hi hx with ⟨slot, p, _, _, hrun⟩ | ⟨_, hrun⟩ <;> rw [hrun]
        exacts [ih (opens h hi (mem_openKinds.mp (firstCandidate_mem hx)).1), ih (shorts h)]

/-- R47. A run opens the first candidate of the kinds not found short, when its kind has an ERASED slot. -/
theorem selectionSteps_opens (n : Nat) {a b : Bool} (hone : OneRecordEach c) (hi : freeSlot c = some i) (hx : firstCandidate (openKinds a b c) = some x)
    (hslot : lowestErased c x.privKind = some slot) (hp : chooseHolder c x.image x.segment none = some p) :
    Opened i slot x p (selectionSteps (n + 1) a b c) := by
  rcases selectionSteps_succ (n := n) hi hx with ⟨slot', p', hslot', hp', hrun⟩ | ⟨hnone, _⟩
  · obtain rfl := Option.some.inj (hslot.symm.trans hslot')
    obtain rfl := Option.some.inj (hp.symm.trans hp')
    rw [hrun]
    exact selectionSteps_preserves (P := Opened i slot x p) (fun h hi hx => h.openFetch hi hx) (fun h => h.dealShort _) n
      (.of_openFetch hone hi (mem_openKinds.mp (firstCandidate_mem hx)).1)
  · rw [hnone] at hslot
    cases hslot

/-! ## The run (R40) -/

/-- R40. The conditions under which selection opens fetches. -/
def SelectionRuns (c : Chip) : Prop :=
  c.port.config.isSome ∧ c.store.scanPhase = .done ∧ (c.role = .origin ∨ (c.census.completedOnce = true ∧ c.departure.departed = false))

theorem selectionOpen_iff (c : Chip) : selectionOpen c = true ↔ SelectionRuns c := by
  unfold selectionOpen SelectionRuns configured
  cases c.role <;> simp [and_assoc]

theorem runSelection_of_not_asked (h : c.fetch.selectionAsked = false) : runSelection c = c := by simp [runSelection, h]

theorem runSelection_of_not_open (h : c.fetch.selectionAsked = true) (hnot : ¬SelectionRuns c) :
    runSelection c = { c with fetch := { c.fetch with selectionAsked := false } } := by
  rw [← selectionOpen_iff] at hnot
  simp [runSelection, h, hnot]

theorem runSelection_of_open (h : c.fetch.selectionAsked = true) (hopen : SelectionRuns c) :
    runSelection c = { selectionSteps 8 false false c with fetch.selectionAsked := false } := by
  simp [runSelection, h, (selectionOpen_iff c).mpr hopen]

theorem openKinds_all (c : Chip) : openKinds false false c = candidates c := by
  simp [openKinds]

/-- R47. After a first candidate that is short, the candidates of the other kind are left. -/
theorem openKinds_other (x : Candidate) (c : Chip) :
    openKinds (false || !x.privKind) (false || x.privKind) c = (candidates c).filter (fun z => z.privKind != x.privKind) := by
  unfold openKinds
  refine List.filter_congr fun z _ => ?_
  cases x.privKind <;> cases z.privKind <;> rfl

theorem candidates_of_same (hcatalog : d.catalog = c.catalog) (hpeers : d.peers = c.peers) (hport : d.port = c.port) : candidates d = candidates c := by
  have hat : ∀ r, candidateAt d r = candidateAt c r := fun r => by
    have hload : ∀ k seg, loadNames d k seg = loadNames c k seg := fun k seg => by rw [loadNames, loadNames, hport]
    have hcand : ∀ i e, isCandidate d r i e = isCandidate c r i e := fun i e => by rw [isCandidate, isCandidate, hpeers, hload]
    funext i e
    rw [candidateAt, candidateAt, hcand]
  have hrecord : ∀ r seg es, recordCandidates d r seg es = recordCandidates c r seg es := fun r seg es => by
    rw [recordCandidates_eq, recordCandidates_eq, hat]
  simp only [candidates, hcatalog, hrecord]

theorem freeSlot_of_slots (h : d.fetch.slots = c.fetch.slots) : freeSlot d = freeSlot c := by rw [freeSlot, freeSlot, h]

/-- R47. At most four openings and two kinds found short make a run. -/
theorem selectionSteps_runEnded (hlen : c.fetch.slots.length = 4) : RunEnded (selectionSteps 8 false false c) := by
  refine selectionSteps_ends 8 hlen (by simp) (by simp) ?_
  have : freeSlots c ≤ 4 := List.countP_le_length
  simp [kindsLeft]
  omega

/-- R40, R47. A run, by whether it was asked for and its conditions hold. -/
theorem runSelection_run (hlen : c.fetch.slots.length = 4) (h : c.fetch.selectionAsked = true) (hopen : SelectionRuns c) :
    ((runSelection c).fetch.selectionAsked = false ∧ RunEnded (runSelection c)) ∧
      (∀ i x slot p, freeSlot c = some i → firstCandidate (candidates c) = some x → lowestErased c x.privKind = some slot →
        chooseHolder c x.image x.segment none = some p → OneRecordEach c → Opened i slot x p (runSelection c)) ∧
      ∀ i x y slot p, freeSlot c = some i → firstCandidate (candidates c) = some x → lowestErased c x.privKind = none →
        firstCandidate ((candidates (dealShort x c)).filter (fun z => z.privKind != x.privKind)) = some y →
        lowestErased (dealShort x c) y.privKind = some slot → chooseHolder (dealShort x c) y.image y.segment none = some p → OneRecordEach c →
        Opened i slot y p (runSelection c) := by
  have hcandidates : candidates { selectionSteps 8 false false c with fetch.selectionAsked := false } = candidates (selectionSteps 8 false false c) :=
    candidates_of_same rfl rfl rfl
  have hended : RunEnded { selectionSteps 8 false false c with fetch.selectionAsked := false } :=
    (selectionSteps_runEnded hlen).imp id fun h x hx => h x (hcandidates ▸ hx)
  have cleared : ∀ {i slot x p d}, Opened i slot x p d → Opened i slot x p { d with fetch.selectionAsked := false } :=
    fun h => ⟨h.fetch, h.one, h.fetching⟩
  rw [runSelection_of_open h hopen]
  refine ⟨⟨rfl, hended⟩, fun i x slot p hi hx hslot hp hone => ?_, fun i x y slot p hi hx hnone hy hslot hp hone => ?_⟩
  · exact cleared (selectionSteps_opens 7 hone hi ((openKinds_all c).symm ▸ hx) hslot hp)
  · rcases selectionSteps_succ (n := 7) hi ((openKinds_all c).symm ▸ hx) with ⟨_, _, hsome, _⟩ | ⟨_, hrun⟩
    · rw [hnone] at hsome
      cases hsome
    · rw [hrun]
      have hone' : OneRecordEach (dealShort x c) := show (imagesOf _).Nodup from (dealShort_images x c).symm ▸ hone
      exact cleared (selectionSteps_opens 6 hone' ((freeSlot_of_slots (dealShort_slots x c)).trans hi) ((openKinds_other x _).symm ▸ hy) hslot hp)

/-- Settles O19, by what is chosen among, the slots of a kind, the shortage, the opening and the run. -/
theorem selectionPreferences : Obligations.SelectionPreferences := by
  unfold Obligations.SelectionPreferences
  refine ⟨holder_choice, fun l x hx => firstCandidate_split hx, fun c => ?_, fun c priv hwhole => ⟨lowestErased_lowest hwhole priv, someDirty_iff hwhole priv⟩,
    ⟨fun c priv hheld => ?_, fun l => ⟨evictChoice_eq_none, fun v hv => evictChoice_split hv⟩⟩, fun c x => ?_, fun c i slot x p hi => openFetch_does hi slot x p,
    fun c hlen => ?_⟩
  · exact ⟨fun r => recordCandidates c r 0 r.entries, rfl, fun r _ => ⟨recordCandidates_rise c r, mem_recordCandidates c r⟩⟩
  · exact ⟨evictablesOf c priv, evictables_eq c priv, fun r hr => ⟨evictablesOf_rise c priv r, mem_evictablesOf (hheld r hr)⟩⟩
  · refine ⟨dealShort_of_dirty, fun hd v hv => ?_, fun hd hv => ⟨fun u hu hle => ?_, fun hlate => ?_⟩⟩
    · rw [dealShort_of_evicted hd hv]
      exact evictSegment_does _ _ _ c
    · exact dealShort_of_recent hd hv ⟨u, hu, hle⟩
    · have hnot : ¬StoreFullRecent c := fun ⟨u, hu, hle⟩ => absurd (hlate u hu) (by omega)
      rw [dealShort_of_not_recent hd hv hnot]
      exact ⟨rfl, reported_of_report (.refl _) (.refl _)⟩
  · refine ⟨freeSlot_iff hlen, runSelection_of_not_asked, runSelection_of_not_open, fun hasked hruns => ?_, fun hasked hruns i x y slot p hi hx hnone => ?_⟩
    · obtain ⟨⟨hcleared, hended⟩, hopens, _⟩ := runSelection_run hlen hasked hruns
      refine ⟨hcleared, hended, fun i x slot p hi hx hslot hp hone => ?_⟩
      have hopened := hopens i x slot p hi hx hslot hp hone
      exact ⟨hopened.fetch, hopened.fetching.segState hopened.one⟩
    · obtain ⟨_, _, hopens⟩ := runSelection_run hlen hasked hruns
      intro e hy hslot hp hone
      have hopened := hopens i x y slot p hi hx hnone hy hslot hp hone
      exact ⟨hopened.fetch, hopened.fetching.segState hopened.one⟩

end Sys2Proof.Machine
end

