-- ==== Sys2Proof/Proofs/LeavingPeers.lean ====
section
/-!
SUPPORT. How a fetch leaves its peer (R56, R57), and what settling leaves of a fetch slot in use and of a segment that is neither ABSENT nor HELD (R40 to R47).
-/
namespace Sys2Proof.Machine

/-! ## Segments that selection leaves alone (R17, R41, R46) -/

/-- R17. Every record of the image that has the segment has it in this state. -/
def AllInState (k : ImageKey) (seg : Nat) (st : SegState) (c : Chip) : Prop :=
  ∀ r ∈ c.catalog.records, r.image = k → ∀ e, r.entries[seg]? = some e → e.state = st

/-- R41, R46. A segment in this state is neither a candidate nor evictable. -/
def LeftAlone (st : SegState) : Prop := st ≠ .absent ∧ ∀ slot, st ≠ .held slot

/-- R17. The image's record has the segment. -/
abbrev HasSegment (k : ImageKey) (seg : Nat) (c : Chip) : Prop := RecordHas k (fun r => seg < r.entries.length) c

variable {k k' : ImageKey} {seg seg' : Nat} {st st' : SegState} {c d : Chip}

theorem AllInState.of_catalog (h : d.catalog = c.catalog) (hc : AllInState k seg st c) : AllInState k seg st d := by rwa [AllInState, h]

theorem AllInState.ne_of_hasState (hc : AllInState k seg st c) (h : HasState k' seg' st' c) (hst : st' ≠ st) : ¬(k' = k ∧ seg' = seg) := by
  rintro ⟨rfl, rfl⟩
  obtain ⟨r, hr, e, himage, hget, hstate⟩ := h
  exact hst (hstate.symm.trans (hc r hr himage e hget))

/-- A change of records that keeps the images and the segment's entry keeps its state. -/
theorem AllInState.of_map {g : ImageRecord → ImageRecord} (h : d.catalog.records = c.catalog.records.map g) (himage : ∀ r, (g r).image = r.image)
    (hentry : ∀ r, r.image = k → (g r).entries[seg]? = r.entries[seg]?) (hc : AllInState k seg st c) : AllInState k seg st d := by
  intro r' hr' himage' e he
  rw [h] at hr'
  obtain ⟨r, hr, rfl⟩ := List.mem_map.mp hr'
  have hk : r.image = k := (himage r).symm.trans himage'
  exact hc r hr hk e ((hentry r hk).symm.trans he)

/-- A change of another segment's state keeps a segment's state. -/
theorem AllInState.of_other (hne : ¬(k' = k ∧ seg' = seg)) (h : d.catalog.records = c.catalog.records.map (onImage k' (withSegState seg' st')))
    (hc : AllInState k seg st c) : AllInState k seg st d := by
  refine hc.of_map h (onImage_image (by exact fun _ => rfl)) fun r hk => ?_
  unfold onImage
  split
  · next hk' =>
    have : seg' ≠ seg := fun e => hne ⟨hk'.symm.trans hk, e⟩
    simp [withSegState, this]
  · rfl

/-- The segment whose state is changed has the new one in every record of its image. -/
theorem AllInState.of_set (h : d.catalog.records = c.catalog.records.map (onImage k (withSegState seg st))) : AllInState k seg st d := by
  intro r' hr' himage e he
  rw [h] at hr'
  obtain ⟨r, hr, rfl⟩ := List.mem_map.mp hr'
  have hk : r.image = k := (onImage_image (by exact fun _ => rfl) r).symm.trans himage
  simp only [onImage, hk, if_true, withSegState, List.getElem?_modify_eq, Option.map_eq_map, Option.map_eq_some_iff] at he
  obtain ⟨_, _, rfl⟩ := he
  rfl

theorem AllInState.evictSegment (hne : ¬(k' = k ∧ seg' = seg)) (slot : Nat) (hc : AllInState k seg st c) :
    AllInState k seg st (evictSegment k' seg' slot c) := by
  have hset : AllInState k seg st (setSegState k' seg' .absent c) := hc.of_other hne (setSegState_records _ _ _ _)
  rcases evictSegment_records k' seg' slot c with h | h
  · exact hc.of_other hne h
  · rw [← setSegState_records] at h
    refine hset.of_map h (onImage_image (by exact fun _ => rfl)) fun r _ => ?_
    unfold onImage
    split <;> rfl

theorem onImage_length {f : ImageRecord → ImageRecord} (hf : ∀ r, (f r).entries.length = r.entries.length) (r : ImageRecord) :
    (onImage k f r).entries.length = r.entries.length := by
  unfold onImage
  split
  exacts [hf r, rfl]

theorem withSegState_length (seg : Nat) (st : SegState) (r : ImageRecord) : (withSegState seg st r).entries.length = r.entries.length := by
  simp [withSegState]

/-- A change of a segment's state leaves an image's record the segments it has. -/
theorem HasSegment.of_segState (h : d.catalog.records = c.catalog.records.map (onImage k' (withSegState seg' st'))) (hc : HasSegment k seg c) :
    HasSegment k seg d :=
  RecordHas.of_map h (onImage_image (by exact fun _ => rfl)) (fun r hr => by rwa [onImage_length (withSegState_length seg' st')]) hc

theorem HasSegment.evictSegment (slot : Nat) (hc : HasSegment k seg c) : HasSegment k seg (evictSegment k' seg' slot c) := by
  rcases evictSegment_records k' seg' slot c with h | h
  · exact HasSegment.of_segState h hc
  · rw [← setSegState_records k' seg' .absent c] at h
    refine RecordHas.of_map h (onImage_image (by exact fun _ => rfl)) (fun r hr => ?_) (HasSegment.of_segState (setSegState_records k' seg' .absent c) hc)
    rwa [onImage_length (by exact fun _ => rfl)]

theorem hasSegment_of_segState (h : (segState c k seg).isSome) : HasSegment k seg c := by
  unfold segState at h
  split at h
  · next r hr => exact ⟨r, hr, by simpa using h⟩
  · cases h

theorem HasSegment.segState (h : HasSegment k seg c) (hall : AllInState k seg st c) : segState c k seg = some st := by
  obtain ⟨r, hr, hlen⟩ := h
  have hget : r.entries[seg]? = some r.entries[seg] := List.getElem?_eq_getElem hlen
  simp [Machine.segState, hr, hget, hall r (List.mem_of_find?_eq_some hr) (findRecord_image hr) _ hget]

/-- Going from one chip to another, a segment keeps its state and its entry, and no fetch of it is opened. -/
structure KeepsSegment (k : ImageKey) (seg : Nat) (st : SegState) (c d : Chip) : Prop where
  state : AllInState k seg st c → AllInState k seg st d
  entry : HasSegment k seg c → HasSegment k seg d
  fetches : AllInState k seg st c → ∀ i g, fetchSlot d i = .opened g → g.image = k → g.segment = seg → fetchSlot c i = .opened g

theorem KeepsSegment.trans {e : Chip} (h : KeepsSegment k seg st c d) (h' : KeepsSegment k seg st d e) : KeepsSegment k seg st c e :=
  ⟨fun hc => h'.state (h.state hc), fun hc => h'.entry (h.entry hc),
    fun hc i g hg himage hseg => h.fetches hc i g (h'.fetches (h.state hc) i g hg himage hseg) himage hseg⟩

theorem KeepsSegment.of_same (hc : d.catalog = c.catalog) (hs : d.fetch.slots = c.fetch.slots) : KeepsSegment k seg st c d :=
  ⟨.of_catalog hc, .of_catalog hc, fun _ i _ hg _ _ => (fetchSlot_of_slots hs i).symm.trans hg⟩

/-- R41, R47. A segment that is not ABSENT is no candidate, so that no fetch is opened for it. -/
theorem openFetch_keepsSegment (hst : st ≠ .absent) {i slot : Nat} {x : Candidate} (p : PeerRecord) (hi : freeSlot c = some i) (hx : x ∈ candidates c) :
    KeepsSegment k seg st c (openFetch i slot x p c) := by
  have hother : AllInState k seg st c → ¬(x.image = k ∧ x.segment = seg) := fun hc => hc.ne_of_hasState (candidates_absent hx) (Ne.symm hst)
  refine ⟨fun hc => hc.of_other (hother hc) (openFetch_records i slot x p c), fun hc => HasSegment.of_segState (openFetch_records i slot x p c) hc,
    fun hc j g hg himage hseg => ?_⟩
  obtain ⟨hfilled, hothers, _⟩ := openFetch_fills (freeSlot_lt hi) slot x p
  by_cases hj : j = i
  · rw [hj, hfilled] at hg
    cases hg
    exact absurd ⟨himage, hseg⟩ (hother hc)
  · exact (hothers j hj).symm.trans hg

/-- R46. A segment that is not HELD is not evicted. -/
theorem evictSegment_keepsSegment (hst : ∀ slot, st ≠ .held slot) {priv : Bool} {v : Evictable} (hv : v ∈ evictables c priv) :
    KeepsSegment k seg st c (evictSegment v.image v.segment v.slot c) :=
  ⟨fun hc => hc.evictSegment (hc.ne_of_hasState (evictables_held hv) (Ne.symm (hst v.slot))) v.slot, HasSegment.evictSegment v.slot,
    fun _ i _ hg _ _ => (fetchSlot_of_slots (evictSegment_slots _ _ _ c) i).symm.trans hg⟩

theorem settle_keepsSegment (hst : LeftAlone st) (c : Chip) : KeepsSegment k seg st c (settle c) :=
  settle_does (R := KeepsSegment k seg st) .trans (fun _ h => .of_same h.1 h.2.1)
    (runSelection_does (R := KeepsSegment k seg st) .trans (fun _ h => .of_same h.1 h.2.1) (fun _ _ _ _ p hi hx => openFetch_keepsSegment hst.1 p hi hx)
      (fun _ _ _ hv => evictSegment_keepsSegment hst.2 hv)) c

/-! ## Fetch slots in use -/

/-- Going from one chip to another, every fetch slot that is not FREE stands. -/
def KeepsInUse (c d : Chip) : Prop := ∀ i, fetchSlot c i ≠ .free → fetchSlot d i = fetchSlot c i

theorem KeepsInUse.trans {e : Chip} (h : KeepsInUse c d) (h' : KeepsInUse d e) : KeepsInUse c e := fun i hi =>
  have hd := h i hi
  (h' i (hd ▸ hi)).trans hd

theorem KeepsInUse.of_slots (h : d.fetch.slots = c.fetch.slots) : KeepsInUse c d := fun i _ => fetchSlot_of_slots h i

theorem openFetch_keepsInUse {i : Nat} (hi : freeSlot c = some i) (slot : Nat) (x : Candidate) (p : PeerRecord) : KeepsInUse c (openFetch i slot x p c) :=
  fun j hj => (openFetch_fills (freeSlot_lt hi) slot x p).2.1 j fun e => hj (e ▸ freeSlot_free hi)

/-- R47. Settling opens fetches in FREE slots alone. -/
theorem settle_keepsInUse (c : Chip) : KeepsInUse c (settle c) :=
  settle_does (R := KeepsInUse) .trans (fun _ h => .of_slots h.2.1)
    (runSelection_does (R := KeepsInUse) .trans (fun _ h => .of_slots h.2.1) (fun _ _ slot x p hi _ => openFetch_keepsInUse hi slot x p)
      (fun _ _ _ _ => .of_slots (evictSegment_slots _ _ _ _))) c

/-! ## A fetch leaves its peer (R56, R57) -/

theorem abandonFetch_records (i detail : Nat) (x : OpenFetch) (c : Chip) :
    (abandonFetch i detail x c).catalog.records = c.catalog.records.map (onImage x.image (withSegState x.segment (.cooling (c.now + 30000)))) := by
  rw [abandonFetch, report_catalog, setSegState_records, (release_unmoved _ _).1, (freeFetch_does _ _ _ _).2.1]

/-- R56, R57. The fetch has moved to another peer, or its slot is FREE and its segment cools. -/
def HasLeft (i : Nat) (x : OpenFetch) (c : Chip) : Prop :=
  (∃ p : PeerRecord, p.id ≠ x.peer ∧ fetchSlot c i = .opened (movedTo p x)) ∨
    (fetchSlot c i = .free ∧ ∃ u, AllInState x.image x.segment (.cooling u) c)

theorem nextHolder_ne {x : OpenFetch} {p : PeerRecord} (h : nextHolder x c = some p) : p.id ≠ x.peer := by
  unfold nextHolder at h
  split at h
  · exact fun e => (chooseHolder_some h).2.2 (by rw [e])
  · cases h

/-- R56, R57. A switch that is made takes the fetch from its peer. -/
theorem switchFetch_hasLeft {i : Nat} {x : OpenFetch} (h : fetchSlot c i = .opened x) : HasLeft i x (switchFetch i c) := by
  have hi := fetchSlot_opened_lt h
  cases hholder : nextHolder x c with
  | some p =>
    rw [switchFetch_of_some h hholder]
    exact .inl ⟨p, nextHolder_ne hholder, (moveToPeer_does hi x p).1⟩
  | none =>
    rw [switchFetch_of_none h hholder]
    exact .inr ⟨(fetchSlot_of_set (abandonFetch_slots i _ x c) hi i).trans (if_pos rfl), _, .of_set (abandonFetch_records i _ x c)⟩

theorem HasLeft.of_same {i : Nat} {x : OpenFetch} (hc : d.catalog = c.catalog) (hs : d.fetch.slots = c.fetch.slots) (h : HasLeft i x c) : HasLeft i x d := by
  rw [HasLeft, fetchSlot_of_slots hs]
  exact h.imp_right fun ⟨hfree, u, hall⟩ => ⟨hfree, u, hall.of_catalog hc⟩

theorem cooling_leftAlone (u : Nat) : LeftAlone (.cooling u) := ⟨by simp, by simp⟩

/-- R18, R56. What is set going after the fetch has left its peer does not bring it back: a cooling segment is no candidate. -/
theorem HasLeft.leftPeer {i : Nat} {x : OpenFetch} (h : HasLeft i x c) : LeftPeer (settle c) i x := by
  intro g hg himage hseg
  rcases h with ⟨p, hp, hmoved⟩ | ⟨hfree, u, hall⟩
  · have hstill := (settle_keepsOpen c i _ hmoved).1
    obtain rfl := FetchSlot.opened.inj (hg.symm.trans hstill)
    exact ⟨hp, rfl, rfl, rfl, rfl, rfl, rfl, rfl⟩
  · have hbefore := (settle_keepsSegment (cooling_leftAlone u) c).fetches hall i g hg himage hseg
    rw [hfree] at hbefore
    cases hbefore

end Sys2Proof.Machine
end

