-- ==== Sys2Proof/Proofs/FetchTurns.lean ====
section
/-!
SUPPORT. Fetch slots in a received frame's step: what presence leaves of the fetches (R21, R22), and that one slot's turn leaves the other slots alone (R49 to
R57).
-/
namespace Sys2Proof.Machine

/-! ## Fetches through presence (R21, R22) -/

variable {c d : Chip}

theorem roomCandidate_mem {ps : List PeerRecord} {p : PeerRecord} (h : roomCandidate ps = some p) : p ∈ ps := by
  induction ps generalizing p with
  | nil => cases h
  | cons q qs ih =>
    unfold roomCandidate at h
    split at h
    · exact List.mem_cons_of_mem _ (ih h)
    · split at h
      · simp_all
      · next r hr =>
        split at h
        · simp_all
        · exact List.mem_cons_of_mem _ (ih (hr.trans h))

theorem recount_fetch (c : Chip) : ∃ asked, (recount c).fetch = { c.fetch with selectionAsked := asked } := by
  obtain ⟨asked, h⟩ := recount_does c
  exact ⟨asked, by rw [h]⟩

theorem askIf_fetch (b : Bool) (c : Chip) : ∃ asked, (askIf b c).fetch = { c.fetch with selectionAsked := asked } := by
  unfold askIf
  split
  exacts [⟨true, rfl⟩, ⟨c.fetch.selectionAsked, rfl⟩]

/-- R33. Of the fetches the removal of a peer changes only whether their slots still count against it. -/
theorem removePeer_fetch (id : Nat) (c : Chip) :
    ∃ asked, (removePeer id c).fetch = { c.fetch with slots := c.fetch.slots.map (uncountSlot id), selectionAsked := asked } := by
  unfold removePeer
  obtain ⟨a, h⟩ := askIf_fetch (hasCoverage c id)
    (recount { c with peers := c.peers.filter (fun p => p.id != id), fetch.slots := c.fetch.slots.map (uncountSlot id) })
  obtain ⟨b, h'⟩ := recount_fetch { c with peers := c.peers.filter (fun p => p.id != id), fetch.slots := c.fetch.slots.map (uncountSlot id) }
  exact ⟨a, by rw [h, h']⟩

/-- R21, R22. Presence without the departing flag may remove the record of another station, and changes the fetches in nothing else. -/
theorem presence_fetch {f : RxFrame} (hf : f.departing = false) (c : Chip) :
    ∃ slots asked, (presence f c).fetch = { c.fetch with slots := slots, selectionAsked := asked } ∧
      (slots = c.fetch.slots ∨ ∃ id ≠ f.sender, slots = c.fetch.slots.map (uncountSlot id)) := by
  unfold presence
  rw [hf]
  split
  · simp only [Bool.false_eq_true, if_false]
    split
    exacts [⟨_, true, rfl, .inl rfl⟩, ⟨_, _, rfl, .inl rfl⟩]
  · next hnone =>
    have removed : ∀ p ∈ c.peers, ∃ slots asked, (removePeer p.id c).fetch = { c.fetch with slots := slots, selectionAsked := asked } ∧
        (slots = c.fetch.slots ∨ ∃ id ≠ f.sender, slots = c.fetch.slots.map (uncountSlot id)) := fun p hp => by
      obtain ⟨asked, h⟩ := removePeer_fetch p.id c
      exact ⟨_, asked, h, .inr ⟨p.id, findPeer_eq_none.mp hnone p hp, rfl⟩⟩
    show ∃ slots asked, (makeRoom c).fetch = _ ∧ _
    unfold makeRoom
    split
    · exact ⟨_, _, rfl, .inl rfl⟩
    · split
      · next p hp => exact removed p (roomCandidate_mem hp)
      · next p ps _ hps => exact removed p (by simp [hps])
      · exact ⟨_, _, rfl, .inl rfl⟩

theorem presence_buffer {f : RxFrame} (hf : f.departing = false) (c : Chip) :
    (presence f c).fetch.buffer = c.fetch.buffer ∧ (presence f c).fetch.asks = c.fetch.asks := by
  obtain ⟨_, _, h, _⟩ := presence_fetch hf c
  rw [h]
  exact ⟨rfl, rfl⟩

theorem presence_fetchSlot {f : RxFrame} (hf : f.departing = false) (c : Chip) (j : Nat) :
    fetchSlot (presence f c) j = fetchSlot c j ∨ ∃ id ≠ f.sender, fetchSlot (presence f c) j = uncountSlot id (fetchSlot c j) := by
  obtain ⟨slots, _, h, rfl | ⟨id, hid, rfl⟩⟩ := presence_fetch hf c
  · exact .inl (by rw [fetchSlot, h, fetchSlot])
  · refine .inr ⟨id, hid, ?_⟩
    rw [fetchSlot, h, fetchSlot, List.getD_eq_getElem?_getD, List.getD_eq_getElem?_getD, List.getElem?_map]
    cases c.fetch.slots[j]? <;> rfl

/-- R22, R33. A fetch open on the frame's sender stands through presence. -/
theorem presence_opened {f : RxFrame} (hf : f.departing = false) {i : Nat} {x : OpenFetch} (h : fetchSlot c i = .opened x) (hpeer : x.peer = f.sender) :
    fetchSlot (presence f c) i = .opened x := by
  rcases presence_fetchSlot hf c i with e | ⟨id, hid, e⟩
  · exact e.trans h
  · have : x.peer ≠ id := fun e => hid (e.symm.trans hpeer)
    rw [e, h, uncountSlot, if_neg this]

/-- R33. A search of the open fetches that does not ask whether they are counted finds the same slot after presence. -/
theorem presence_firstOpen {f : RxFrame} (hf : f.departing = false) {hit : OpenFetch → Bool} (hhit : ∀ x b, hit { x with counted := b } = hit x) (c : Chip) :
    firstOpen (presence f c) hit = firstOpen c hit := by
  refine List.find?_congr fun j _ => ?_
  rcases presence_fetchSlot hf c j with e | ⟨id, _, e⟩ <;> rw [e]
  cases fetchSlot c j with
  | opened x =>
    by_cases hpeer : x.peer = id
    · simpa [uncountSlot, hpeer] using hhit x false
    · simp [uncountSlot, hpeer]
  | free => rfl
  | checking y => rfl

/-- A slot that a search finds is the first of the four that is hit. -/
theorem firstOpen_split {hit : OpenFetch → Bool} {i : Nat} {x : OpenFetch} (h : firstOpen c hit = some i) (hx : fetchSlot c i = .opened x) :
    hit x = true ∧ ∃ before after, [0, 1, 2, 3] = before ++ i :: after ∧ i ∉ after ∧ ∀ j ∈ before, ∀ y, fetchSlot c j = .opened y → hit y = false := by
  obtain ⟨hi, before, after, hsplit, hbefore⟩ := List.find?_eq_some_iff_append.mp h
  refine ⟨by simpa [hx] using hi, before, after, hsplit, ?_, fun j hj y hy => by simpa [hy] using hbefore j hj⟩
  have hnodup : (before ++ i :: after).Nodup := hsplit ▸ (by decide)
  exact (List.nodup_cons.mp (List.nodup_append.mp hnodup).2.1).1

/-! ## One slot's turn leaves the others alone -/

/-- Going from one chip to another, a fetch slot stands with its waiting Ask and its buffered blocks, and a segment that cools keeps cooling. -/
structure LeavesSlot (i : Nat) (c d : Chip) : Prop where
  slot : fetchSlot d i = fetchSlot c i
  asks : i ∈ c.fetch.asks → i ∈ d.fetch.asks
  buffer : d.fetch.buffer.filter (fun z => z.fetch == i) = c.fetch.buffer.filter (fun z => z.fetch == i)
  cooling : ∀ k seg, (∃ u, AllInState k seg (.cooling u) c) → ∃ u, AllInState k seg (.cooling u) d

variable {i j : Nat}

theorem LeavesSlot.refl (c : Chip) : LeavesSlot i c c := ⟨rfl, id, rfl, fun _ _ => id⟩

theorem LeavesSlot.trans {e : Chip} (h : LeavesSlot i c d) (k : LeavesSlot i d e) : LeavesSlot i c e :=
  ⟨k.slot.trans h.slot, fun ha => k.asks (h.asks ha), k.buffer.trans h.buffer, fun key seg hc => k.cooling key seg (h.cooling key seg hc)⟩

theorem LeavesSlot.of_catalog (hc : d.catalog = c.catalog) (hs : fetchSlot d i = fetchSlot c i) (ha : i ∈ c.fetch.asks → i ∈ d.fetch.asks)
    (hb : d.fetch.buffer.filter (fun z => z.fetch == i) = c.fetch.buffer.filter (fun z => z.fetch == i)) : LeavesSlot i c d :=
  ⟨hs, ha, hb, fun _ _ ⟨u, h⟩ => ⟨u, h.of_catalog hc⟩⟩

theorem LeavesSlot.of_fetch (hc : d.catalog = c.catalog) (hs : d.fetch.slots = c.fetch.slots) (ha : d.fetch.asks = c.fetch.asks)
    (hb : d.fetch.buffer = c.fetch.buffer) : LeavesSlot i c d :=
  .of_catalog hc (fetchSlot_of_slots hs i) (fun h => ha ▸ h) (by rw [hb])

theorem setFetchSlot_leavesSlot (h : i ≠ j) (v : FetchSlot) (c : Chip) : LeavesSlot i c (setFetchSlot j v c) :=
  .of_catalog rfl (fetchSlot_setFetchSlot_ne h v c) id rfl

theorem updateOpen_buffer (j : Nat) (g : OpenFetch → OpenFetch) (c : Chip) : (updateOpen j g c).fetch.buffer = c.fetch.buffer := by
  unfold updateOpen
  split <;> rfl

theorem queueAsk_buffer (j : Nat) (c : Chip) : (queueAsk j c).fetch.buffer = c.fetch.buffer := by
  unfold queueAsk
  dsimp only
  split <;> exact updateOpen_buffer _ _ _

theorem queueAsk_leavesSlot (h : i ≠ j) (c : Chip) : LeavesSlot i c (queueAsk j c) :=
  .of_catalog (queueAsk_catalog j c) (queueAsk_others h c).1 (queueAsk_others h c).2 (by rw [queueAsk_buffer])

theorem raiseOpen_fetch (id : Nat) (c : Chip) : (raiseOpen id c).fetch = c.fetch := rfl

theorem lowerOpen_fetch (id : Nat) (counted : Bool) (c : Chip) :
    ∃ asked, (lowerOpen id counted c).fetch = { c.fetch with selectionAsked := asked } := by
  unfold lowerOpen
  split
  exacts [⟨true, rfl⟩, ⟨c.fetch.selectionAsked, rfl⟩]

theorem moveToPeer_leavesSlot (h : i ≠ j) (x : OpenFetch) (p : PeerRecord) (c : Chip) : LeavesSlot i c (moveToPeer j x p c) := by
  obtain ⟨_, hfetch⟩ := lowerOpen_fetch x.peer x.counted c
  obtain ⟨_, _, _, hcatalog, _⟩ := lowerOpen_store x.peer x.counted c
  have hcounted : LeavesSlot i c (raiseOpen p.id (lowerOpen x.peer x.counted c)) :=
    .of_fetch hcatalog (by rw [raiseOpen_fetch, hfetch]) (by rw [raiseOpen_fetch, hfetch]) (by rw [raiseOpen_fetch, hfetch])
  exact (hcounted.trans (setFetchSlot_leavesSlot h _ _)).trans (queueAsk_leavesSlot h _)

theorem freeFetch_fetch (j peer : Nat) (counted : Bool) (c : Chip) :
    (freeFetch j peer counted c).fetch.asks = c.fetch.asks.filter (fun n => n != j) ∧
      (freeFetch j peer counted c).fetch.buffer = c.fetch.buffer.filter (fun z => z.fetch != j) := by
  have hlowered : ∀ d, (lowerOpen peer counted d).fetch.asks = d.fetch.asks ∧ (lowerOpen peer counted d).fetch.buffer = d.fetch.buffer := fun d => by
    obtain ⟨_, h⟩ := lowerOpen_fetch peer counted d
    rw [h]
    exact ⟨rfl, rfl⟩
  exact hlowered _

theorem release_fetch (slot : Nat) (c : Chip) : (release slot c).fetch = c.fetch := by
  obtain ⟨word, queue, waiting, h, _⟩ := release_does slot c
  rw [h]
  rfl

theorem abandonFetch_leavesSlot (h : i ≠ j) (detail : Nat) (x : OpenFetch) (c : Chip) : LeavesSlot i c (abandonFetch j detail x c) := by
  obtain ⟨hasks, hbuffer⟩ := freeFetch_fetch j x.peer x.counted c
  have hfetch : (abandonFetch j detail x c).fetch.asks = (freeFetch j x.peer x.counted c).fetch.asks ∧
      (abandonFetch j detail x c).fetch.buffer = (freeFetch j x.peer x.counted c).fetch.buffer := by
    rw [← release_fetch x.storeSlot (freeFetch j x.peer x.counted c)]
    exact ⟨rfl, rfl⟩
  refine ⟨?_, fun ha => ?_, ?_, fun k seg ⟨u, hall⟩ => ?_⟩
  · rw [fetchSlot, fetchSlot, abandonFetch_slots, List.getD_eq_getElem?_getD, List.getD_eq_getElem?_getD, List.getElem?_set_ne (Ne.symm h)]
  · rw [hfetch.1, hasks]
    simpa [h] using ha
  · rw [hfetch.2, hbuffer, List.filter_filter]
    refine List.filter_congr fun z _ => ?_
    by_cases hz : z.fetch = i <;> simp [hz, h]
  · by_cases hsame : x.image = k ∧ x.segment = seg
    · obtain ⟨rfl, rfl⟩ := hsame
      exact ⟨_, .of_set (abandonFetch_records j detail x c)⟩
    · exact ⟨u, hall.of_other hsame (abandonFetch_records j detail x c)⟩

theorem switchFetch_leavesSlot (h : i ≠ j) (c : Chip) : LeavesSlot i c (switchFetch j c) := by
  unfold switchFetch
  split
  · next x _ =>
    split
    · exact abandonFetch_leavesSlot h 1 x c
    · split
      exacts [abandonFetch_leavesSlot h 2 x c, moveToPeer_leavesSlot h x _ c]
  · exact .refl c

theorem strike_fetch (id : Nat) (counted : Bool) (c : Chip) : (strike id counted c).fetch = c.fetch := by
  unfold strike
  split <;> rfl

theorem endWindow_leavesSlot (h : i ≠ j) (c : Chip) : LeavesSlot i c (endWindow j c) := by
  cases hslot : fetchSlot c j with
  | opened x =>
    have hstopped : LeavesSlot i c (stopTimer j x c) := setFetchSlot_leavesSlot h _ c
    rw [endWindow_of_opened hslot]
    split
    · exact hstopped
    · split
      · have hstruck : LeavesSlot i (stopTimer j x c) (strike x.peer x.counted (stopTimer j x c)) :=
          .of_fetch (strike_unmoved _ _ _).1 (by rw [strike_fetch]) (by rw [strike_fetch]) (by rw [strike_fetch])
        exact (hstopped.trans hstruck).trans (switchFetch_leavesSlot h _)
      · have hmarked : LeavesSlot i (stopTimer j x c) (updateOpen j (fun f => { f with reask := true }) (stopTimer j x c)) := by
          rw [updateOpen_of_opened (stopTimer_opened hslot)]
          exact setFetchSlot_leavesSlot h _ _
        exact (hstopped.trans hmarked).trans (queueAsk_leavesSlot h _)
  | free => simpa [endWindow, hslot] using LeavesSlot.refl c
  | checking y => simpa [endWindow, hslot] using LeavesSlot.refl c

theorem acceptBlock_leavesSlot (h : i ≠ j) (x : OpenFetch) (b : BlockBody) (c : Chip) : LeavesSlot i c (acceptBlock j x b c) := by
  have hbuffered : LeavesSlot i c { c with fetch.buffer := c.fetch.buffer ++ [{ fetch := j, index := b.index, data := b.data }] } :=
    .of_catalog rfl rfl id (by simp [Ne.symm h])
  exact hbuffered.trans (setFetchSlot_leavesSlot h _ _)

theorem blockAt_leavesSlot (h : i ≠ j) (sender : Nat) (b : BlockBody) (c : Chip) : LeavesSlot i c (blockAt sender b j c) := by
  unfold blockAt
  split
  · next x _ =>
    split
    · exact .refl c
    · have htaken : LeavesSlot i c (if missing c j x b.index && decide (c.fetch.buffer.length < 16) then acceptBlock j x b c else c) := by
        split
        exacts [acceptBlock_leavesSlot h x b c, .refl c]
      dsimp only
      split
      exacts [htaken.trans (endWindow_leavesSlot h _), htaken]
  · exact .refl c

theorem HasLeft.of_leavesSlot {x : OpenFetch} (k : LeavesSlot i c d) (h : HasLeft i x c) : HasLeft i x d := by
  rw [HasLeft, k.slot]
  exact h.imp_right fun ⟨hfree, hcools⟩ => ⟨hfree, k.cooling _ _ hcools⟩

/-! ## The slots that a Block is not for (R49) -/

/-- R49. A slot that the block does not match is left alone. -/
theorem blockAt_of_not_hit {sender : Nat} {b : BlockBody} (h : ∀ y, fetchSlot c j = .opened y → blockMatches c sender b y = false) :
    blockAt sender b j c = c := by
  unfold blockAt
  split
  · next y hy => simp [h y hy]
  · rfl

/-- R49. A Block frame does its work at the first slot it matches; the slots after it leave that one alone. -/
theorem onBlock_at_first {sender : Nat} {b : BlockBody} {x : OpenFetch} (h : firstOpen c (blockMatches c sender b) = some i)
    (hx : fetchSlot c i = .opened x) : LeavesSlot i (blockAt sender b i c) (onBlock sender b c) := by
  obtain ⟨_, before, after, hsplit, hafter, hbefore⟩ := firstOpen_split h hx
  have hskip : ∀ js : List Nat, (∀ j ∈ js, ∀ y, fetchSlot c j = .opened y → blockMatches c sender b y = false) → forEach js (blockAt sender b) c = c := by
    intro js hjs
    induction js with
    | nil => rfl
    | cons j js ih =>
      have hrun : forEach (j :: js) (blockAt sender b) c = forEach js (blockAt sender b) (blockAt sender b j c) := rfl
      rw [hrun, blockAt_of_not_hit (hjs j (by simp))]
      exact ih fun n hn => hjs n (by simp [hn])
  have hrun : onBlock sender b c = forEach after (blockAt sender b) (blockAt sender b i (forEach before (blockAt sender b) c)) := by
    rw [onBlock, hsplit, forEach, List.foldl_append]
    rfl
  rw [hrun, hskip before hbefore]
  exact forEach_keeps (R := LeavesSlot i) .refl .trans (fun j hj d =>
    have hne : i ≠ j := fun e => hafter (e ▸ hj)
    blockAt_leavesSlot hne sender b d) _

end Sys2Proof.Machine
end

