-- ==== Sys2Proof/Proofs/BlockFrames.lean ====
section
/-!
SUPPORT. A Block frame at the fetch slot it is for (R49, R51): what the slot takes of it, when it ends the window, and what then becomes of the fetch.
-/
namespace Sys2Proof.Machine

variable {c : Chip} {i : Nat} {x : OpenFetch} {b : BlockBody}

/-! ## The flagged block (R49) -/

theorem find_reverse_range (f : Nat → Bool) (n p : Nat) :
    (List.range n).reverse.find? f = some p ↔ p < n ∧ f p = true ∧ ∀ q < n, p < q → f q = false := by
  induction n with
  | zero => simp
  | succ n ih =>
    rw [List.range_succ, List.reverse_append, List.reverse_singleton, List.singleton_append, List.find?_cons]
    cases hn : f n with
    | true =>
      constructor
      · intro h
        obtain rfl : n = p := by simpa using h
        exact ⟨by omega, hn, fun q hq hlt => by omega⟩
      · rintro ⟨hp, hfp, hlater⟩
        by_contra hne
        have hlt : p < n := by
          have : n ≠ p := fun e => hne (by simp [e])
          omega
        exact Bool.false_ne_true ((hlater n (by omega) hlt).symm.trans hn)
    | false =>
      rw [ih]
      refine ⟨fun ⟨hp, hfp, hlater⟩ => ⟨by omega, hfp, fun q hq hlt => ?_⟩, fun ⟨hp, hfp, hlater⟩ => ⟨?_, hfp, fun q hq hlt => hlater q (by omega) hlt⟩⟩
      · rcases Nat.lt_succ_iff_lt_or_eq.mp hq with hq | rfl
        exacts [hlater q hq hlt, hn]
      · have : p ≠ n := fun e => Bool.false_ne_true (hn.symm.trans (e ▸ hfp))
        omega

theorem highestMark_iff (m : BitVec 16) (p : Nat) :
    highestMark m = some p ↔ p < 16 ∧ m.getLsbD p = true ∧ ∀ q < 16, p < q → m.getLsbD q = false := find_reverse_range _ 16 p

/-- R49. The block is flagged as the last of its Ask, no Ask of the slot waits, and it is the highest block of the latest Ask. -/
def EndsWindow (c : Chip) (i : Nat) (x : OpenFetch) (b : BlockBody) : Prop :=
  b.lastOfAsk = true ∧ i ∉ c.fetch.asks ∧
    ∃ base mask, x.lastAsk = some (base, mask) ∧
      ∃ p < 16, mask.getLsbD p = true ∧ (∀ q < 16, p < q → mask.getLsbD q = false) ∧ base + p = b.index

theorem flagEndsWindow_iff : flagEndsWindow c i x b = true ↔ EndsWindow c i x b := by
  have hhighest : ∀ base mask, (highestMark mask).map (fun p => base + p) = some b.index ↔
      ∃ p < 16, mask.getLsbD p = true ∧ (∀ q < 16, p < q → mask.getLsbD q = false) ∧ base + p = b.index := fun base mask => by
    simp only [Option.map_eq_some_iff, highestMark_iff, and_assoc]
  unfold flagEndsWindow EndsWindow askWaits
  cases hask : x.lastAsk with
  | none => simp
  | some a =>
    obtain ⟨base, mask⟩ := a
    simp [← hhighest, and_assoc]

/-! ## What the slot takes (R49) -/

/-- R49. The block is missing and the buffer has room for it. -/
def RoomFor (c : Chip) (i : Nat) (x : OpenFetch) (b : BlockBody) : Prop := missing c i x b.index = true ∧ c.fetch.buffer.length < 16

/-- R49. The fetch with a block accepted. -/
def accepting (c : Chip) (i : Nat) (x : OpenFetch) : OpenFetch :=
  { x with
    lastAccept := some c.now
    accepted := x.accepted + (if x.windowStart.isSome then 1 else 0)
    timer := if i ∈ c.fetch.asks then x.timer else some (c.now + 150) }

/-- R51. With the block taken, a block of the window is still missing. -/
def StillMissing (c : Chip) (i : Nat) (x : OpenFetch) (b : BlockBody) : Prop :=
  ∃ p < 16, missing c i x (x.base + p) = true ∧ (RoomFor c i x b → x.base + p ≠ b.index)

/-- R49. The fetch that the block leaves: with the block accepted, or as it was. -/
def TakenAs (c : Chip) (i : Nat) (x : OpenFetch) (b : BlockBody) (y : OpenFetch) : Prop :=
  (RoomFor c i x b → y = accepting c i x) ∧ (¬RoomFor c i x b → y = x)

/-- R49. The block accepted or dropped. -/
def slotTakes (i : Nat) (x : OpenFetch) (b : BlockBody) (c : Chip) : Chip :=
  if missing c i x b.index && decide (c.fetch.buffer.length < 16) then acceptBlock i x b c else c

theorem slotTakes_of_room (h : RoomFor c i x b) : slotTakes i x b c = acceptBlock i x b c := by simp [slotTakes, h.1, h.2]

theorem slotTakes_of_no_room (h : ¬RoomFor c i x b) : slotTakes i x b c = c := by
  rw [slotTakes, if_neg]
  simpa [RoomFor] using h

/-- R49. A Block frame at a slot it matches. -/
theorem blockAt_of_hit {sender : Nat} (hx : fetchSlot c i = .opened x) (hhit : blockMatches c sender b x = true) :
    blockAt sender b i c = if flagEndsWindow c i x b then endWindow i (slotTakes i x b c) else slotTakes i x b c := by
  simp only [blockAt, hx, hhit]
  rfl

theorem acceptBlock_opened (hx : fetchSlot c i = .opened x) (b : BlockBody) : fetchSlot (acceptBlock i x b c) i = .opened (accepting c i x) := by
  have hset : fetchSlot (acceptBlock i x b c) i = .opened { x with
      lastAccept := some c.now, accepted := x.accepted + (if x.windowStart.isSome then 1 else 0),
      timer := if askWaits c i then x.timer else some (c.now + 150) } :=
    fetchSlot_setFetchSlot (c := { c with fetch.buffer := c.fetch.buffer ++ [{ fetch := i, index := b.index, data := b.data }] }) (fetchSlot_opened_lt hx) _
  rw [hset, accepting, askWaits]
  simp

theorem acceptBlock_buffer (i : Nat) (x : OpenFetch) (b : BlockBody) (c : Chip) :
    (acceptBlock i x b c).fetch.buffer = c.fetch.buffer ++ [{ fetch := i, index := b.index, data := b.data }] := rfl

/-- R38, R49. Of the slot's missing blocks the accepted one is missing no longer. -/
theorem missing_acceptBlock (p : Nat) : missing (acceptBlock i x b c) i (accepting c i x) p = true ↔ missing c i x p = true ∧ p ≠ b.index := by
  have hmarked : marked (accepting c i x) p = marked x p := rfl
  have hnew : (b.index == p) = false ↔ p ≠ b.index := by rw [beq_eq_false_iff_ne, ne_comm]
  simp only [missing, buffered, acceptBlock_buffer, hmarked, List.any_append, List.any_cons, List.any_nil, beq_self_eq_true, Bool.true_and,
    Bool.or_false, Bool.and_eq_true, Bool.not_eq_true', Bool.or_eq_false_iff, hnew, and_assoc]

/-- R49. The slot's fetch with its Ask, its buffered blocks and its missing ones, once the block has been taken. -/
theorem slotTakes_does (hx : fetchSlot c i = .opened x) (b : BlockBody) :
    ∃ y, TakenAs c i x b y ∧ fetchSlot (slotTakes i x b c) i = .opened y ∧
      (missingMask (slotTakes i x b c) i y ≠ 0#16 ↔ StillMissing c i x b) := by
  have hmask : ∀ d y, missingMask d i y ≠ 0#16 ↔ ∃ p < 16, missing d i y (y.base + p) = true := fun d y => by
    rw [ne_eq, missingMask_eq_zero]
    simp
  by_cases hroom : RoomFor c i x b
  · rw [slotTakes_of_room hroom]
    refine ⟨_, ⟨fun _ => rfl, fun h => absurd hroom h⟩, acceptBlock_opened hx b, (hmask _ _).trans ?_⟩
    simp only [missing_acceptBlock, StillMissing, hroom, true_implies]
    rfl
  · rw [slotTakes_of_no_room hroom]
    refine ⟨x, ⟨fun h => absurd h hroom, fun _ => rfl⟩, hx, (hmask _ _).trans ?_⟩
    simp [StillMissing, hroom]

/-- R39. What the slot adds to the block buffer. -/
def takenBlocks (c : Chip) (i : Nat) (x : OpenFetch) (b : BlockBody) : List BufferedBlock :=
  if missing c i x b.index && decide (c.fetch.buffer.length < 16) then [{ fetch := i, index := b.index, data := b.data }] else []

theorem takenBlocks_of_room (h : RoomFor c i x b) : takenBlocks c i x b = [{ fetch := i, index := b.index, data := b.data }] := by
  simp [takenBlocks, h.1, h.2]

theorem takenBlocks_of_no_room (h : ¬RoomFor c i x b) : takenBlocks c i x b = [] := by
  rw [takenBlocks, if_neg]
  simpa [RoomFor] using h

theorem slotTakes_buffer (i : Nat) (x : OpenFetch) (b : BlockBody) (c : Chip) :
    (slotTakes i x b c).fetch.buffer.filter (fun z => z.fetch == i) = c.fetch.buffer.filter (fun z => z.fetch == i) ++ takenBlocks c i x b := by
  by_cases hroom : RoomFor c i x b
  · rw [slotTakes_of_room hroom, acceptBlock_buffer, takenBlocks_of_room hroom]
    simp
  · rw [slotTakes_of_no_room hroom, takenBlocks_of_no_room hroom, List.append_nil]

theorem slotTakes_mode (i : Nat) (x : OpenFetch) (b : BlockBody) (c : Chip) : (slotTakes i x b c).yard.mode = c.yard.mode := by
  unfold slotTakes
  split <;> rfl

/-! ## The fetch after the block (R49, R51) -/

theorem TakenAs.same {y : OpenFetch} (h : TakenAs c i x b y) :
    y.image = x.image ∧ y.segment = x.segment ∧ y.peer = x.peer ∧ y.switches = x.switches ∧ y.base = x.base ∧ y.bitmap = x.bitmap ∧ y.reask = x.reask := by
  by_cases hroom : RoomFor c i x b
  · rw [h.1 hroom]
    exact ⟨rfl, rfl, rfl, rfl, rfl, rfl, rfl⟩
  · rw [h.2 hroom]
    exact ⟨rfl, rfl, rfl, rfl, rfl, rfl, rfl⟩

theorem TakenAs.leftPeer {y : OpenFetch} (h : TakenAs c i x b y) {t : Chip} (hleft : LeftPeer t i y) : LeftPeer t i x := by
  obtain ⟨himage, hseg, hpeer, hswitches, hbase, hbitmap, _⟩ := h.same
  simpa only [LeftPeer, himage, hseg, hpeer, hswitches, hbase, hbitmap] using hleft

/-- R49, R51. What has become of the fetch of slot `i`, which the block `b` was for, from one chip to another. -/
structure BlockTaken (i : Nat) (x : OpenFetch) (b : BlockBody) (c d : Chip) (y : OpenFetch) : Prop where
  stays : ¬EndsWindow c i x b → fetchSlot d i = .opened y
  whole : EndsWindow c i x b → ¬StillMissing c i x b → fetchSlot d i = .opened { y with timer := none }
  reasks : EndsWindow c i x b → StillMissing c i x b → x.reask = false →
    i ∈ d.fetch.asks ∧ fetchSlot d i = .opened { y with timer := none, reask := true }
  leaves : EndsWindow c i x b → StillMissing c i x b → x.reask = true → HasLeft i y d

theorem BlockTaken.of_leavesSlot {y : OpenFetch} {d e : Chip} (h : BlockTaken i x b c d y) (k : LeavesSlot i d e) : BlockTaken i x b c e y where
  stays hends := k.slot.trans (h.stays hends)
  whole hends hwhole := k.slot.trans (h.whole hends hwhole)
  reasks hends hstill hreask := (h.reasks hends hstill hreask).imp k.asks k.slot.trans
  leaves hends hstill hreask := (h.leaves hends hstill hreask).of_leavesSlot k

/-- R49, R51. The turn of the slot that the block is for. -/
theorem blockAt_taken {sender : Nat} (hx : fetchSlot c i = .opened x) (hhit : blockMatches c sender b x = true) (hon : c.yard.mode = .on) :
    ∃ y, TakenAs c i x b y ∧ BlockTaken i x b c (blockAt sender b i c) y := by
  obtain ⟨y, htaken, hy, hmask⟩ := slotTakes_does hx b
  obtain ⟨_, _, _, _, _, _, hreask⟩ := htaken.same
  refine ⟨y, htaken, ?_⟩
  rw [blockAt_of_hit hx hhit]
  by_cases hends : EndsWindow c i x b
  · rw [if_pos (flagEndsWindow_iff.mpr hends)]
    refine ⟨fun h => absurd hends h, fun _ hwhole => ?_, fun _ hstill hfirst => ?_, fun _ hstill hsecond => ?_⟩
    · rw [endWindow_of_opened hy, if_pos (not_not.mp (mt hmask.mp hwhole))]
      exact stopTimer_opened hy
    · obtain ⟨hslot, hasks, _⟩ := endWindow_reasks hy (hmask.mpr hstill) (hreask.trans hfirst)
      exact ⟨hasks ((slotTakes_mode _ _ _ _).trans hon), hslot⟩
    · have hstruck : fetchSlot (strike y.peer y.counted (stopTimer i y (slotTakes i x b c))) i = .opened { y with timer := none } :=
        (fetchSlot_of_slots (strike_unmoved _ _ _).2.1 i).trans (stopTimer_opened hy)
      rw [endWindow_of_opened hy, if_neg (hmask.mpr hstill), if_pos (hreask.trans hsecond)]
      have hleft := switchFetch_hasLeft hstruck
      exact hleft
  · rw [if_neg (mt flagEndsWindow_iff.mp hends)]
    exact ⟨fun _ => hy, fun h => absurd h hends, fun h => absurd h hends, fun h => absurd h hends⟩

/-- R49. Where the block does not end the window, the slot's buffered blocks are those it had and the one accepted. -/
theorem blockAt_buffer {sender : Nat} (hx : fetchSlot c i = .opened x) (hhit : blockMatches c sender b x = true) (hends : ¬EndsWindow c i x b) :
    (blockAt sender b i c).fetch.buffer = (slotTakes i x b c).fetch.buffer := by
  rw [blockAt_of_hit hx hhit, if_neg (mt flagEndsWindow_iff.mp hends)]

/-! ## After the owner (R80) -/

theorem pushUrgent_fetch (f : UrgentFrame) (c : Chip) : (pushUrgent f c).fetch = c.fetch := by
  obtain ⟨lane, h⟩ := pushUrgent_does f c
  rw [h]

theorem compareSerial_fetch (f : RxFrame) (c : Chip) : (compareSerial f c).fetch = c.fetch := by
  by_cases h : AsksPlan c f
  · rw [compareSerial_of_asks h, pushUrgent_fetch]
  · rw [compareSerial_of_not_asks h]

theorem compareSerial_leavesSlot (f : RxFrame) (c : Chip) : LeavesSlot i c (compareSerial f c) :=
  .of_fetch (compareSerial_same f c).1 (by rw [compareSerial_fetch]) (by rw [compareSerial_fetch]) (by rw [compareSerial_fetch])

theorem missing_of_buffer {c d : Chip} (h : d.fetch.buffer = c.fetch.buffer) (i : Nat) (x : OpenFetch) (p : Nat) : missing d i x p = missing c i x p := by
  rw [missing, missing, buffered, buffered, h]

/-! ## The block after presence (R21, R49) -/

section
variable {f : RxFrame} (hf : f.departing = false)
include hf

theorem roomFor_presence : RoomFor (presence f c) i x b ↔ RoomFor c i x b := by
  obtain ⟨hbuffer, _⟩ := presence_buffer hf c
  rw [RoomFor, missing_of_buffer hbuffer, hbuffer, RoomFor]

theorem takenBlocks_presence : takenBlocks (presence f c) i x b = takenBlocks c i x b := by
  obtain ⟨hbuffer, _⟩ := presence_buffer hf c
  rw [takenBlocks, missing_of_buffer hbuffer, hbuffer, takenBlocks]

theorem accepting_presence : accepting (presence f c) i x = accepting c i x := by
  have hnow : (presence f c).now = c.now := by simp [(presence_stands f c).1]
  rw [accepting, hnow, (presence_buffer hf c).2, accepting]

theorem endsWindow_presence : EndsWindow (presence f c) i x b ↔ EndsWindow c i x b := by rw [EndsWindow, (presence_buffer hf c).2, EndsWindow]

theorem stillMissing_presence : StillMissing (presence f c) i x b ↔ StillMissing c i x b := by
  simp only [StillMissing, missing_of_buffer (presence_buffer hf c).1, roomFor_presence hf]

/-- R49. The slot that a Block is for is the same after presence, and its fetch stands. -/
theorem blockSlot_presence (hfirst : firstOpen c (blockMatches c f.sender b) = some i) (hx : fetchSlot c i = .opened x) :
    firstOpen (presence f c) (blockMatches (presence f c) f.sender b) = some i ∧ fetchSlot (presence f c) i = .opened x ∧
      blockMatches (presence f c) f.sender b x = true := by
  have hstation : stationId (presence f c) = stationId c := stationId_of_config (by simp [(presence_stands f c).1])
  have hmatches : blockMatches (presence f c) f.sender b = blockMatches c f.sender b := by
    funext y
    rw [blockMatches, blockMatches, hstation]
  obtain ⟨hhit, _⟩ := firstOpen_split hfirst hx
  have hpeer : x.peer = f.sender := by
    simp only [blockMatches, Bool.and_eq_true, beq_iff_eq] at hhit
    obtain ⟨⟨⟨_, hsender⟩, _⟩, _⟩ := hhit
    exact hsender
  rw [hmatches, presence_firstOpen hf (by exact fun _ _ => rfl)]
  exact ⟨hfirst, presence_opened hf hx hpeer, hhit⟩

/-- R49, R80. What the frame makes of the fetch and of its buffered blocks, down to the comparison of its serial. -/
theorem blockFrame_taken (hfirst : firstOpen c (blockMatches c f.sender b) = some i) (hx : fetchSlot c i = .opened x) (hon : c.yard.mode = .on) :
    ∃ y, TakenAs c i x b y ∧ BlockTaken i x b c (compareSerial f (onBlock f.sender b (presence f c))) y ∧
      (¬EndsWindow c i x b →
        (compareSerial f (onBlock f.sender b (presence f c))).fetch.buffer.filter (fun z => z.fetch == i) =
          c.fetch.buffer.filter (fun z => z.fetch == i) ++ takenBlocks c i x b) := by
  obtain ⟨hfirst', hx', hhit⟩ := blockSlot_presence hf hfirst hx
  have hmode : (presence f c).yard.mode = c.yard.mode := by simp [(presence_stands f c).1]
  obtain ⟨y, ⟨hroom, hnone⟩, hturn⟩ := blockAt_taken hx' hhit (hmode.trans hon)
  have hothers := (onBlock_at_first hfirst' hx').trans (compareSerial_leavesSlot f _)
  obtain ⟨hstays, hwhole, hreasks, hleaves⟩ := hturn.of_leavesSlot hothers
  rw [roomFor_presence hf] at hroom hnone
  rw [accepting_presence hf] at hroom
  rw [endsWindow_presence hf] at hstays hwhole hreasks hleaves
  rw [stillMissing_presence hf] at hwhole hreasks hleaves
  refine ⟨y, ⟨hroom, hnone⟩, ⟨hstays, hwhole, hreasks, hleaves⟩, fun hends => ?_⟩
  rw [hothers.buffer, blockAt_buffer hx' hhit (mt (endsWindow_presence hf).mp hends), slotTakes_buffer, takenBlocks_presence hf,
    (presence_buffer hf c).1]

end

/-- Settles O16, by what the frame makes of the fetch of its slot, which the blocks set going leave standing. -/
theorem blockAcceptedOrDropped : Obligations.BlockAcceptedOrDropped := by
  unfold Obligations.BlockAcceptedOrDropped
  intro s frame f i x haccepts hf b hfirst hx c room got flagged stillMissing
  obtain ⟨y, ⟨hyroom, hynone⟩, ⟨hstays, hwhole, hreasks, hleaves⟩, hbuffer⟩ := blockFrame_taken hf hfirst hx haccepts.1
  have hy : y = if room then got else x := by
    split
    exacts [hyroom ‹_›, hynone ‹_›]
  have hstanding : standing (onBlock f.sender b (presence f s.chip)) = standing s.chip :=
    (standing_of_stands (onBlock_reports f.sender b _).1.1).trans (standing_of_stands (presence_stands f s.chip).1)
  have hexec : exec (.block frame) s = .next { s with chip := settle (compareSerial f (onBlock f.sender b (presence f s.chip))) } := by
    have hrun : exec (.block frame) s = .next { s with chip := settle (receive .block (fun f => onBlock f.sender (blockOf f.payload)) frame s.chip) } := rfl
    rw [hrun, receive_accepted haccepts]
  refine ⟨_, _, hexec, rfl, settle_compare_standing f hstanding, fun hno => ?_, fun hends => ⟨fun hnone => ?_, fun hstill hreask => ?_, fun hstill hreask => ?_⟩⟩
  · have hslot := (settle_keepsOpen _ i y (hstays hno)).1
    exact ⟨fun hr => hslot.trans (congrArg _ (hyroom hr)), fun hr => hslot.trans (congrArg _ (hynone hr)),
      fun hr => (hbuffer hno).trans (by rw [takenBlocks_of_room hr]), fun hr => (hbuffer hno).trans (by rw [takenBlocks_of_no_room hr, List.append_nil])⟩
  · rw [← hy]
    exact (settle_keepsOpen _ i _ (hwhole hends hnone)).1
  · obtain ⟨hwaits, hslot⟩ := hreasks hends hstill hreask
    obtain ⟨hopened, hasks⟩ := settle_keepsOpen _ i _ hslot
    rw [← hy]
    exact ⟨hasks hwaits, hopened⟩
  · exact TakenAs.leftPeer ⟨hyroom, hynone⟩ (hleaves hends hstill hreask).leftPeer

end Sys2Proof.Machine
end

