-- ==== Sys2Proof/Proofs/ShortReplies.lean ====
section
/-!
SUPPORT. Lacking, Refused and Busy at the Fetch Engine (R53 to R55): what each writes into the record of its sender, and what then becomes of the fetch it answers.
-/
namespace Sys2Proof.Machine

variable {c d : Chip} {i : Nat} {x : OpenFetch} {kind : FrameKind} {k : ImageKey} {seg : Nat} {f : RxFrame}

/-! ## What a reply writes (R53 to R55) -/

/-- R53, R54, R55. What a matching reply of a kind writes into its sender's record. -/
def replyWrites (kind : FrameKind) (now : Nat) (k : ImageKey) (seg : Nat) (p : PeerRecord) : PeerRecord :=
  match kind with
  | .lacking => setRangeList k (withdrawOne seg (rangeList p k)) p
  | .refused => setRangeList k [] p
  | _ => { p with busyUntil := some (now + 1000) }

/-- R53, R54, R55. The model's own effect of a matching reply. -/
def replyEffect (kind : FrameKind) (sender : Nat) (k : ImageKey) (seg : Nat) (c : Chip) : Chip :=
  match kind with
  | .lacking => withdrawSegment sender k seg c
  | .refused => withdrawImage sender k c
  | _ => markBusy sender c

theorem replyWrites_id (kind : FrameKind) (now : Nat) (k : ImageKey) (seg : Nat) (p : PeerRecord) : (replyWrites kind now k seg p).id = p.id := by
  cases kind <;> rfl

/-- R53, R54, R55. No strike is given, and the lists of the other images stand. -/
theorem replyWrites_keeps (kind : FrameKind) (now : Nat) (k : ImageKey) (seg : Nat) (p : PeerRecord) :
    (replyWrites kind now k seg p).strikes = p.strikes ∧ (replyWrites kind now k seg p).estimate = p.estimate ∧
      ∀ m, m ≠ k → rangeList (replyWrites kind now k seg p) m = rangeList p m := by
  cases kind
  case lacking => exact ⟨rfl, rfl, fun m hm => (rangeList_setRangeList _ _ _ _).trans (if_neg hm)⟩
  case refused => exact ⟨rfl, rfl, fun m hm => (rangeList_setRangeList _ _ _ _).trans (if_neg hm)⟩
  all_goals exact ⟨rfl, rfl, fun _ _ => rfl⟩

/-- The sender's record is rewritten, and neither a fetch slot nor a buffered block is touched. -/
structure Rewrites (id : Nat) (g : PeerRecord → PeerRecord) (c d : Chip) : Prop where
  peers : d.peers = (updatePeer id g c).peers
  slots : d.fetch.slots = c.fetch.slots
  buffer : d.fetch.buffer = c.fetch.buffer

theorem changeList_rewrites (id : Nat) (k : ImageKey) (f : List SegRun → List SegRun) (c : Chip) :
    Rewrites id (fun p => setRangeList k (f (rangeList p k)) p) c (changeList id k f c) := by
  obtain ⟨_, h⟩ := changeList_does id k f c
  rw [h]
  exact ⟨rfl, rfl, rfl⟩

theorem replyEffect_rewrites (kind : FrameKind) (id : Nat) (k : ImageKey) (seg : Nat) (c : Chip) :
    Rewrites id (replyWrites kind c.now k seg) c (replyEffect kind id k seg c) := by
  cases kind
  case lacking => exact changeList_rewrites id k (withdrawOne seg) c
  case refused => exact changeList_rewrites id k (fun _ => []) c
  all_goals exact ⟨rfl, rfl, rfl⟩

theorem replyEffect_quiet (kind : FrameKind) (id : Nat) (k : ImageKey) (seg : Nat) (c : Chip) : Quiet c (replyEffect kind id k seg c) := by
  cases kind
  case lacking => exact changeList_quiet _ _ _ c
  case refused => exact changeList_quiet _ _ _ c
  all_goals exact markBusy_quiet _ c

/-- R25. A withdrawn list leaves the holder counts exact. -/
theorem replyEffect_exact (hkind : kind = .lacking ∨ kind = .refused) (id : Nat) (k : ImageKey) (seg : Nat) (c : Chip) :
    HoldersExact (replyEffect kind id k seg c) := by
  rcases hkind with rfl | rfl
  exacts [changeList_exact _ _ _ c, changeList_exact _ _ _ c]

/-! ## The slot that a reply answers -/

/-- R53. The fetch slot that a reply of `sender` to `asker` answers. -/
def answeredSlot (c : Chip) (sender asker : Nat) (k : ImageKey) (seg : Nat) : Option Nat :=
  firstOpen c (fun g => asker == stationId c && g.image == k && g.segment == seg && g.peer == sender)

theorem onReply_eq (effect : Chip → Chip) (sender asker : Nat) (k : ImageKey) (seg : Nat) (c : Chip) :
    onReply effect sender asker k seg c =
      match answeredSlot c sender asker k seg with
      | some i => demandSwitch i false (effect c)
      | none => c := by
  have hmatches : replyMatches c sender asker k seg = fun j =>
      match fetchSlot c j with | .opened g => asker == stationId c && g.image == k && g.segment == seg && g.peer == sender | _ => false := rfl
  rw [onReply, hmatches]
  rfl

theorem answeredSlot_peer {sender asker : Nat} (h : answeredSlot c sender asker k seg = some i) (hx : fetchSlot c i = .opened x) : x.peer = sender := by
  have hhit := (firstOpen_split h hx).1
  simp only [Bool.and_eq_true, beq_iff_eq] at hhit
  exact hhit.2

theorem answeredSlot_of_same (hslots : d.fetch.slots = c.fetch.slots) (hstation : stationId d = stationId c) (sender asker : Nat) :
    answeredSlot d sender asker k seg = answeredSlot c sender asker k seg := by
  simp only [answeredSlot, firstOpen, hstation, fetchSlot_of_slots hslots]

theorem answeredSlot_presence (hf : f.departing = false) (sender asker : Nat) :
    answeredSlot (presence f c) sender asker k seg = answeredSlot c sender asker k seg := by
  have hstation : stationId (presence f c) = stationId c := stationId_of_config (by simp [(presence_stands f c).1])
  rw [answeredSlot, presence_firstOpen hf (by exact fun _ _ => rfl), hstation, answeredSlot]

/-! ## The switch that a reply demands (R56) -/

/-- R56. A fetch whose window has no missing block stays with its peer. -/
theorem demandSwitch_of_whole (hx : fetchSlot c i = .opened x) (h : ∀ p < 16, missing c i x (x.base + p) = false) : demandSwitch i false c = c := by
  simp [demandSwitch, hx, missingMask_eq_zero.mpr h]

/-- R56. A fetch whose window has a missing block leaves its peer. -/
theorem demandSwitch_hasLeft (hx : fetchSlot c i = .opened x) (h : ∃ p < 16, missing c i x (x.base + p) = true) : HasLeft i x (demandSwitch i false c) := by
  have hmask : missingMask c i x ≠ 0#16 := by
    rw [ne_eq, missingMask_eq_zero]
    simpa using h
  simp only [demandSwitch, hx, if_neg hmask]
  exact switchFetch_hasLeft hx

/-! ## The sender's record -/

/-- R21. The sender's record after presence: the lists, the strikes, the estimate and the Busy mark of the record that stood, or none. -/
theorem presence_senderRecord (hf : f.departing = false) (c : Chip) :
    ∃ r, findPeer (presence f c) f.sender = some r ∧ (∀ m, rangeList r m = heldList c f.sender m) ∧
      (∀ p, findPeer c f.sender = some p → r.strikes = p.strikes ∧ r.estimate = p.estimate ∧ r.busyUntil = p.busyUntil) ∧
      (findPeer c f.sender = none → r.strikes = 0 ∧ r.busyUntil = none) := by
  cases hp : findPeer c f.sender with
  | none =>
    refine ⟨_, (presence_unknown hp hf).1, fun m => by simp [heldList, hp, rangeList, newPeer], (fun _ h => nomatch h), fun _ => ⟨rfl, rfl⟩⟩
  | some p =>
    have hlists : ∀ m, rangeList p m = heldList c f.sender m := fun m => by rw [heldList, hp]
    have hfound := findPeer_updatePeer (f := refreshPeer f c.now) (by exact fun _ => rfl) f.sender c
    rw [hp, Option.map_some] at hfound
    cases hd : p.departing with
    | false =>
      have hrun : presence f c = updatePeer f.sender (refreshPeer f c.now) c := by simp [presence, hp, hf, hd]
      refine ⟨_, (congrArg (findPeer · f.sender) hrun).trans hfound, hlists, fun q hq => ?_, fun h => nomatch h⟩
      cases hq
      exact ⟨rfl, rfl, rfl⟩
    | true =>
      have hrun : presence f c = askSelection (updatePeer f.sender (fun p => { p with departing := false }) (updatePeer f.sender (refreshPeer f c.now) c)) := by
        simp [presence, hp, hf, hd]
      have hback := findPeer_updatePeer (f := fun p => { p with departing := false }) (by exact fun _ => rfl) f.sender
        (updatePeer f.sender (refreshPeer f c.now) c)
      rw [hfound, Option.map_some] at hback
      refine ⟨_, (congrArg (findPeer · f.sender) hrun).trans hback, hlists, fun q hq => ?_, fun h => nomatch h⟩
      cases hq
      exact ⟨rfl, rfl, rfl⟩

/-- log 46. A Busy for this station marks a sender that had no record, though no slot matches. -/
def markUnknown (kind : FrameKind) (unknown : Bool) (f : RxFrame) (c : Chip) : Chip :=
  if kind = .busy ∧ unknown = true ∧ be16 f.payload 0 = stationId c then markBusy f.sender c else c

/-- R53, R54, R55. The owner of a short reply. -/
def onShortReply (kind : FrameKind) (unknown : Bool) (f : RxFrame) (c : Chip) : Chip :=
  onReply (replyEffect kind f.sender (imageAt f.payload 2) (be16 f.payload 6)) f.sender (be16 f.payload 0) (imageAt f.payload 2) (be16 f.payload 6)
    (markUnknown kind unknown f c)

theorem exec_shortReply (hkind : kind = .lacking ∨ kind = .refused ∨ kind = .busy) (frame : List Byte) (s : State) :
    exec (frameRow kind frame) s =
      .next { s with chip := settle (receive kind (fun f => onShortReply kind (findPeer s.chip f.sender).isNone f) frame s.chip) } := by
  rcases hkind with rfl | rfl | rfl
  · rfl
  · rfl
  · have howner : (fun f => onShortReply .busy (findPeer s.chip f.sender).isNone f) = fun f => onBusy (findPeer s.chip f.sender).isNone f := by
      funext f c
      simp only [onShortReply, markUnknown, onBusy, replyOf, Bool.and_eq_true, beq_iff_eq, true_and]
      rfl
    rw [howner]
    exact exec_busy frame s

theorem markUnknown_fetch (kind : FrameKind) (unknown : Bool) (f : RxFrame) (c : Chip) : (markUnknown kind unknown f c).fetch = c.fetch := by
  unfold markUnknown
  split <;> rfl

theorem markUnknown_quiet (kind : FrameKind) (unknown : Bool) (f : RxFrame) (c : Chip) : Quiet c (markUnknown kind unknown f c) := by
  unfold markUnknown
  split
  exacts [markBusy_quiet _ c, by simp [Quiet, Apart, Stands]]

/-- What the sender's record holds when its reply comes to be matched. -/
structure RecordBefore (kind : FrameKind) (f : RxFrame) (c : Chip) (r : PeerRecord) : Prop where
  lists : ∀ m, rangeList r m = heldList c f.sender m
  known : ∀ p, findPeer c f.sender = some p → r.strikes = p.strikes ∧ r.estimate = p.estimate ∧ r.busyUntil = p.busyUntil
  unknown : findPeer c f.sender = none →
    r.strikes = 0 ∧ r.busyUntil = if kind = .busy ∧ be16 f.payload 0 = stationId c then some (c.now + 1000) else none

theorem markUnknown_record (hf : f.departing = false) (kind : FrameKind) (c : Chip) :
    ∃ r, findPeer (markUnknown kind (findPeer c f.sender).isNone f (presence f c)) f.sender = some r ∧ RecordBefore kind f c r := by
  obtain ⟨r, hr, hlists, hknown, hunknown⟩ := presence_senderRecord hf c
  have hstation : stationId (presence f c) = stationId c := stationId_of_config (by simp [(presence_stands f c).1])
  have hnow : (presence f c).now = c.now := by simp [(presence_stands f c).1]
  rw [markUnknown, hstation]
  split
  · next hmark =>
    obtain ⟨hkind, hnone, hasker⟩ := hmark
    have hmarked := findPeer_updatePeer (f := fun p => { p with busyUntil := some ((presence f c).now + 1000) }) (by exact fun _ => rfl) f.sender (presence f c)
    rw [hr] at hmarked
    refine ⟨_, hmarked, hlists, fun p hp => ?_, fun hnone => ⟨(hunknown hnone).1, ?_⟩⟩
    · rw [hp] at hnone
      cases hnone
    · rw [if_pos ⟨hkind, hasker⟩, hnow]
  · next hmark =>
    refine ⟨r, hr, hlists, hknown, fun hnone => ⟨(hunknown hnone).1, ?_⟩⟩
    rw [if_neg fun h => hmark ⟨h.1, by rw [hnone]; rfl, h.2⟩]
    exact (hunknown hnone).2

/-! ## The reply at its slot and elsewhere -/

section
variable (hf : f.departing = false)
include hf

theorem answeredSlot_markUnknown (kind : FrameKind) (unknown : Bool) (c : Chip) (sender asker : Nat) :
    answeredSlot (markUnknown kind unknown f (presence f c)) sender asker k seg = answeredSlot c sender asker k seg := by
  have hstation : stationId (markUnknown kind unknown f (presence f c)) = stationId (presence f c) :=
    stationId_of_config (by simp [(markUnknown_quiet kind unknown f (presence f c)).1.1])
  rw [answeredSlot_of_same (by rw [markUnknown_fetch]) hstation, answeredSlot_presence hf]

/-- A reply that matches no slot: nothing follows the mark of a sender without a record. -/
theorem onShortReply_of_unmatched (unknown : Bool)
    (h : answeredSlot c f.sender (be16 f.payload 0) (imageAt f.payload 2) (be16 f.payload 6) = none) :
    onShortReply kind unknown f (presence f c) = markUnknown kind unknown f (presence f c) := by
  rw [onShortReply, onReply_eq, answeredSlot_markUnknown hf, h]

/-- R53, R54, R55. A reply that matches a slot: its effect, then the switch. -/
theorem onShortReply_of_matched (unknown : Bool)
    (h : answeredSlot c f.sender (be16 f.payload 0) (imageAt f.payload 2) (be16 f.payload 6) = some i) :
    onShortReply kind unknown f (presence f c) =
      demandSwitch i false (replyEffect kind f.sender (imageAt f.payload 2) (be16 f.payload 6) (markUnknown kind unknown f (presence f c))) := by
  rw [onShortReply, onReply_eq, answeredSlot_markUnknown hf, h]

/-- R53, R54, R55. The matched slot and its missing blocks, as the switch finds them. -/
theorem matchedSlot_effect (unknown : Bool) (hx : fetchSlot c i = .opened x) (hpeer : x.peer = f.sender) :
    fetchSlot (replyEffect kind f.sender k seg (markUnknown kind unknown f (presence f c))) i = .opened x ∧
      ∀ p, missing (replyEffect kind f.sender k seg (markUnknown kind unknown f (presence f c))) i x p = missing c i x p := by
  obtain ⟨_, hslots, hbuffer⟩ := replyEffect_rewrites kind f.sender k seg (markUnknown kind unknown f (presence f c))
  rw [markUnknown_fetch] at hslots hbuffer
  exact ⟨(fetchSlot_of_slots hslots i).trans (presence_opened hf hx hpeer), missing_of_buffer (hbuffer.trans (presence_buffer hf c).1) i x⟩

/-- R53, R54, R55. What a matched reply leaves in its sender's record. -/
theorem onShortReply_record {r : PeerRecord} (unknown : Bool) (hr : findPeer (markUnknown kind unknown f (presence f c)) f.sender = some r)
    (h : answeredSlot c f.sender (be16 f.payload 0) (imageAt f.payload 2) (be16 f.payload 6) = some i) :
    (findPeer (onShortReply kind unknown f (presence f c)) f.sender).map peerBody =
      some (peerBody (replyWrites kind c.now (imageAt f.payload 2) (be16 f.payload 6) r)) := by
  have hnow : (markUnknown kind unknown f (presence f c)).now = c.now := by
    have hmark := (markUnknown_quiet kind unknown f (presence f c)).1.1
    simp [hmark, (presence_stands f c).1]
  have hpeers := (replyEffect_rewrites kind f.sender (imageAt f.payload 2) (be16 f.payload 6) (markUnknown kind unknown f (presence f c))).peers
  rw [onShortReply_of_matched hf unknown h, findPeer_of_bodies ((demandSwitch_does i false _).2.2.trans (congrArg (List.map peerBody) hpeers)),
    findPeer_updatePeer (replyWrites_id kind _ _ _), hr, hnow]
  rfl

/-- R25, R53, R54. A matched Lacking or Refused leaves the holder counts exact. -/
theorem onShortReply_exact (unknown : Bool) (hkind : kind = .lacking ∨ kind = .refused)
    (h : answeredSlot c f.sender (be16 f.payload 0) (imageAt f.payload 2) (be16 f.payload 6) = some i) :
    HoldersExact (onShortReply kind unknown f (presence f c)) := by
  rw [onShortReply_of_matched hf unknown h]
  exact (demandSwitch_holdings i false _).holdersExact (replyEffect_exact hkind _ _ _ _)

/-- R56. The fetch that the reply answers stays where its window has no missing block, and leaves its peer elsewhere. -/
theorem onShortReply_slot (unknown : Bool) (hx : fetchSlot c i = .opened x)
    (h : answeredSlot c f.sender (be16 f.payload 0) (imageAt f.payload 2) (be16 f.payload 6) = some i) :
    ((∀ p < 16, missing c i x (x.base + p) = false) → fetchSlot (onShortReply kind unknown f (presence f c)) i = .opened x) ∧
      ((∃ p < 16, missing c i x (x.base + p) = true) → HasLeft i x (onShortReply kind unknown f (presence f c))) := by
  obtain ⟨hslot, hmissing⟩ := matchedSlot_effect (kind := kind) (k := imageAt f.payload 2) (seg := be16 f.payload 6) hf unknown hx (answeredSlot_peer h hx)
  rw [onShortReply_of_matched hf unknown h]
  refine ⟨fun hwhole => ?_, fun hsome => demandSwitch_hasLeft hslot (by simpa only [hmissing] using hsome)⟩
  rw [demandSwitch_of_whole hslot (by simpa only [hmissing] using hwhole), hslot]

end

theorem onShortReply_stands (kind : FrameKind) (unknown : Bool) (f : RxFrame) (c : Chip) : Stands c (onShortReply kind unknown f c) :=
  (Reports.of_quiet (markUnknown_quiet kind unknown f c)).trans (onReply_reports (fun c => replyEffect_quiet kind _ _ _ c) _ _ _ _ _) |>.1.1

/-- R80. The sender's record stands through the comparison and what is set going. -/
theorem findPeer_settled (f : RxFrame) {d : Chip} {r : PeerRecord} (h : (findPeer d f.sender).map peerBody = some (peerBody r)) :
    ∃ q, findPeer (settle (compareSerial f d)) f.sender = some q ∧ peerBody q = peerBody r := by
  have hsame := findPeer_of_bodies (settle_compare_keepsAway 0 f d).1 f.sender
  rw [h] at hsame
  exact Option.map_eq_some_iff.mp hsame

theorem rangeList_of_body {p q : PeerRecord} (h : peerBody q = peerBody p) (m : ImageKey) : rangeList q m = rangeList p m := by
  obtain ⟨_, _, _, _, _, _, _, hlists, _⟩ := body_eq h
  rw [rangeList, hlists, rangeList]

/-- Settles O17, by what the reply writes into its sender's record and by the switch, none of which the blocks set going undo. -/
theorem shortRepliesSwitchFetch : Obligations.ShortRepliesSwitchFetch := by
  unfold Obligations.ShortRepliesSwitchFetch
  intro s kind frame f hkind haccepts hf c k seg hit
  obtain ⟨r, hr, hlists, hknown, hunknown⟩ := markUnknown_record hf kind s.chip
  have hexec : exec (frameRow kind frame) s =
      .next { s with chip := settle (compareSerial f (onShortReply kind (findPeer s.chip f.sender).isNone f (presence f s.chip))) } := by
    rw [exec_shortReply hkind, receive_accepted haccepts]
  have hstanding := settle_compare_standing f ((standing_of_stands
    (onShortReply_stands kind (findPeer s.chip f.sender).isNone f (presence f s.chip))).trans (standing_of_stands (presence_stands f s.chip).1))
  cases hhit : hit with
  | none =>
    have hsame := congrArg (findPeer · f.sender) (onShortReply_of_unmatched (kind := kind) hf (findPeer s.chip f.sender).isNone hhit)
    generalize onShortReply kind (findPeer s.chip f.sender).isNone f (presence f s.chip) = d at hexec hstanding hsame
    obtain ⟨q, hq, hbody⟩ := findPeer_settled f (d := d) (congrArg (Option.map peerBody) (hsame.trans hr))
    obtain ⟨_, _, _, hestimate, hstrikes, _, hbusy, _⟩ := body_eq hbody
    have hranges := fun m => (rangeList_of_body hbody m).trans (hlists m)
    refine ⟨_, q, hexec, rfl, hstanding, hq, fun p hp => ?_, fun m _ => hranges m, fun _ => ⟨hranges k, fun p hp => ?_, fun hnone => ?_⟩, fun _ _ h => nomatch h⟩
    · exact ⟨hstrikes.trans (hknown p hp).1, hestimate.trans (hknown p hp).2.1⟩
    · exact hbusy.trans (hknown p hp).2.2
    · exact ⟨hstrikes.trans (hunknown hnone).1, hbusy.trans (hunknown hnone).2⟩
  | some i =>
    have hrecord := onShortReply_record hf _ hr hhit
    have hexact := fun hwithdraws => onShortReply_exact (kind := kind) hf (findPeer s.chip f.sender).isNone hwithdraws hhit
    have hslot := fun x hx => onShortReply_slot (kind := kind) (x := x) hf (findPeer s.chip f.sender).isNone hx hhit
    generalize onShortReply kind (findPeer s.chip f.sender).isNone f (presence f s.chip) = d at hexec hstanding hrecord hexact hslot
    obtain ⟨q, hq, hbody⟩ := findPeer_settled f hrecord
    obtain ⟨_, _, _, hestimate, hstrikes, _, hbusy, _⟩ := body_eq hbody
    obtain ⟨hstruck, hestimated, hothers⟩ := replyWrites_keeps kind s.chip.now k seg r
    have hcounts := fun hwithdraws => (settle_compare_holdings f d).holdersExact (hexact hwithdraws)
    refine ⟨_, q, hexec, rfl, hstanding, hq, fun p hp => ⟨?_, ?_⟩, fun m hm => ?_, (fun h => nomatch h), fun j x hj hx => ?_⟩
    · exact (hstrikes.trans hstruck).trans (hknown p hp).1
    · exact (hestimate.trans hestimated).trans (hknown p hp).2.1
    · exact ((rangeList_of_body hbody m).trans (hothers m hm)).trans (hlists m)
    · obtain rfl : i = j := Option.some.inj hj
      refine ⟨?_, ?_, ?_, fun hwhole => ?_, fun hsome => ?_⟩
      · rintro rfl
        refine ⟨((rangeList_of_body hbody k).trans (rangeList_setRangeList _ _ _ _)).trans ?_, hcounts (.inl rfl)⟩
        rw [if_pos rfl, hlists]
      · rintro rfl
        exact ⟨((rangeList_of_body hbody k).trans (rangeList_setRangeList _ _ _ _)).trans (if_pos rfl), hcounts (.inr rfl)⟩
      · rintro rfl
        exact ⟨(rangeList_of_body hbody k).trans (hlists k), hbusy⟩
      · exact (settle_keepsOpen _ i x ((fetchSlot_of_slots (by rw [compareSerial_fetch]) i).trans ((hslot x hx).1 hwhole))).1
      · exact (((hslot x hx).2 hsome).of_leavesSlot (compareSerial_leavesSlot f d)).leftPeer

end Sys2Proof.Machine
end

