-- ==== Sys2Proof/Proofs/DirtyQueue.lean ====
section
/-!
SUPPORT. What a command sets going takes no slot from the dirty queue (R102): one equation per function of a settle, and what selection adds.
-/
namespace Sys2Proof.Machine

/-! ## The blocks of a pass -/

@[simp] theorem reportNoTarget_dirtyQueue (before after : UnitEntry) (c : Chip) : (reportNoTarget before after c).store.dirtyQueue = c.store.dirtyQueue := by
  unfold reportNoTarget
  (repeat' split) <;> simp

@[simp] theorem selectUnit_dirtyQueue (address : Nat) (c : Chip) : (selectUnit address c).store.dirtyQueue = c.store.dirtyQueue := by
  unfold selectUnit
  (repeat' split) <;> simp

@[simp] theorem evaluateWaiting_dirtyQueue (c : Chip) : (evaluateWaiting c).store.dirtyQueue = c.store.dirtyQueue := by
  unfold evaluateWaiting
  simp

@[simp] theorem pushUrgent_dirtyQueue (f : UrgentFrame) (c : Chip) : (pushUrgent f c).store.dirtyQueue = c.store.dirtyQueue := by
  unfold pushUrgent
  (repeat' split) <;> simp

@[simp] theorem giveUpServeRead_dirtyQueue (i : Nat) (c : Chip) : (giveUpServeRead i c).store.dirtyQueue = c.store.dirtyQueue := by
  unfold giveUpServeRead
  simp

@[simp] theorem endServe_dirtyQueue (i : Nat) (c : Chip) : (endServe i c).store.dirtyQueue = c.store.dirtyQueue := by
  unfold endServe
  simp

@[simp] theorem queueReply_dirtyQueue (kind : ReplyKind) (e : AskEntry) (c : Chip) : (queueReply kind e c).store.dirtyQueue = c.store.dirtyQueue := by
  unfold queueReply
  simp

@[simp] theorem endServeIf_dirtyQueue (hit : AskEntry → Bool) (i : Nat) (c : Chip) : (endServeIf hit i c).store.dirtyQueue = c.store.dirtyQueue := by
  unfold endServeIf
  (repeat' split) <;> simp

@[simp] theorem endServes_dirtyQueue (hit : AskEntry → Bool) (c : Chip) : (endServes hit c).store.dirtyQueue = c.store.dirtyQueue := by
  unfold endServes
  simp

@[simp] theorem examineTaken_dirtyQueue (i : Nat) (e : AskEntry) (c : Chip) : (examineTaken i e c).store.dirtyQueue = c.store.dirtyQueue := by
  unfold examineTaken
  (repeat' split) <;> simp

@[simp] theorem takeEntries_dirtyQueue (es : List AskEntry) (c : Chip) : (takeEntries es c).store.dirtyQueue = c.store.dirtyQueue := by
  induction es generalizing c with
  | nil => rfl
  | cons e es ih =>
    unfold takeEntries
    split <;> simp [ih]

@[simp] theorem serveTake_dirtyQueue (c : Chip) : (serveTake c).store.dirtyQueue = c.store.dirtyQueue := by
  unfold serveTake
  simp

@[simp] theorem refuseRead_dirtyQueue (i : Nat) (e : AskEntry) (c : Chip) : (refuseRead i e c).store.dirtyQueue = c.store.dirtyQueue := by
  unfold refuseRead
  simp

@[simp] theorem presentLine_dirtyQueue (r : LineRequest) (c : Chip) : (presentLine r c).store.dirtyQueue = c.store.dirtyQueue := by
  unfold presentLine
  (repeat' split) <;> simp

@[simp] theorem withdrawLine_dirtyQueue (client : LineClient) (address : Nat) (c : Chip) : (withdrawLine client address c).store.dirtyQueue = c.store.dirtyQueue := by
  unfold withdrawLine
  simp

@[simp] theorem noteBegun_dirtyQueue (r : LineRequest) (c : Chip) : (noteBegun r c).store.dirtyQueue = c.store.dirtyQueue := by
  unfold noteBegun
  (repeat' split) <;> simp

@[simp] theorem lineBegin_dirtyQueue (c : Chip) : (lineBegin c).store.dirtyQueue = c.store.dirtyQueue := by
  unfold lineBegin
  (repeat' split) <;> simp

@[simp] theorem watchLine_dirtyQueue (c : Chip) : (watchLine c).store.dirtyQueue = c.store.dirtyQueue := by
  unfold watchLine
  (repeat' split) <;> simp

@[simp] theorem recordLast_dirtyQueue (address : Nat) (o : LastOutcome) (c : Chip) : (recordLast address o c).store.dirtyQueue = c.store.dirtyQueue := by
  unfold recordLast
  simp

@[simp] theorem setUnitState_dirtyQueue (address : Nat) (s : JobState) (c : Chip) : (setUnitState address s c).store.dirtyQueue = c.store.dirtyQueue := by
  unfold setUnitState
  simp

@[simp] theorem endJob_dirtyQueue (address : Nat) (c : Chip) : (endJob address c).store.dirtyQueue = c.store.dirtyQueue := by
  unfold endJob
  simp

@[simp] theorem failMisfit_dirtyQueue (u : UnitEntry) (c : Chip) : (failMisfit u c).store.dirtyQueue = c.store.dirtyQueue := by
  unfold failMisfit
  simp

@[simp] theorem deferEntry_dirtyQueue (u : UnitEntry) (c : Chip) : (deferEntry u c).store.dirtyQueue = c.store.dirtyQueue := by
  unfold deferEntry
  (repeat' split) <;> simp

@[simp] theorem startJob_dirtyQueue (u : UnitEntry) (k : ImageKey) (m : Manifest) (probation : Nat) (c : Chip) :
    (startJob u k m probation c).store.dirtyQueue = c.store.dirtyQueue := by
  unfold startJob
  simp

@[simp] theorem tryEntry_dirtyQueue (u : UnitEntry) (c : Chip) : (tryEntry u c).store.dirtyQueue = c.store.dirtyQueue := by
  unfold tryEntry
  dsimp only
  (repeat' split) <;> simp

@[simp] theorem arbiterSteps_dirtyQueue (n : Nat) (c : Chip) : (arbiterSteps n c).store.dirtyQueue = c.store.dirtyQueue := by
  induction n generalizing c with
  | zero => rfl
  | succ n ih =>
    unfold arbiterSteps
    (repeat' split) <;> simp [ih]

@[simp] theorem unitArbiter_dirtyQueue (c : Chip) : (unitArbiter c).store.dirtyQueue = c.store.dirtyQueue := by
  unfold unitArbiter
  simp

@[simp] theorem dropFlashReads_dirtyQueue (c : Chip) : (dropFlashReads c).store.dirtyQueue = c.store.dirtyQueue := by
  unfold dropFlashReads
  simp

@[simp] theorem dropJob_dirtyQueue (j : JobRecord) (c : Chip) : (dropJob j c).store.dirtyQueue = c.store.dirtyQueue := by
  unfold dropJob
  simp

@[simp] theorem finishCancel_dirtyQueue (j : JobRecord) (c : Chip) : (finishCancel j c).store.dirtyQueue = c.store.dirtyQueue := by
  unfold finishCancel
  simp

@[simp] theorem jobBoundary_dirtyQueue (c : Chip) : (jobBoundary c).store.dirtyQueue = c.store.dirtyQueue := by
  unfold jobBoundary
  (repeat' split) <;> simp

@[simp] theorem cancelJob_dirtyQueue (c : Chip) : (cancelJob c).store.dirtyQueue = c.store.dirtyQueue := by
  unfold cancelJob
  simp

@[simp] theorem jobPresent_dirtyQueue (c : Chip) : (jobPresent c).store.dirtyQueue = c.store.dirtyQueue := by
  unfold jobPresent
  (repeat' split) <;> simp

@[simp] theorem presentCensus_dirtyQueue (c : Chip) : (presentCensus c).store.dirtyQueue = c.store.dirtyQueue := by
  unfold presentCensus
  simp

@[simp] theorem startCensus_dirtyQueue (c : Chip) : (startCensus c).store.dirtyQueue = c.store.dirtyQueue := by
  unfold startCensus
  simp

@[simp] theorem censusBegin_dirtyQueue (c : Chip) : (censusBegin c).store.dirtyQueue = c.store.dirtyQueue := by
  unfold censusBegin
  (repeat' split) <;> simp

@[simp] theorem enterDefer_dirtyQueue (c : Chip) : (enterDefer c).store.dirtyQueue = c.store.dirtyQueue := by
  unfold enterDefer
  (repeat' split) <;> simp

@[simp] theorem accessWake_dirtyQueue (c : Chip) : (accessWake c).store.dirtyQueue = c.store.dirtyQueue := by
  unfold accessWake
  (repeat' split) <;> simp

@[simp] theorem presentFor_dirtyQueue (k : StoreClient) (next : Chip → Option WaitingOp) (c : Chip) : (presentFor k next c).store.dirtyQueue = c.store.dirtyQueue := by
  unfold presentFor
  (repeat' split) <;> simp

@[simp] theorem presentServer_dirtyQueue (n : Nat) (c : Chip) : (presentServer n c).store.dirtyQueue = c.store.dirtyQueue := by
  induction n generalizing c with
  | zero => rfl
  | succ n ih =>
    unfold presentServer
    (repeat' split) <;> simp [ih]

@[simp] theorem presentPort_dirtyQueue (c : Chip) : (presentPort c).store.dirtyQueue = c.store.dirtyQueue := by
  unfold presentPort
  (repeat' split) <;> simp

@[simp] theorem presentAll_dirtyQueue (c : Chip) : (presentAll c).store.dirtyQueue = c.store.dirtyQueue := by
  unfold presentAll
  simp

@[simp] theorem noteGrant_dirtyQueue (op : StoreOp) (c : Chip) : (noteGrant op c).store.dirtyQueue = c.store.dirtyQueue := by
  unfold noteGrant
  (repeat' split) <;> simp

@[simp] theorem flashReadGone_dirtyQueue (c : Chip) : (flashReadGone c).store.dirtyQueue = c.store.dirtyQueue := by
  unfold flashReadGone
  simp

@[simp] theorem answerGone_dirtyQueue (op : StoreOp) (c : Chip) : (answerGone op c).store.dirtyQueue = c.store.dirtyQueue := by
  unfold answerGone
  (repeat' split) <;> simp

@[simp] theorem grant_dirtyQueue (w : WaitingOp) (c : Chip) : (grant w c).store.dirtyQueue = c.store.dirtyQueue := by
  unfold grant
  dsimp only
  (repeat' split) <;> simp

@[simp] theorem grantTurn_dirtyQueue (w : WaitingOp) (c : Chip) : (grantTurn w c).store.dirtyQueue = c.store.dirtyQueue := by
  unfold grantTurn
  simp

@[simp] theorem storeSteps_dirtyQueue (n : Nat) (c : Chip) : (storeSteps n c).store.dirtyQueue = c.store.dirtyQueue := by
  induction n generalizing c with
  | zero => rfl
  | succ n ih =>
    unfold storeSteps
    split <;> simp [ih]

@[simp] theorem storeRound_dirtyQueue (c : Chip) : (storeRound c).store.dirtyQueue = c.store.dirtyQueue := by
  unfold storeRound
  simp
@[simp] theorem leaveComplete_dirtyQueue (k : ImageKey) (c : Chip) : (leaveComplete k c).store.dirtyQueue = c.store.dirtyQueue := by
  unfold leaveComplete
  split <;> simp

/-! ## Selection and the whole of settling -/

/-- R102. No slot of the dirty queue leaves it. -/
def KeepsDirty (c d : Chip) : Prop := ∀ x ∈ c.store.dirtyQueue, x ∈ d.store.dirtyQueue

theorem KeepsDirty.trans {c d e : Chip} (h : KeepsDirty c d) (k : KeepsDirty d e) : KeepsDirty c e := fun x hx => k x (h x hx)

theorem KeepsDirty.of_eq {c d : Chip} (h : d.store.dirtyQueue = c.store.dirtyQueue) : KeepsDirty c d := fun _ hx => h ▸ hx

theorem release_keepsDirty (slot : Nat) (c : Chip) : KeepsDirty c (release slot c) := by
  obtain ⟨_, _, _, h, _, _, hqueue, _⟩ := release_does slot c
  rw [h]
  exact hqueue

theorem evictSegment_keepsDirty (k : ImageKey) (seg slot : Nat) (c : Chip) : KeepsDirty c (evictSegment k seg slot c) :=
  (KeepsDirty.of_eq (endServes_dirtyQueue _ (setSegState k seg .absent c))).trans ((release_keepsDirty slot _).trans (.of_eq (leaveComplete_dirtyQueue k _)))

theorem openFetch_keepsDirty (i slot : Nat) (x : Candidate) (p : PeerRecord) (c : Chip) : KeepsDirty c (openFetch i slot x p c) :=
  .of_eq (by rw [openFetch_store]; rfl)

theorem dealShort_keepsDirty (x : Candidate) (c : Chip) : KeepsDirty c (dealShort x c) := by
  unfold dealShort
  split
  · exact .of_eq rfl
  · split
    · exact evictSegment_keepsDirty _ _ _ c
    · (repeat' split) <;> exact .of_eq rfl

theorem selectionSteps_keepsDirty (n : Nat) (shortCommon shortPrivate : Bool) (c : Chip) : KeepsDirty c (selectionSteps n shortCommon shortPrivate c) := by
  induction n generalizing shortCommon shortPrivate c with
  | zero => exact .of_eq rfl
  | succ n ih =>
    unfold selectionSteps
    split
    · exact .of_eq rfl
    · split
      · exact .of_eq rfl
      · split
        · exact (openFetch_keepsDirty _ _ _ _ c).trans (ih _ _ _)
        · exact (dealShort_keepsDirty _ c).trans (ih _ _ _)
        · exact .of_eq rfl

theorem runSelection_keepsDirty (c : Chip) : KeepsDirty c (runSelection c) := by
  unfold runSelection
  split
  · exact .of_eq rfl
  · dsimp only
    split
    exacts [(selectionSteps_keepsDirty _ _ _ c).trans (.of_eq rfl), .of_eq rfl]

/-- R102. What a step sets going takes no slot from the dirty queue. -/
theorem settle_keepsDirty (c : Chip) : KeepsDirty c (settle c) := by
  have pass : ∀ c, KeepsDirty c (settlePass c) := fun c =>
    (KeepsDirty.of_eq (serveTake_dirtyQueue c)).trans ((runSelection_keepsDirty _).trans (.of_eq (by simp [settlePass])))
  exact (pass c).trans ((pass _).trans (.of_eq (by simp [settle])))

end Sys2Proof.Machine
end

