-- ==== Sys2Proof/Proofs/BlockPrograms.lean ====
section
/-!
SUPPORT. The end of a fetch block's program (R50, R52): the mark, the window's sample and what follows the window, and the slot whose release waited (R102).
-/
namespace Sys2Proof.Machine

variable {c d : Chip} {i b : Nat} {x : OpenFetch}

/-! ## The release that waited (R102) -/

/-- R102. A release that waited for an operation's end touches the store alone, and of it neither the flash nor the check queue. -/
theorem finishRelease_parts (slot : Nat) (c : Chip) :
    ∃ words queue waiting, finishRelease slot c = { c with store.slotMap := words, store.dirtyQueue := queue, store.releasing := waiting } := by
  unfold finishRelease
  split
  exacts [⟨_, _, _, rfl⟩, ⟨_, _, _, rfl⟩]

/-- No slot whose release waits stops waiting. -/
def KeepsWaiting (c d : Chip) : Prop := ∀ slot ∈ c.store.releasing, slot ∈ d.store.releasing

theorem KeepsWaiting.of_eq (h : d.store.releasing = c.store.releasing) : KeepsWaiting c d := fun _ hs => h ▸ hs

theorem abandonFetch_keepsWaiting (i detail : Nat) (x : OpenFetch) (c : Chip) : KeepsWaiting c (abandonFetch i detail x c) := by
  obtain ⟨_, _, _, _, hstore, _⟩ := freeFetch_does i x.peer x.counted c
  have hfreed : (freeFetch i x.peer x.counted c).store.releasing = c.store.releasing := by rw [hstore]; rfl
  obtain ⟨word, queue, waiting, h, _, _, _, hkept⟩ := release_does x.storeSlot (freeFetch i x.peer x.counted c)
  intro slot hslot
  rw [abandonFetch, report_store, setSegState, askSelection_store, updateRecord_store, h]
  exact hkept slot (hfreed ▸ hslot)

theorem switchFetch_keepsWaiting (hx : fetchSlot c i = .opened x) : KeepsWaiting c (switchFetch i c) := by
  cases hholder : nextHolder x c with
  | some p =>
    rw [switchFetch_of_some hx hholder]
    exact .of_eq (by simp [moveToPeer, queueAsk_store, lowerOpen_store, raiseOpen])
  | none =>
    rw [switchFetch_of_none hx hholder]
    exact abandonFetch_keepsWaiting _ _ _ c

/-! ## The mark and the window (R50, R52) -/

/-- R50. The fetch with a block's mark set. -/
def withMark (b : Nat) (x : OpenFetch) : OpenFetch := { x with bitmap := x.bitmap ||| (1#64 <<< b) }

/-- R52. The fetch at the start of its next window. -/
def nextWindow (x : OpenFetch) : OpenFetch :=
  { x with base := x.base + 16, reask := false, windowStart := none, timer := none, lastAccept := none, accepted := 0 }

/-- R58. The fetch whose every block is programmed. -/
def checkOf (x : OpenFetch) : CheckFetch :=
  { image := x.image, segment := x.segment, peer := x.peer, counted := x.counted, storeSlot := x.storeSlot }

/-- R52. Every block of the window is marked. -/
def WholeWindow (x : OpenFetch) : Prop := ∀ p < 16, x.bitmap.getLsbD (x.base + p) = true

theorem windowMarked_iff : windowMarked x = true ↔ WholeWindow x := by simp [windowMarked, WholeWindow, marked]

/-- R50. The block leaves the buffer and is marked. -/
def markBlock (i b : Nat) (x : OpenFetch) (c : Chip) : Chip :=
  setFetchSlot i (.opened (withMark b x)) { c with fetch.buffer := c.fetch.buffer.filter (fun y => !(y.fetch == i && y.index == b)) }

theorem markBlock_opened (hx : fetchSlot c i = .opened x) (b : Nat) : fetchSlot (markBlock i b x c) i = .opened (withMark b x) :=
  fetchSlot_setFetchSlot (c := { c with fetch.buffer := c.fetch.buffer.filter (fun y => !(y.fetch == i && y.index == b)) }) (fetchSlot_opened_lt hx) _

theorem blockProgrammed_of_gap (hx : fetchSlot c i = .opened x) (h : ¬WholeWindow (withMark b x)) : blockProgrammed i b c = markBlock i b x c := by
  have hbuffer : fetchSlot { c with fetch.buffer := c.fetch.buffer.filter (fun y => !(y.fetch == i && y.index == b)) } i = .opened x := hx
  simp only [blockProgrammed, hbuffer]
  exact if_neg (mt windowMarked_iff.mp h)

theorem blockProgrammed_of_whole (hx : fetchSlot c i = .opened x) (h : WholeWindow (withMark b x)) :
    blockProgrammed i b c = completeWindow i (markBlock i b x c) := by
  have hbuffer : fetchSlot { c with fetch.buffer := c.fetch.buffer.filter (fun y => !(y.fetch == i && y.index == b)) } i = .opened x := hx
  simp only [blockProgrammed, hbuffer]
  exact if_pos (windowMarked_iff.mpr h)

theorem completeWindow_of_last (hx : fetchSlot c i = .opened x) (h : 48 ≤ x.base) : completeWindow i c = enterCheck i x (windowSample x c) := by
  simp only [completeWindow, hx, if_neg (Nat.not_lt.mpr h)]

theorem completeWindow_of_next (hx : fetchSlot c i = .opened x) (h : x.base < 48) (howed : x.switchOwed = false) :
    completeWindow i c = queueAsk i (setFetchSlot i (.opened (nextWindow x)) (windowSample x c)) := by
  simp [completeWindow, hx, h, howed, nextWindow]

theorem completeWindow_of_owed (hx : fetchSlot c i = .opened x) (h : x.base < 48) (howed : x.switchOwed = true) :
    completeWindow i c = switchFetch i (setFetchSlot i (.opened (nextWindow x)) (windowSample x c)) := by
  simp [completeWindow, hx, h, howed, nextWindow]

/-! ## The window's sample (R34) -/

theorem windowSample_parts (x : OpenFetch) (c : Chip) : ∃ peers, windowSample x c = { c with peers := peers } := by
  unfold windowSample giveSample
  (repeat' split) <;> exact ⟨_, rfl⟩

theorem windowSample_fetch (x : OpenFetch) (c : Chip) : (windowSample x c).fetch = c.fetch := by
  obtain ⟨peers, h⟩ := windowSample_parts x c
  rw [h]

/-- R34, R52. The sample of a window of which some block was accepted. -/
theorem windowSample_bodies {u a : Nat} (hstart : x.windowStart = some u) (haccept : x.lastAccept = some a) (hsome : 0 < x.accepted) (c : Chip) :
    (windowSample x c).peers.map peerBody =
      c.peers.map (fun p => peerBody (if p.id = x.peer then { p with estimate := smooth p.estimate (sampleOf (128 * x.accepted) (a - u)) } else p)) := by
  have hbytes : 128 * x.accepted ≠ 0 := by omega
  simp only [windowSample, hstart, haccept, giveSample, if_neg hbytes, updatePeer_peers, List.map_map]
  rfl

theorem windowSample_opened (hx : fetchSlot c i = .opened x) (y : OpenFetch) :
    fetchSlot (setFetchSlot i (.opened y) (windowSample x c)) i = .opened y :=
  fetchSlot_setFetchSlot (fetchSlot_opened_lt ((fetchSlot_of_slots (by rw [windowSample_fetch]) i).trans hx)) _

theorem windowSample_quiet (x : OpenFetch) (c : Chip) : Quiet c (windowSample x c) := by
  obtain ⟨peers, h⟩ := windowSample_parts x c
  rw [h]
  simp [Quiet, Apart, Stands]

/-! ## CHECKING (R58) -/

theorem enterCheck_quiet (i : Nat) (x : OpenFetch) (c : Chip) : Quiet c (enterCheck i x c) := by
  simp [enterCheck, withdrawAsk, setSegState, Quiet, Apart, Stands]

theorem enterCheck_slot (hx : fetchSlot c i = .opened x) : fetchSlot (enterCheck i x c) i = .checking (checkOf x) :=
  fetchSlot_setFetchSlot (c := setSegState x.image x.segment (.checking x.storeSlot) (withdrawAsk i c)) (fetchSlot_opened_lt hx) _

theorem checking_leftAlone (slot : Nat) : LeftAlone (.checking slot) := ⟨by simp, by simp⟩

theorem enterCheck_segments (i : Nat) (x : OpenFetch) (c : Chip) :
    AllInState x.image x.segment (.checking x.storeSlot) (enterCheck i x c) ∧
      (HasSegment x.image x.segment c → HasSegment x.image x.segment (enterCheck i x c)) := by
  have hrecords : (enterCheck i x c).catalog.records = c.catalog.records.map (onImage x.image (withSegState x.segment (.checking x.storeSlot))) := rfl
  exact ⟨.of_set hrecords, .of_segState hrecords⟩

/-- R17. A segment's state has no part in the checksum its bytes are compared with. -/
theorem expectedCrc_setSegState (k : ImageKey) (seg : Nat) (st : SegState) (c : Chip) (k' : ImageKey) (seg' : Nat) :
    expectedCrc (setSegState k seg st c) k' seg' = expectedCrc c k' seg' := by
  rw [expectedCrc, findRecord_of_map (setSegState_records k seg st c) (onImage_image (by exact fun _ => rfl)), expectedCrc]
  cases findRecord c k' with
  | none => rfl
  | some r =>
    by_cases h : r.image = k <;> simp [onImage, withSegState, h]

theorem enterCheck_queue (i : Nat) (x : OpenFetch) (c : Chip) :
    (enterCheck i x c).store.checkQueue =
      c.store.checkQueue ++
        [{ source := some i, image := x.image, segment := x.segment, slot := x.storeSlot, expected := expectedCrc c x.image x.segment,
           reads := 0, crc := crc32Start, header := false, orphan := false }] := by
  rw [← expectedCrc_setSegState x.image x.segment (.checking x.storeSlot) c x.image x.segment]
  rfl

/-! ## After the mark (R50, R52, R58) -/

theorem completeWindow_reports (i : Nat) (c : Chip) : Reports c (completeWindow i c) := by
  unfold completeWindow
  split
  · next x _ =>
    have hsample := Reports.of_quiet (windowSample_quiet x c)
    dsimp only
    split
    · split
      · exact hsample.trans (.trans (.of_quiet (by simp [Quiet, Apart, Stands])) (switchFetch_reports i _))
      · exact hsample.trans (.trans (.of_quiet (by simp [Quiet, Apart, Stands])) (.of_quiet (queueAsk_quiet i _)))
    · exact hsample.trans (.of_quiet (enterCheck_quiet i x _))
  · exact .refl c

theorem blockProgrammed_reports (i b : Nat) (c : Chip) : Reports c (blockProgrammed i b c) := by
  have hbuffer : Reports c { c with fetch.buffer := c.fetch.buffer.filter (fun y => !(y.fetch == i && y.index == b)) } :=
    .of_quiet (by simp [Quiet, Apart, Stands])
  unfold blockProgrammed
  dsimp only
  split
  · split
    · exact hbuffer.trans (.trans (.of_quiet (by simp [Quiet, Apart, Stands])) (completeWindow_reports i _))
    · exact hbuffer.trans (.of_quiet (by simp [Quiet, Apart, Stands]))
  · exact hbuffer

theorem completeWindow_keepsWaiting (hx : fetchSlot c i = .opened x) : KeepsWaiting c (completeWindow i c) := by
  obtain ⟨peers, hsample⟩ := windowSample_parts x c
  rcases Nat.lt_or_ge x.base 48 with h | h
  · cases howed : x.switchOwed with
    | true =>
      rw [completeWindow_of_owed hx h howed]
      exact fun slot hs => switchFetch_keepsWaiting (windowSample_opened hx _) slot (by rw [hsample]; exact hs)
    | false =>
      rw [completeWindow_of_next hx h howed, hsample]
      exact .of_eq (by rw [queueAsk_store]; rfl)
  · rw [completeWindow_of_last hx h, hsample]
    exact .of_eq rfl

theorem blockProgrammed_keepsWaiting (hx : fetchSlot c i = .opened x) (b : Nat) : KeepsWaiting c (blockProgrammed i b c) := by
  by_cases h : WholeWindow (withMark b x)
  · rw [blockProgrammed_of_whole hx h]
    exact fun slot hs => completeWindow_keepsWaiting (markBlock_opened hx b) slot hs
  · rw [blockProgrammed_of_gap hx h]
    exact .of_eq rfl

/-- R34, R52. The peers after a whole window are those after its sample. -/
theorem completeWindow_bodies (hx : fetchSlot c i = .opened x) : (completeWindow i c).peers.map peerBody = (windowSample x c).peers.map peerBody := by
  rcases Nat.lt_or_ge x.base 48 with h | h
  · cases howed : x.switchOwed with
    | true =>
      rw [completeWindow_of_owed hx h howed, (switchFetch_does (windowSample_opened hx _)).2.2]
      rfl
    | false =>
      rw [completeWindow_of_next hx h howed, queueAsk_peers]
      rfl
  · rw [completeWindow_of_last hx h]
    rfl

/-- R50, R52, R58. What has become of the fetch of slot `i`, whose block `b` has been programmed, from one chip to another. -/
structure BlockMarked (i b : Nat) (x : OpenFetch) (c d : Chip) : Prop where
  gap : ¬WholeWindow (withMark b x) → fetchSlot d i = .opened (withMark b x) ∧ d.peers.map peerBody = c.peers.map peerBody
  sample : WholeWindow (withMark b x) → ∀ u a, x.windowStart = some u → x.lastAccept = some a → 0 < x.accepted →
    d.peers.map peerBody =
      c.peers.map (fun p => peerBody (if p.id = x.peer then { p with estimate := smooth p.estimate (sampleOf (128 * x.accepted) (a - u)) } else p))
  next : WholeWindow (withMark b x) → x.base < 48 → x.switchOwed = false →
    fetchSlot d i = .opened (nextWindow (withMark b x)) ∧ (c.yard.mode = .on → i ∈ d.fetch.asks)
  leaves : WholeWindow (withMark b x) → x.base < 48 → x.switchOwed = true → HasLeft i (nextWindow (withMark b x)) d
  checks : WholeWindow (withMark b x) → 48 ≤ x.base →
    fetchSlot d i = .checking (checkOf x) ∧ AllInState x.image x.segment (.checking x.storeSlot) d ∧
      (HasSegment x.image x.segment c → HasSegment x.image x.segment d) ∧
      d.store.checkQueue =
        c.store.checkQueue ++
          [{ source := some i, image := x.image, segment := x.segment, slot := x.storeSlot, expected := expectedCrc c x.image x.segment,
             reads := 0, crc := crc32Start, header := false, orphan := false }]

theorem blockProgrammed_marked (hx : fetchSlot c i = .opened x) (b : Nat) : BlockMarked i b x c (blockProgrammed i b c) := by
  have hy := markBlock_opened hx b
  by_cases hwhole : WholeWindow (withMark b x)
  · rw [blockProgrammed_of_whole hx hwhole]
    refine ⟨fun h => absurd hwhole h, fun _ u a hstart haccept hsome => ?_, fun _ hbase howed => ?_, fun _ hbase howed => ?_, fun _ hbase => ?_⟩
    · exact (completeWindow_bodies hy).trans (windowSample_bodies (x := withMark b x) hstart haccept hsome (markBlock i b x c))
    · obtain ⟨hslot, hasks⟩ := queueAsk_opened (windowSample_opened hy (nextWindow (withMark b x)))
      obtain ⟨peers, hsample⟩ := windowSample_parts (withMark b x) (markBlock i b x c)
      rw [completeWindow_of_next hy hbase howed]
      exact ⟨hslot, fun hon => hasks (by rw [hsample]; exact hon)⟩
    · rw [completeWindow_of_owed hy hbase howed]
      exact switchFetch_hasLeft (windowSample_opened hy _)
    · obtain ⟨peers, hsample⟩ := windowSample_parts (withMark b x) (markBlock i b x c)
      rw [completeWindow_of_last hy hbase, hsample]
      obtain ⟨hall, hhas⟩ := enterCheck_segments i (withMark b x) { markBlock i b x c with peers := peers }
      exact ⟨enterCheck_slot (c := { markBlock i b x c with peers := peers }) hy, hall, fun h => hhas (h.of_catalog rfl),
        enterCheck_queue i (withMark b x) { markBlock i b x c with peers := peers }⟩
  · rw [blockProgrammed_of_gap hx hwhole]
    exact ⟨fun _ => ⟨hy, rfl⟩, fun h => absurd h hwhole, fun h => absurd h hwhole, fun h => absurd h hwhole, fun h => absurd h hwhole⟩

theorem BlockMarked.finishRelease {slot : Nat} (h : BlockMarked i b x c d) : BlockMarked i b x c (finishRelease slot d) := by
  obtain ⟨words, queue, waiting, he⟩ := finishRelease_parts slot d
  rw [he]
  refine ⟨h.gap, h.sample, h.next, fun hwhole hbase howed => (h.leaves hwhole hbase howed).of_same rfl rfl, fun hwhole hbase => ?_⟩
  obtain ⟨hslot, hall, hhas, hqueue⟩ := h.checks hwhole hbase
  exact ⟨hslot, hall.of_catalog rfl, fun hc => (hhas hc).of_catalog rfl, hqueue⟩

/-! ## The whole completion -/

/-- R50, R102. The chip when the device has put a fetch block's bytes into the flash. -/
def blockStored (slot b : Nat) (data : List Byte) (c : Chip) : Chip := programFlash (dataAddress slot (b * 128)) data (freeDevice c)

theorem fetchBlockDone_eq {slot : Nat} {data : List Byte} {live : Bool} (h : c.store.current = some { op := .fetchBlock i slot b data, live := live }) :
    fetchBlockDone c = finishRelease slot (if (liveFetch c i slot).isSome then blockProgrammed i b (blockStored slot b data c) else blockStored slot b data c) := by
  have hlive : liveFetch (blockStored slot b data c) i slot = liveFetch c i slot := rfl
  unfold fetchBlockDone
  rw [h]
  dsimp only
  rw [← blockStored, hlive]
  cases liveFetch c i slot <;> rfl

theorem liveFetch_opened {slot : Nat} (h : liveFetch c i slot = some x) : fetchSlot c i = .opened x := by
  unfold liveFetch at h
  split at h
  · next y hy =>
    split at h
    · rw [hy, Option.some.inj h]
    · cases h
  · cases h

theorem finishRelease_standing (slot : Nat) (c : Chip) : standing (finishRelease slot c) = standing c := by
  obtain ⟨words, queue, waiting, he⟩ := finishRelease_parts slot c
  rw [he]
  rfl

/-- A completion that of the standing part has changed the flash alone, with all that it sets going. -/
theorem settle_programmed {flash : List Host.Cell} (h : standing d = { standing c with flash := flash }) :
    (settle d).store.flash = flash ∧ standing (settle d) = { standing c with flash := (settle d).store.flash } := by
  have hsettled := (settle_standing d).trans h
  generalize settle d = e at hsettled
  have hflash : e.store.flash = flash := congrArg Standing.flash hsettled
  exact ⟨hflash, hsettled.trans (by rw [hflash])⟩

/-- R50. Of the standing part the completion changes the flash alone. -/
theorem fetchBlockDone_standing {slot : Nat} {data : List Byte} {live : Bool}
    (h : c.store.current = some { op := .fetchBlock i slot b data, live := live }) :
    standing (fetchBlockDone c) = { standing c with flash := Memory.program c.store.flash (dataAddress slot (b * 128)) data } := by
  rw [fetchBlockDone_eq h, finishRelease_standing]
  split
  · exact (standing_of_stands (blockProgrammed_reports i b (blockStored slot b data c)).1.1).trans rfl
  · rfl

/-- R102. A slot whose release waited joins the dirty queue. -/
theorem fetchBlockDone_dirty {slot : Nat} {data : List Byte} {live : Bool}
    (h : c.store.current = some { op := .fetchBlock i slot b data, live := live }) (hwaits : slot ∈ c.store.releasing) :
    slot ∈ (fetchBlockDone c).store.dirtyQueue := by
  rw [fetchBlockDone_eq h]
  refine finishRelease_does slot _ ?_
  split
  · next hsome =>
    obtain ⟨x, hx⟩ := Option.isSome_iff_exists.mp hsome
    exact blockProgrammed_keepsWaiting (c := blockStored slot b data c) (liveFetch_opened hx) b slot hwaits
  · exact hwaits

/-- Settles O30, by the fetch's mark and what follows it, which the blocks set going leave standing. -/
theorem fetchBlockProgrammed : Obligations.FetchBlockProgrammed := by
  unfold Obligations.FetchBlockProgrammed
  intro s i slot b data live hcurrent c
  obtain ⟨hflash, hstanding⟩ := settle_programmed (fetchBlockDone_standing hcurrent)
  have hdirty := settle_keepsDirty (fetchBlockDone s.chip)
  have hopen := settle_keepsOpen (fetchBlockDone s.chip)
  have hinUse := settle_keepsInUse (fetchBlockDone s.chip)
  have hbodies := (settle_keepsAway 0 (fetchBlockDone s.chip)).1
  have hleft := fun x (h : HasLeft i x (fetchBlockDone s.chip)) => h.leftPeer
  have hsegment := fun k seg store => settle_keepsSegment (k := k) (seg := seg) (checking_leftAlone store) (fetchBlockDone s.chip)
  have hexec : exec .fetchBlockProgramComplete s = .next { s with chip := settle (fetchBlockDone s.chip) } := rfl
  generalize hsettled : settle (fetchBlockDone s.chip) = e at *
  refine ⟨_, fetchBlockDone c, hexec, by rw [hsettled], ?_, hstanding, fun hwaits => hdirty _ (fetchBlockDone_dirty hcurrent hwaits), fun hnone => ?_,
    fun x hx => ?_⟩
  · rw [hflash]
    exact program_programmed _ _ _
  · obtain ⟨words, queue, waiting, he⟩ := finishRelease_parts slot (blockStored slot b data c)
    have hrun : fetchBlockDone c = finishRelease slot (blockStored slot b data c) := by rw [fetchBlockDone_eq hcurrent, hnone]; rfl
    rw [hrun, he]
    exact ⟨rfl, rfl⟩
  · intro got next whole
    have hrun : fetchBlockDone c = finishRelease slot (blockProgrammed i b (blockStored slot b data c)) := by rw [fetchBlockDone_eq hcurrent, hx]; rfl
    have hmarked := (blockProgrammed_marked (c := blockStored slot b data c) (liveFetch_opened hx) b).finishRelease (slot := slot)
    rw [← hrun] at hmarked
    obtain ⟨hgap, hsample, hnext, hleaves, hchecks⟩ := hmarked
    refine ⟨fun hno => ?_, fun hwhole u a hstart haccept hsome => ?_, fun hwhole hbase howed => ?_, fun hwhole hbase howed => ?_, fun hwhole hbase => ?_⟩
    · obtain ⟨hslot, hpeers⟩ := hgap hno
      exact ⟨(hopen i _ hslot).1, hbodies.trans hpeers⟩
    · exact hbodies.trans (hsample hwhole u a hstart haccept hsome)
    · obtain ⟨hslot, hasks⟩ := hnext hwhole hbase howed
      obtain ⟨hopened, hkept⟩ := hopen i _ hslot
      exact ⟨hopened, fun hon => hkept (hasks hon)⟩
    · exact hleft _ (hleaves hwhole hbase howed)
    · obtain ⟨hslot, hall, hhas, hqueue⟩ := hchecks hwhole hbase
      obtain ⟨hstate, hentry, _⟩ := hsegment x.image x.segment x.storeSlot
      refine ⟨(hinUse i (by rw [hslot]; nofun)).trans hslot, fun hsome => ?_, hqueue⟩
      exact (hentry (hhas (hasSegment_of_segState hsome))).segState (hstate hall)

end Sys2Proof.Machine
end

