-- ==== Sys2Proof/Proofs/HeaderPrograms.lean ====
section
/-!
SUPPORT. The end of a check's header program (R59): a segment that is HELD, segment 0 judged by its manifest (R14, R16), and the load that waited (R188).
-/
namespace Sys2Proof.Machine

variable {c d : Chip} {k : ImageKey} {seg slot : Nat} {r : ImageRecord}

/-! ## What the judgement leaves (R59, R107) -/

/-- From one chip to another the standing part and the check queue stand, and reports are only appended. -/
structure LeavesChecks (c d : Chip) : Prop where
  stands : Stands c d
  reports : Grows c.port.reports d.port.reports
  queue : d.store.checkQueue = c.store.checkQueue

theorem LeavesChecks.trans {e : Chip} (h : LeavesChecks c d) (k : LeavesChecks d e) : LeavesChecks c e where
  stands := .of_standing ((standing_of_stands k.stands).trans (standing_of_stands h.stands))
  reports := h.reports.trans k.reports
  queue := k.queue.trans h.queue

theorem LeavesChecks.now (h : LeavesChecks c d) : d.now = c.now := congrArg Standing.now (standing_of_stands h.stands)

theorem LeavesChecks.load (h : LeavesChecks c d) : d.port.load = c.port.load := congrArg Standing.load (standing_of_stands h.stands)

theorem release_leavesChecks (slot : Nat) (c : Chip) : LeavesChecks c (release slot c) := by
  obtain ⟨_, _, _, hqueue, _⟩ := release_parts slot c
  exact ⟨release_keeps slot c, (Adds.of_silent (release_silent slot c)).grows, hqueue⟩

theorem report_leavesChecks (kind : ReportKind) (subject : Subject) (detail : Nat) (c : Chip) : LeavesChecks c (report kind subject detail c) :=
  ⟨by simp [Stands], report_grows _ _ _ c, rfl⟩

theorem setSegState_leavesChecks (k : ImageKey) (seg : Nat) (st : SegState) (c : Chip) : LeavesChecks c (setSegState k seg st c) :=
  ⟨setSegState_keeps _ _ _ c, .refl _, rfl⟩

theorem setSlot_leavesChecks (slot : Nat) (word : SlotInfo) (c : Chip) : LeavesChecks c (setSlot slot word c) := ⟨by simp [Stands], .refl _, rfl⟩

theorem takeManifest_leavesChecks (k : ImageKey) (slot : Nat) (m : Manifest) (c : Chip) : LeavesChecks c (takeManifest k slot m c) := by
  obtain ⟨asked, h⟩ := recount_does (askSelection (updateRecord k (withManifest slot m) c))
  rw [takeManifest_eq, h]
  exact ⟨by simp [Stands], .refl _, rfl⟩

theorem rejectManifest_leavesChecks (k : ImageKey) (slot reason : Nat) (c : Chip) : LeavesChecks c (rejectManifest k slot reason c) := by
  have hstate : LeavesChecks c (updateRecord k (fun r => { r with state := .rejected }) c) := ⟨by simp [Stands], .refl _, rfl⟩
  exact hstate.trans ((setSegState_leavesChecks k 0 .absent _).trans ((release_leavesChecks slot _).trans (report_leavesChecks _ _ _ _)))

theorem completeIfHeld_store (k : ImageKey) (c : Chip) : (completeIfHeld k c).store = c.store := by
  unfold completeIfHeld
  split
  · split
    · dsimp only
      split <;> rfl
    · rfl
  · rfl

theorem completeIfHeld_leavesChecks (k : ImageKey) (c : Chip) : LeavesChecks c (completeIfHeld k c) := by
  obtain ⟨⟨hstands, hgrows⟩, _⟩ := completeIfHeld_does k c
  exact ⟨hstands, hgrows, by rw [completeIfHeld_store]⟩

/-- R59. A segment's slot FULL, whether its manifest is judged or the image completed. -/
theorem holdSegment_leavesChecks (k : ImageKey) (seg slot : Nat) (c : Chip) : LeavesChecks c (holdSegment k seg slot c) := by
  have hfull := setSlot_leavesChecks slot { cond := .full, owner := some (.segment k seg) } c
  unfold holdSegment
  split
  · exact release_leavesChecks slot c
  · dsimp only
    split
    · split
      exacts [hfull.trans (takeManifest_leavesChecks k slot _ _), hfull.trans (rejectManifest_leavesChecks k slot _ _)]
    · exact hfull.trans ((setSegState_leavesChecks k seg _ _).trans (completeIfHeld_leavesChecks k _))

/-! ## A data segment (R59) -/

/-- R17. The completion of an image changes no segment's state. -/
theorem completeIfHeld_segState (k k' : ImageKey) (seg : Nat) (c : Chip) : segState (completeIfHeld k c) k' seg = segState c k' seg := by
  obtain ⟨_, hsame | ⟨_, hrecords⟩⟩ := completeIfHeld_does k c
  · exact segState_of_catalog hsame k' seg
  · rw [segState, findRecord_of_map hrecords (onImage_image (by exact fun _ => rfl)), segState]
    cases findRecord c k' with
    | none => rfl
    | some r =>
      simp only [Option.map_some, onImage]
      split <;> rfl

/-- R16. The last data segment that was not HELD completes the image, and once the scan is done IMAGE_COMPLETE is appended. -/
theorem completeIfHeld_of_held (hr : findRecord c k = some r) (hgathering : r.state = .gathering) (hheld : allHeld r = true)
    (hscan : c.store.scanPhase = .done) :
    completeIfHeld k c =
      evaluateWaiting (report .imageComplete (.image k) 0 (askSelection (updateRecord k (fun r => { r with state := .complete }) c))) := by
  simp [completeIfHeld, hr, hgathering, hheld, hscan]

theorem allHeld_withSegState (hothers : ∀ j e, r.entries[j]? = some e → 0 < j → j ≠ seg → e.state.code = 3) (slot : Nat) :
    allHeld (withSegState seg (.held slot) r) = true := by
  rw [allHeld, List.all_eq_true]
  intro e he
  obtain ⟨j, hj⟩ := List.mem_iff_getElem?.mp he
  simp only [List.getElem?_drop, withSegState, List.getElem?_modify, Option.map_eq_map, Option.map_eq_some_iff] at hj
  obtain ⟨e', he', rfl⟩ := hj
  by_cases hseg : seg = 1 + j
  · simp [hseg, SegState.code]
  · simpa [hseg] using hothers (1 + j) e' he' (by omega) (Ne.symm hseg)

/-- R59. The chip with a data segment HELD in its slot. -/
def dataHeld (k : ImageKey) (seg slot : Nat) (c : Chip) : Chip :=
  setSegState k seg (.held slot) (setSlot slot { cond := .full, owner := some (.segment k seg) } c)

theorem holdSegment_of_data (hr : findRecord c k = some r) (hseg : 0 < seg) : holdSegment k seg slot c = completeIfHeld k (dataHeld k seg slot c) := by
  have hne : seg ≠ 0 := by omega
  simp only [holdSegment, hr, if_neg hne]
  rfl

theorem findRecord_dataHeld (hr : findRecord c k = some r) (seg slot : Nat) :
    findRecord (dataHeld k seg slot c) k = some (withSegState seg (.held slot) r) :=
  findRecord_updateRecord (c := setSlot slot { cond := .full, owner := some (.segment k seg) } c) hr (f := withSegState seg (.held slot)) (fun _ => rfl)

/-- R59. A data segment whose header is programmed is HELD in its slot, now FULL. -/
theorem holdSegment_data (hr : findRecord c k = some r) (hseg : 0 < seg) (hlen : seg < r.entries.length) (slot : Nat) :
    segState (holdSegment k seg slot c) k seg = some (.held slot) ∧ slotInfo (holdSegment k seg slot c) slot = ⟨.full, some (.segment k seg)⟩ := by
  rw [holdSegment_of_data hr hseg, completeIfHeld_segState, slotInfo, completeIfHeld_store]
  refine ⟨?_, slotInfo_setSlot slot _ c⟩
  rw [segState, findRecord_dataHeld hr]
  simp [withSegState, hlen]

/-- R59, R16. With every other data segment HELD, the image is COMPLETE and IMAGE_COMPLETE is appended. -/
theorem holdSegment_completes (hr : findRecord c k = some r) (hseg : 0 < seg) (hgathering : r.state = .gathering) (hscan : c.store.scanPhase = .done)
    (hothers : ∀ j e, r.entries[j]? = some e → 0 < j → j ≠ seg → e.state.code = 3) (slot : Nat) :
    imageComplete (holdSegment k seg slot c) k = true ∧
      Reported c.port.reports (holdSegment k seg slot c).port.reports .imageComplete (.image k) 0 c.now := by
  have hheld := findRecord_dataHeld hr seg slot
  have hcomplete := findRecord_updateRecord hheld (f := fun r => { r with state := .complete }) (fun _ => rfl)
  rw [holdSegment_of_data hr hseg, completeIfHeld_of_held hheld hgathering (allHeld_withSegState hothers slot) hscan]
  refine ⟨?_, reported_of_report (c := askSelection (updateRecord k (fun r => { r with state := .complete }) (dataHeld k seg slot c))) (.refl _)
    (.of_silent (by simp [Silent]))⟩
  have hfound : findRecord (evaluateWaiting (report .imageComplete (.image k) 0
      (askSelection (updateRecord k (fun r => { r with state := .complete }) (dataHeld k seg slot c))))) k = _ := hcomplete
  rw [imageComplete, hfound]
  rfl

/-! ## Segment 0 (R14, R16) -/

theorem countRecord_states (peers : List PeerRecord) (r : ImageRecord) :
    (countRecord peers r).entries.map (fun e => e.state) = r.entries.map (fun e => e.state) := countEntries_states peers r.image 0 r.entries

theorem withManifest_states (slot : Nat) (m : Manifest) (r : ImageRecord) :
    (withManifest slot m r).entries.map (fun e => e.state) = .held slot :: List.replicate m.count .absent := by
  simp [withManifest]

theorem segState_of_states {states : List SegState} (hr : findRecord c k = some r) (h : r.entries.map (fun e => e.state) = states) (seg : Nat) :
    segState c k seg = states[seg]? := by
  rw [segState, hr, ← h, List.getElem?_map]

/-- R16. A valid manifest is taken: the image is GATHERING, segment 0 HELD in its slot, now FULL, and the data segments ABSENT. -/
theorem holdSegment_takes (hr : findRecord c k = some r) {m : Manifest} (hv : validateManifest k r.model (readData c slot) = .ok m) :
    ∃ r', findRecord (holdSegment k 0 slot c) k = some r' ∧ r'.state = .gathering ∧ r'.manifest = some m ∧ r'.entries.length = m.count + 1 ∧
      segState (holdSegment k 0 slot c) k 0 = some (.held slot) ∧
      slotInfo (holdSegment k 0 slot c) slot = ⟨.full, some (.segment k 0)⟩ ∧
      ∀ j, 1 ≤ j → j ≤ m.count → segState (holdSegment k 0 slot c) k j = some .absent := by
  have hupdated : findRecord (askSelection (updateRecord k (withManifest slot m) (slotTaken k slot c))) k = some (withManifest slot m r) :=
    findRecord_updateRecord (c := slotTaken k slot c) hr fun _ => rfl
  have hfound := findRecord_recount hupdated
  have hstates := (countRecord_states (askSelection (updateRecord k (withManifest slot m) (slotTaken k slot c))).peers (withManifest slot m r)).trans
    (withManifest_states slot m r)
  obtain ⟨asked, hrecount⟩ := recount_does (askSelection (updateRecord k (withManifest slot m) (slotTaken k slot c)))
  rw [holdSegment_of_valid hr hv, takeManifest_eq]
  refine ⟨_, hfound, rfl, rfl, by simpa using congrArg List.length hstates, segState_of_states hfound hstates 0, ?_, fun j h1 hj => ?_⟩
  · rw [hrecount]
    exact slotInfo_setSlot slot _ c
  · rw [segState_of_states hfound hstates]
    obtain ⟨j, rfl⟩ := Nat.exists_eq_add_of_le' h1
    simp [hj]

/-- R102. With the device idle a released slot is DIRTY and without owner at once. -/
theorem release_slotInfo (hidle : c.store.current = none) (slot : Nat) : slotInfo (release slot c) slot = ⟨.dirty, none⟩ := by
  have hbusy : busyOn (withdrawOps slot c) slot = false := by
    have hcurrent : (withdrawOps slot c).store.current = none := hidle
    rw [busyOn, hcurrent]
  simp only [release, hbusy]
  exact slotInfo_setSlot slot _ (withdrawOps slot c)

/-- R14. A manifest that is not valid is rejected: segment 0 ABSENT, its slot released, and MANIFEST_REJECTED appended with the reason. -/
theorem holdSegment_rejects (hr : findRecord c k = some r) (hlen : 0 < r.entries.length) (hidle : c.store.current = none) {reason : Nat}
    (hv : validateManifest k r.model (readData c slot) = .error reason) :
    RecordHas k WasRejected (holdSegment k 0 slot c) ∧ slotInfo (holdSegment k 0 slot c) slot = ⟨.dirty, none⟩ ∧
      Reported c.port.reports (holdSegment k 0 slot c).port.reports .manifestRejected (.image k) reason c.now := by
  rw [holdSegment_of_invalid hr hv]
  refine ⟨rejectManifest_recordHas (c := slotTaken k slot c) hr hlen slot reason, ?_, ?_⟩
  · exact release_slotInfo (c := setSegState k 0 .absent (updateRecord k (fun r => { r with state := .rejected }) (slotTaken k slot c))) hidle slot
  · have hreleased := release_leavesChecks slot (setSegState k 0 .absent (updateRecord k (fun r => { r with state := .rejected }) (slotTaken k slot c)))
    rw [rejectManifest, ← (show _ = c.now from hreleased.now)]
    exact reported_of_report hreleased.reports (.refl _)

/-! ## The load that waited (R188) -/

theorem endLoad_adds (l : Load) (detail : Nat) (c : Chip) : Adds c (endLoad l detail c) :=
  ((Adds.of_silent (c := c) (d := { c with port.load := .idle }) ⟨rfl, rfl, rfl⟩).trans (report_adds _ _ _ _ (by decide))).silent ⟨rfl, rfl, rfl⟩

/-- R188. The load's end leaves the catalog and the store alone, and of the standing part changes the load alone. -/
theorem endLoad_leaves (l : Load) (detail : Nat) (c : Chip) :
    (endLoad l detail c).catalog = c.catalog ∧ (endLoad l detail c).store = c.store ∧ StandsButLoad c (endLoad l detail c) := ⟨rfl, rfl, rfl⟩

theorem endCheckedLoad_of_waiting {q : CheckRequest} {l : Load} (hsource : q.source = none) (hload : c.port.load = .checking l) (detail : Nat) :
    endCheckedLoad q detail c = endLoad l detail c := by
  simp [endCheckedLoad, hsource, hload]

theorem endCheckedLoad_of_none {q : CheckRequest} (h : q.source.isSome ∨ ∀ l, c.port.load ≠ .checking l) (detail : Nat) : endCheckedLoad q detail c = c := by
  unfold endCheckedLoad
  split
  · rfl
  · next hsource =>
    split
    · next l hl => exact absurd hl (h.resolve_left hsource l)
    · rfl

/-- R188. Whether or not a load waited for the check. -/
theorem endCheckedLoad_leaves (q : CheckRequest) (detail : Nat) (c : Chip) :
    (endCheckedLoad q detail c).catalog = c.catalog ∧ (endCheckedLoad q detail c).store = c.store ∧ StandsButLoad c (endCheckedLoad q detail c) ∧
      Adds c (endCheckedLoad q detail c) := by
  have hsame : StandsButLoad c c := .of_stands (by simp [Stands])
  unfold endCheckedLoad
  split
  · exact ⟨rfl, rfl, hsame, .refl c⟩
  · split
    · next l _ =>
      obtain ⟨hcatalog, hstore, hstands⟩ := endLoad_leaves l detail c
      exact ⟨hcatalog, hstore, hstands, endLoad_adds l detail c⟩
    · exact ⟨rfl, rfl, hsame, .refl c⟩

/-- R188. A load that waited for the check ends with the detail. -/
theorem endCheckedLoad_ends {q : CheckRequest} {l : Load} (hsource : q.source = none) (hload : c.port.load = .checking l) (detail : Nat) :
    LoadEnded c (endCheckedLoad q detail c) l detail := by
  rw [endCheckedLoad_of_waiting hsource hload]
  exact ⟨rfl, reported_of_report (c := { c with port.load := .idle }) (.refl _) (.of_silent ⟨rfl, rfl, rfl⟩)⟩

/-! ## The whole completion -/

/-- R59, R107. The chip when the device has put the header into the flash and the check's request has left the queue. -/
def headerStored (q : CheckRequest) (bytes : List Byte) (c : Chip) : Chip := dropCheck q (programFlash (spareAddress q.slot 4) bytes (freeDevice c))

/-- R59. What the completed check makes of its slot. -/
def headerJudged (q : CheckRequest) (c : Chip) : Chip := if q.orphan then release q.slot c else holdSegment q.image q.segment q.slot c

theorem headerJudged_leavesChecks (q : CheckRequest) (c : Chip) : LeavesChecks c (headerJudged q c) := by
  unfold headerJudged
  split
  exacts [release_leavesChecks q.slot c, holdSegment_leavesChecks q.image q.segment q.slot c]

theorem headerDone_eq {q : CheckRequest} {bytes : List Byte} {live : Bool} (hcurrent : c.store.current = some { op := .checkHeader q.slot bytes, live := live })
    (hfind : c.store.checkQueue.find? (fun x => x.slot == q.slot) = some q) :
    headerDone c = endCheckedLoad q (if q.orphan then 3 else 0) (headerJudged q (headerStored q bytes c)) := by
  have hfind' : (programFlash (spareAddress q.slot 4) bytes (freeDevice c)).store.checkQueue.find? (fun x => x.slot == q.slot) = some q := hfind
  simp only [headerDone, hcurrent, hfind', headerJudged, headerStored]
  split <;> rfl

/-- R59. The header program leaves the slot's data as it is. -/
theorem readData_headerStored (q : CheckRequest) (bytes : List Byte) (c : Chip) : readData (headerStored q bytes c) q.slot = readData c q.slot := by
  refine List.ext_getElem (by simp [readData]) fun j h1 h2 => ?_
  have hj : j < 8192 := by simpa [readData] using h1
  simp only [readData, readRange_getElem]
  exact read_program_outside _ _ _ _ (.inl (by simp only [spareAddress, dataAddress]; omega))

/-- R59, R188. Of the standing part the completion changes the flash and the load alone. -/
theorem headerDone_standing {q : CheckRequest} {bytes : List Byte} {live : Bool}
    (hcurrent : c.store.current = some { op := .checkHeader q.slot bytes, live := live })
    (hfind : c.store.checkQueue.find? (fun x => x.slot == q.slot) = some q) :
    standing (headerDone c) =
      { standing c with flash := Memory.program c.store.flash (spareAddress q.slot 4) bytes, load := (headerDone c).port.load } := by
  rw [headerDone_eq hcurrent hfind]
  obtain ⟨_, _, hload, _⟩ := endCheckedLoad_leaves q (if q.orphan then 3 else 0) (headerJudged q (headerStored q bytes c))
  refine Eq.trans hload ?_
  rw [standing_of_stands (headerJudged_leavesChecks q (headerStored q bytes c)).stands]
  rfl

/-- A completion that of the standing part has changed the flash and the load alone, with all that it sets going. -/
theorem settle_programmed_load {flash : List Host.Cell} {load : LoadState} (h : standing d = { standing c with flash := flash, load := load }) :
    (settle d).store.flash = flash ∧ (settle d).port.load = load ∧
      standing (settle d) = { standing c with flash := (settle d).store.flash, load := (settle d).port.load } := by
  have hsettled := (settle_standing d).trans h
  generalize settle d = e at hsettled
  have hflash : e.store.flash = flash := congrArg Standing.flash hsettled
  have hload : e.port.load = load := congrArg Standing.load hsettled
  exact ⟨hflash, hload, hsettled.trans (by rw [hflash, hload])⟩

section
variable {q : CheckRequest} {bytes : List Byte} {live : Bool} (hcurrent : c.store.current = some { op := .checkHeader q.slot bytes, live := live })
  (hfind : c.store.checkQueue.find? (fun x => x.slot == q.slot) = some q)
include hcurrent hfind

/-- R189. What the judgement reports is reported by the whole command. -/
theorem headerDone_reported {kind : ReportKind} {subject : Subject} {n now : Nat}
    (h : Reported c.port.reports (headerJudged q (headerStored q bytes c)).port.reports kind subject n now) :
    Reported c.port.reports (settle (headerDone c)).port.reports kind subject n now := by
  obtain ⟨_, _, _, hadds, _⟩ := endCheckedLoad_leaves q (if q.orphan then 3 else 0) (headerJudged q (headerStored q bytes c))
  rw [headerDone_eq hcurrent hfind]
  exact (h.after hadds).after (settle_adds _).1

/-- R188. A load that waited for the check ends with the judgement. -/
theorem headerDone_loadEnded {l : Load} (hsource : q.source = none) (hload : c.port.load = .checking l) :
    (headerDone c).port.load = .idle ∧
      Reported c.port.reports (settle (headerDone c)).port.reports .loadDone (.segment l.image l.segment) (if q.orphan then 3 else 0) c.now := by
  have hchecks := headerJudged_leavesChecks q (headerStored q bytes c)
  obtain ⟨hidle, hended⟩ := endCheckedLoad_ends hsource (hchecks.load.trans hload) (if q.orphan then 3 else 0)
  rw [headerDone_eq hcurrent hfind, ← (show _ = c.now from hchecks.now)]
  exact ⟨hidle, Reported.before hchecks.reports (hended.after (settle_adds _).1)⟩

theorem headerDone_load (h : q.source.isSome ∨ ∀ l, c.port.load ≠ .checking l) : (headerDone c).port.load = c.port.load := by
  have hload : (headerJudged q (headerStored q bytes c)).port.load = c.port.load := (headerJudged_leavesChecks q (headerStored q bytes c)).load
  rw [headerDone_eq hcurrent hfind, endCheckedLoad_of_none (by rwa [hload]), hload]

/-- R188. The end of the load leaves the image's record and the slot as judged. -/
theorem headerDone_leaves :
    (headerDone c).catalog = (headerJudged q (headerStored q bytes c)).catalog ∧ (headerDone c).store = (headerJudged q (headerStored q bytes c)).store := by
  obtain ⟨hcatalog, hstore, _⟩ := endCheckedLoad_leaves q (if q.orphan then 3 else 0) (headerJudged q (headerStored q bytes c))
  rw [headerDone_eq hcurrent hfind]
  exact ⟨hcatalog, hstore⟩

end

theorem slotInfo_of_store (h : d.store = c.store) (slot : Nat) : slotInfo d slot = slotInfo c slot := by rw [slotInfo, h, slotInfo]

/-- Settles O32, by what the judgement makes of the slot and the image's record; the load's end and the blocks set going leave both, or only append reports. -/
theorem headerProgramHoldsSegment : Obligations.HeaderProgramHoldsSegment := by
  unfold Obligations.HeaderProgramHoldsSegment
  intro s slot bytes live q hcurrent hfind c
  obtain rfl : q.slot = slot := by simpa using List.find?_some hfind
  have hexec : exec .headerProgramComplete s = .next { s with chip := settle (headerDone s.chip) } := rfl
  obtain ⟨hflash, hload, hstanding⟩ := settle_programmed_load (headerDone_standing hcurrent hfind)
  obtain ⟨hcatalog, hstore⟩ := headerDone_leaves hcurrent hfind
  have hchecks := headerJudged_leavesChecks q (headerStored q bytes s.chip)
  have hended := fun l => headerDone_loadEnded (l := l) hcurrent hfind
  have hreported := fun kind k n => headerDone_reported (kind := kind) (subject := .image k) (n := n) (now := s.chip.now) hcurrent hfind
  generalize hsettled : settle (headerDone s.chip) = e at hexec hflash hload hstanding hended hreported
  refine ⟨_, headerDone c, hexec, by rw [hsettled], ?_, hstanding, ?_, fun l hsource hl => ?_, fun hnone => hload.trans (headerDone_load hcurrent hfind hnone),
    fun horphan => ?_, fun horphan r hr => ?_⟩
  · rw [hflash]
    exact program_programmed _ _ _
  · rw [hstore, hchecks.queue]
    rfl
  · obtain ⟨hidle, hdone⟩ := hended l hsource hl
    exact ⟨hload.trans hidle, hdone⟩
  · rw [slotInfo_of_store hstore, headerJudged, if_pos horphan]
    exact release_slotInfo rfl q.slot
  · have hjudged : headerJudged q (headerStored q bytes s.chip) = holdSegment q.image q.segment q.slot (headerStored q bytes s.chip) := by
      simp [headerJudged, horphan]
    have hfound : findRecord (headerStored q bytes s.chip) q.image = some r := hr
    rw [hjudged] at hcatalog hstore hreported
    refine ⟨fun hseg hlen => ?_, fun hseg hlen => ?_⟩
    · obtain ⟨hstate, hslot⟩ := holdSegment_data hfound hseg hlen q.slot
      rw [segState_of_catalog hcatalog, slotInfo_of_store hstore]
      refine ⟨hstate, hslot, fun hgathering hscan hothers => ?_⟩
      obtain ⟨hcomplete, hreport⟩ := holdSegment_completes hfound hseg hgathering hscan hothers q.slot
      exact ⟨by rw [imageComplete, findRecord_of_catalog hcatalog]; exact hcomplete, hreported _ _ _ hreport⟩
    · rw [hseg] at hcatalog hstore hreported
      have hread := readData_headerStored q bytes s.chip
      cases hv : validateManifest q.image r.model (readData c q.slot) with
      | ok m =>
        obtain ⟨r', hr', hstate, hmanifest, hentries, hfirst, hslot, hothers⟩ := holdSegment_takes hfound (hread ▸ hv)
        refine ⟨r', (findRecord_of_catalog hcatalog _).trans hr', hstate, hmanifest, hentries, (segState_of_catalog hcatalog _ _).trans hfirst,
          (slotInfo_of_store hstore _).trans hslot, fun j h1 hj => (segState_of_catalog hcatalog _ _).trans (hothers j h1 hj)⟩
      | error reason =>
        obtain ⟨⟨r', hr', hrejected, hfirst⟩, hslot, hreport⟩ := holdSegment_rejects hfound hlen rfl (hread ▸ hv)
        refine ⟨r', (findRecord_of_catalog hcatalog _).trans hr', hrejected, ?_, (slotInfo_of_store hstore _).trans hslot, hreported _ _ _ hreport⟩
        rw [segState, findRecord_of_catalog hcatalog, hr']
        exact hfirst

end Sys2Proof.Machine
end

