-- ==== Sys2Proof/Proofs/ServeSlots.lean ====
section
/-!
SUPPORT. The rules of the serve slots: the marks of a mask, a slot read after it was set, what a repeated Ask makes of the slot that works on it (R67), and how
FREE slots take entries from the queue (R70).
-/
namespace Sys2Proof.Machine

variable {c d : Chip} {i p : Nat} {e : AskEntry}

/-! ## Replies (R69, R85) -/

/-- R78, R85. The urgent lane after a frame that is no Leave was offered to it: taken only while the port is ON and fewer than eight frames wait. -/
def laneWith (f : UrgentFrame) (y : Yard) : List UrgentFrame := if y.mode = .on ∧ y.urgent.length < 8 then y.urgent ++ [f] else y.urgent

theorem pushUrgent_eq {f : UrgentFrame} (h : f ≠ .leave) (c : Chip) : pushUrgent f c = { c with yard.urgent := laneWith f c.yard } := by
  unfold pushUrgent laneWith
  cases hmode : c.yard.mode with
  | on => by_cases hroom : c.yard.urgent.length < 8 <;> simp [hroom]
  | off => simp
  | departed => simp [h]

theorem queueReply_eq (kind : ReplyKind) (e : AskEntry) (c : Chip) :
    queueReply kind e c = { c with yard.urgent := laneWith (.reply kind e.asker e.image e.segment) c.yard } := pushUrgent_eq (by simp) c

theorem laneWith_of_room {f : UrgentFrame} {y : Yard} (hmode : y.mode = .on) (hroom : y.urgent.length < 8) :
    laneWith f y = y.urgent ++ [f] := if_pos ⟨hmode, hroom⟩

theorem laneWith_grows (f : UrgentFrame) (y : Yard) : ∃ later, laneWith f y = y.urgent ++ later := by
  unfold laneWith
  split
  exacts [⟨_, rfl⟩, ⟨[], by simp⟩]

/-! ## The block in hand (R70, R71) -/

theorem lowestMark_eq_some_iff {m : BitVec 16} : lowestMark m = some p ↔ p < 16 ∧ m.getLsbD p = true ∧ ∀ q < p, m.getLsbD q = false := by
  simp only [lowestMark, List.find?_range_eq_some, List.mem_range, Bool.not_eq_true']
  tauto

/-- A mask that is not empty names a lowest position. -/
theorem exists_lowestMark {m : BitVec 16} (h : m ≠ 0#16) : ∃ p, lowestMark m = some p := by
  refine Option.isSome_iff_exists.mp (Option.isSome_iff_ne_none.mpr fun hnone => h (BitVec.eq_of_getLsbD_eq fun q hq => ?_))
  have hmark := List.find?_range_eq_none.mp hnone q hq
  simpa using hmark

theorem startReading_of_lowestMark (h : lowestMark e.mask = some p) : startReading e = .reading { e with mask := clearMark e.mask p } p := by
  rw [startReading, h]

/-- R70. An entry with a mask that is not empty starts with its lowest block. -/
theorem startReading_reads (h : e.mask ≠ 0#16) :
    ∃ q < 16, e.mask.getLsbD q = true ∧ (∀ r < q, e.mask.getLsbD r = false) ∧ startReading e = .reading { e with mask := clearMark e.mask q } q := by
  obtain ⟨q, hq⟩ := exists_lowestMark h
  obtain ⟨hlt, hmark, hbelow⟩ := lowestMark_eq_some_iff.mp hq
  exact ⟨q, hlt, hmark, hbelow, startReading_of_lowestMark hq⟩

/-! ## Serve slots by number -/

theorem serveSlot_eq_getElem (h : i < c.serve.slots.length) : serveSlot c i = c.serve.slots[i] := by
  simp [serveSlot, List.getD_eq_getElem?_getD, h]

theorem serveSlot_of_serve (h : d.serve = c.serve) (i : Nat) : serveSlot d i = serveSlot c i := by rw [serveSlot, h, serveSlot]

/-- A serve slot that is set reads as set, and the others as before. -/
theorem serveSlot_of_set {v : ServeSlot} (h : d.serve.slots = c.serve.slots.set i v) (hi : i < c.serve.slots.length) (j : Nat) :
    serveSlot d j = if j = i then v else serveSlot c j := by
  rw [serveSlot, serveSlot, h, List.getD_eq_getElem?_getD, List.getD_eq_getElem?_getD]
  by_cases hij : j = i
  · simp [hij, hi]
  · simp [hij, List.getElem?_set_ne (Ne.symm hij)]

/-- R70. The slot that takes the next entry is the lowest FREE one. -/
theorem freeServe_eq_some_iff : freeServe c = some i ↔ i < c.serve.slots.length ∧ serveSlot c i = .free ∧ ∀ j < i, serveSlot c j ≠ .free := by
  rw [freeServe, List.findIdx?_eq_some_iff_getElem]
  constructor
  · rintro ⟨hi, hfree, hbefore⟩
    refine ⟨hi, by simpa [serveSlot_eq_getElem hi] using hfree, fun j hj => ?_⟩
    simpa [serveSlot_eq_getElem (hj.trans hi)] using hbefore j hj
  · rintro ⟨hi, hfree, hbefore⟩
    refine ⟨hi, by simpa [serveSlot_eq_getElem hi] using hfree, fun j hj => ?_⟩
    simpa [serveSlot_eq_getElem (hj.trans hi)] using hbefore j hj

theorem freeServe_eq_none_iff : freeServe c = none ↔ ∀ x ∈ c.serve.slots, x ≠ .free := by
  simp [freeServe, List.findIdx?_eq_none_iff]

/-! ## A read given up (R67, log 53) -/

/-- Log 53. Of the waiting operations the slot's read alone is withdrawn. -/
theorem mem_giveUpServeRead_waiting {w : WaitingOp} :
    w ∈ (giveUpServeRead i c).store.waiting ↔ w ∈ c.store.waiting ∧ ∀ slot b, w.op ≠ .serveRead i slot b := by
  simp only [giveUpServeRead, List.mem_filter]
  refine and_congr_right fun _ => ?_
  cases w.op <;> simp

/-- R67. The slot's read in progress brings nothing. -/
theorem giveUpServeRead_current_dead {o : CurrentOp} {slot b : Nat} (h : (giveUpServeRead i c).store.current = some o) (hop : o.op = .serveRead i slot b) :
    o.live = false := by
  obtain ⟨o', _, rfl⟩ := Option.map_eq_some_iff.mp h
  split at hop
  · next hmine => rw [if_pos hmine]
  · next hother => exact absurd (by rw [hop]; simp) hother

/-! ## A repeated Ask (R67) -/

theorem keepsInHand_iff {old : AskEntry} : keepsInHand old e p = true ↔ old.base = e.base ∧ e.mask.getLsbD p = true := by simp [keepsInHand]

/-- R67. What the slot that works on an entry holds after the same asker has asked again. -/
def reasked (e : AskEntry) : ServeSlot → ServeSlot
  | .free => .free
  | .reading old p => if keepsInHand old e p then .reading { e with mask := clearMark e.mask p } p else startReading e
  | .ready old p bytes => if keepsInHand old e p then .ready { e with mask := clearMark e.mask p } p bytes else startReading e
  | .sending old => .sending { old with base := e.base, mask := e.mask }

theorem replaceInSlot_serve (i : Nat) (e : AskEntry) (c : Chip) :
    (replaceInSlot i e c).serve = { c.serve with slots := c.serve.slots.set i (reasked e (serveSlot c i)) } := by
  unfold replaceInSlot
  split
  · next old h => rw [h]; rfl
  · next old p h =>
    rw [h, reasked]
    split <;> rfl
  · next old p bytes h =>
    rw [h, reasked]
    split <;> rfl
  · next h =>
    have hsame : c.serve.slots.set i .free = c.serve.slots := by
      by_cases hi : i < c.serve.slots.length
      · rw [← h, serveSlot_eq_getElem hi, List.set_getElem_self]
      · exact List.set_eq_of_length_le (by omega)
    rw [h, reasked, hsame]

theorem replaceInSlot_yard (i : Nat) (e : AskEntry) (c : Chip) : (replaceInSlot i e c).yard = c.yard := by
  unfold replaceInSlot
  split
  · rfl
  · split <;> rfl
  · split <;> rfl
  · rfl

/-- R67. A block being read that the new Ask does not keep is given up. -/
theorem replaceInSlot_gives_up {old : AskEntry} (h : serveSlot c i = .reading old p) (hkeeps : ¬keepsInHand old e p) :
    (replaceInSlot i e c).store = (giveUpServeRead i c).store := by
  simp only [replaceInSlot, h, if_neg hkeeps, setServeSlot_store]

theorem serveSlot_replaceInSlot (hi : i < c.serve.slots.length) (j : Nat) :
    serveSlot (replaceInSlot i e c) j = if j = i then reasked e (serveSlot c i) else serveSlot c j :=
  serveSlot_of_set (by rw [replaceInSlot_serve]) hi j

/-! ## Entries taken (R70) -/

/-- The chip with another ask queue. -/
def withQueue (q : List AskEntry) (c : Chip) : Chip := { c with serve.queue := q }

theorem queueReply_withQueue (kind : ReplyKind) (e : AskEntry) (q : List AskEntry) (c : Chip) :
    queueReply kind e (withQueue q c) = withQueue q (queueReply kind e c) := by
  rw [queueReply_eq, queueReply_eq]
  rfl

/-- R70. The examination of a taken entry neither looks at the queue nor changes it. -/
theorem examineTaken_withQueue (i : Nat) (e : AskEntry) (q : List AskEntry) (c : Chip) :
    examineTaken i e (withQueue q c) = withQueue q (examineTaken i e c) := by
  have hheld : heldSlot (withQueue q c) e.image e.segment = heldSlot c e.image e.segment := rfl
  have hlocked : ∀ slot, slotServeLocked (withQueue q c) slot = slotServeLocked c slot := fun _ => rfl
  have hdeparting : askerDeparting (withQueue q c) e.asker = askerDeparting c e.asker := rfl
  simp only [examineTaken, hheld, hlocked, hdeparting]
  split
  · exact queueReply_withQueue _ _ _ _
  · split
    · exact queueReply_withQueue _ _ _ _
    · split <;> rfl

theorem takeEntries_withQueue (es q : List AskEntry) (c : Chip) : takeEntries es (withQueue q c) = takeEntries es c := by
  induction es generalizing c with
  | nil => rfl
  | cons e es ih =>
    have hfree : freeServe (withQueue q c) = freeServe c := rfl
    simp only [takeEntries, hfree]
    split
    · rfl
    · rw [examineTaken_withQueue, ih]

/-- R70. The lowest FREE slot takes the entry at the head of the queue, and so on with the rest. -/
theorem serveTake_cons {rest : List AskEntry} (hqueue : c.serve.queue = e :: rest) (hfree : freeServe c = some i) :
    serveTake c = serveTake (examineTaken i e (withQueue rest c)) := by
  have hrest : (examineTaken i e (withQueue rest c)).serve.queue = rest := by rw [examineTaken_withQueue]; rfl
  have hhead : takeEntries (e :: rest) c = takeEntries rest (examineTaken i e c) := by simp only [takeEntries, hfree]
  rw [serveTake, serveTake, hrest, hqueue, hhead, examineTaken_withQueue, takeEntries_withQueue]

/-- R70. Nothing is taken while the queue is empty or no slot is FREE. -/
theorem serveTake_of_idle (h : c.serve.queue = [] ∨ ∀ x ∈ c.serve.slots, x ≠ .free) : serveTake c = c := by
  cases hqueue : c.serve.queue with
  | nil =>
    have hsame : withQueue c.serve.queue c = c := rfl
    rw [serveTake, hqueue]
    rwa [hqueue] at hsame
  | cons e rest =>
    have hsame : withQueue c.serve.queue c = c := rfl
    have hnone : freeServe c = none := freeServe_eq_none_iff.mpr (h.resolve_left (by simp [hqueue]))
    rw [serveTake, hqueue]
    simp only [takeEntries, hnone]
    rwa [hqueue] at hsame

/-- R70. Entries are taken until the queue is empty or no slot is FREE. -/
theorem takeEntries_ends (es : List AskEntry) (c : Chip) :
    (takeEntries es c).serve.queue = [] ∨ ∀ x ∈ (takeEntries es c).serve.slots, x ≠ .free := by
  induction es generalizing c with
  | nil => exact .inl rfl
  | cons e es ih =>
    unfold takeEntries
    split
    · next hnone => exact .inr (freeServe_eq_none_iff.mp hnone)
    · exact ih _

/-! ## A taken entry examined (R70) -/

theorem askerDeparting_iff {asker : Nat} : askerDeparting c asker = true ↔ ∃ p, findPeer c asker = some p ∧ p.departing = true := by
  cases h : findPeer c asker <;> simp [askerDeparting, h]

theorem askerDeparting_eq_false {asker : Nat} (h : ∀ p, findPeer c asker = some p → p.departing = false) : askerDeparting c asker = false := by
  rw [← Bool.not_eq_true, askerDeparting_iff]
  rintro ⟨p, hp, hdeparting⟩
  exact Bool.false_ne_true ((h p hp).symm.trans hdeparting)

theorem examineTaken_of_not_held (h : heldSlot c e.image e.segment = none) (i : Nat) : examineTaken i e c = queueReply .lacking e c := by
  simp only [examineTaken, h]

theorem examineTaken_of_locked {slot : Nat} (h : heldSlot c e.image e.segment = some slot) (hlocked : serveLocked c (areaOf c slot) = true) (i : Nat) :
    examineTaken i e c = queueReply .refused e c := by
  simp [examineTaken, h, slotServeLocked, hlocked]

theorem examineTaken_of_departing {slot : Nat} (h : heldSlot c e.image e.segment = some slot) (hlocked : serveLocked c (areaOf c slot) = false)
    (hdeparting : askerDeparting c e.asker = true) (i : Nat) : examineTaken i e c = c := by
  simp [examineTaken, h, slotServeLocked, hlocked, hdeparting]

theorem examineTaken_reads {slot : Nat} (h : heldSlot c e.image e.segment = some slot) (hlocked : serveLocked c (areaOf c slot) = false)
    (hdeparting : askerDeparting c e.asker = false) (i : Nat) : examineTaken i e c = setServeSlot i (startReading e) c := by
  simp [examineTaken, h, slotServeLocked, hlocked, hdeparting]

end Sys2Proof.Machine
end

