-- ==== Sys2Proof/Proofs/AsksAnswered.lean ====
section
/-!
SUPPORT. An Ask at the Serve Engine (R63 to R70): what each test of R65 makes of the engine and of the urgent lane, and its way there through presence (R80).
-/
namespace Sys2Proof.Machine

variable {c d : Chip} {i : Nat} {e : AskEntry} {f : RxFrame}

/-! ## Entries of the same asker for the same segment (R62) -/

/-- R65, R67. The serve slot works on an entry of the same asker for the same segment. -/
def Serves (c : Chip) (e : AskEntry) (i : Nat) : Prop :=
  ∃ q, (serveSlot c i).entry? = some q ∧ q.asker = e.asker ∧ q.image = e.image ∧ q.segment = e.segment

/-- R65, R66. An entry of the same asker for the same segment waits in the queue. -/
def Waits (c : Chip) (e : AskEntry) : Prop := ∃ q ∈ c.serve.queue, q.asker = e.asker ∧ q.image = e.image ∧ q.segment = e.segment

theorem sameAsk_iff {q : AskEntry} : sameAsk q e = true ↔ q.asker = e.asker ∧ q.image = e.image ∧ q.segment = e.segment := by
  simp [sameAsk, and_assoc]

theorem any_sameAsk_iff : c.serve.queue.any (fun q => sameAsk q e) = true ↔ Waits c e := by simp only [List.any_eq_true, sameAsk_iff, Waits]

/-- The test by which `servingSlot` picks a slot. -/
theorem any_entry_sameAsk_iff : (serveSlot c i).entry?.any (fun q => sameAsk q e) = true ↔ Serves c e i := by
  cases h : (serveSlot c i).entry? <;> simp [Serves, h, sameAsk_iff]

theorem servingSlot_eq (c : Chip) (e : AskEntry) :
    servingSlot c e = (List.range 3).find? (fun i => (serveSlot c i).entry?.any (fun q => sameAsk q e)) :=
  List.find?_congr fun i _ => by cases (serveSlot c i).entry? <;> rfl

theorem servingSlot_eq_none (h : ∀ i < 3, ¬Serves c e i) : servingSlot c e = none := by
  rw [servingSlot_eq, List.find?_range_eq_none]
  exact fun i hi => by simpa only [Bool.not_eq_true', Bool.not_eq_true] using mt any_entry_sameAsk_iff.mp (h i hi)

/-- R67. The first of the three slots that work on such an entry. -/
theorem servingSlot_eq_some (hi : i < 3) (h : Serves c e i) (hbefore : ∀ j < i, ¬Serves c e j) : servingSlot c e = some i := by
  rw [servingSlot_eq, List.find?_range_eq_some]
  exact ⟨any_entry_sameAsk_iff.mpr h, List.mem_range.mpr hi,
    fun j hj => by simpa only [Bool.not_eq_true', Bool.not_eq_true] using mt any_entry_sameAsk_iff.mp (hbefore j hj)⟩

/-! ## The answers in R65's order -/

theorem answerAsk_of_scanning (h : c.store.scanPhase ≠ .done) (e : AskEntry) : answerAsk e c = queueReply .lacking e (dropQueued e c) := by
  simp [answerAsk, h]

section
variable (hscan : c.store.scanPhase = .done)
include hscan

theorem answerAsk_of_not_held (h : heldSlot c e.image e.segment = none) : answerAsk e c = queueReply .lacking e (dropQueued e c) := by
  simp [answerAsk, hscan, h]

variable {slot : Nat} (hheld : heldSlot c e.image e.segment = some slot)
include hheld

theorem answerAsk_of_locked (h : serveLocked c (areaOf c slot) = true) : answerAsk e c = queueReply .refused e (dropQueued e c) := by
  simp [answerAsk, hscan, hheld, slotServeLocked, h]

variable (hopen : serveLocked c (areaOf c slot) = false)
include hopen

/-- R66. The queued entry takes the new window in its place. -/
theorem answerAsk_of_waits (h : Waits c e) :
    answerAsk e c =
      withQueue (c.serve.queue.map (fun q => if q.asker = e.asker ∧ q.image = e.image ∧ q.segment = e.segment then e else q)) c := by
  have hnew : ∀ q : AskEntry, (if sameAsk q e then { q with base := e.base, mask := e.mask } else q) =
      if q.asker = e.asker ∧ q.image = e.image ∧ q.segment = e.segment then e else q := fun q => by
    by_cases hsame : q.asker = e.asker ∧ q.image = e.image ∧ q.segment = e.segment
    · rw [if_pos (sameAsk_iff.mpr hsame), if_pos hsame]
      obtain ⟨hasker, himage, hsegment⟩ := hsame
      rw [hasker, himage, hsegment]
    · rw [if_neg (mt sameAsk_iff.mp hsame), if_neg hsame]
  simp [answerAsk, hscan, hheld, slotServeLocked, hopen, any_sameAsk_iff.mpr h, hnew, withQueue]

variable (hwaits : ¬Waits c e)
include hwaits

theorem answerAsk_of_not_waits :
    answerAsk e c =
      (servingSlot c e).elim (if 8 ≤ c.serve.queue.length then queueReply .busy e c else withQueue (c.serve.queue ++ [e]) c)
        (fun i => replaceInSlot i e c) := by
  have hany : c.serve.queue.any (fun q => sameAsk q e) = false := by simpa only [Bool.not_eq_true] using mt any_sameAsk_iff.mp hwaits
  simp only [answerAsk, hscan, hheld, slotServeLocked, hopen, hany]
  cases servingSlot c e <;> rfl

/-- R67. The first slot that works on such an entry is changed in place. -/
theorem answerAsk_of_serves (hi : i < 3) (h : Serves c e i) (hbefore : ∀ j < i, ¬Serves c e j) : answerAsk e c = replaceInSlot i e c := by
  rw [answerAsk_of_not_waits hscan hheld hopen hwaits, servingSlot_eq_some hi h hbefore, Option.elim_some]

variable (hserves : ∀ i < 3, ¬Serves c e i)
include hserves

theorem answerAsk_of_full (h : 8 ≤ c.serve.queue.length) : answerAsk e c = queueReply .busy e c := by
  rw [answerAsk_of_not_waits hscan hheld hopen hwaits, servingSlot_eq_none hserves]
  exact if_pos h

theorem answerAsk_of_room (h : c.serve.queue.length < 8) : answerAsk e c = withQueue (c.serve.queue ++ [e]) c := by
  rw [answerAsk_of_not_waits hscan hheld hopen hwaits, servingSlot_eq_none hserves]
  exact if_neg (by omega)

end

/-! ## The screen (R63, R64) -/

theorem askScreened_iff {server : Nat} :
    askScreened c server e = true ↔ server = stationId c ∧ (e.base = 0 ∨ e.base = 16 ∨ e.base = 32 ∨ e.base = 48) ∧ e.mask ≠ 0#16 := by
  simp [askScreened, and_assoc, or_assoc]

theorem onAsk_of_screened {server : Nat} (hconfig : c.port.config.isSome) (h : askScreened c server e = true) : onAsk server e c = answerAsk e c := by
  simp [onAsk, configured, hconfig, h]

theorem onAsk_of_not_screened {server : Nat} (h : ¬askScreened c server e = true) : onAsk server e c = c := by
  simp [onAsk, h]

/-! ## What an Ask's answer reads -/

/-- The second chip has all of the first that the answer to an Ask reads or changes. -/
structure ServesAlike (c d : Chip) : Prop where
  serve : d.serve = c.serve
  urgent : d.yard.urgent = c.yard.urgent
  mode : d.yard.mode = c.yard.mode
  scan : d.store.scanPhase = c.store.scanPhase
  config : d.port.config = c.port.config
  total : d.total = c.total
  states : ∀ k seg, segState d k seg = segState c k seg

namespace ServesAlike

theorem heldSlot (h : ServesAlike c d) (k : ImageKey) (seg : Nat) : heldSlot d k seg = heldSlot c k seg := by
  rw [Machine.heldSlot, h.states, Machine.heldSlot]

theorem slotServeLocked (h : ServesAlike c d) (slot : Nat) : slotServeLocked d slot = slotServeLocked c slot := by
  simp only [Machine.slotServeLocked, serveLocked, areaOf, areaSize, h.config, h.total]

theorem servingSlot (h : ServesAlike c d) (e : AskEntry) : servingSlot d e = servingSlot c e := by
  simp only [Machine.servingSlot, serveSlot_of_serve h.serve]

theorem queueReply (h : ServesAlike c d) (kind : ReplyKind) (e : AskEntry) : ServesAlike (queueReply kind e c) (queueReply kind e d) := by
  rw [queueReply_eq, queueReply_eq]
  exact { h with urgent := by simp only [laneWith, h.mode, h.urgent] }

theorem dropQueued (h : ServesAlike c d) (e : AskEntry) : ServesAlike (dropQueued e c) (dropQueued e d) :=
  { h with serve := by simp only [Machine.dropQueued, h.serve] }

/-- R65. The answer depends on nothing else. -/
theorem answerAsk (h : ServesAlike c d) (e : AskEntry) :
    (answerAsk e d).serve = (answerAsk e c).serve ∧ (answerAsk e d).yard.urgent = (answerAsk e c).yard.urgent := by
  have dropped : ∀ kind, _ := fun kind => (h.dropQueued e).queueReply kind e
  simp only [Machine.answerAsk, h.scan, h.heldSlot, h.slotServeLocked, h.servingSlot, h.serve]
  split
  · exact ⟨(dropped _).serve, (dropped _).urgent⟩
  · split
    · exact ⟨(dropped _).serve, (dropped _).urgent⟩
    · split
      · exact ⟨(dropped _).serve, (dropped _).urgent⟩
      · split
        · exact ⟨rfl, h.urgent⟩
        · split
          · exact ⟨by simp only [replaceInSlot_serve, h.serve, serveSlot_of_serve h.serve], by simp only [replaceInSlot_yard, h.urgent]⟩
          · split
            exacts [⟨(h.queueReply _ _).serve, (h.queueReply _ _).urgent⟩, ⟨rfl, h.urgent⟩]

theorem onAsk (h : ServesAlike c d) (server : Nat) (e : AskEntry) :
    (onAsk server e d).serve = (onAsk server e c).serve ∧ (onAsk server e d).yard.urgent = (onAsk server e c).yard.urgent := by
  have hstation : stationId d = stationId c := stationId_of_config h.config
  have hcond : (configured d && askScreened d server e) = (configured c && askScreened c server e) := by
    simp only [configured, h.config, askScreened, hstation]
  rw [Machine.onAsk, Machine.onAsk, hcond]
  split
  exacts [h.answerAsk e, ⟨h.serve, h.urgent⟩]

end ServesAlike

/-! ## On the way to the Serve Engine and from it (R6, R21, R80) -/

/-- R25. Recounting changes no segment's state. -/
theorem recount_segState (c : Chip) (k : ImageKey) (seg : Nat) : segState (recount c) k seg = segState c k seg := by
  obtain ⟨asked, hdoes⟩ := recount_does c
  have hrecord : findRecord (recount c) k = (findRecord c k).map (countRecord c.peers) :=
    findRecord_of_map (g := countRecord c.peers) (by rw [hdoes]) (fun _ => rfl) k
  cases hr : findRecord c k with
  | none => rw [segState, segState, hrecord, hr]; rfl
  | some r => rw [segState_of_states (hrecord.trans (congrArg _ hr)) (countRecord_states _ r), segState_of_states hr rfl]

theorem removePeer_serving (id : Nat) (c : Chip) : (removePeer id c).serve = c.serve ∧ ∀ k seg, segState (removePeer id c) k seg = segState c k seg := by
  have asked : ∀ (b : Bool) (d : Chip), (askIf b d).serve = d.serve ∧ (askIf b d).catalog = d.catalog := fun b d => by
    unfold askIf
    split <;> exact ⟨rfl, rfl⟩
  have recounted : ∀ d : Chip, (recount d).serve = d.serve := fun d => by
    obtain ⟨_, hdoes⟩ := recount_does d
    rw [hdoes]
  unfold removePeer
  exact ⟨(asked _ _).1.trans (recounted _), fun k seg => (segState_of_catalog (asked _ _).2 k seg).trans (recount_segState _ k seg)⟩

theorem makeRoom_serving (c : Chip) : (makeRoom c).serve = c.serve ∧ ∀ k seg, segState (makeRoom c) k seg = segState c k seg := by
  unfold makeRoom
  split
  · exact ⟨rfl, fun _ _ => rfl⟩
  · split
    exacts [removePeer_serving _ c, removePeer_serving _ c, ⟨rfl, fun _ _ => rfl⟩]

/-- R21, R22. Presence of a frame without the departing flag leaves what the Serve Engine holds and reads. -/
theorem presence_servesAlike (hf : f.departing = false) (c : Chip) : ServesAlike c (presence f c) := by
  obtain ⟨hstands, _, hurgent⟩ := (presence_quiet f c hf).1
  have hserving : (presence f c).serve = c.serve ∧ ∀ k seg, segState (presence f c) k seg = segState c k seg := by
    unfold presence
    rw [hf]
    split
    · simp only [Bool.false_eq_true, if_false]
      split <;> exact ⟨rfl, fun _ _ => rfl⟩
    · exact makeRoom_serving c
  exact
    { serve := hserving.1
      urgent := hurgent
      mode := by simp [hstands]
      scan := by simp [hstands]
      config := by simp [hstands]
      total := by simp [hstands]
      states := hserving.2 }

/-- R6, R69. The comparison of the serial leaves the Serve Engine and queues behind what waits. -/
theorem compareSerial_serves (f : RxFrame) (c : Chip) :
    (compareSerial f c).serve = c.serve ∧ ∃ later, (compareSerial f c).yard.urgent = c.yard.urgent ++ later := by
  by_cases h : AsksPlan c f
  · rw [compareSerial_of_asks h, pushUrgent_eq (by simp)]
    exact ⟨rfl, laneWith_grows _ _⟩
  · rw [compareSerial_of_not_asks h]
    exact ⟨rfl, [], by simp⟩

section
variable (hf : f.departing = false)
include hf

/-- R80. The engine after an Ask's frame is as the Ask alone would make it. -/
theorem askFrame_serve (server : Nat) (e : AskEntry) (c : Chip) :
    (compareSerial f (onAsk server e (presence f c))).serve = (onAsk server e c).serve :=
  (compareSerial_serves f _).1.trans ((presence_servesAlike hf c).onAsk server e).1

/-- R65, R80. A short reply that the Ask queues is queued right behind what waited. -/
theorem askFrame_queued {server : Nat} {reply : UrgentFrame} (h : (onAsk server e c).yard.urgent = c.yard.urgent ++ [reply]) :
    Queued c.yard.urgent (settle (compareSerial f (onAsk server e (presence f c)))).yard.urgent reply := by
  obtain ⟨asked, hasked⟩ := (compareSerial_serves f (onAsk server e (presence f c))).2
  obtain ⟨_, ⟨later, _, hlater⟩, _⟩ := settle_adds (compareSerial f (onAsk server e (presence f c)))
  refine ⟨asked ++ later, ?_⟩
  rw [hlater, hasked, ((presence_servesAlike hf c).onAsk server e).2, h]
  simp

/-- R69, R80. An Ask answered with a short reply: the engine is as the reply found it, and the reply is queued where there is room. -/
theorem askFrame_replied {server : Nat} {kind : ReplyKind} (hmode : c.yard.mode = .on) (hyard : d.yard = c.yard)
    (hanswer : onAsk server e c = queueReply kind e d) :
    (onAsk server e c).serve = d.serve ∧
      (c.yard.urgent.length < 8 →
        Queued c.yard.urgent (settle (compareSerial f (onAsk server e (presence f c)))).yard.urgent (.reply kind e.asker e.image e.segment)) := by
  rw [queueReply_eq, hyard] at hanswer
  refine ⟨by rw [hanswer], fun hroom => askFrame_queued hf ?_⟩
  rw [hanswer]
  exact laneWith_of_room hmode hroom

end

theorem exec_ask_accepted {s : State} {frame : List Byte} (h : Accepts s.chip .ask frame f) :
    exec (.ask frame) s =
      .next { s with chip := settle (compareSerial f (onAsk (askOf f.sender f.payload).1 (askOf f.sender f.payload).2 (presence f s.chip))) } := by
  have hrun : exec (.ask frame) s =
      .next { s with chip := settle (receive .ask (fun f => onAsk (askOf f.sender f.payload).1 (askOf f.sender f.payload).2) frame s.chip) } := rfl
  rw [hrun, receive_accepted h]

theorem replaceInSlot_standing (i : Nat) (e : AskEntry) (c : Chip) : standing (replaceInSlot i e c) = standing c := by
  unfold replaceInSlot
  split
  · rfl
  · split <;> rfl
  · split <;> rfl
  · rfl

/-- Of the standing part an Ask changes nothing. -/
theorem onAsk_standing (server : Nat) (e : AskEntry) (c : Chip) : standing (onAsk server e c) = standing c := by
  have reply : ∀ kind d, standing (queueReply kind e d) = standing d := fun kind d => standing_of_stands (queueReply_keeps kind e d)
  have answered : standing (answerAsk e c) = standing c := by
    unfold answerAsk
    dsimp only
    split
    · exact reply _ _
    · split
      · exact reply _ _
      · split
        · exact reply _ _
        · split
          · rfl
          · split
            · exact replaceInSlot_standing _ _ _
            · split
              exacts [reply _ _, rfl]
  unfold onAsk
  split
  exacts [answered, rfl]

/-! ## Settling O20 -/

/-- Settles O20: an Ask's answer is found by R65's tests, and the frame's way adds nothing to it; a re-asked slot holds `reasked`; the lowest FREE
slot examines the queue's head, and then the rest is taken. -/
theorem askAnswered : Obligations.AskAnswered := by
  unfold Obligations.AskAnswered
  refine ⟨?_, ?_, ?_⟩
  · intro s frame f haccepts hf hconfig c server e screened room dropped queuedAlready serves inSlot
    have hexec : exec (.ask frame) s = .next { s with chip := settle (compareSerial f (onAsk server e (presence f c))) } := exec_ask_accepted haccepts
    have hstanding : standing (onAsk server e (presence f c)) = standing c :=
      (onAsk_standing server e _).trans (standing_of_stands (presence_stands f c).1)
    have hserve := askFrame_serve hf server e c
    have hscreened : askScreened c server e = true ↔ screened := askScreened_iff
    refine ⟨_, _, hexec, rfl, settle_compare_standing f hstanding, fun hnot => ?_, fun hyes => ?_⟩
    · rw [hserve, onAsk_of_not_screened (mt hscreened.mp hnot)]
    · have hanswer : onAsk server e c = answerAsk e c := onAsk_of_screened hconfig (hscreened.mpr hyes)
      have hreplied : ∀ (kind : ReplyKind) (d : Chip), d.yard = c.yard → answerAsk e c = queueReply kind e d →
          (answerAsk e c).serve = d.serve ∧
            (room →
              Queued c.yard.urgent (settle (compareSerial f (onAsk server e (presence f c)))).yard.urgent (.reply kind f.sender e.image e.segment)) :=
        fun kind d hyard h => hanswer ▸ askFrame_replied hf haccepts.1 hyard (hanswer.trans h)
      rw [hserve, hanswer]
      split
      · next hscan => exact hreplied .lacking (dropQueued e c) rfl (answerAsk_of_scanning hscan e)
      · next hscan =>
        have hscan' : c.store.scanPhase = .done := not_not.mp hscan
        split
        · next hheld => exact hreplied .lacking (dropQueued e c) rfl (answerAsk_of_not_held hscan' hheld)
        · next slot hheld =>
          split
          · next hlocked => exact hreplied .refused (dropQueued e c) rfl (answerAsk_of_locked hscan' hheld hlocked)
          · next hlocked =>
            have hopen := Bool.eq_false_iff.mpr hlocked
            refine ⟨fun hwaits => ?_, fun hwaits hserves hlen => ?_, fun hwaits hserves hlen => ?_, fun i hi hwaits hserves hbefore => ?_⟩
            · rw [answerAsk_of_waits hscan' hheld hopen hwaits]
              exact ⟨rfl, rfl⟩
            · rw [answerAsk_of_room hscan' hheld hopen hwaits (fun i hi h => hserves ⟨i, hi, h⟩) hlen]
              rfl
            · exact hreplied .busy c rfl (answerAsk_of_full hscan' hheld hopen hwaits (fun i hi h => hserves ⟨i, hi, h⟩) hlen)
            · rw [answerAsk_of_serves hscan' hheld hopen hwaits hi hserves hbefore]
  · intro c i e old hi hmask d after keeps
    have hserve : d.serve = _ := replaceInSlot_serve i e c
    have hafter : after = reasked e (serveSlot c i) := (serveSlot_replaceInSlot hi i).trans (if_pos rfl)
    refine ⟨by rw [hserve], by rw [hserve], by rw [hserve], replaceInSlot_yard i e c, fun j hj => (serveSlot_replaceInSlot hi j).trans (if_neg hj),
      fun h => ?_, fun p h => ⟨fun hkeeps => ?_, fun hkeeps => ?_⟩, fun p bytes h => ⟨fun hkeeps => ?_, fun hkeeps => ?_⟩⟩
    · rw [hafter, h, reasked]
    · rw [hafter, h, reasked, if_pos (keepsInHand_iff.mpr hkeeps)]
    · have hgives := mt keepsInHand_iff.mp hkeeps
      have hstore : d.store = (giveUpServeRead i c).store := replaceInSlot_gives_up h hgives
      rw [hafter, h, reasked, if_neg hgives, hstore]
      exact ⟨startReading_reads hmask, fun w hw => mem_giveUpServeRead_waiting.mp hw, fun o slot b ho hop => giveUpServeRead_current_dead ho hop⟩
    · rw [hafter, h, reasked, if_pos (keepsInHand_iff.mpr hkeeps)]
    · rw [hafter, h, reasked, if_neg (mt keepsInHand_iff.mp hkeeps)]
      exact startReading_reads hmask
  · intro c
    refine ⟨serveTake_of_idle, takeEntries_ends _ _, ?_⟩
    intro e rest i hqueue hi hfree hbefore left replied
    have htake : serveTake c = serveTake (examineTaken i e left) := serveTake_cons hqueue (freeServe_eq_some_iff.mpr ⟨hi, hfree, hbefore⟩)
    rw [htake]
    split
    · next hheld => rw [examineTaken_of_not_held (c := left) hheld]; rfl
    · next slot hheld =>
      refine ⟨fun hlocked => ?_, fun hopen => ⟨fun hdeparting => ?_, fun hstays p hp hmark hbelow => ?_⟩⟩
      · rw [examineTaken_of_locked (c := left) hheld hlocked]
        rfl
      · rw [examineTaken_of_departing (c := left) hheld hopen (askerDeparting_iff.mpr hdeparting)]
      · have hpresent : askerDeparting left e.asker = false := askerDeparting_eq_false hstays
        rw [examineTaken_reads (c := left) hheld hopen hpresent, startReading_of_lowestMark (lowestMark_eq_some_iff.mpr ⟨hp, hmark, hbelow⟩)]

end Sys2Proof.Machine
end

