-- ==== Sys2Proof/Proofs/FrameChecks.lean ====
section
/-!
SUPPORT. A frame's bytes as a station builds them (R77, R193), the six checks of a delivered frame (R79), and the obligations on both.
-/
namespace Sys2Proof.Machine

/-! ## The bytes of a frame (R77, R193) -/

/-- R193. The ten header bytes of a frame with a payload of `n` bytes. -/
def frameHead (kind : FrameKind) (originFlag departing : Bool) (sender serial n : Nat) : List Byte :=
  put8 kind.code ++ put8 ((if originFlag then 1 else 0) + (if departing then 2 else 0)) ++ put16 sender ++ put32 serial ++ put16 n

/-- R77. What the frame check value is computed over: header and payload. -/
def frameBody (kind : FrameKind) (originFlag departing : Bool) (sender serial : Nat) (payload : List Byte) : List Byte :=
  frameHead kind originFlag departing sender serial payload.length ++ payload

section
variable (kind : FrameKind) (originFlag departing : Bool) (sender serial n : Nat) (payload ys : List Byte)

theorem frameBytes_eq :
    frameBytes kind originFlag departing sender serial payload =
      frameBody kind originFlag departing sender serial payload ++ put16 (crc16 (frameBody kind originFlag departing sender serial payload)).toNat := rfl

@[simp] theorem frameHead_length : (frameHead kind originFlag departing sender serial n).length = 10 := rfl

theorem frameBody_length : (frameBody kind originFlag departing sender serial payload).length = 10 + payload.length := by
  rw [frameBody, List.length_append, frameHead_length]

/-- R193. The header fields, read from bytes that begin with them. -/
theorem frameHead_kind : frameKindOf (byteAt (frameHead kind originFlag departing sender serial n ++ ys) 0) = some kind := by
  cases kind <;> rfl

theorem frameHead_flags :
    byteAt (frameHead kind originFlag departing sender serial n ++ ys) 1 = (if originFlag then 1 else 0) + (if departing then 2 else 0) := by
  cases originFlag <;> cases departing <;> rfl

theorem frameHead_originFlag : flagAt (frameHead kind originFlag departing sender serial n ++ ys) 1 0 = originFlag := by
  rw [flagAt, frameHead_flags]
  cases originFlag <;> cases departing <;> decide

theorem frameHead_departing : flagAt (frameHead kind originFlag departing sender serial n ++ ys) 1 1 = departing := by
  rw [flagAt, frameHead_flags]
  cases originFlag <;> cases departing <;> decide

theorem frameHead_sender : be16 (frameHead kind originFlag departing sender serial n ++ ys) 2 = sender % 65536 := be16_put16 sender []

theorem frameHead_serial : be32 (frameHead kind originFlag departing sender serial n ++ ys) 4 = serial % 4294967296 := be32_put32 serial []

theorem frameHead_payloadLength : be16 (frameHead kind originFlag departing sender serial n ++ ys) 8 = n % 65536 := be16_put16 n []

end

theorem be16_append_right (xs ys : List Byte) : be16 (xs ++ ys) xs.length = be16 ys 0 := by
  rw [be16, byteAt_append_right xs ys 1, ← Nat.add_zero xs.length, byteAt_append_right xs ys 0, be16]

theorem be16_le (bs : List Byte) (i : Nat) : be16 bs i ≤ 65535 := by
  have hhigh : byteAt bs i < 256 := (bs.getD i 0xFF#8).isLt
  have hlow : byteAt bs (i + 1) < 256 := (bs.getD (i + 1) 0xFF#8).isLt
  unfold be16
  omega

/-! ## The six checks (R79) -/

/-- R79. What the CRC-16 of a delivered frame covers, and its payload. -/
def coveredBytes (frame : List Byte) : List Byte := frame.take (frame.length - 2)

def payloadBytes (frame : List Byte) : List Byte := (coveredBytes frame).drop 10

/-- R79. The checks of a delivered frame of a kind, at a station with id `own`. -/
structure FrameChecks (own : Nat) (frame : List Byte) (kind : FrameKind) : Prop where
  crc : crc16 (coveredBytes frame) = BitVec.ofNat 16 (be16 frame (frame.length - 2))
  named : frameKindOf (byteAt frame 0) = some kind
  length : frame.length = 10 + be16 frame 8 + 2
  payload : payloadLengthOk kind (payloadBytes frame) = true
  sender : 1 ≤ be16 frame 2 ∧ be16 frame 2 ≤ 65534 ∧ be16 frame 2 ≠ own
  depth : kind = .beacon → byteAt (payloadBytes frame) 4 ≤ 3

/-- R193. The fields of a frame of a kind. -/
def fieldsOf (kind : FrameKind) (frame : List Byte) : RxFrame :=
  { kind := kind, originFlag := flagAt frame 1 0, departing := flagAt frame 1 1, sender := be16 frame 2, serial := be32 frame 4,
    payload := payloadBytes frame }

/-- R79. A frame that passes the checks is taken with its fields. -/
theorem acceptFrame_of_checks {own : Nat} {frame : List Byte} {kind : FrameKind} (h : FrameChecks own frame kind) :
    acceptFrame own frame = some (fieldsOf kind frame) := by
  obtain ⟨hcrc, hkind, hlength, hpayload, ⟨hlow, hhigh, hother⟩, hdepth⟩ := h
  have hsender : ¬(be16 frame 2 = 0 ∨ be16 frame 2 = 65535 ∨ be16 frame 2 = own) := by omega
  have hshallow : ¬(kind = .beacon ∧ 3 < byteAt (payloadBytes frame) 4) := fun h => absurd (hdepth h.1) (by omega)
  unfold payloadBytes coveredBytes at *
  simp only [acceptFrame, hkind]
  rw [if_neg (by omega), if_neg (not_not.mpr hcrc), if_neg (not_not.mpr hlength), if_neg (by simp [hpayload]), if_neg (by simpa [or_assoc] using hsender),
    if_neg (by simpa using hshallow)]
  rfl

/-- R79. A frame that is taken passes the checks. -/
theorem checks_of_acceptFrame {own : Nat} {frame : List Byte} (h : (acceptFrame own frame).isSome) : ∃ kind, FrameChecks own frame kind := by
  have hle := be16_le frame 2
  unfold acceptFrame at h
  dsimp only at h
  split at h
  · cases h
  split at h
  · cases h
  next hcrc =>
  split at h
  · cases h
  next kind hkind =>
  split at h
  · cases h
  next hlength =>
  split at h
  · cases h
  next hpayload =>
  split at h
  · cases h
  next hsender =>
  split at h
  · cases h
  next hdepth =>
  simp only [Bool.or_eq_true, decide_eq_true_eq, not_or] at hsender
  rw [Bool.not_eq_true', Bool.not_eq_false] at hpayload
  refine ⟨kind, not_not.mp hcrc, hkind, not_not.mp hlength, hpayload, by omega, fun hb => ?_⟩
  simp only [hb, decide_true, Bool.true_and, decide_eq_true_eq, not_lt] at hdepth
  exact hdepth

/-- R193. A Beacon's depth, at payload offset 4, is byte 14 of the frame. -/
theorem beaconDepth_at {frame : List Byte} (hpayload : payloadLengthOk .beacon (payloadBytes frame) = true) :
    byteAt (payloadBytes frame) 4 = byteAt frame 14 := by
  have hlen : (payloadBytes frame).length = 5 := by simpa [payloadLengthOk] using hpayload
  rw [payloadBytes, coveredBytes, List.length_drop, List.length_take] at hlen
  rw [payloadBytes, coveredBytes, byteAt, byteAt, List.getD_eq_getElem?_getD, List.getElem?_drop, List.getElem?_take_of_lt (by omega),
    ← List.getD_eq_getElem?_getD]

/-- R80. A frame that is not accepted is dropped. -/
theorem receive_dropped {c : Chip} {kind : FrameKind} {frame : List Byte} (h : ∀ f, ¬Accepts c kind frame f) (owner : RxFrame → Chip → Chip) :
    receive kind owner frame c = c := by
  unfold receive
  split
  · rfl
  next hmode =>
  split
  · rfl
  next f haccept =>
  exact if_neg fun hkind => h f ⟨not_not.mp hmode, haccept, hkind⟩

/-! ## A command by its own effect -/

theorem exec_of_run {i : Instr} {s : State} {f : Chip → Chip} {d : Chip} (hexec : exec i s = run f s) (h : f s.chip = d) :
    exec i s = .next { s with chip := settle d } := by
  rw [hexec, run, h]

/-- A command that leaves the chip as it is has no effect. -/
theorem noEffect_of_run {i : Instr} {s : State} {f : Chip → Chip} (hexec : exec i s = run f s) (h : f s.chip = s.chip) : NoEffect i s :=
  exec_of_run hexec h

/-! ## Settling O21 and O23 -/

section
variable (kind : FrameKind) (originFlag departing : Bool) (sender serial : Nat) (payload : List Byte)

theorem frameBytes_covered :
    coveredBytes (frameBytes kind originFlag departing sender serial payload) = frameBody kind originFlag departing sender serial payload := by
  rw [coveredBytes, frameBytes_eq, List.length_append, put16_length, Nat.add_sub_cancel, List.take_left]

theorem frameBytes_payload : payloadBytes (frameBytes kind originFlag departing sender serial payload) = payload := by
  rw [payloadBytes, frameBytes_covered, frameBody, List.drop_left' (frameHead_length ..)]

theorem frameBytes_length : (frameBytes kind originFlag departing sender serial payload).length = 10 + payload.length + 2 := by
  rw [frameBytes_eq, List.length_append, put16_length, frameBody_length]

/-- R77. The frame check value, read back from the last two bytes. -/
theorem frameBytes_check :
    be16 (frameBytes kind originFlag departing sender serial payload) ((frameBytes kind originFlag departing sender serial payload).length - 2) =
      (crc16 (frameBody kind originFlag departing sender serial payload)).toNat := by
  rw [frameBytes_length, Nat.add_sub_cancel, ← frameBody_length kind originFlag departing sender serial, frameBytes_eq, be16_append_right,
    ← List.append_nil (put16 _), be16_put16]
  exact Nat.mod_eq_of_lt (crc16 _).isLt

theorem frameBytes_head :
    ∃ ys, frameBytes kind originFlag departing sender serial payload = frameHead kind originFlag departing sender serial payload.length ++ ys :=
  ⟨_, List.append_assoc _ _ _⟩

end

/-- R77, R79. The bytes a station builds pass the checks of another. -/
theorem frameBytes_checks {own : Nat} {kind : FrameKind} {sender : Nat} {payload : List Byte} (originFlag departing : Bool) (serial : Nat)
    (hsender : 1 ≤ sender ∧ sender ≤ 65534 ∧ sender ≠ own) (hlen : payload.length < 65536) (hpayload : payloadLengthOk kind payload = true)
    (hdepth : kind = .beacon → byteAt payload 4 ≤ 3) : FrameChecks own (frameBytes kind originFlag departing sender serial payload) kind := by
  obtain ⟨ys, hhead⟩ := frameBytes_head kind originFlag departing sender serial payload
  have hfrom : be16 (frameBytes kind originFlag departing sender serial payload) 2 = sender := by
    rw [hhead, frameHead_sender, Nat.mod_eq_of_lt (by omega)]
  exact
    { crc := by rw [frameBytes_covered, frameBytes_check, BitVec.ofNat_toNat, BitVec.setWidth_eq]
      named := by rw [hhead, frameHead_kind]
      length := by rw [frameBytes_length, hhead, frameHead_payloadLength, Nat.mod_eq_of_lt hlen]
      payload := by rwa [frameBytes_payload]
      sender := by rwa [hfrom]
      depth := by rwa [frameBytes_payload] }

/-- R193. A built frame's fields are those it was built from. -/
theorem fieldsOf_frameBytes {sender serial : Nat} (kind : FrameKind) (originFlag departing : Bool) (payload : List Byte) (hsender : sender ≤ 65534)
    (hserial : serial < 4294967296) :
    fieldsOf kind (frameBytes kind originFlag departing sender serial payload) =
      { kind := kind, originFlag := originFlag, departing := departing, sender := sender, serial := serial, payload := payload } := by
  obtain ⟨ys, hhead⟩ := frameBytes_head kind originFlag departing sender serial payload
  rw [fieldsOf, frameBytes_payload, hhead, frameHead_originFlag, frameHead_departing, frameHead_sender, frameHead_serial, Nat.mod_eq_of_lt (by omega),
    Nat.mod_eq_of_lt hserial]

/-- Settles O21: the built bytes pass the checks, and their fields are those given. -/
theorem builtFrameIsAccepted : Obligations.BuiltFrameIsAccepted := by
  unfold Obligations.BuiltFrameIsAccepted
  intro own kind originFlag departing sender serial payload hlow hhigh hother hserial hlen hpayload hdepth
  have hchecks := frameBytes_checks originFlag departing serial ⟨hlow, hhigh, hother⟩ hlen hpayload hdepth
  rw [acceptFrame_of_checks hchecks, fieldsOf_frameBytes kind originFlag departing payload hhigh hserial]

/-- Settles O23: the checks are those that `acceptFrame` makes, and a frame that is not accepted is dropped by its row. -/
theorem frameChecksDropFrames : Obligations.FrameChecksDropFrames := by
  unfold Obligations.FrameChecksDropFrames
  refine ⟨fun own frame => ⟨fun h => ?_, fun ⟨hcrc, ⟨kind, hkind, hlength, hpayload, hdepth⟩, hsender⟩ => ?_⟩, fun s kind frame h => ?_⟩
  · obtain ⟨kind, hchecks⟩ := checks_of_acceptFrame h
    exact ⟨hchecks.crc, ⟨kind, hchecks.named, hchecks.length, hchecks.payload, fun hb => by
      subst hb
      exact (beaconDepth_at hchecks.payload).symm.trans_le (hchecks.depth rfl)⟩, hchecks.sender⟩
  · have hchecks : FrameChecks own frame kind := ⟨hcrc, hkind, hlength, hpayload, hsender, fun hb => by
      subst hb
      exact (beaconDepth_at hpayload).trans_le (hdepth rfl)⟩
    rw [acceptFrame_of_checks hchecks]
    rfl
  · cases kind <;> exact noEffect_of_run rfl (receive_dropped h _)

end Sys2Proof.Machine
end

