-- ==== Sys2Proof/Proofs/AccessPhase.lean ====
section
/-!
SUPPORT. Settling and the phase of channel access (R81, log 13): of the blocks that are set going only channel access itself touches the phase, and it does
so in IDLE alone.
-/
namespace Sys2Proof.Machine

/-! ## The blocks other than channel access -/

@[simp] theorem reportNoTarget_phase (before after : UnitEntry) (c : Chip) : (reportNoTarget before after c).yard.phase = c.yard.phase := by
  unfold reportNoTarget
  (repeat' split) <;> rfl

@[simp] theorem selectUnit_phase (address : Nat) (c : Chip) : (selectUnit address c).yard.phase = c.yard.phase := by
  unfold selectUnit
  (repeat' split) <;> simp

@[simp] theorem release_phase (slot : Nat) (c : Chip) : (release slot c).yard.phase = c.yard.phase := by
  obtain ⟨word, queue, waiting, h, _⟩ := release_does slot c
  rw [h]
  rfl

@[simp] theorem pushUrgent_phase (f : UrgentFrame) (c : Chip) : (pushUrgent f c).yard.phase = c.yard.phase := by
  obtain ⟨lane, h⟩ := pushUrgent_does f c
  rw [h]

@[simp] theorem queueReply_phase (kind : ReplyKind) (e : AskEntry) (c : Chip) : (queueReply kind e c).yard.phase = c.yard.phase := pushUrgent_phase _ c

@[simp] theorem endServeIf_phase (hit : AskEntry → Bool) (i : Nat) (c : Chip) : (endServeIf hit i c).yard.phase = c.yard.phase := by
  unfold endServeIf
  (repeat' split) <;> simp [endServe, giveUpServeRead]

@[simp] theorem endServes_phase (hit : AskEntry → Bool) (c : Chip) : (endServes hit c).yard.phase = c.yard.phase := by simp [endServes]

@[simp] theorem leaveComplete_phase (k : ImageKey) (c : Chip) : (leaveComplete k c).yard.phase = c.yard.phase := by
  unfold leaveComplete
  split <;> rfl

@[simp] theorem evictSegment_phase (k : ImageKey) (seg slot : Nat) (c : Chip) : (evictSegment k seg slot c).yard.phase = c.yard.phase := by
  simp [evictSegment, setSegState]

@[simp] theorem withdrawAsk_phase (i : Nat) (c : Chip) : (withdrawAsk i c).yard.phase = c.yard.phase := rfl

@[simp] theorem updateOpen_phase (i : Nat) (f : OpenFetch → OpenFetch) (c : Chip) : (updateOpen i f c).yard.phase = c.yard.phase := by
  unfold updateOpen
  split <;> rfl

@[simp] theorem queueAsk_phase (i : Nat) (c : Chip) : (queueAsk i c).yard.phase = c.yard.phase := by
  unfold queueAsk
  dsimp only
  split <;> simp

@[simp] theorem dealShort_phase (x : Candidate) (c : Chip) : (dealShort x c).yard.phase = c.yard.phase := by
  unfold dealShort
  (repeat' split) <;> simp

@[simp] theorem openFetch_phase (i slot : Nat) (x : Candidate) (p : PeerRecord) (c : Chip) : (openFetch i slot x p c).yard.phase = c.yard.phase := by
  simp [openFetch, raiseOpen, setSegState, allocate]

@[simp] theorem selectionSteps_phase (fuel : Nat) (a b : Bool) (c : Chip) : (selectionSteps fuel a b c).yard.phase = c.yard.phase := by
  induction fuel generalizing a b c with
  | zero => rfl
  | succ n ih =>
    unfold selectionSteps
    (repeat' split) <;> simp [ih]

@[simp] theorem runSelection_phase (c : Chip) : (runSelection c).yard.phase = c.yard.phase := by
  unfold runSelection
  (repeat' split) <;> simp

@[simp] theorem examineTaken_phase (i : Nat) (e : AskEntry) (c : Chip) : (examineTaken i e c).yard.phase = c.yard.phase := by
  unfold examineTaken
  (repeat' split) <;> simp

@[simp] theorem takeEntries_phase (es : List AskEntry) (c : Chip) : (takeEntries es c).yard.phase = c.yard.phase := by
  induction es generalizing c with
  | nil => rfl
  | cons e es ih =>
    unfold takeEntries
    split <;> simp [ih]

@[simp] theorem serveTake_phase (c : Chip) : (serveTake c).yard.phase = c.yard.phase := takeEntries_phase _ c

@[simp] theorem refuseRead_phase (i : Nat) (e : AskEntry) (c : Chip) : (refuseRead i e c).yard.phase = c.yard.phase := queueReply_phase _ _ _

@[simp] theorem presentLine_phase (r : LineRequest) (c : Chip) : (presentLine r c).yard.phase = c.yard.phase := by
  unfold presentLine
  (repeat' split) <;> rfl

@[simp] theorem noteBegun_phase (r : LineRequest) (c : Chip) : (noteBegun r c).yard.phase = c.yard.phase := by
  unfold noteBegun
  (repeat' split) <;> rfl

@[simp] theorem lineBegin_phase (c : Chip) : (lineBegin c).yard.phase = c.yard.phase := by
  unfold lineBegin
  (repeat' split) <;> simp

@[simp] theorem watchLine_phase (c : Chip) : (watchLine c).yard.phase = c.yard.phase := by
  unfold watchLine
  (repeat' split) <;> rfl

@[simp] theorem endJob_phase (address : Nat) (c : Chip) : (endJob address c).yard.phase = c.yard.phase := selectUnit_phase address _

@[simp] theorem tryEntry_phase (u : UnitEntry) (c : Chip) : (tryEntry u c).yard.phase = c.yard.phase := by
  unfold tryEntry failMisfit deferEntry startJob
  dsimp only
  (repeat' split) <;> simp [setUnitState, recordLast, evaluateWaiting]

@[simp] theorem arbiterSteps_phase (n : Nat) (c : Chip) : (arbiterSteps n c).yard.phase = c.yard.phase := by
  induction n generalizing c with
  | zero => rfl
  | succ n ih =>
    unfold arbiterSteps
    (repeat' split) <;> simp [ih]

@[simp] theorem unitArbiter_phase (c : Chip) : (unitArbiter c).yard.phase = c.yard.phase := arbiterSteps_phase _ c

@[simp] theorem jobBoundary_phase (c : Chip) : (jobBoundary c).yard.phase = c.yard.phase := by
  unfold jobBoundary finishCancel
  (repeat' split) <;> simp [recordLast, dropJob, dropFlashReads, withdrawLine]

@[simp] theorem jobPresent_phase (c : Chip) : (jobPresent c).yard.phase = c.yard.phase := by
  unfold jobPresent
  (repeat' split) <;> simp [setUnitState]

@[simp] theorem censusBegin_phase (c : Chip) : (censusBegin c).yard.phase = c.yard.phase := by
  unfold censusBegin startCensus presentCensus
  (repeat' split) <;> simp

/-! ### The store (R105, R106) -/

@[simp] theorem presentFor_phase (k : StoreClient) (next : Chip → Option WaitingOp) (c : Chip) : (presentFor k next c).yard.phase = c.yard.phase := by
  unfold presentFor
  (repeat' split) <;> rfl

@[simp] theorem presentServer_phase (n : Nat) (c : Chip) : (presentServer n c).yard.phase = c.yard.phase := by
  induction n generalizing c with
  | zero => rfl
  | succ n ih =>
    unfold presentServer
    (repeat' split) <;> simp [ih]

@[simp] theorem presentPort_phase (c : Chip) : (presentPort c).yard.phase = c.yard.phase := by
  unfold presentPort
  (repeat' split) <;> rfl

@[simp] theorem presentAll_phase (c : Chip) : (presentAll c).yard.phase = c.yard.phase := by simp [presentAll]

@[simp] theorem grant_phase (w : WaitingOp) (c : Chip) : (grant w c).yard.phase = c.yard.phase := by
  unfold grant noteGrant answerGone flashReadGone cancelJob
  dsimp only
  split
  · split <;> rfl
  · split <;> simp

@[simp] theorem storeSteps_phase (n : Nat) (c : Chip) : (storeSteps n c).yard.phase = c.yard.phase := by
  induction n generalizing c with
  | zero => rfl
  | succ n ih =>
    unfold storeSteps
    split <;> simp [ih, grantTurn]

@[simp] theorem storeRound_phase (c : Chip) : (storeRound c).yard.phase = c.yard.phase := by simp [storeRound]

/-! ## Channel access -/

/-- Log 13. A pass up to the beginning of channel access. -/
def beforeAccess (c : Chip) : Chip :=
  watchLine (lineBegin (jobPresent (storeRound (unitArbiter (censusBegin (serveTake (runSelection (serveTake c))))))))

theorem settlePass_eq_wake (c : Chip) : settlePass c = accessWake (beforeAccess c) := rfl

@[simp] theorem beforeAccess_phase (c : Chip) : (beforeAccess c).yard.phase = c.yard.phase := by simp [beforeAccess]

/-- R81. Outside IDLE the procedure goes on by its own events alone. -/
theorem accessWake_of_busy {c : Chip} (h : c.yard.phase ≠ .idle) : accessWake c = c := by simp [accessWake, h]

theorem settlePass_phase {c : Chip} (h : c.yard.phase ≠ .idle) : (settlePass c).yard.phase = c.yard.phase := by
  rw [settlePass_eq_wake, accessWake_of_busy (by rwa [beforeAccess_phase]), beforeAccess_phase]

/-- R81. Settling leaves every phase but IDLE as it is. -/
theorem settle_phase {c : Chip} (h : c.yard.phase ≠ .idle) : (settle c).yard.phase = c.yard.phase := by
  have hpass := settlePass_phase h
  rw [settle, driveAttention_yard, settlePass_phase (hpass.trans_ne h), hpass]

end Sys2Proof.Machine
end

