-- ==== Sys2Proof/Proofs/ChannelAccess.lean ====
section
/-!
SUPPORT. The events of channel access, one equation per row of R81's table (R81, R82), and the obligation on them.
-/
namespace Sys2Proof.Machine

section
variable {c : Chip} {b e n : Nat}

/-! ## GAP and the slots (R81) -/

theorem gapElapsed_early (hend : c.yard.lastEnd = some e) (h : c.now < e + 5) : gapElapsed c = c := by
  simp [gapElapsed, hend, due, reached, Nat.not_le.mpr h]

theorem gapElapsed_passed (hphase : c.yard.phase = .gap) (hend : c.yard.lastEnd = some e) (h : e + 5 ≤ c.now) : gapElapsed c = enterDefer c := by
  simp [gapElapsed, hphase, hend, due, reached, h]

/-- A slot that has not passed, or in which the channel is busy, does not count. -/
theorem slot_open (h : c.now < b + 2 ∨ ¬c.pins.channelBusy = false) : (!reached c (b + 2) || c.pins.channelBusy) = true := by
  rcases h with h | h
  · simp [reached, h]
  · simp [Bool.not_eq_false _ ▸ h]

theorem slot_passed (h : b + 2 ≤ c.now) (hquiet : c.pins.channelBusy = false) : (!reached c (b + 2) || c.pins.channelBusy) = false := by
  simp [reached, h, hquiet]

theorem deferElapsed_open (hphase : c.yard.phase = .defer (some b)) (h : c.now < b + 2 ∨ ¬c.pins.channelBusy = false) : deferElapsed c = c := by
  simp only [deferElapsed, hphase, slot_open h, if_true]

/-- R81. After a quiet slot of DEFER: an opportunity at a count of 0, COUNTDOWN with any other. -/
theorem deferElapsed_passed (hphase : c.yard.phase = .defer (some b)) (h : b + 2 ≤ c.now) (hquiet : c.pins.channelBusy = false) :
    deferElapsed c =
      if drawCount c = 0 then opportunity { c with freeCount := c.freeCount + 1 }
      else { c with freeCount := c.freeCount + 1, yard.phase := .countdown (drawCount c) (b + 2) } := by
  simp only [deferElapsed, hphase, slot_passed h hquiet, Bool.false_eq_true, if_false]

theorem countdownElapsed_open (hphase : c.yard.phase = .countdown n b) (h : c.now < b + 2 ∨ ¬c.pins.channelBusy = false) : countdownElapsed c = c := by
  simp only [countdownElapsed, hphase, slot_open h, if_true]

/-- R81. After a quiet slot of COUNTDOWN. -/
theorem countdownElapsed_passed (hphase : c.yard.phase = .countdown n b) (h : b + 2 ≤ c.now) (hquiet : c.pins.channelBusy = false) :
    countdownElapsed c = if n ≤ 1 then opportunity c else { c with yard.phase := .countdown (n - 1) (b + 2) } := by
  simp only [countdownElapsed, hphase, slot_passed h hquiet, Bool.false_eq_true, if_false]

/-! ## The edges of channel-busy (R81, R82) -/

/-- R82. The phase after a rise. -/
def risen : AccessPhase → AccessPhase
  | .defer _ => .defer none
  | .countdown _ _ => .defer none
  | p => p

theorem busyRise_phase (c : Chip) : (busyRise c).yard.phase = risen c.yard.phase := by
  unfold busyRise
  dsimp only
  cases hphase : c.yard.phase <;> simp [hphase, risen]

theorem busyRise_standing (c : Chip) :
    standing (busyRise c) =
      { standing c with
        pins := { c.pins with channelBusy := true }
        cw := match c.yard.phase with | .countdown _ _ => min 64 (c.yard.cw * 2) | _ => c.yard.cw } := by
  unfold busyRise
  dsimp only
  cases c.yard.phase <;> rfl

/-- R81. The phase after a fall at local time `now`. -/
def fallen (now : Nat) : AccessPhase → AccessPhase
  | .defer none => .defer (some now)
  | p => p

theorem busyFall_phase (c : Chip) : (busyFall c).yard.phase = fallen c.now c.yard.phase := by
  unfold busyFall
  dsimp only
  split
  · next h => rw [h, fallen]
  · next h =>
    rw [fallen]
    exact h

theorem busyFall_standing (c : Chip) : standing (busyFall c) = { standing c with pins := { c.pins with channelBusy := false } } := by
  unfold busyFall
  dsimp only
  split <;> rfl

end

/-! ## Settling O24 -/

/-- R81, log 13. A phase other than IDLE that a command leaves stands through settling, as the standing part does. -/
theorem settle_access {d : Chip} {p : AccessPhase} {after : Standing} (hstanding : standing d = after) (hphase : d.yard.phase = p) (hbusy : p ≠ .idle) :
    standing (settle d) = after ∧ (settle d).yard.phase = p :=
  ⟨(settle_standing d).trans hstanding, (settle_phase (hphase.trans_ne hbusy)).trans hphase⟩

/-- The same for a command by its own effect `d`. -/
theorem exec_access {i : Instr} {s : State} {f : Chip → Chip} {d : Chip} {p : AccessPhase} {after : Standing} (hexec : exec i s = run f s)
    (h : f s.chip = d) (hstanding : standing d = after) (hphase : d.yard.phase = p) (hbusy : p ≠ .idle) :
    ∃ t, exec i s = .next t ∧ t.pending = s.pending ∧ standing t.chip = after ∧ t.chip.yard.phase = p :=
  ⟨_, exec_of_run hexec h, rfl, settle_access hstanding hphase hbusy⟩

/-- Settles O24, row by row of R81's table: the event's own equation, and then settling, which leaves the phases outside IDLE alone. -/
theorem channelAccessPhases : Obligations.ChannelAccessPhases := by
  unfold Obligations.ChannelAccessPhases
  rintro ⟨c, pending⟩
  dsimp only
  refine ⟨fun e hphase hend => ⟨fun h => ?_, fun h => ?_⟩, fun b hphase => ⟨fun h => ?_, fun h hquiet hcw => ?_⟩,
    fun n b hphase => ⟨fun h => ?_, fun h hquiet => ⟨fun hn => ?_, fun hn => ?_⟩⟩, ?_, ?_⟩
  · exact noEffect_of_run rfl (gapElapsed_early hend h)
  · exact exec_access rfl (gapElapsed_passed hphase hend h) rfl rfl AccessPhase.noConfusion
  · exact noEffect_of_run rfl (deferElapsed_open hphase h)
  · have hdrawn := deferElapsed_passed hphase h hquiet
    refine ⟨_, drawCount c, deferElapsed c, rfl, rfl, Nat.mod_lt _ hcw, fun hn => ?_, fun hn => ?_⟩
    · rw [hdrawn, if_neg hn]
      exact settle_access rfl rfl AccessPhase.noConfusion
    · rw [hdrawn, if_pos hn]
  · exact noEffect_of_run rfl (countdownElapsed_open hphase h)
  · have hcounted := countdownElapsed_passed hphase h hquiet
    rw [if_neg (Nat.not_le.mpr hn)] at hcounted
    exact exec_access rfl hcounted rfl rfl AccessPhase.noConfusion
  · have hcounted := countdownElapsed_passed hphase h hquiet
    rw [if_pos hn] at hcounted
    exact exec_of_run rfl hcounted
  · have hrise : ∀ {p}, risen c.yard.phase = p → p ≠ .idle → (settle (busyRise c)).yard.phase = p := fun hp hbusy =>
      (settle_access rfl ((busyRise_phase c).trans hp) hbusy).2
    refine ⟨_, rfl, rfl, (settle_standing _).trans (busyRise_standing c), fun m b q => ⟨fun hphase => ?_, fun hphase => ?_⟩⟩ <;> dsimp only
    · rcases hphase with h | h <;> exact hrise (by rw [h]; rfl) AccessPhase.noConfusion
    · rcases hphase with h | h <;> rw [h] <;> exact hrise (by rw [h]; rfl) AccessPhase.noConfusion
  · have hfall : ∀ {p}, fallen c.now c.yard.phase = p → p ≠ .idle → (settle (busyFall c)).yard.phase = p := fun hp hbusy =>
      (settle_access rfl ((busyFall_phase c).trans hp) hbusy).2
    refine ⟨_, rfl, rfl, (settle_standing _).trans (busyFall_standing c), fun hphase => ?_, fun m b q hphase => ?_⟩ <;> dsimp only
    · exact hfall (by rw [hphase]; rfl) AccessPhase.noConfusion
    · rcases hphase with h | h | h | h <;> rw [h] <;> exact hfall (by rw [h]; rfl) AccessPhase.noConfusion

end Sys2Proof.Machine
end

