-- ==== Sys2Proof/Proofs/TransmitOpportunity.lean ====
section
/-!
SUPPORT. The arbiter's choice at a transmit opportunity (R83, R87): the waiting Asks, then the later sources in their order, and the obligation on it.
-/
namespace Sys2Proof.Machine

section
variable {c : Chip} {i n : Nat} {f : OpenFetch}

theorem fits_iff {len : Nat} : fits c len = true ↔ c.yard.airtimeUsed + (len + 8) * 32 ≤ c.yard.allowance * 1000 := decide_eq_true_iff

/-! ## The waiting Asks (R48, R87) -/

/-- R48. The fetch slot's Ask has a block to name. -/
def hasMissing (c : Chip) (i : Nat) : Bool := match fetchSlot c i with | .opened f => missingMask c i f != 0#16 | _ => false

/-- R48. Nothing but the waiting Asks changed. -/
def withAsks (l : List Nat) (c : Chip) : Chip := { c with fetch.asks := l }

theorem takeAsk_of_missing (hf : fetchSlot c i = .opened f) (h : hasMissing c i = true) :
    takeAsk i c =
      some (sendScheduled (.ask i f.image f.segment f.peer f.base (missingMask c i f))
        (buildFrame c .ask (putAsk f.peer f.image f.segment f.base (missingMask c i f))) (withdrawAsk i c)) := by
  simp only [hasMissing, hf, bne_iff_ne] at h
  simp only [takeAsk, hf, if_neg h]

theorem takeAsk_of_none (h : hasMissing c i = false) : takeAsk i c = none := by
  unfold takeAsk
  split
  · next f hf =>
    simp only [hasMissing, hf, bne_eq_false_iff_eq] at h
    exact if_pos h
  · rfl

/-- R83. The first Ask with a missing block is sent, if an Ask fits. -/
theorem takeAsks_sends {is : List Nat} (hfits : fits c askLength = true) (hfirst : is.find? (hasMissing c) = some i) (hf : fetchSlot c i = .opened f)
    (l : List Nat) :
    ∃ l', takeAsks is (withAsks l c) =
      sendScheduled (.ask i f.image f.segment f.peer f.base (missingMask c i f))
        (buildFrame c .ask (putAsk f.peer f.image f.segment f.base (missingMask c i f))) (withAsks l' c) := by
  induction is generalizing l with
  | nil => cases hfirst
  | cons j js ih =>
    have hroom : fits (withAsks l c) askLength = true := hfits
    rw [takeAsks, hroom, Bool.not_true, if_neg Bool.false_ne_true]
    cases hj : hasMissing c j with
    | true =>
      obtain rfl : j = i := by simpa [hj] using hfirst
      rw [takeAsk_of_missing (c := withAsks l c) hf hj]
      exact ⟨_, rfl⟩
    | false =>
      rw [takeAsk_of_none (c := withAsks l c) hj]
      exact ih (by simpa [hj] using hfirst) _

/-- R83, R87. When no Ask can be sent, those without a missing block are withdrawn and the later sources are looked at. -/
theorem takeAsks_passes {is : List Nat} (h : fits c askLength = true → is.find? (hasMissing c) = none) (l : List Nat) :
    ∃ l', takeAsks is (withAsks l c) = takeLater (withAsks l' c) := by
  induction is generalizing l with
  | nil => exact ⟨l, rfl⟩
  | cons j js ih =>
    unfold takeAsks
    cases hroom : fits c askLength with
    | false => exact ⟨l, if_pos (by rw [show fits (withAsks l c) askLength = false from hroom]; rfl)⟩
    | true =>
      obtain ⟨hj, hrest⟩ : hasMissing c j = false ∧ js.find? (hasMissing c) = none := by
        have := h hroom
        rw [List.find?_cons] at this
        split at this <;> simp_all
      rw [show fits (withAsks l c) askLength = true from hroom, Bool.not_true, if_neg Bool.false_ne_true, takeAsk_of_none (c := withAsks l c) hj]
      exact ih (fun _ => hrest) _

/-! ## The later sources (R72, R87) -/

/-- R72. The READY serve slot offered. -/
theorem nextReady_eq_some_iff :
    nextReady c = some n ↔
      ∃ l₁ l₂, rotation c.serve.sendMark = l₁ ++ n :: l₂ ∧ (∃ e p bytes, serveSlot c (n - 1) = .ready e p bytes) ∧
        ∀ m ∈ l₁, ¬∃ e p bytes, serveSlot c (m - 1) = .ready e p bytes := by
  have hready : ∀ v : ServeSlot, isReady v = true ↔ ∃ e p bytes, v = .ready e p bytes := fun v => by cases v <;> simp [isReady]
  simp only [nextReady, List.find?_eq_some_iff_append, Bool.not_eq_true', ← hready, Bool.not_eq_true]
  constructor
  · rintro ⟨hn, l₁, l₂, hl, hbefore⟩
    exact ⟨l₁, l₂, hl, hn, hbefore⟩
  · rintro ⟨l₁, l₂, hl, hn, hbefore⟩
    exact ⟨hn, l₁, l₂, hl, hbefore⟩

theorem takeLater_block (hfits : fits c blockLength = true) (hn : nextReady c = some n) : takeLater c = takeBlock n c := by
  simp only [takeLater, hn, hfits, if_true]

theorem takeLater_other (h : fits c blockLength = true → nextReady c = none) : takeLater c = takeLater.takeOther c := by
  unfold takeLater
  split
  · next n hn => exact if_neg fun hfits => by simp [h hfits] at hn
  · rfl

theorem planEligible_iff :
    planEligible c = true ↔
      c.plans.relayPending = true ∧ c.plans.body ≠ [] ∧ c.yard.airtimeUsed + (12 + c.plans.body.length + 8) * 32 ≤ c.yard.allowance * 1000 := by
  simp [planEligible, fits_iff, planLength, and_assoc]

theorem takeOther_plan (h : planEligible c = true) :
    takeLater.takeOther c = sendScheduled (.plan (heldSerial c)) (buildFrame c .plan c.plans.body) c := if_pos h

theorem takeOther_offer {o : OfferBody} (h : ¬planEligible c = true) (ho : c.yard.roundOffer = some o) (hfits : fits c (offerLength o) = true) :
    takeLater.takeOther c = sendScheduled (.offer o) (buildFrame c .offer (putOffer o)) c := by
  simp only [takeLater.takeOther, if_neg h, ho, if_pos hfits]

theorem takeOther_none (h : ¬planEligible c = true) (ho : ∀ o, c.yard.roundOffer = some o → ¬fits c (offerLength o) = true) :
    takeLater.takeOther c = { c with yard.phase := .idle } := by
  rw [takeLater.takeOther, if_neg h]
  split
  · next o hoffer => exact if_neg (ho o hoffer)
  · rfl

end

/-- R83. With the urgent lane empty the Asks are looked at first. -/
theorem opportunity_scheduled {c : Chip} (hurgent : c.yard.urgent = []) (hmode : c.yard.mode = .on) : opportunity c = takeAsks c.fetch.asks c := by
  simp only [opportunity, hurgent, if_pos hmode]

/-- Settles O25, source by source in the scheduled order. -/
theorem opportunitySendsFirstFrame : Obligations.OpportunitySendsFirstFrame := by
  unfold Obligations.OpportunitySendsFirstFrame
  intro c
  dsimp only
  refine ⟨fun n => nextReady_eq_some_iff, fun f rest hurgent => ?_, fun hurgent hmode => ?_⟩
  · simp only [opportunity, hurgent]
    rfl
  · rw [opportunity_scheduled hurgent hmode]
    refine ⟨fun i f hleft hfirst hf => ?_, fun hasks => ?_⟩
    · obtain ⟨l, hsent⟩ := takeAsks_sends (fits_iff.mpr hleft) hfirst hf c.fetch.asks
      rw [show takeAsks c.fetch.asks c = _ from hsent]
      exact ⟨rfl, rfl, rfl⟩
    · obtain ⟨l, hpassed⟩ := takeAsks_passes (fun hfits => hasks (fits_iff.mp hfits)) c.fetch.asks
      rw [show takeAsks c.fetch.asks c = takeLater (withAsks l c) from hpassed]
      refine ⟨fun n e p bytes hleft hn hready => ?_, fun hnone => ?_⟩
      · have hblock : takeLater (withAsks l c) = takeBlock n (withAsks l c) := takeLater_block (fits_iff.mpr hleft) hn
        have hslot : serveSlot (withAsks l c) (n - 1) = .ready e p bytes := hready
        simp only [hblock, takeBlock, hslot]
        exact ⟨rfl, rfl, rfl, rfl⟩
      · rw [takeLater_other (c := withAsks l c) (fun hfits => hnone (fits_iff.mp hfits))]
        refine ⟨fun hpending hbody hleft => ?_, fun hplan => ⟨fun o ho hleft => ?_, fun ho => ?_⟩⟩
        · rw [takeOther_plan (c := withAsks l c) (planEligible_iff.mpr ⟨hpending, hbody, hleft⟩)]
          exact ⟨rfl, rfl, rfl⟩
        · rw [takeOther_offer (c := withAsks l c) (mt planEligible_iff.mp hplan) ho (fits_iff.mpr hleft)]
          exact ⟨rfl, rfl, rfl⟩
        · rw [takeOther_none (c := withAsks l c) (mt planEligible_iff.mp hplan) (fun o h hfits => ho o h (fits_iff.mp hfits))]
          exact ⟨rfl, rfl, rfl, rfl⟩

end Sys2Proof.Machine
end

