-- ==== Sys2Proof/Proofs/TransmissionEnds.lean ====
section
/-!
SUPPORT. The end of a transmission (R81, R84): the port's own fields, what each source does about it, and the obligation on both.
-/
namespace Sys2Proof.Machine

section
variable {c : Chip} {i : Nat} {k : ImageKey} {seg : Nat}

/-! ## The port (R81) -/

/-- R81. The port's own fields as a transmission ends. -/
def transmissionOver (c : Chip) : Chip := { c with yard := { c.yard with phase := .idle, cw := 8, lastEnd := some c.now, onAir := none } }

theorem transmissionEnds_of_onAir {a : OnAir} (h : c.yard.onAir = some a) : transmissionEnds c = tellSource a.source (transmissionOver c) := by
  simp only [transmissionEnds, h, transmissionOver]

/-- R81. Less than 5 ms after a transmission's end the procedure leaves IDLE for GAP alone. -/
theorem accessWake_recent (hidle : c.yard.phase = .idle) (hend : c.yard.lastEnd = some c.now) :
    (accessWake c).yard.phase = .idle ∨ (accessWake c).yard.phase = .gap := by
  have hrecent : reached c (c.now + 5) = false := decide_eq_false (by omega)
  unfold accessWake
  split
  · simp only [hend, hrecent, Bool.false_eq_true, if_false, or_true]
  · exact .inl hidle

theorem beforeAccess_times (c : Chip) : (beforeAccess c).yard.lastEnd = c.yard.lastEnd ∧ (beforeAccess c).now = c.now := by simp [beforeAccess]

theorem settlePass_recent (hidle : c.yard.phase = .idle) (hend : c.yard.lastEnd = some c.now) :
    (settlePass c).yard.phase = .idle ∨ (settlePass c).yard.phase = .gap := by
  obtain ⟨hlastEnd, hnow⟩ := beforeAccess_times c
  rw [settlePass_eq_wake]
  exact accessWake_recent ((beforeAccess_phase c).trans hidle) (by rw [hlastEnd, hnow, hend])

/-- R81. After the end of a transmission the procedure is in IDLE, or at once in GAP. -/
theorem settle_recent (hidle : c.yard.phase = .idle) (hend : c.yard.lastEnd = some c.now) :
    (settle c).yard.phase = .idle ∨ (settle c).yard.phase = .gap := by
  rw [settle, driveAttention_yard]
  rcases settlePass_recent hidle hend with h | h
  · exact settlePass_recent h (by simp [hend])
  · exact .inr ((settlePass_phase (h.trans_ne AccessPhase.noConfusion)).trans h)

/-! ## The sources (R48, R72, R84) -/

theorem askSent_standing (i : Nat) (k : ImageKey) (seg peer base : Nat) (mask : BitVec 16) (c : Chip) :
    standing (askSent i k seg peer base mask c) = standing c := by
  unfold askSent
  (repeat' split) <;> rfl

/-- R48. An open fetch whose Ask has been sent: the latest Ask is noted, and the timer and the window's start are set. -/
def askedAt (now : Nat) (waits : Prop) [Decidable waits] (base : Nat) (mask : BitVec 16) (f : OpenFetch) : OpenFetch :=
  { f with
    lastAsk := some (base, mask)
    timer := if waits then none else some (now + 400)
    windowStart := some (f.windowStart.getD now)
    accepted := if f.windowStart.isSome then f.accepted else 0 }

theorem askSent_of_held {f : OpenFetch} (hf : fetchSlot c i = .opened f) (mask : BitVec 16) :
    fetchSlot (askSent i f.image f.segment f.peer f.base mask c) i = .opened (askedAt c.now (i ∈ c.fetch.asks) f.base mask f) := by
  have hsent : askSent i f.image f.segment f.peer f.base mask c = setFetchSlot i (.opened (askedAt c.now (i ∈ c.fetch.asks) f.base mask f)) c := by
    simp [askSent, hf, askedAt, askWaits]
  rw [hsent]
  exact fetchSlot_setFetchSlot (fetchSlot_opened_lt hf) _

theorem askSent_of_gone {peer base : Nat} (h : ∀ f, fetchSlot c i = .opened f → ¬(f.image = k ∧ f.segment = seg ∧ f.peer = peer ∧ f.base = base))
    (mask : BitVec 16) : askSent i k seg peer base mask c = c := by
  unfold askSent
  split
  · next f hf => exact if_neg (by simpa [and_assoc] using h f hf)
  · rfl

theorem blockSent_standing (i asker : Nat) (k : ImageKey) (seg : Nat) (c : Chip) : standing (blockSent i asker k seg c) = standing c := by
  unfold blockSent
  (repeat' split) <;> rfl

/-- R72, R74. The slot that still serves the asker goes on to its next block, or becomes FREE. -/
theorem blockSent_of_held {e : AskEntry} (he : serveSlot c i = .sending e) (hi : i < c.serve.slots.length) :
    serveSlot (blockSent i e.asker e.image e.segment c) i =
      if e.mask = 0#16 ∨ askerDeparting c e.asker = true then .free else startReading e := by
  have hset : ∀ v, serveSlot (setServeSlot i v c) i = v := fun v => (serveSlot_of_set (c := c) rfl hi i).trans (if_pos rfl)
  simp only [blockSent, he, decide_true, Bool.and_self, if_true, Bool.or_eq_true, decide_eq_true_eq]
  split <;> exact hset _

theorem blockSent_of_gone {asker : Nat} (h : ∀ e, serveSlot c i = .sending e → ¬(e.asker = asker ∧ e.image = k ∧ e.segment = seg)) :
    blockSent i asker k seg c = c := by
  unfold blockSent
  split
  · next e he => exact if_neg (by simpa [and_assoc] using h e he)
  · rfl

/-- R84. No source touches the phase or the times of the port. -/
theorem tellSource_keeps (a : TxSource) (c : Chip) :
    (tellSource a c).yard.phase = c.yard.phase ∧ (tellSource a c).yard.lastEnd = c.yard.lastEnd ∧ (tellSource a c).now = c.now := by
  unfold tellSource askSent blockSent
  (repeat' split) <;> exact ⟨rfl, rfl, rfl⟩

end

/-- R84. A Plan's end clears relay pending while its serial is held. -/
theorem planSent_standing (serial : Nat) (c : Chip) :
    standing (tellSource (.plan serial) c) =
      { standing c with plans := { c.plans with relayPending := c.plans.relayPending && decide (heldSerial c ≠ serial) } } := by
  unfold tellSource
  dsimp only
  split
  · next h => simp [h, standing]
  · next h => simp [h, standing]

theorem offerSent_standing (o : OfferBody) (c : Chip) :
    standing (tellSource (.offer o) c) = { standing c with roundOffer := if c.yard.roundOffer = some o then none else c.yard.roundOffer } := by
  unfold tellSource
  dsimp only
  split <;> rfl

/-- Settles O26, source by source; settling leaves the standing part and the open fetches alone. -/
theorem transmissionEndTold : Obligations.TransmissionEndTold := by
  unfold Obligations.TransmissionEndTold
  rintro ⟨c, pending⟩
  dsimp only
  refine ⟨fun h => noEffect_of_run rfl (by simp only [transmissionEnds, h]), ?_⟩
  rintro ⟨source, bytes⟩ hair
  have hends := transmissionEnds_of_onAir hair
  obtain ⟨hphase, hlastEnd, hnow⟩ := tellSource_keeps source (transmissionOver c)
  refine ⟨_, tellSource source (transmissionOver c), exec_of_run rfl hends, rfl, hphase,
    settle_recent hphase (hlastEnd.trans (congrArg some hnow.symm)), ?_⟩
  dsimp only
  cases source with
  | ask i k seg peer base mask =>
    refine ⟨(settle_standing _).trans (askSent_standing ..), ?_, fun h => ?_⟩
    · rintro f hf rfl rfl rfl rfl
      exact (settle_keepsOpen _ i _ (askSent_of_held (c := transmissionOver c) hf mask)).1
    · rw [tellSource, askSent_of_gone (c := transmissionOver c) h]
      rfl
  | block i asker k seg =>
    refine ⟨(settle_standing _).trans (blockSent_standing ..), ?_, fun h => ?_⟩
    · rintro e hi he rfl rfl rfl
      have hslot := blockSent_of_held (c := transmissionOver c) he hi
      refine ⟨fun h => hslot.trans (if_pos h), fun hmask hstays => ?_⟩
      have hgoes : ¬(e.mask = 0#16 ∨ askerDeparting (transmissionOver c) e.asker = true) := fun h =>
        h.elim hmask fun hdeparting => Bool.false_ne_true (hstays.symm.trans hdeparting)
      obtain ⟨p, hp, hmark, hbefore, hreads⟩ := startReading_reads hmask
      exact ⟨p, hp, hmark, hbefore, (hslot.trans (if_neg hgoes)).trans hreads⟩
    · rw [tellSource, blockSent_of_gone (c := transmissionOver c) h]
      rfl
  | plan serial => exact (settle_standing _).trans (planSent_standing ..)
  | offer o => exact (settle_standing _).trans (offerSent_standing ..)
  | leave => exact settle_standing _
  | untold => exact settle_standing _

end Sys2Proof.Machine
end

