-- ==== Sys2Proof/Proofs/WindowKept.lean ====
section
/-!
SUPPORT. The operations that leave the allowance window and its allowance alone (R88): all but the opening of a window and a start.
-/
namespace Sys2Proof.Machine

/-- The second chip has the allowance window of the first, with its allowance. -/
abbrev SameWindow (c d : Chip) : Prop := d.yard.windowOpen = c.yard.windowOpen ∧ d.yard.allowance = c.yard.allowance

theorem SameWindow.refl (c : Chip) : SameWindow c c := ⟨rfl, rfl⟩

theorem SameWindow.trans {c d e : Chip} (h : SameWindow c d) (k : SameWindow d e) : SameWindow c e := ⟨k.1.trans h.1, k.2.trans h.2⟩

theorem SameWindow.of_stands {c d : Chip} (h : Stands c d) : SameWindow c d := by simp [SameWindow, h]

/-- A standing part that differs in the load alone has the same window. -/
theorem SameWindow.of_load {c d : Chip} (h : StandsButLoad c d) : SameWindow c d := ⟨congrArg Standing.windowOpen h, congrArg Standing.allowance h⟩

theorem forEach_window {α : Type} {f : α → Chip → Chip} {xs : List α} (h : ∀ x c, SameWindow c (f x c)) (c : Chip) : SameWindow c (forEach xs f c) :=
  forEach_keeps SameWindow.refl SameWindow.trans (fun x _ c => h x c) c

/-! ## Units and their targets (R138 to R141) -/

@[simp] theorem noticeChanged_window (c : Chip) : SameWindow c (noticeChanged c) := ⟨rfl, rfl⟩

@[simp] theorem selectUnits_window (c : Chip) : SameWindow c (selectUnits c) := forEach_window (fun a c => by simp [SameWindow]) c

/-! ## Peers (R20 to R34) -/

@[simp] theorem giveSample_window (id bytes elapsed : Nat) (c : Chip) : SameWindow c (giveSample id bytes elapsed c) := by
  unfold giveSample
  (repeat' split) <;> simp [SameWindow]

@[simp] theorem withdrawSegment_window (id : Nat) (k : ImageKey) (seg : Nat) (c : Chip) : SameWindow c (withdrawSegment id k seg c) := by
  simp [withdrawSegment, SameWindow]

@[simp] theorem withdrawImage_window (id : Nat) (k : ImageKey) (c : Chip) : SameWindow c (withdrawImage id k c) := by
  simp [withdrawImage, SameWindow]

@[simp] theorem recordBeacon_window (sender depth : Nat) (c : Chip) : SameWindow c (recordBeacon sender depth c) := ⟨rfl, rfl⟩

/-! ## Store slots and the urgent lane (R85, R101 to R104) -/

@[simp] theorem retire_window (slot detail : Nat) (c : Chip) : SameWindow c (retire slot detail c) := ⟨rfl, rfl⟩

@[simp] theorem finishRelease_window (slot : Nat) (c : Chip) : SameWindow c (finishRelease slot c) := by
  unfold finishRelease
  (repeat' split) <;> simp [SameWindow]

/-! ## The catalog and the round (R14 to R17, R91) -/

@[simp] theorem completeIfHeld_window (k : ImageKey) (c : Chip) : SameWindow c (completeIfHeld k c) := by
  unfold completeIfHeld
  dsimp only
  (repeat' split) <;> simp [SameWindow]

@[simp] theorem takeManifest_window (k : ImageKey) (slot : Nat) (m : Manifest) (c : Chip) : SameWindow c (takeManifest k slot m c) := by
  simp [takeManifest, SameWindow]

@[simp] theorem rejectManifest_window (k : ImageKey) (slot reason : Nat) (c : Chip) : SameWindow c (rejectManifest k slot reason c) := by
  simp [rejectManifest, SameWindow]

@[simp] theorem holdSegment_window (k : ImageKey) (seg slot : Nat) (c : Chip) : SameWindow c (holdSegment k seg slot c) := by
  unfold holdSegment
  dsimp only
  (repeat' split) <;> simp [SameWindow]

@[simp] theorem buildRoundOffer_window (c : Chip) : SameWindow c (buildRoundOffer c) := by
  unfold buildRoundOffer
  (repeat' split) <;> simp [SameWindow]

/-! ## Fetches (R38 to R61) -/

@[simp] theorem failFetch_window (i detail : Nat) (f : OpenFetch) (c : Chip) : SameWindow c (failFetch i detail f c) := by
  simp [failFetch, SameWindow]

@[simp] theorem switchFetch_window (i : Nat) (c : Chip) : SameWindow c (switchFetch i c) := by
  unfold switchFetch
  (repeat' split) <;> simp [SameWindow]

@[simp] theorem demandSwitch_window (i : Nat) (owes : Bool) (c : Chip) : SameWindow c (demandSwitch i owes c) := by
  unfold demandSwitch
  (repeat' split) <;> simp [SameWindow]

@[simp] theorem switchAway_window (peer : Nat) (c : Chip) : SameWindow c (switchAway peer c) :=
  forEach_window (fun i c => by split <;> simp [SameWindow]) c

@[simp] theorem endWindow_window (i : Nat) (c : Chip) : SameWindow c (endWindow i c) := by
  unfold endWindow
  dsimp only
  (repeat' split) <;> simp [SameWindow]

@[simp] theorem blockAt_window (sender : Nat) (b : BlockBody) (i : Nat) (c : Chip) : SameWindow c (blockAt sender b i c) := by
  unfold blockAt
  (repeat' split) <;> simp [SameWindow]

@[simp] theorem onBlock_window (sender : Nat) (b : BlockBody) (c : Chip) : SameWindow c (onBlock sender b c) :=
  forEach_window (fun i c => blockAt_window sender b i c) c

@[simp] theorem windowSample_window (f : OpenFetch) (c : Chip) : SameWindow c (windowSample f c) := by
  unfold windowSample
  (repeat' split) <;> simp [SameWindow]

@[simp] theorem enterCheck_window (i : Nat) (f : OpenFetch) (c : Chip) : SameWindow c (enterCheck i f c) := ⟨rfl, rfl⟩

@[simp] theorem completeWindow_window (i : Nat) (c : Chip) : SameWindow c (completeWindow i c) := by
  unfold completeWindow
  (repeat' split) <;> simp [SameWindow]

@[simp] theorem blockProgrammed_window (i b : Nat) (c : Chip) : SameWindow c (blockProgrammed i b c) := by
  unfold blockProgrammed
  dsimp only
  (repeat' split) <;> simp [SameWindow]

theorem onReply_window {effect : Chip → Chip} (h : ∀ c, SameWindow c (effect c)) (sender asker : Nat) (k : ImageKey) (seg : Nat) (c : Chip) :
    SameWindow c (onReply effect sender asker k seg c) := by
  unfold onReply
  split
  exacts [(h c).trans (demandSwitch_window _ _ _), .refl c]

@[simp] theorem askSent_window (i : Nat) (k : ImageKey) (seg peer base : Nat) (mask : BitVec 16) (c : Chip) :
    SameWindow c (askSent i k seg peer base mask c) := by
  unfold askSent
  (repeat' split) <;> simp [SameWindow]

@[simp] theorem departFetch_window (i : Nat) (c : Chip) : SameWindow c (departFetch i c) := by
  unfold departFetch
  (repeat' split) <;> simp [SameWindow]

@[simp] theorem departCheck_window (q : CheckRequest) (c : Chip) : SameWindow c (departCheck q c) := by
  unfold departCheck
  (repeat' split) <;> simp [SameWindow]

@[simp] theorem departFetches_window (c : Chip) : SameWindow c (departFetches c) :=
  SameWindow.trans (forEach_window (fun i c => departFetch_window i c) c)
    (forEach_window (f := departCheck) (fun q c => departCheck_window q c) { forEach [0, 1, 2, 3] departFetch c with store.checkQueue := _ })

/-! ## Serving and a frame's sender (R21, R62 to R75) -/

@[simp] theorem dropQueued_window (e : AskEntry) (c : Chip) : SameWindow c (dropQueued e c) := ⟨rfl, rfl⟩

@[simp] theorem replaceInSlot_window (i : Nat) (e : AskEntry) (c : Chip) : SameWindow c (replaceInSlot i e c) := by
  unfold replaceInSlot
  (repeat' split) <;> simp [SameWindow]

@[simp] theorem answerAsk_window (e : AskEntry) (c : Chip) : SameWindow c (answerAsk e c) := by
  unfold answerAsk
  (repeat' split) <;> simp [SameWindow]

@[simp] theorem onAsk_window (server : Nat) (e : AskEntry) (c : Chip) : SameWindow c (onAsk server e c) := by
  unfold onAsk
  (repeat' split) <;> simp [SameWindow]

@[simp] theorem serveReadDone_window (i : Nat) (bytes : List Byte) (c : Chip) : SameWindow c (serveReadDone i bytes c) := by
  unfold serveReadDone
  (repeat' split) <;> simp [SameWindow]

@[simp] theorem blockSent_window (i asker : Nat) (k : ImageKey) (seg : Nat) (c : Chip) : SameWindow c (blockSent i asker k seg c) := by
  unfold blockSent
  (repeat' split) <;> simp [SameWindow]

@[simp] theorem suspendServing_window (c : Chip) : SameWindow c (suspendServing c) := ⟨rfl, rfl⟩

@[simp] theorem announceDeparture_window (id : Nat) (c : Chip) : SameWindow c (announceDeparture id c) := by
  unfold announceDeparture
  (repeat' split) <;> simp [SameWindow]

@[simp] theorem presence_window (f : RxFrame) (c : Chip) : SameWindow c (presence f c) := by
  unfold presence
  (repeat' split) <;> simp [SameWindow]

/-! ## The cabin line (R113 to R125) -/

@[simp] theorem discardLine_window (client : LineClient) (address : Nat) (c : Chip) : SameWindow c (discardLine client address c) := ⟨rfl, rfl⟩

@[simp] theorem lineQuiet_window (c : Chip) : SameWindow c (lineQuiet c) := ⟨rfl, rfl⟩

@[simp] theorem closeRecovery_window (c : Chip) : SameWindow c (closeRecovery c) := by
  unfold closeRecovery
  (repeat' split) <;> simp [SameWindow]

@[simp] theorem wireChange_window (clock data : Bool) (c : Chip) : SameWindow c (wireChange clock data c) := by
  unfold wireChange
  dsimp only
  (repeat' split) <;> simp [SameWindow]

@[simp] theorem quietElapsed_window (c : Chip) : SameWindow c (quietElapsed c) := by
  unfold quietElapsed
  (repeat' split) <;> simp [SameWindow]

@[simp] theorem leaveLine_window (steps : List LineStep) (c : Chip) : SameWindow c (leaveLine steps c) := ⟨rfl, rfl⟩

@[simp] theorem abandonLine_window (c : Chip) : SameWindow c (abandonLine c) := ⟨rfl, rfl⟩

@[simp] theorem loseLine_window (q : CurrentRequest) (c : Chip) : SameWindow c (loseLine q c) := ⟨rfl, rfl⟩

@[simp] theorem reportLineFault_window (address : Nat) (wire : Wire) (c : Chip) : SameWindow c (reportLineFault address wire c) := ⟨rfl, rfl⟩

@[simp] theorem recoverLine_window (c : Chip) : SameWindow c (recoverLine c) := ⟨rfl, rfl⟩

@[simp] theorem reportStuck_window (c : Chip) : SameWindow c (reportStuck c) := by
  unfold reportStuck
  (repeat' split) <;> simp [SameWindow]

/-! ## The flashing job (R142 to R156) -/

@[simp] theorem takeIdentity_window (address : Nat) (r : Identity) (c : Chip) : SameWindow c (takeIdentity address r c) := by
  unfold takeIdentity
  (repeat' split) <;> simp [SameWindow]

@[simp] theorem flashReadDone_window (packet : Nat) (raw : List Byte) (c : Chip) : SameWindow c (flashReadDone packet raw c) := ⟨rfl, rfl⟩

@[simp] theorem failJob_window (j : JobRecord) (r : FailReason) (c : Chip) : SameWindow c (failJob j r c) := by
  simp [failJob, SameWindow]

@[simp] theorem failAttempt_window (j : JobRecord) (r : FailReason) (c : Chip) : SameWindow c (failAttempt j r c) := by
  unfold failAttempt
  dsimp only
  (repeat' split) <;> simp [SameWindow]

@[simp] theorem finishStop_window (j : JobRecord) (c : Chip) : SameWindow c (finishStop j c) := by
  unfold finishStop
  (repeat' split) <;> simp [SameWindow]

@[simp] theorem replanJob_window (c : Chip) : SameWindow c (replanJob c) := by
  unfold replanJob
  (repeat' split) <;> simp [SameWindow]

@[simp] theorem stopFlashing_window (c : Chip) : SameWindow c (stopFlashing c) := by
  unfold stopFlashing
  (repeat' split) <;> simp [SameWindow]

@[simp] theorem enterProbation_window (j : JobRecord) (c : Chip) : SameWindow c (enterProbation j c) := ⟨rfl, rfl⟩

@[simp] theorem beginPackets_window (j : JobRecord) (r : Identity) (c : Chip) : SameWindow c (beginPackets j r c) := ⟨rfl, rfl⟩

@[simp] theorem identifyDone_window (j : JobRecord) (bytes : List Byte) (c : Chip) : SameWindow c (identifyDone j bytes c) := by
  unfold identifyDone
  (repeat' split) <;> simp [SameWindow]

@[simp] theorem packetDone_window (j : JobRecord) (command : CabinCommand) (bytes : List Byte) (c : Chip) : SameWindow c (packetDone j command bytes c) := by
  unfold packetDone
  (repeat' split) <;> simp [SameWindow]

@[simp] theorem retryOrFail_window (j : JobRecord) (r : FailReason) (c : Chip) : SameWindow c (retryOrFail j r c) := by
  unfold retryOrFail
  (repeat' split) <;> simp [SameWindow]

@[simp] theorem pauseOrFail_window (j : JobRecord) (c : Chip) : SameWindow c (pauseOrFail j c) := by
  unfold pauseOrFail
  (repeat' split) <;> simp [SameWindow]

@[simp] theorem plainOutcome_window (j : JobRecord) (command : CabinCommand) (o : LineOutcome) (c : Chip) : SameWindow c (plainOutcome j command o c) := by
  unfold plainOutcome
  (repeat' split) <;> simp [SameWindow]

@[simp] theorem noteCompleted_window (j : JobRecord) (command : CabinCommand) (o : LineOutcome) (c : Chip) : SameWindow c (noteCompleted j command o c) := by
  unfold noteCompleted
  (repeat' split) <;> simp [SameWindow]

@[simp] theorem jobOutcome_window (command : CabinCommand) (o : LineOutcome) (c : Chip) : SameWindow c (jobOutcome command o c) := by
  unfold jobOutcome
  (repeat' split) <;> simp [SameWindow]

@[simp] theorem jobPauseEnd_window (c : Chip) : SameWindow c (jobPauseEnd c) := by
  unfold jobPauseEnd
  (repeat' split) <;> simp [SameWindow]

/-! ## Probation (R157 to R162) -/

@[simp] theorem dropProbation_window (address : Nat) (c : Chip) : SameWindow c (dropProbation address c) := ⟨rfl, rfl⟩

@[simp] theorem presentProbation_window (address : Nat) (k : ProbationRequest) (c : Chip) : SameWindow c (presentProbation address k c) := by
  simp [presentProbation, SameWindow]

@[simp] theorem pollDue_window (address : Nat) (c : Chip) : SameWindow c (pollDue address c) := by
  unfold pollDue
  (repeat' split) <;> simp [SameWindow]

@[simp] theorem finalDue_window (address : Nat) (c : Chip) : SameWindow c (finalDue address c) := by
  unfold finalDue
  (repeat' split) <;> simp [SameWindow]

@[simp] theorem repeatDue_window (address : Nat) (c : Chip) : SameWindow c (repeatDue address c) := by
  unfold repeatDue
  (repeat' split) <;> simp [SameWindow]

@[simp] theorem afterPoll_window (address : Nat) (c : Chip) : SameWindow c (afterPoll address c) := by
  unfold afterPoll
  (repeat' split) <;> simp [SameWindow]

@[simp] theorem repeatLater_window (address : Nat) (k : ProbationRequest) (c : Chip) : SameWindow c (repeatLater address k c) := ⟨rfl, rfl⟩

@[simp] theorem endRolledBack_window (address reason : Nat) (c : Chip) : SameWindow c (endRolledBack address reason c) := by
  simp [endRolledBack, SameWindow]

@[simp] theorem endDone_window (address : Nat) (c : Chip) : SameWindow c (endDone address c) := by
  simp [endDone, SameWindow]

@[simp] theorem endUnreachable_window (address : Nat) (c : Chip) : SameWindow c (endUnreachable address c) := by
  simp [endUnreachable, SameWindow]

@[simp] theorem endConfirmed_window (address : Nat) (new : Bank) (c : Chip) : SameWindow c (endConfirmed address new c) := by
  simp [endConfirmed, SameWindow]

@[simp] theorem setActive_window (address : Nat) (k : Bank) (c : Chip) : SameWindow c (setActive address k c) := ⟨rfl, rfl⟩

@[simp] theorem afterUnanswered_window (address : Nat) (k : ProbationRequest) (c : Chip) : SameWindow c (afterUnanswered address k c) := by
  unfold afterUnanswered
  (repeat' split) <;> simp [SameWindow]

@[simp] theorem unansweredRequest_window (p : ProbationRecord) (k : ProbationRequest) (c : Chip) : SameWindow c (unansweredRequest p k c) := by
  unfold unansweredRequest
  (repeat' split) <;> simp [SameWindow]

@[simp] theorem actOnVerdict_window (p : ProbationRecord) (v : HealthVerdict) (c : Chip) : SameWindow c (actOnVerdict p v c) := by
  unfold actOnVerdict
  (repeat' split) <;> simp [SameWindow]

@[simp] theorem healthDone_window (p : ProbationRecord) (k : ProbationRequest) (bytes : List Byte) (c : Chip) : SameWindow c (healthDone p k bytes c) := by
  unfold healthDone
  dsimp only
  (repeat' split) <;> simp [SameWindow]

@[simp] theorem confirmDone_window (p : ProbationRecord) (bytes : List Byte) (c : Chip) : SameWindow c (confirmDone p bytes c) := by
  unfold confirmDone
  (repeat' split) <;> simp [SameWindow]

@[simp] theorem probationDone_window (p : ProbationRecord) (k : ProbationRequest) (bytes : List Byte) (c : Chip) :
    SameWindow c (probationDone p k bytes c) := by
  unfold probationDone
  (repeat' split) <;> simp [SameWindow]

@[simp] theorem probationOutcome_window (address : Nat) (o : LineOutcome) (c : Chip) : SameWindow c (probationOutcome address o c) := by
  unfold probationOutcome
  (repeat' split) <;> simp [SameWindow]

/-! ## Plans, admission and loads (R4 to R13, R188) -/

@[simp] theorem presentPiece_window (body : List Byte) (position i : Nat) (c : Chip) : SameWindow c (presentPiece body position i c) := ⟨rfl, rfl⟩

@[simp] theorem startPersist_window (c : Chip) : SameWindow c (startPersist c) := by
  unfold startPersist
  (repeat' split) <;> simp [SameWindow]

@[simp] theorem persistRequest_window (c : Chip) : SameWindow c (persistRequest c) := by
  unfold persistRequest
  (repeat' split) <;> simp [SameWindow]

@[simp] theorem persistEnded_window (written : Nat) (c : Chip) : SameWindow c (persistEnded written c) := by
  unfold persistEnded
  dsimp only
  (repeat' split) <;> simp [SameWindow]

@[simp] theorem pieceProgrammed_window (c : Chip) : SameWindow c (pieceProgrammed c) := by
  unfold pieceProgrammed
  (repeat' split) <;> simp [SameWindow]

@[simp] theorem copyErased_window (c : Chip) : SameWindow c (copyErased c) := by
  unfold copyErased
  (repeat' split) <;> simp [SameWindow]

@[simp] theorem copyFailed_window (detail : Nat) (c : Chip) : SameWindow c (copyFailed detail c) := by
  unfold copyFailed
  (repeat' split) <;> simp [SameWindow]

@[simp] theorem endLoad_window (l : Load) (detail : Nat) (c : Chip) : SameWindow c (endLoad l detail c) := ⟨rfl, rfl⟩

@[simp] theorem applyAdmission_window (admitted : List Admitted) (c : Chip) : SameWindow c (applyAdmission admitted c) :=
  .of_load (applyAdmission_standsButLoad admitted c)

@[simp] theorem takeIn_window (order : List Admitted) (c : Chip) : SameWindow c (takeIn order c) := by
  simp [takeIn, SameWindow]

@[simp] theorem admission_window (c : Chip) : SameWindow c (admission c) := by
  simp [admission, SameWindow]

@[simp] theorem startAdmission_window (c : Chip) : SameWindow c (startAdmission c) := by
  unfold startAdmission
  (repeat' split) <;> simp [SameWindow]

@[simp] theorem replanUnits_window (c : Chip) : SameWindow c (replanUnits c) := by
  simp [replanUnits, SameWindow]

@[simp] theorem adoptPlan_window (body : List Byte) (c : Chip) : SameWindow c (adoptPlan body c) := by
  simp [adoptPlan, SameWindow]

@[simp] theorem onPlan_window (originFlag : Bool) (payload : List Byte) (c : Chip) : SameWindow c (onPlan originFlag payload c) := by
  unfold onPlan
  (repeat' split) <;> simp [SameWindow]

@[simp] theorem compareSerial_window (f : RxFrame) (c : Chip) : SameWindow c (compareSerial f c) := by
  unfold compareSerial
  (repeat' split) <;> simp [SameWindow]

@[simp] theorem onPlanAsk_window (named : Nat) (c : Chip) : SameWindow c (onPlanAsk named c) := by
  unfold onPlanAsk
  (repeat' split) <;> simp [SameWindow]

@[simp] theorem spoilPlanProgram_window (position piece len : Nat) (c : Chip) : SameWindow c (spoilPlanProgram position piece len c) := by
  unfold spoilPlanProgram
  dsimp only
  (repeat' split) <;> simp [SameWindow]

@[simp] theorem spoilPlanErase_window (c : Chip) : SameWindow c (spoilPlanErase c) := by
  unfold spoilPlanErase
  dsimp only
  (repeat' split) <;> simp [SameWindow]

@[simp] theorem reportRestored_window (copies : List (List Byte)) (c : Chip) : SameWindow c (reportRestored copies c) := by
  unfold reportRestored
  (repeat' split) <;> simp [SameWindow]

@[simp] theorem restorePlan_window (c : Chip) : SameWindow c (restorePlan c) := by
  simp [restorePlan, SameWindow]

/-! ## The census and the outcomes handed over (R119, R132 to R136) -/

@[simp] theorem abandonCensus_window (detail : Nat) (c : Chip) : SameWindow c (abandonCensus detail c) := ⟨rfl, rfl⟩

@[simp] theorem departCensus_window (c : Chip) : SameWindow c (departCensus c) := by
  unfold departCensus
  (repeat' split) <;> simp [SameWindow]

@[simp] theorem endLostProbations_window (units : List UnitEntry) (c : Chip) : SameWindow c (endLostProbations units c) :=
  forEach_window (fun a c => dropProbation_window a c) c

@[simp] theorem reportOverflow_window (l : List (Nat × Identity)) (c : Chip) : SameWindow c (reportOverflow l c) := by
  unfold reportOverflow
  (repeat' split) <;> simp [SameWindow]

@[simp] theorem completeCensus_window (c : Chip) : SameWindow c (completeCensus c) := by
  simp [completeCensus, SameWindow]

@[simp] theorem surveyNext_window (c : Chip) : SameWindow c (surveyNext c) := by
  unfold surveyNext
  (repeat' split) <;> simp [SameWindow]

@[simp] theorem reportIdentity_window (detail : Nat) (c : Chip) : SameWindow c (reportIdentity detail c) := ⟨rfl, rfl⟩

@[simp] theorem censusOutcome_window (o : LineOutcome) (c : Chip) : SameWindow c (censusOutcome o c) := by
  unfold censusOutcome
  dsimp only
  (repeat' split) <;> simp [SameWindow]

@[simp] theorem censusPauseEnd_window (c : Chip) : SameWindow c (censusPauseEnd c) := by
  unfold censusPauseEnd
  (repeat' split) <;> simp [SameWindow]

@[simp] theorem deliver_window (q : CurrentRequest) (o : LineOutcome) (c : Chip) : SameWindow c (deliver q o c) := by
  unfold deliver
  (repeat' split) <;> simp [SameWindow]

@[simp] theorem transactionEnds_window (nak : Option Nat) (received : List Byte) (c : Chip) : SameWindow c (transactionEnds nak received c) := by
  unfold transactionEnds
  (repeat' split) <;> simp [SameWindow]

@[simp] theorem arbitrationLoss_window (c : Chip) : SameWindow c (arbitrationLoss c) := by
  unfold arbitrationLoss
  (repeat' split) <;> simp [SameWindow]

@[simp] theorem lineFault_window (wire : Wire) (c : Chip) : SameWindow c (lineFault wire c) := by
  unfold lineFault
  (repeat' split) <;> simp [SameWindow]

@[simp] theorem holdTimeout_window (heldMs : Nat) (c : Chip) : SameWindow c (holdTimeout heldMs c) := by
  unfold holdTimeout
  (repeat' split) <;> simp [SameWindow]

@[simp] theorem recovered_window (c : Chip) : SameWindow c (recovered c) := by
  unfold recovered
  (repeat' split) <;> simp [SameWindow]

/-! ## The yard link's other events (R78 to R94) -/

@[simp] theorem sendScheduled_window (source : TxSource) (bytes : List Byte) (c : Chip) : SameWindow c (sendScheduled source bytes c) := ⟨rfl, rfl⟩

@[simp] theorem takeBlock_window (n : Nat) (c : Chip) : SameWindow c (takeBlock n c) := by
  unfold takeBlock
  (repeat' split) <;> simp [SameWindow]

theorem takeOther_window (c : Chip) : SameWindow c (takeLater.takeOther c) := by
  unfold takeLater.takeOther
  (repeat' split) <;> simp [SameWindow]

@[simp] theorem takeLater_window (c : Chip) : SameWindow c (takeLater c) := by
  unfold takeLater
  split
  · split
    exacts [takeBlock_window _ c, takeOther_window c]
  · exact takeOther_window c

theorem takeAsk_window {i : Nat} {c d : Chip} (h : takeAsk i c = some d) : SameWindow c d := by
  unfold takeAsk at h
  dsimp only at h
  (repeat' split at h) <;> cases h
  exact ⟨rfl, rfl⟩

theorem takeAsks_window (is : List Nat) (c : Chip) : SameWindow c (takeAsks is c) := by
  induction is generalizing c with
  | nil => exact takeLater_window c
  | cons i is ih =>
    unfold takeAsks
    split
    · exact takeLater_window c
    · split
      · next d hd => exact takeAsk_window hd
      · exact ih (withdrawAsk i c)

@[simp] theorem opportunity_window (c : Chip) : SameWindow c (opportunity c) := by
  unfold opportunity
  split
  · exact ⟨rfl, rfl⟩
  · split
    exacts [takeAsks_window _ c, ⟨rfl, rfl⟩]

@[simp] theorem gapElapsed_window (c : Chip) : SameWindow c (gapElapsed c) := by
  unfold gapElapsed
  (repeat' split) <;> simp [SameWindow]

@[simp] theorem deferElapsed_window (c : Chip) : SameWindow c (deferElapsed c) := by
  unfold deferElapsed
  dsimp only
  (repeat' split) <;> simp [SameWindow]

@[simp] theorem countdownElapsed_window (c : Chip) : SameWindow c (countdownElapsed c) := by
  unfold countdownElapsed
  (repeat' split) <;> simp [SameWindow]

@[simp] theorem busyRise_window (c : Chip) : SameWindow c (busyRise c) := by
  unfold busyRise
  dsimp only
  (repeat' split) <;> simp [SameWindow]

@[simp] theorem busyFall_window (c : Chip) : SameWindow c (busyFall c) := by
  unfold busyFall
  dsimp only
  (repeat' split) <;> simp [SameWindow]

@[simp] theorem tellSource_window (s : TxSource) (c : Chip) : SameWindow c (tellSource s c) := by
  unfold tellSource
  (repeat' split) <;> simp [SameWindow]

@[simp] theorem transmissionEnds_window (c : Chip) : SameWindow c (transmissionEnds c) := by
  unfold transmissionEnds
  (repeat' split) <;> simp [SameWindow]

@[simp] theorem spendOnAir_window (c : Chip) : SameWindow c (spendOnAir c) := ⟨rfl, rfl⟩

@[simp] theorem startRound_window (c : Chip) : SameWindow c (startRound c) := ⟨rfl, rfl⟩

@[simp] theorem roundExpires_window (c : Chip) : SameWindow c (roundExpires c) := by
  unfold roundExpires
  (repeat' split) <;> simp [SameWindow]

@[simp] theorem portDeparted_window (c : Chip) : SameWindow c (portDeparted c) := ⟨rfl, rfl⟩

@[simp] theorem portReturned_window (c : Chip) : SameWindow c (portReturned c) := by
  unfold portReturned
  dsimp only
  (repeat' split) <;> simp [SameWindow]

/-! ## The clock and the departure line (R165 to R178) -/

@[simp] theorem reportAdoption_window (before : ClockState) (sender depth : Nat) (change : Int) (c : Chip) :
    SameWindow c (reportAdoption before sender depth change c) := by
  unfold reportAdoption
  (repeat' split) <;> simp [SameWindow]

@[simp] theorem relayBeacon_window (depth : Nat) (c : Chip) : SameWindow c (relayBeacon depth c) := by
  unfold relayBeacon
  (repeat' split) <;> simp [SameWindow]

@[simp] theorem adoptBeacon_window (sender depth : Nat) (time : Word32) (c : Chip) : SameWindow c (adoptBeacon sender depth time c) := by
  unfold adoptBeacon
  dsimp only
  (repeat' split) <;> simp [SameWindow]

@[simp] theorem onBeacon_window (f : RxFrame) (c : Chip) : SameWindow c (onBeacon f c) := by
  unfold onBeacon
  dsimp only
  (repeat' split) <;> simp [SameWindow]

@[simp] theorem beaconExpires_window (c : Chip) : SameWindow c (beaconExpires c) := by
  unfold beaconExpires
  (repeat' split) <;> simp [SameWindow]

@[simp] theorem freeRun_window (c : Chip) : SameWindow c (freeRun c) := by
  unfold freeRun
  (repeat' split) <;> simp [SameWindow]

@[simp] theorem notBeforeReached_window (address : Nat) (c : Chip) : SameWindow c (notBeforeReached address c) := by
  unfold notBeforeReached
  (repeat' split) <;> simp [SameWindow]

@[simp] theorem lineEdge_window (asserted : Bool) (c : Chip) : SameWindow c (lineEdge asserted c) := by
  unfold lineEdge
  dsimp only
  (repeat' split) <;> simp [SameWindow]

@[simp] theorem departBlocks_window (c : Chip) : SameWindow c (departBlocks c) := by
  simp [departBlocks, SameWindow]

@[simp] theorem queueLeave_window (c : Chip) : SameWindow c (queueLeave c) := by
  simp [queueLeave, SameWindow]

@[simp] theorem lineAsserted_window (c : Chip) : SameWindow c (lineAsserted c) := by
  unfold lineAsserted
  (repeat' split) <;> simp [SameWindow]

@[simp] theorem readLineAtStart_window (c : Chip) : SameWindow c (readLineAtStart c) := by
  unfold readLineAtStart
  (repeat' split) <;> simp [SameWindow]

@[simp] theorem leaveExpires_window (c : Chip) : SameWindow c (leaveExpires c) := by
  unfold leaveExpires
  (repeat' split) <;> simp [SameWindow]

@[simp] theorem emptyPeers_window (c : Chip) : SameWindow c (emptyPeers c) := by
  simp [emptyPeers, SameWindow]

@[simp] theorem lineReleased_window (c : Chip) : SameWindow c (lineReleased c) := by
  unfold lineReleased
  (repeat' split) <;> simp [SameWindow]

/-! ## Ends of store operations (R8, R58, R101 to R107, R187) -/

@[simp] theorem fetchBlockDone_window (c : Chip) : SameWindow c (fetchBlockDone c) := by
  unfold fetchBlockDone
  dsimp only
  (repeat' split) <;> simp [SameWindow]

@[simp] theorem fetchBlockFailed_window (c : Chip) : SameWindow c (fetchBlockFailed c) := by
  unfold fetchBlockFailed
  dsimp only
  (repeat' split) <;> simp [SameWindow]

@[simp] theorem failLoad_window (l : Load) (detail : Nat) (c : Chip) : SameWindow c (failLoad l detail c) := ⟨rfl, rfl⟩

@[simp] theorem claimDone_window (c : Chip) : SameWindow c (claimDone c) := by
  unfold claimDone
  dsimp only
  (repeat' split) <;> simp [SameWindow]

@[simp] theorem claimFailed_window (c : Chip) : SameWindow c (claimFailed c) := by
  unfold claimFailed
  dsimp only
  (repeat' split) <;> simp [SameWindow]

@[simp] theorem freeChecked_window (q : CheckRequest) (c : Chip) : SameWindow c (freeChecked q c) := by
  unfold freeChecked
  (repeat' split) <;> simp [SameWindow]

@[simp] theorem endCheckedLoad_window (q : CheckRequest) (detail : Nat) (c : Chip) : SameWindow c (endCheckedLoad q detail c) := by
  unfold endCheckedLoad
  (repeat' split) <;> simp [SameWindow]

@[simp] theorem dropCheck_window (q : CheckRequest) (c : Chip) : SameWindow c (dropCheck q c) := ⟨rfl, rfl⟩

@[simp] theorem reportSpoiled_window (q : CheckRequest) (peer : Option Nat) (c : Chip) : SameWindow c (reportSpoiled q peer c) := by
  unfold reportSpoiled
  (repeat' split) <;> simp [SameWindow]

@[simp] theorem checkMismatch_window (q : CheckRequest) (peer : Option Nat) (c : Chip) : SameWindow c (checkMismatch q peer c) := by
  simp [checkMismatch, SameWindow]

@[simp] theorem compareCheck_window (q : CheckRequest) (c : Chip) : SameWindow c (compareCheck q c) := by
  unfold compareCheck
  (repeat' split) <;> simp [SameWindow]

@[simp] theorem feedCheck_window (bytes : List Byte) (q : CheckRequest) (c : Chip) : SameWindow c (feedCheck bytes q c) := by
  unfold feedCheck
  dsimp only
  (repeat' split) <;> simp [SameWindow]

@[simp] theorem checkReadDone_window (c : Chip) : SameWindow c (checkReadDone c) := by
  unfold checkReadDone
  dsimp only
  (repeat' split) <;> simp [SameWindow]

@[simp] theorem headerDone_window (c : Chip) : SameWindow c (headerDone c) := by
  unfold headerDone
  dsimp only
  (repeat' split) <;> simp [SameWindow]

@[simp] theorem headerFailed_window (c : Chip) : SameWindow c (headerFailed c) := by
  unfold headerFailed
  dsimp only
  (repeat' split) <;> simp [SameWindow]

@[simp] theorem serveRead_window (c : Chip) : SameWindow c (serveRead c) := by
  unfold serveRead
  (repeat' split) <;> simp [SameWindow]

@[simp] theorem flasherRead_window (c : Chip) : SameWindow c (flasherRead c) := by
  unfold flasherRead
  (repeat' split) <;> simp [SameWindow]

@[simp] theorem slotErased_window (c : Chip) : SameWindow c (slotErased c) := by
  unfold slotErased
  (repeat' split) <;> simp [SameWindow]

@[simp] theorem slotEraseFailed_window (c : Chip) : SameWindow c (slotEraseFailed c) := by
  unfold slotEraseFailed
  (repeat' split) <;> simp [SameWindow]

@[simp] theorem eraseMarked_window (c : Chip) : SameWindow c (eraseMarked c) := by
  unfold eraseMarked
  (repeat' split) <;> simp [SameWindow]

@[simp] theorem eraseMarkFailed_window (c : Chip) : SameWindow c (eraseMarkFailed c) := by
  unfold eraseMarkFailed
  (repeat' split) <;> simp [SameWindow]

@[simp] theorem retiredMarkEnded_window (completed : Bool) (c : Chip) : SameWindow c (retiredMarkEnded completed c) := by
  unfold retiredMarkEnded
  (repeat' split) <;> simp [SameWindow]

@[simp] theorem planProgrammed_window (c : Chip) : SameWindow c (planProgrammed c) := by
  unfold planProgrammed
  (repeat' split) <;> simp [SameWindow]

@[simp] theorem planProgramFailed_window (c : Chip) : SameWindow c (planProgramFailed c) := by
  unfold planProgramFailed
  (repeat' split) <;> simp [SameWindow]

@[simp] theorem planErased_window (c : Chip) : SameWindow c (planErased c) := by
  unfold planErased
  (repeat' split) <;> simp [SameWindow]

@[simp] theorem planEraseFailed_window (c : Chip) : SameWindow c (planEraseFailed c) := by
  unfold planEraseFailed
  (repeat' split) <;> simp [SameWindow]

@[simp] theorem commissionErased_window (c : Chip) : SameWindow c (commissionErased c) := by
  unfold commissionErased
  (repeat' split) <;> simp [SameWindow]

@[simp] theorem failCommission_window (detail : Nat) (c : Chip) : SameWindow c (failCommission detail c) := ⟨rfl, rfl⟩

@[simp] theorem commissionEraseFailed_window (c : Chip) : SameWindow c (commissionEraseFailed c) := by
  unfold commissionEraseFailed
  (repeat' split) <;> simp [SameWindow]

@[simp] theorem commissioned_window (c : Chip) : SameWindow c (commissioned c) := by
  unfold commissioned
  (repeat' split) <;> simp [SameWindow]

@[simp] theorem commissionProgramFailed_window (c : Chip) : SameWindow c (commissionProgramFailed c) := by
  unfold commissionProgramFailed
  (repeat' split) <;> simp [SameWindow]

@[simp] theorem loadBlockDone_window (c : Chip) : SameWindow c (loadBlockDone c) := by
  unfold loadBlockDone
  dsimp only
  (repeat' split) <;> simp [SameWindow]

@[simp] theorem loadBlockFailed_window (c : Chip) : SameWindow c (loadBlockFailed c) := by
  unfold loadBlockFailed
  dsimp only
  (repeat' split) <;> simp [SameWindow]

/-! ## The start scan (R108 to R112) -/

@[simp] theorem unconfigure_window (c : Chip) : SameWindow c (unconfigure c) := ⟨rfl, rfl⟩

@[simp] theorem takeConfig_window (r : ConfigRecord) (c : Chip) : SameWindow c (takeConfig r c) := by
  simp [takeConfig, SameWindow]

@[simp] theorem configRead_window (c : Chip) : SameWindow c (configRead c) := by
  unfold configRead
  dsimp only
  (repeat' split) <;> simp [SameWindow]

@[simp] theorem planCopyRead_window (c : Chip) : SameWindow c (planCopyRead c) := by
  unfold planCopyRead
  (repeat' split) <;> simp [SameWindow]

@[simp] theorem reportComplete_window (r : ImageRecord) (c : Chip) : SameWindow c (reportComplete r c) := by
  unfold reportComplete
  (repeat' split) <;> simp [SameWindow]

@[simp] theorem scanDone_window (c : Chip) : SameWindow c (scanDone c) := by
  have hreports := forEach_window (f := reportComplete) (xs := c.catalog.records) (fun r c => reportComplete_window r c)
    { c with store.scanPhase := .done, store.findings := [] }
  unfold scanDone
  dsimp only
  split <;> exact hreports

@[simp] theorem dropFinding_window (f : Finding) (c : Chip) : SameWindow c (dropFinding f c) := ⟨rfl, rfl⟩

@[simp] theorem offerData_window (f : Finding) (c : Chip) : SameWindow c (offerData f c) := by
  unfold offerData
  (repeat' split) <;> simp [SameWindow]

@[simp] theorem dataPhase_window (c : Chip) : SameWindow c (dataPhase c) :=
  SameWindow.trans (forEach_window (f := offerData) (fun f c => offerData_window f c) { c with store.scanPhase := .data }) (scanDone_window _)

theorem manifestSteps_window (n : Nat) (c : Chip) : SameWindow c (manifestSteps n c) := by
  induction n generalizing c with
  | zero => exact .refl c
  | succ n ih =>
    unfold manifestSteps
    split
    · exact dataPhase_window c
    · split
      · exact .refl c
      · exact .trans (by simp [SameWindow]) (ih _)

@[simp] theorem manifestPhase_window (c : Chip) : SameWindow c (manifestPhase c) := manifestSteps_window _ _

@[simp] theorem manifestRead_window (c : Chip) : SameWindow c (manifestRead c) := by
  unfold manifestRead
  dsimp only
  (repeat' split) <;> simp [SameWindow]

@[simp] theorem classifySlot_window (slot : Nat) (k : SpareClass) (c : Chip) : SameWindow c (classifySlot slot k c) := by
  unfold classifySlot
  (repeat' split) <;> simp [SameWindow]

@[simp] theorem sweepRead_window (c : Chip) : SameWindow c (sweepRead c) := by
  unfold sweepRead
  dsimp only
  (repeat' split) <;> simp [SameWindow]

/-! ## Commands of the local port (R179 to R196) -/

theorem handled_window {f : Chip → Chip} (h : ∀ c, SameWindow c (f c)) (k : CommandClass) (code : Nat) (c : Chip) : SameWindow c (handled k code f c) := by
  unfold handled
  split
  exacts [⟨rfl, rfl⟩, h c]

@[simp] theorem say_window (status : Status) (code : Nat) (c : Chip) : SameWindow c (say status code c) := ⟨rfl, rfl⟩

@[simp] theorem onStatus_window (c : Chip) : SameWindow c (onStatus c) := ⟨rfl, rfl⟩

@[simp] theorem onReadUnits_window (c : Chip) : SameWindow c (onReadUnits c) :=
  handled_window (by exact fun _ => ⟨rfl, rfl⟩) _ _ c

@[simp] theorem onReadCatalog_window (position : Byte) (first : BitVec 16) (c : Chip) : SameWindow c (onReadCatalog position first c) :=
  handled_window (by exact fun _ => ⟨rfl, rfl⟩) _ _ c

@[simp] theorem onReadReports_window (n : BitVec 16) (c : Chip) : SameWindow c (onReadReports n c) :=
  handled_window (by exact fun _ => ⟨rfl, rfl⟩) _ _ c

@[simp] theorem onSetDeparture_window (seconds : Word32) (c : Chip) : SameWindow c (onSetDeparture seconds c) :=
  handled_window (fun c => by (repeat' split) <;> simp [SameWindow]) _ _ c

@[simp] theorem onClearDeparture_window (c : Chip) : SameWindow c (onClearDeparture c) :=
  handled_window (fun c => by (repeat' split) <;> simp [SameWindow]) _ _ c

@[simp] theorem onCensus_window (c : Chip) : SameWindow c (onCensus c) :=
  handled_window (fun c => by (repeat' split) <;> simp [SameWindow]) _ _ c

@[simp] theorem onRestart_window (c : Chip) : SameWindow c (onRestart c) := ⟨rfl, rfl⟩

@[simp] theorem onCommission_window (record : List Byte) (c : Chip) : SameWindow c (onCommission record c) := by
  unfold onCommission
  (repeat' split) <;> simp [SameWindow]

theorem originOnly_window {f : Chip → Chip} (h : ∀ c, SameWindow c (f c)) (code : Nat) (c : Chip) : SameWindow c (originOnly code f c) :=
  handled_window (fun c => by split; exacts [say_window _ _ c, h c]) _ _ c

@[simp] theorem onLoadPlan_window (serial : Word32) (count : Byte) (entries : List Byte) (c : Chip) : SameWindow c (onLoadPlan serial count entries c) :=
  originOnly_window (fun c => by (repeat' split) <;> simp [SameWindow]) _ c

@[simp] theorem openLoad_window (k : ImageKey) (seg slot : Nat) (c : Chip) : SameWindow c (openLoad k seg slot c) := ⟨rfl, rfl⟩

@[simp] theorem onLoadOpen_window (id version segment slot : BitVec 16) (c : Chip) : SameWindow c (onLoadOpen id version segment slot c) :=
  originOnly_window (fun c => .trans (by split; exacts [openLoad_window _ _ _ c, .refl c]) (say_window _ 0x11 _)) _ c

@[simp] theorem onLoadBlock_window (index : Byte) (data : List Byte) (c : Chip) : SameWindow c (onLoadBlock index data c) := by
  unfold onLoadBlock
  split
  · exact say_window _ _ c
  · exact originOnly_window (fun c => by dsimp only; (repeat' split) <;> simp [SameWindow]) _ c

@[simp] theorem closeCheck_window (l : Load) (c : Chip) : SameWindow c (closeCheck l c) := ⟨rfl, rfl⟩

@[simp] theorem closeDiscard_window (l : Load) (c : Chip) : SameWindow c (closeDiscard l c) := by
  simp [closeDiscard, SameWindow]

@[simp] theorem onLoadClose_window (mode : Byte) (c : Chip) : SameWindow c (onLoadClose mode c) :=
  originOnly_window (fun c => by (repeat' split) <;> simp [SameWindow]) _ c

@[simp] theorem onBadFrame_window (frame : List Byte) (c : Chip) : SameWindow c (onBadFrame frame c) := by
  unfold onBadFrame
  (repeat' split) <;> simp [SameWindow]

/-! ## Received frames (R79, R80) -/

@[simp] theorem onBusy_window (unknown : Bool) (f : RxFrame) (c : Chip) : SameWindow c (onBusy unknown f c) := by
  have hmark : ∀ b : Bool, SameWindow c (if b then markBusy f.sender c else c) := fun b => by split <;> simp [SameWindow]
  exact (hmark _).trans (onReply_window (fun c => by simp [SameWindow]) _ _ _ _ _)

/-- R80. What presence, the frame's owner and the comparison leave. -/
theorem receive_window {owner : RxFrame → Chip → Chip} (h : ∀ f c, SameWindow c (owner f c)) (kind : FrameKind) (frame : List Byte) (c : Chip) :
    SameWindow c (receive kind owner frame c) := by
  unfold receive
  split
  · exact .refl c
  · split
    · exact .refl c
    · next f _ =>
      split
      exacts [((presence_window f c).trans (h f _)).trans (compareSerial_window f _), .refl c]

/-! ## Times reached (R18, R23, R31, R32, R51) -/

@[simp] theorem fetchTimerExpires_window (i : Nat) (c : Chip) : SameWindow c (fetchTimerExpires i c) := by
  unfold fetchTimerExpires
  (repeat' split) <;> simp [SameWindow]

@[simp] theorem coolingEnds_window (k : ImageKey) (seg : Nat) (c : Chip) : SameWindow c (coolingEnds k seg c) := by
  unfold coolingEnds
  (repeat' split) <;> simp [SameWindow]

@[simp] theorem peerExpires_window (id : Nat) (c : Chip) : SameWindow c (peerExpires id c) := by
  unfold peerExpires
  (repeat' split) <;> simp [SameWindow]

@[simp] theorem shunEnds_window (id : Nat) (c : Chip) : SameWindow c (shunEnds id c) := by
  unfold shunEnds
  (repeat' split) <;> simp [SameWindow]

@[simp] theorem busyMarkEnds_window (id : Nat) (c : Chip) : SameWindow c (busyMarkEnds id c) := by
  unfold busyMarkEnds
  (repeat' split) <;> simp [SameWindow]

end Sys2Proof.Machine
end

