-- ==== Sys2Proof/Proofs/AllowanceWindows.lean ====
section
/-!
SUPPORT. The allowance windows (R88) through every command, the opening of one (R37, R88), and the obligation on them.
-/
namespace Sys2Proof.Machine

/-- R88. Before what it sets going, a command other than a window's opening and a start leaves the window and its allowance as they are. -/
theorem exec_window (i : Instr) (s : State) (hopen : i ≠ .allowanceWindowOpen) (hpower : ∀ pins, i ≠ .powerOn pins)
    (hrestart : i ≠ .restartSelectRelease) : ∃ d, exec i s = .next { s with chip := settle d } ∧ SameWindow s.chip d := by
  cases i with
  | powerOn pins => exact absurd rfl (hpower pins)
  | restartSelectRelease => exact absurd rfl hrestart
  | offer frame => exact ⟨_, rfl, receive_window (fun f c => .of_stands (mergeOffer_quiet _ _ c).1.1) _ _ _⟩
  | ask frame => exact ⟨_, rfl, receive_window (fun f c => onAsk_window _ _ c) _ _ _⟩
  | block frame => exact ⟨_, rfl, receive_window (fun f c => onBlock_window _ _ c) _ _ _⟩
  | lacking frame => exact ⟨_, rfl, receive_window (fun f c => onReply_window (withdrawSegment_window _ _ _) _ _ _ _ c) _ _ _⟩
  | refused frame => exact ⟨_, rfl, receive_window (fun f c => onReply_window (withdrawImage_window _ _) _ _ _ _ c) _ _ _⟩
  | busy frame => exact ⟨_, rfl, receive_window (fun f c => onBusy_window _ f c) _ _ _⟩
  | plan frame => exact ⟨_, rfl, receive_window (fun f c => onPlan_window _ _ c) _ _ _⟩
  | planAsk frame => exact ⟨_, rfl, receive_window (fun f c => onPlanAsk_window _ c) _ _ _⟩
  | beacon frame => exact ⟨_, rfl, receive_window (fun f c => onBeacon_window f c) _ _ _⟩
  | leave frame => exact ⟨_, rfl, receive_window (fun f c => announceDeparture_window _ c) _ _ _⟩
  | fetchTimerExpiry slot => exact ⟨_, rfl, fetchTimerExpires_window slot _⟩
  | fetchBlockProgramComplete => exact ⟨_, rfl, fetchBlockDone_window _⟩
  | fetchBlockProgramFailed => exact ⟨_, rfl, fetchBlockFailed_window _⟩
  | claimProgramComplete => exact ⟨_, rfl, claimDone_window _⟩
  | claimProgramFailed => exact ⟨_, rfl, claimFailed_window _⟩
  | coolingEnd image segment => exact ⟨_, rfl, coolingEnds_window image segment _⟩
  | checkReadComplete => exact ⟨_, rfl, checkReadDone_window _⟩
  | headerProgramComplete => exact ⟨_, rfl, headerDone_window _⟩
  | headerProgramFailed => exact ⟨_, rfl, headerFailed_window _⟩
  | serveReadComplete => exact ⟨_, rfl, serveRead_window _⟩
  | slotEraseComplete => exact ⟨_, rfl, slotErased_window _⟩
  | slotEraseFailed => exact ⟨_, rfl, slotEraseFailed_window _⟩
  | slotEraseMarkProgramComplete => exact ⟨_, rfl, eraseMarked_window _⟩
  | slotEraseMarkProgramFailed => exact ⟨_, rfl, eraseMarkFailed_window _⟩
  | retiredMarkProgramEnd completed => exact ⟨_, rfl, retiredMarkEnded_window completed _⟩
  | configReadComplete => exact ⟨_, rfl, configRead_window _⟩
  | planCopyReadComplete => exact ⟨_, rfl, planCopyRead_window _⟩
  | sweepReadComplete => exact ⟨_, rfl, sweepRead_window _⟩
  | manifestReadComplete => exact ⟨_, rfl, manifestRead_window _⟩
  | planCopyProgramComplete => exact ⟨_, rfl, planProgrammed_window _⟩
  | planCopyProgramFailed => exact ⟨_, rfl, planProgramFailed_window _⟩
  | planCopyEraseComplete => exact ⟨_, rfl, planErased_window _⟩
  | planCopyEraseFailed => exact ⟨_, rfl, planEraseFailed_window _⟩
  | commissionEraseComplete => exact ⟨_, rfl, commissionErased_window _⟩
  | commissionEraseFailed => exact ⟨_, rfl, commissionEraseFailed_window _⟩
  | commissionProgramComplete => exact ⟨_, rfl, commissioned_window _⟩
  | commissionProgramFailed => exact ⟨_, rfl, commissionProgramFailed_window _⟩
  | loadBlockProgramComplete => exact ⟨_, rfl, loadBlockDone_window _⟩
  | loadBlockProgramFailed => exact ⟨_, rfl, loadBlockFailed_window _⟩
  | transmissionEnd => exact ⟨_, rfl, transmissionEnds_window _⟩
  | channelBusyRise => exact ⟨_, rfl, busyRise_window _⟩
  | channelBusyFall => exact ⟨_, rfl, busyFall_window _⟩
  | gapElapsed => exact ⟨_, rfl, gapElapsed_window _⟩
  | deferSlotElapsed => exact ⟨_, rfl, deferElapsed_window _⟩
  | countdownSlotElapsed => exact ⟨_, rfl, countdownElapsed_window _⟩
  | allowanceWindowOpen => exact absurd rfl hopen
  | offerRoundExpiry => exact ⟨_, rfl, roundExpires_window _⟩
  | peerExpiry station => exact ⟨_, rfl, peerExpires_window station _⟩
  | shunEnd station => exact ⟨_, rfl, shunEnds_window station _⟩
  | busyMarkEnd station => exact ⟨_, rfl, busyMarkEnds_window station _⟩
  | beaconTimerExpiry => exact ⟨_, rfl, beaconExpires_window _⟩
  | freeRunningTimeout => exact ⟨_, rfl, freeRun_window _⟩
  | notBeforeReached address => exact ⟨_, rfl, notBeforeReached_window address _⟩
  | departureLineEdge asserted => exact ⟨_, rfl, lineEdge_window asserted _⟩
  | departureLineAsserted => exact ⟨_, rfl, lineAsserted_window _⟩
  | leaveTimerExpiry => exact ⟨_, rfl, leaveExpires_window _⟩
  | departureLineReleased => exact ⟨_, rfl, lineReleased_window _⟩
  | lineWireChange clock data => exact ⟨_, rfl, wireChange_window clock data _⟩
  | lineQuietElapsed => exact ⟨_, rfl, quietElapsed_window _⟩
  | cabinTransactionEnd unacknowledged received => exact ⟨_, rfl, transactionEnds_window _ _ _⟩
  | arbitrationLoss => exact ⟨_, rfl, arbitrationLoss_window _⟩
  | lineFault wire => exact ⟨_, rfl, lineFault_window wire _⟩
  | holdTimeout heldMs => exact ⟨_, rfl, holdTimeout_window heldMs _⟩
  | recoveringClockReleased => exact ⟨_, rfl, recovered_window _⟩
  | lineStuckTimeout => exact ⟨_, rfl, reportStuck_window _⟩
  | censusPauseEnd => exact ⟨_, rfl, censusPauseEnd_window _⟩
  | censusHoldoffEnd => exact ⟨_, rfl, .of_stands (censusBegin_keeps _)⟩
  | jobPauseEnd => exact ⟨_, rfl, jobPauseEnd_window _⟩
  | flasherReadComplete => exact ⟨_, rfl, flasherRead_window _⟩
  | probationPollDue address => exact ⟨_, rfl, pollDue_window address _⟩
  | finalReadDue address => exact ⟨_, rfl, finalDue_window address _⟩
  | probationRepeatDue address => exact ⟨_, rfl, repeatDue_window address _⟩
  | status => exact ⟨_, rfl, onStatus_window _⟩
  | readUnits => exact ⟨_, rfl, onReadUnits_window _⟩
  | readCatalog position firstSegment => exact ⟨_, rfl, onReadCatalog_window position firstSegment _⟩
  | readReports sequence => exact ⟨_, rfl, onReadReports_window sequence _⟩
  | setDeparture seconds => exact ⟨_, rfl, onSetDeparture_window seconds _⟩
  | clearDeparture => exact ⟨_, rfl, onClearDeparture_window _⟩
  | census => exact ⟨_, rfl, onCensus_window _⟩
  | restart => exact ⟨_, rfl, onRestart_window _⟩
  | commission record => exact ⟨_, rfl, onCommission_window record _⟩
  | loadPlan serial count entries => exact ⟨_, rfl, onLoadPlan_window serial count entries _⟩
  | loadSegmentOpen id version segment slot => exact ⟨_, rfl, onLoadOpen_window id version segment slot _⟩
  | loadBlock index data => exact ⟨_, rfl, onLoadBlock_window index data _⟩
  | loadSegmentClose mode => exact ⟨_, rfl, onLoadClose_window mode _⟩
  | badCommandFrame frame => exact ⟨_, rfl, onBadFrame_window frame _⟩
  | exchangeDiscarded => exact ⟨id s.chip, rfl, .refl _⟩

/-! ## A window opens (R37, R88) -/

section
variable {c : Chip}

theorem openWindow_early (h : c.now < c.yard.windowOpen + 1000) : openWindow c = c := if_neg (by simpa [reached] using h)

theorem openWindow_due (h : c.yard.windowOpen + 1000 ≤ c.now) :
    openWindow c = { c with yard := { c.yard with windowOpen := c.yard.windowOpen + 1000, allowance := allowanceFor (peersHeard c), airtimeUsed := 0 } } :=
  if_pos (by simpa [reached] using h)

theorem accessWake_eligible (c : Chip) : eligibleFrame (accessWake c) = eligibleFrame c := by
  unfold accessWake enterDefer
  (repeat' split) <;> rfl

theorem driveAttention_eligible (c : Chip) : eligibleFrame (driveAttention c) = eligibleFrame c := rfl

/-- R81. With a frame eligible the procedure leaves IDLE. -/
theorem accessWake_leaves (h : eligibleFrame c = true) : (accessWake c).yard.phase ≠ .idle := by
  by_cases hidle : c.yard.phase = .idle
  · unfold accessWake
    rw [if_pos (by simp [hidle, h])]
    (repeat' split) <;> exact AccessPhase.noConfusion
  · rwa [accessWake_of_busy hidle]

/-- R81, log 13. Channel access is begun last: after settling, no frame is eligible in IDLE. -/
theorem settle_leaves (h : eligibleFrame (settle c) = true) : (settle c).yard.phase ≠ .idle := by
  rw [settle, driveAttention_eligible, settlePass_eq_wake, accessWake_eligible] at h
  rw [settle, driveAttention_yard, settlePass_eq_wake]
  exact accessWake_leaves h

end

/-- Settles O27: the opening by its own equation, every other command by what it leaves, and the first window by the values after a start. -/
theorem allowanceWindowOpens : Obligations.AllowanceWindowOpens := by
  unfold Obligations.AllowanceWindowOpens
  refine ⟨?_, fun i s t hexec hopen hpower hrestart => ?_, fun pins flash n => ⟨rfl, rfl, rfl, rfl⟩⟩
  · rintro ⟨c, pending⟩
    dsimp only
    rw [← List.countP_eq_length_filter]
    refine ⟨fun h => noEffect_of_run rfl (openWindow_early h), fun h => ⟨_, exec_of_run rfl (openWindow_due h), rfl, ?_, ?_⟩⟩ <;> dsimp only
    · exact (settle_standing _).trans rfl
    · exact settle_leaves
  · obtain ⟨d, hrun, hwindow⟩ := exec_window i s hopen hpower hrestart
    obtain rfl := Host.Outcome.next.inj (hrun.symm.trans hexec)
    exact hwindow.trans (.of_stands (settle_keeps d))

end Sys2Proof.Machine
end

