-- ==== Sys2Proof/Proofs/HeldRuns.lean ====
section
/-!
SUPPORT. The held runs of a record (R92): what they cover, their form, and the Offer built from those at or after the cursor.
-/
namespace Sys2Proof.Machine

/-- R17. The record's segment is HELD. -/
def HeldIn (r : ImageRecord) (seg : Nat) : Prop := ∃ e slot, r.entries[seg]? = some e ∧ e.state = .held slot

theorem code_held_iff {st : SegState} : st.code = 3 ↔ ∃ slot, st = .held slot := by cases st <;> simp [SegState.code]

/-! ## The held runs (R92) -/

section
variable {e : SegEntry} {seg : Nat}

theorem heldRunsFrom_goes_on (h : e.state.code = 3) (run : Option Nat) (es : List SegEntry) :
    heldRunsFrom seg run (e :: es) = heldRunsFrom (seg + 1) (some (run.getD seg)) es := by simp only [heldRunsFrom, if_pos h]

theorem heldRunsFrom_closes (h : ¬e.state.code = 3) (a : Nat) (es : List SegEntry) :
    heldRunsFrom seg (some a) (e :: es) = ⟨a, seg - 1⟩ :: heldRunsFrom (seg + 1) none es := by rw [heldRunsFrom, if_neg h]

theorem heldRunsFrom_skips (h : ¬e.state.code = 3) (es : List SegEntry) : heldRunsFrom seg none (e :: es) = heldRunsFrom (seg + 1) none es := by
  rw [heldRunsFrom, if_neg h]

end

/-- R92. The runs lie between where the run under way began and the last entry. -/
theorem heldRunsFrom_within (es : List SegEntry) : ∀ (seg : Nat) (run : Option Nat), (∀ a, run = some a → a < seg) →
    ∀ q ∈ heldRunsFrom seg run es, run.getD seg ≤ q.first ∧ q.first ≤ q.last ∧ q.last < seg + es.length := by
  induction es with
  | nil =>
    rintro seg (_ | a) hrun q hq
    · cases hq
    · have := hrun a rfl
      obtain rfl : q = ⟨a, seg - 1⟩ := by simpa [heldRunsFrom] using hq
      simp only [Option.getD_some, List.length_nil]
      omega
  | cons e es ih =>
    intro seg run hrun q hq
    rw [List.length_cons]
    by_cases hheld : e.state.code = 3
    · rw [heldRunsFrom_goes_on hheld] at hq
      have hbegan : run.getD seg < seg + 1 := by
        cases run with
        | none => exact Nat.lt_succ_self seg
        | some a => exact Nat.lt_succ_of_lt (hrun a rfl)
      obtain ⟨hfirst, hform, hlast⟩ := ih (seg + 1) _ (fun a ha => Option.some.inj ha ▸ hbegan) q hq
      rw [Option.getD_some] at hfirst
      omega
    · have hrest : ∀ q ∈ heldRunsFrom (seg + 1) none es, seg + 1 ≤ q.first ∧ q.first ≤ q.last ∧ q.last < seg + 1 + es.length :=
        ih (seg + 1) none nofun
      cases run with
      | none =>
        rw [heldRunsFrom_skips hheld] at hq
        have := hrest q hq
        simp only [Option.getD_none]
        omega
      | some a =>
        have hbegan := hrun a rfl
        rw [heldRunsFrom_closes hheld] at hq
        simp only [Option.getD_some]
        rcases List.mem_cons.mp hq with rfl | hq
        · dsimp only
          omega
        · have := hrest q hq
          omega

/-- R92. The runs are maximal, so that a segment that is not HELD lies between any two. -/
theorem heldRunsFrom_apart (es : List SegEntry) : ∀ (seg : Nat) (run : Option Nat), (∀ a, run = some a → a < seg) →
    runsApart (heldRunsFrom seg run es) = true := by
  induction es with
  | nil =>
    rintro seg (_ | a) hrun
    · rfl
    · have := hrun a rfl
      simp only [heldRunsFrom, runsApart, Bool.and_true, decide_eq_true_eq]
      omega
  | cons e es ih =>
    intro seg run hrun
    by_cases hheld : e.state.code = 3
    · rw [heldRunsFrom_goes_on hheld]
      refine ih (seg + 1) _ fun a ha => ?_
      obtain rfl := Option.some.inj ha
      cases run with
      | none => exact Nat.lt_succ_self seg
      | some a => exact Nat.lt_succ_of_lt (hrun a rfl)
    · cases run with
      | none =>
        rw [heldRunsFrom_skips hheld]
        exact ih (seg + 1) none nofun
      | some a =>
        have hbegan := hrun a rfl
        rw [heldRunsFrom_closes hheld, runsApart_cons]
        refine ⟨by dsimp only; omega, fun q hq => ?_, ih (seg + 1) none nofun⟩
        have hlater : seg + 1 ≤ q.first := (heldRunsFrom_within es (seg + 1) none nofun q hq).1
        dsimp only
        omega

/-- R92. The runs cover the run under way and the HELD segments from there on. -/
theorem covers_heldRunsFrom (x : Nat) (es : List SegEntry) : ∀ (seg : Nat) (run : Option Nat), (∀ a, run = some a → a < seg) →
    (covers (heldRunsFrom seg run es) x = true ↔
      (∃ a, run = some a ∧ a ≤ x ∧ x < seg) ∨ ∃ i e, x = seg + i ∧ es[i]? = some e ∧ e.state.code = 3) := by
  induction es with
  | nil =>
    rintro seg (_ | a) hrun
    · simp [heldRunsFrom, covers]
    · have := hrun a rfl
      simp only [heldRunsFrom, covers, List.any_cons, List.any_nil, Bool.or_false, SegRun.has_iff, Option.some.injEq, exists_eq_left', List.getElem?_nil]
      simp
      omega
  | cons e es ih =>
    intro seg run hrun
    have hhead : (∃ i e', x = seg + i ∧ (e :: es)[i]? = some e' ∧ e'.state.code = 3) ↔
        (x = seg ∧ e.state.code = 3) ∨ ∃ i e', x = seg + 1 + i ∧ es[i]? = some e' ∧ e'.state.code = 3 := by
      constructor
      · rintro ⟨_ | i, e', hx, he, hcode⟩
        · obtain rfl : e = e' := by simpa using he
          exact .inl ⟨hx, hcode⟩
        · exact .inr ⟨i, e', by omega, by simpa using he, hcode⟩
      · rintro (⟨hx, hcode⟩ | ⟨i, e', hx, he, hcode⟩)
        · exact ⟨0, e, hx, rfl, hcode⟩
        · exact ⟨i + 1, e', by omega, by simpa using he, hcode⟩
    rw [hhead]
    by_cases hheld : e.state.code = 3
    · rw [heldRunsFrom_goes_on hheld]
      cases run with
      | none =>
        rw [ih (seg + 1) _ (by rintro a ⟨⟩; exact Nat.lt_succ_self seg)]
        simp only [Option.getD_none, Option.some.injEq, exists_eq_left', hheld, and_true, reduceCtorEq, false_and, exists_false, false_or]
        exact or_congr_left (by omega)
      | some a =>
        have hbegan := hrun a rfl
        rw [ih (seg + 1) _ (by rintro b ⟨⟩; exact Nat.lt_succ_of_lt hbegan)]
        simp only [Option.getD_some, Option.some.injEq, exists_eq_left', hheld, and_true]
        rw [← or_assoc]
        exact or_congr_left (by omega)
    · cases run with
      | none =>
        rw [heldRunsFrom_skips hheld, ih (seg + 1) none nofun]
        simp [hheld]
      | some a =>
        have hbegan := hrun a rfl
        rw [heldRunsFrom_closes hheld, covers_cons, Bool.or_eq_true, SegRun.has_iff, ih (seg + 1) none nofun]
        simp only [Option.some.injEq, exists_eq_left', hheld, and_false, reduceCtorEq, false_and, exists_false, false_or]
        exact or_congr_left (by omega)

/-! ## The runs of a record (R92) -/

/-- R92. The held runs of a record. -/
def heldRuns (r : ImageRecord) : List SegRun := heldRunsFrom 0 none r.entries

theorem heldRuns_apart (r : ImageRecord) : runsApart (heldRuns r) = true := heldRunsFrom_apart _ _ _ nofun

theorem heldRuns_last {r : ImageRecord} {q : SegRun} (hq : q ∈ heldRuns r) : q.last < r.entries.length := by
  simpa using (heldRunsFrom_within r.entries 0 none nofun q hq).2.2

theorem covers_heldRuns {r : ImageRecord} {seg : Nat} : covers (heldRuns r) seg = true ↔ HeldIn r seg := by
  rw [heldRuns, covers_heldRunsFrom seg r.entries 0 none nofun]
  simp [HeldIn, code_held_iff]

/-! ## Cutting at the cursor (R92) -/

theorem runsAfter_apart (cursor : Nat) {l : List SegRun} (h : runsApart l = true) : runsApart (runsAfter cursor l) = true := by
  obtain ⟨hform, hpair⟩ := (runsApart_iff l).mp h
  refine (runsApart_iff _).mpr ⟨fun q hq => ?_, ?_⟩
  · obtain ⟨r, hr, rfl⟩ := List.mem_map.mp hq
    obtain ⟨hmem, hlast⟩ := List.mem_filter.mp hr
    exact Nat.max_le.mpr ⟨hform r hmem, of_decide_eq_true hlast⟩
  · refine List.pairwise_map.mpr ((hpair.sublist List.filter_sublist).imp fun hlt => ?_)
    exact lt_of_lt_of_le hlt (Nat.le_max_left _ _)

theorem covers_runsAfter (cursor : Nat) (l : List SegRun) (seg : Nat) :
    covers (runsAfter cursor l) seg = true ↔ cursor ≤ seg ∧ covers l seg = true := by
  simp only [covers, runsAfter, List.any_map, List.any_filter, List.any_eq_true, Function.comp, Bool.and_eq_true, decide_eq_true_eq, SegRun.has_iff]
  constructor
  · rintro ⟨r, hr, hcursor, hfirst, hlast⟩
    exact ⟨by omega, r, hr, by omega, hlast⟩
  · rintro ⟨hcursor, r, hr, hfirst, hlast⟩
    exact ⟨r, hr, by omega, by omega, hlast⟩

theorem mem_runsAfter_last {cursor bound : Nat} {l : List SegRun} (h : ∀ q ∈ l, q.last < bound) {q : SegRun} (hq : q ∈ runsAfter cursor l) :
    q.last < bound := by
  obtain ⟨r, hr, rfl⟩ := List.mem_map.mp hq
  exact h r (List.mem_of_mem_filter hr)

/-- R92. Before the first segment of run `n`, counting from 0, the first `n` runs cover what all of them do. -/
theorem covers_take {l : List SegRun} (h : runsApart l = true) {n : Nat} {q : SegRun} (hq : l[n]? = some q) {seg : Nat} (hseg : seg < q.first) :
    covers (l.take n) seg = covers l seg := by
  obtain ⟨hn, hget⟩ := List.getElem?_eq_some_iff.mp hq
  have hdrop : l.drop n = q :: l.drop (n + 1) := by rw [List.drop_eq_getElem_cons hn, hget]
  have hrest : covers (l.drop n) seg = false := by
    have hapart : runsApart (q :: l.drop (n + 1)) = true := hdrop ▸ runsApart_sublist (List.drop_sublist n l) h
    obtain ⟨hform, hlater, _⟩ := runsApart_cons.mp hapart
    refine Bool.eq_false_iff.mpr fun hcovers => ?_
    obtain ⟨x, hx, hhas⟩ := List.any_eq_true.mp hcovers
    have hin := (SegRun.has_iff x seg).mp hhas
    rcases List.mem_cons.mp (hdrop ▸ hx) with rfl | hx
    · omega
    · have := hlater x hx
      omega
  conv_rhs => rw [← List.take_append_drop n l, covers_append, hrest, Bool.or_false]

/-- R92. A run behind another does not begin at segment 0. -/
theorem first_pos_of_later {l : List SegRun} (h : runsApart l = true) {n : Nat} {q : SegRun} (hq : l[n + 1]? = some q) : 0 < q.first := by
  obtain ⟨hn, hget⟩ := List.getElem?_eq_some_iff.mp hq
  have hpair := List.pairwise_iff_getElem.mp ((runsApart_iff l).mp h).2 0 (n + 1) (by omega) hn (by omega)
  rw [hget] at hpair
  omega

/-! ## The Offer of a record (R92) -/

/-- R92. The held runs from the cursor on. -/
def offeredRuns (r : ImageRecord) : List SegRun := runsAfter r.spanCursor (heldRuns r)

theorem offeredRuns_apart (r : ImageRecord) : runsApart (offeredRuns r) = true := runsAfter_apart _ (heldRuns_apart r)

theorem covers_offeredRuns {r : ImageRecord} {seg : Nat} : covers (offeredRuns r) seg = true ↔ r.spanCursor ≤ seg ∧ HeldIn r seg := by
  rw [offeredRuns, covers_runsAfter, covers_heldRuns]

/-- R92. What an Offer of a record says, with the cursor that it leaves. -/
structure OffersRecord (r : ImageRecord) (o : OfferBody) (cursor : Nat) : Prop where
  image : o.image = r.image
  first : o.spanFirst = r.spanCursor
  few : o.ranges.length ≤ 24
  apart : runsApart o.ranges = true
  held : ∀ seg, o.spanFirst ≤ seg → seg ≤ o.spanLast → (covers o.ranges seg = true ↔ HeldIn r seg)
  rest : (o.spanLast = r.entries.length - 1 ∧ cursor = 0) ∨ (o.spanLast < r.entries.length - 1 ∧ o.ranges.length = 24 ∧ cursor = o.spanLast + 1)

/-- R92. At most 24 runs: the span ends with the last segment, and the cursor returns to 0. -/
theorem buildOffer_of_few {r : ImageRecord} (h : (offeredRuns r)[24]? = none) : OffersRecord r (buildOffer r).1 (buildOffer r).2 := by
  have hbuilt : buildOffer r = ({ image := r.image, spanFirst := r.spanCursor, spanLast := r.entries.length - 1, ranges := offeredRuns r }, 0) := by
    have hruns : (runsAfter r.spanCursor (heldRunsFrom 0 none r.entries))[24]? = none := h
    simp only [buildOffer, hruns]
    rfl
  rw [hbuilt]
  exact
    { image := rfl
      first := rfl
      few := List.getElem?_eq_none_iff.mp h
      apart := offeredRuns_apart r
      held := fun seg hfirst _ => covers_offeredRuns.trans (and_iff_right hfirst)
      rest := .inl ⟨rfl, rfl⟩ }

/-- R92. More than 24: the span ends before the 25th run, where the cursor goes. -/
theorem buildOffer_of_many {r : ImageRecord} {q : SegRun} (h : (offeredRuns r)[24]? = some q) : OffersRecord r (buildOffer r).1 (buildOffer r).2 := by
  have hbuilt : buildOffer r =
      ({ image := r.image, spanFirst := r.spanCursor, spanLast := q.first - 1, ranges := (offeredRuns r).take 24 }, q.first) := by
    have hruns : (runsAfter r.spanCursor (heldRunsFrom 0 none r.entries))[24]? = some q := h
    simp only [buildOffer, hruns]
    rfl
  have hapart := offeredRuns_apart r
  have hmem := List.mem_of_getElem? h
  have hpos : 0 < q.first := first_pos_of_later hapart h
  have hform : q.first ≤ q.last := ((runsApart_iff _).mp hapart).1 q hmem
  have hlast : q.last < r.entries.length := mem_runsAfter_last (fun _ => heldRuns_last) hmem
  have hlen : 24 < (offeredRuns r).length := (List.getElem?_eq_some_iff.mp h).1
  have htake : ((offeredRuns r).take 24).length = 24 := by rw [List.length_take]; omega
  rw [hbuilt]
  exact
    { image := rfl
      first := rfl
      few := htake.le
      apart := runsApart_sublist (List.take_sublist 24 _) hapart
      held := fun seg hfirst hseg => by
        dsimp only at hfirst hseg ⊢
        rw [covers_take hapart h (by omega), covers_offeredRuns]
        exact and_iff_right hfirst
      rest := .inr ⟨by dsimp only; omega, htake, by dsimp only; omega⟩ }

theorem buildOffer_offers (r : ImageRecord) : OffersRecord r (buildOffer r).1 (buildOffer r).2 := by
  cases h : (offeredRuns r)[24]? with
  | none => exact buildOffer_of_few h
  | some q => exact buildOffer_of_many h

end Sys2Proof.Machine
end

