-- ==== Sys2Proof/Proofs/OfferRounds.lean ====
section
/-!
SUPPORT. The offer round (R90, R91): the records in turn, the Offer built at the round's expiry, what settling keeps of the cursors, and the obligation on
the round.
-/
namespace Sys2Proof.Machine

/-! ## The records in turn (R91) -/

theorem qualifies_iff {r : ImageRecord} : qualifies r = true ↔ ∃ seg, HeldIn r seg := by
  simp only [qualifies, List.any_eq_true, beq_iff_eq, code_held_iff, List.mem_iff_getElem?, HeldIn]
  constructor
  · rintro ⟨e, ⟨seg, he⟩, slot, hslot⟩
    exact ⟨seg, e, slot, he, hslot⟩
  · rintro ⟨seg, e, slot, he, hslot⟩
    exact ⟨e, ⟨seg, he⟩, slot, hslot⟩

theorem not_qualifies_iff {r : ImageRecord} : qualifies r = false ↔ ∀ seg, ¬HeldIn r seg := by
  rw [← Bool.not_eq_true, qualifies_iff, not_exists]

/-- R91. Without a record of the image last offered the records have their turn in record order. -/
theorem offerOrder_of_gone {records : List ImageRecord} {last : Option ImageKey} (h : ∀ k, last = some k → ∀ r ∈ records, r.image ≠ k) :
    offerOrder records last = records := by
  cases last with
  | none => rfl
  | some k =>
    have hnone : records.findIdx? (fun r => r.image == k) = none := List.findIdx?_eq_none_iff.mpr fun r hr => beq_false_of_ne (h k rfl r hr)
    simp only [offerOrder, hnone]

/-- R91. Otherwise the records after it come first, and the order wraps round to it. -/
theorem offerOrder_of_held {l₁ l₂ : List ImageRecord} {r : ImageRecord} (h : ∀ x ∈ l₁, x.image ≠ r.image) :
    offerOrder (l₁ ++ r :: l₂) (some r.image) = l₂ ++ (l₁ ++ [r]) := by
  have hat : (l₁ ++ r :: l₂).findIdx? (fun x => x.image == r.image) = some l₁.length := by
    rw [List.findIdx?_append, List.findIdx?_eq_none_iff.mpr fun x hx => beq_false_of_ne (h x hx)]
    simp [List.findIdx?_cons]
  have hdrop : (l₁ ++ r :: l₂).drop (l₁.length + 1) = l₂ := by rw [← List.drop_drop, List.drop_left]; rfl
  have htake : (l₁ ++ r :: l₂).take (l₁.length + 1) = l₁ ++ [r] := by simp [List.take_append]
  simp only [offerOrder, hat, hdrop, htake]

theorem mem_offerOrder {records : List ImageRecord} {last : Option ImageKey} {r : ImageRecord} : r ∈ offerOrder records last ↔ r ∈ records := by
  unfold offerOrder
  split
  · rfl
  · split
    · next i _ => rw [List.mem_append, or_comm, ← List.mem_append, List.take_append_drop]
    · rfl

/-! ## The round's expiry (R90) -/

section
variable {c : Chip} {u : Nat}

theorem roundExpires_early (hround : c.yard.offerRound = some u) (h : c.now < u ∨ c.yard.mode ≠ .on) : roundExpires c = c := by
  simp only [roundExpires, hround]
  refine if_neg ?_
  simp only [reached, Bool.and_eq_true, decide_eq_true_eq, not_and_or, Nat.not_le]
  exact h

/-- R84, R90. The next expiry is set, and an Offer on the air is no longer the round's. -/
def nextRound (u : Nat) (c : Chip) : Chip := spendOnAir { c with yard.offerRound := some (u + 2000) }

theorem roundExpires_due (hround : c.yard.offerRound = some u) (hu : u ≤ c.now) (hmode : c.yard.mode = .on) :
    roundExpires c = buildRoundOffer (nextRound u c) := by
  simp only [roundExpires, hround, reached, hu, hmode, decide_true, Bool.and_self, if_true, nextRound]

theorem nextRound_bytes (u : Nat) (c : Chip) : (nextRound u c).yard.onAir.map (fun a => a.bytes) = c.yard.onAir.map (fun a => a.bytes) := by
  have hbytes : ∀ a : OnAir, (match a.source with | .offer _ => { a with source := .untold } | _ => a : OnAir).bytes = a.bytes := fun a => by split <;> rfl
  simp only [nextRound, spendOnAir, Option.map_map]
  exact Option.map_congr fun a _ => hbytes a

/-- R91. The record chosen is offered: its cursor moves, and it is the last offered. -/
def offerRecord (r : ImageRecord) (c : Chip) : Chip :=
  { updateRecord r.image (fun q => { q with spanCursor := (buildOffer r).2 }) c with
    catalog.lastOffered := some r.image
    yard.roundOffer := some (buildOffer r).1 }

/-- R91. No record qualifies: the Offer is the presence-only one. -/
def offerPresence (c : Chip) : Chip := { c with yard.roundOffer := some presenceOffer }

theorem buildRoundOffer_of_none (h : (offerOrder c.catalog.records c.catalog.lastOffered).find? qualifies = none) :
    buildRoundOffer c = offerPresence c := by
  simp only [buildRoundOffer, h, offerPresence]

theorem buildRoundOffer_of_some {r : ImageRecord} (h : (offerOrder c.catalog.records c.catalog.lastOffered).find? qualifies = some r) :
    buildRoundOffer c = offerRecord r c := by
  simp only [buildRoundOffer, h]
  rfl

/-! ## The cursors (R92) -/

/-- R92. A record's image and cursor. -/
def cursorOf (r : ImageRecord) : ImageKey × Nat := (r.image, r.spanCursor)

/-- The second chip's records have the images and cursors of the first. -/
def SameCursors (c d : Chip) : Prop := d.catalog.records.map cursorOf = c.catalog.records.map cursorOf

theorem map_onImage_cursorOf {k : ImageKey} {f : ImageRecord → ImageRecord} (hf : ∀ r, cursorOf (f r) = cursorOf r) (rs : List ImageRecord) :
    (rs.map (onImage k f)).map cursorOf = rs.map cursorOf := by
  rw [List.map_map]
  refine List.map_congr_left fun r _ => ?_
  simp only [Function.comp, onImage]
  split
  exacts [hf r, rfl]

theorem openFetch_sameCursors (i slot : Nat) (x : Candidate) (p : PeerRecord) (c : Chip) : SameCursors c (openFetch i slot x p c) := by
  rw [SameCursors, openFetch_records]
  exact map_onImage_cursorOf (by exact fun _ => rfl) _

theorem evictSegment_sameCursors (k : ImageKey) (seg slot : Nat) (c : Chip) : SameCursors c (evictSegment k seg slot c) := by
  rcases evictSegment_records k seg slot c with h | h <;> rw [SameCursors, h]
  · exact map_onImage_cursorOf (by exact fun _ => rfl) _
  · exact (map_onImage_cursorOf (by exact fun _ => rfl) _).trans (map_onImage_cursorOf (by exact fun _ => rfl) _)

/-- R40, R92. Settling moves no cursor: selection changes the states of segments and images alone. -/
theorem settle_sameCursors (c : Chip) : SameCursors c (settle c) :=
  have trans : ∀ {c d e}, SameCursors c d → SameCursors d e → SameCursors c e := fun h k => Eq.trans k h
  have still : ∀ {c d}, Stands c d → Unmoved c d → SameCursors c d := fun _ hu => by rw [SameCursors, hu.1]
  settle_does (R := SameCursors) trans still
    (runSelection_does (R := SameCursors) trans still (fun _ _ _ _ _ _ _ => openFetch_sameCursors _ _ _ _ _)
      (fun _ _ _ _ => evictSegment_sameCursors _ _ _ _)) c

/-- R92. After the round every record of the image offered has the cursor that the Offer leaves. -/
theorem offerRecord_cursor {r r' : ImageRecord} (hr' : r' ∈ (settle (offerRecord r c)).catalog.records) (himage : r'.image = r.image) :
    r'.spanCursor = (buildOffer r).2 := by
  have hmem : cursorOf r' ∈ (offerRecord r c).catalog.records.map cursorOf := settle_sameCursors (offerRecord r c) ▸ List.mem_map_of_mem hr'
  obtain ⟨q, hq, hcursor⟩ := List.mem_map.mp hmem
  obtain ⟨p, _, rfl⟩ := List.mem_map.mp hq
  dsimp only at hcursor
  split at hcursor
  · exact (congrArg Prod.snd hcursor).symm
  · next hother => exact absurd ((congrArg Prod.fst hcursor).trans himage) hother

end

/-! ## Settling O28 -/

theorem settle_offer (d : Chip) : (settle d).catalog.lastOffered = d.catalog.lastOffered ∧ (settle d).yard.onAir = d.yard.onAir := by simp

/-- R84, R90. Of the standing part a round changes the timer, the Offer, the image last offered and whose frame is on the air; the bytes there stand. -/
theorem round_standing {c d : Chip} {u : Nat} {o : OfferBody}
    (h : standing d =
      { standing c with offerRound := some (u + 2000), roundOffer := some o, lastOffered := d.catalog.lastOffered, onAir := (nextRound u c).yard.onAir }) :
    standing (settle d) =
        { standing c with
          offerRound := some (u + 2000)
          roundOffer := some o
          lastOffered := (settle d).catalog.lastOffered
          onAir := (settle d).yard.onAir } ∧
      (settle d).yard.onAir.map (fun a => a.bytes) = c.yard.onAir.map (fun a => a.bytes) := by
  obtain ⟨hlast, hair⟩ := settle_offer d
  have hnext : d.yard.onAir = (nextRound u c).yard.onAir := congrArg Standing.onAir h
  rw [settle_standing, hlast, hair, hnext]
  exact ⟨h, nextRound_bytes u c⟩

/-- Settles O28: the first qualifying record in turn is offered by `buildOffer`, and settling keeps the standing part and the cursors. -/
theorem offerRoundBuildsOffer : Obligations.OfferRoundBuildsOffer := by
  unfold Obligations.OfferRoundBuildsOffer
  refine ⟨?_, fun records last => ⟨offerOrder_of_gone, ?_⟩⟩
  · rintro ⟨c, pending⟩ u hround
    dsimp only at hround ⊢
    refine ⟨fun h => noEffect_of_run rfl (roundExpires_early hround h), fun hu hmode => ?_⟩
    have hdue := roundExpires_due hround hu hmode
    cases hfind : (offerOrder c.catalog.records c.catalog.lastOffered).find? qualifies with
    | none =>
      have hnone : ∀ r ∈ c.catalog.records, ∀ seg, ¬HeldIn r seg := fun r hr =>
        not_qualifies_iff.mp (Bool.eq_false_iff.mpr (List.find?_eq_none.mp hfind r (mem_offerOrder.mpr hr)))
      rw [buildRoundOffer_of_none (c := nextRound u c) hfind] at hdue
      obtain ⟨hstanding, hbytes⟩ := round_standing (d := offerPresence (nextRound u c)) (c := c) rfl
      have hlast := (settle_offer (offerPresence (nextRound u c))).1
      exact ⟨_, presenceOffer, exec_of_run rfl hdue, rfl, hstanding, hbytes, fun _ => ⟨rfl, hlast⟩,
        fun ⟨r, hr, seg, hheld⟩ => absurd hheld (hnone r hr seg)⟩
    | some r =>
      obtain ⟨hqualifies, l₁, l₂, horder, hbefore⟩ := List.find?_eq_some_iff_append.mp hfind
      have hheld := qualifies_iff.mp hqualifies
      have hmem : r ∈ c.catalog.records := mem_offerOrder.mp (List.mem_of_find?_eq_some hfind)
      rw [buildRoundOffer_of_some (c := nextRound u c) hfind] at hdue
      obtain ⟨hstanding, hbytes⟩ := round_standing (d := offerRecord r (nextRound u c)) (c := c) rfl
      obtain ⟨himage, hfirst, hfew, hapart, hspan, hrest⟩ := buildOffer_offers r
      have hcursor : ∀ {n}, (buildOffer r).2 = n →
          ∀ r' ∈ (settle (offerRecord r (nextRound u c))).catalog.records, r'.image = r.image → r'.spanCursor = n :=
    fun hn r' hr' hsame => (offerRecord_cursor hr' hsame).trans hn
      refine ⟨_, (buildOffer r).1, exec_of_run rfl hdue, rfl, hstanding, hbytes, fun hnone => hheld.elim fun seg h => absurd h (hnone r hmem seg), fun _ =>
        ⟨l₁, r, l₂, horder, fun x hx => ?_, hheld, himage, (settle_offer _).1, hfirst, hfew, hapart, hspan, ?_⟩⟩
      · exact not_qualifies_iff.mp (by simpa using hbefore x hx)
      · exact hrest.imp (fun ⟨hlast, hback⟩ => ⟨hlast, hcursor hback⟩) (fun ⟨hlast, hfull, hon⟩ => ⟨hlast, hfull, hcursor hon⟩)
  · rintro k l₁ r l₂ rfl rfl rfl hbefore
    exact offerOrder_of_held hbefore

end Sys2Proof.Machine
end

