-- ==== Sys2Proof/Proofs/FlashKept.lean ====
section
/-!
SUPPORT. The operations that leave the store's memory as it is: all but the ends of programs and erases, and a start (R96).
-/
namespace Sys2Proof.Machine

theorem flash_of_stands {c d : Chip} (h : Stands c d) : d.store.flash = c.store.flash := congrArg Standing.flash (standing_of_stands h)

theorem Reports.flash {c d : Chip} (h : Reports c d) : d.store.flash = c.store.flash := flash_of_stands h.1.1

theorem StandsButLoad.flash {c d : Chip} (h : StandsButLoad c d) : d.store.flash = c.store.flash := congrArg Standing.flash h

theorem forEach_flash {α : Type} {f : α → Chip → Chip} {xs : List α} (h : ∀ x c, (f x c).store.flash = c.store.flash) (c : Chip) :
    (forEach xs f c).store.flash = c.store.flash :=
  forEach_same (g := fun c => c.store.flash) (fun x _ c => h x c) c

/-! ## Units and their targets (R138 to R141) -/

@[simp] theorem noticeChanged_flash (c : Chip) : (noticeChanged c).store.flash = c.store.flash := rfl

@[simp] theorem selectUnits_flash (c : Chip) : (selectUnits c).store.flash = c.store.flash := forEach_flash (fun a c => by simp) c

/-! ## Peers (R20 to R34) -/

@[simp] theorem withdrawSegment_flash (id : Nat) (k : ImageKey) (seg : Nat) (c : Chip) :
    (withdrawSegment id k seg c).store.flash = c.store.flash := by
  simp [withdrawSegment]

@[simp] theorem withdrawImage_flash (id : Nat) (k : ImageKey) (c : Chip) : (withdrawImage id k c).store.flash = c.store.flash := by
  simp [withdrawImage]

@[simp] theorem recordBeacon_flash (sender depth : Nat) (c : Chip) : (recordBeacon sender depth c).store.flash = c.store.flash := rfl

/-! ## Store slots and the urgent lane (R85, R101 to R104) -/

@[simp] theorem retire_flash (slot detail : Nat) (c : Chip) : (retire slot detail c).store.flash = c.store.flash := rfl

@[simp] theorem finishRelease_flash (slot : Nat) (c : Chip) : (finishRelease slot c).store.flash = c.store.flash := by
  unfold finishRelease
  (repeat' split) <;> simp

/-! ## The catalog and the round (R14 to R17, R91) -/

@[simp] theorem completeIfHeld_flash (k : ImageKey) (c : Chip) : (completeIfHeld k c).store.flash = c.store.flash := by rw [completeIfHeld_store]

@[simp] theorem holdSegment_flash (k : ImageKey) (seg slot : Nat) (c : Chip) : (holdSegment k seg slot c).store.flash = c.store.flash :=
  flash_of_stands (holdSegment_leavesChecks k seg slot c).stands

@[simp] theorem buildRoundOffer_flash (c : Chip) : (buildRoundOffer c).store.flash = c.store.flash := by
  unfold buildRoundOffer
  (repeat' split) <;> simp

/-! ## Fetches (R38 to R61) -/

@[simp] theorem failFetch_flash (i detail : Nat) (f : OpenFetch) (c : Chip) : (failFetch i detail f c).store.flash = c.store.flash := by
  simp [failFetch]

@[simp] theorem demandSwitch_flash (i : Nat) (owes : Bool) (c : Chip) :
    (demandSwitch i owes c).store.flash = c.store.flash := (demandSwitch_reports i owes c).flash

@[simp] theorem switchAway_flash (peer : Nat) (c : Chip) : (switchAway peer c).store.flash = c.store.flash := (switchAway_reports peer c).flash

@[simp] theorem onBlock_flash (sender : Nat) (b : BlockBody) (c : Chip) :
    (onBlock sender b c).store.flash = c.store.flash := (onBlock_reports sender b c).flash

@[simp] theorem blockProgrammed_flash (i b : Nat) (c : Chip) :
    (blockProgrammed i b c).store.flash = c.store.flash := (blockProgrammed_reports i b c).flash

theorem onReply_flash {effect : Chip → Chip} (h : ∀ c, (effect c).store.flash = c.store.flash) (sender asker : Nat) (k : ImageKey) (seg : Nat) (c : Chip) :
    (onReply effect sender asker k seg c).store.flash = c.store.flash := by
  unfold onReply
  split
  exacts [(demandSwitch_flash _ _ _).trans (h c), rfl]

@[simp] theorem askSent_flash (i : Nat) (k : ImageKey) (seg peer base : Nat) (mask : BitVec 16) (c : Chip) :
    (askSent i k seg peer base mask c).store.flash = c.store.flash := by
  unfold askSent
  (repeat' split) <;> simp

@[simp] theorem departFetch_flash (i : Nat) (c : Chip) : (departFetch i c).store.flash = c.store.flash := by
  unfold departFetch
  (repeat' split) <;> simp

@[simp] theorem departCheck_flash (q : CheckRequest) (c : Chip) : (departCheck q c).store.flash = c.store.flash := by
  unfold departCheck
  (repeat' split) <;> simp

@[simp] theorem departFetches_flash (c : Chip) : (departFetches c).store.flash = c.store.flash :=
  (forEach_flash (f := departCheck) departCheck_flash { forEach [0, 1, 2, 3] departFetch c with store.checkQueue := _ }).trans
    (forEach_flash departFetch_flash c)

/-! ## Serving and a frame's sender (R21, R62 to R75) -/

@[simp] theorem dropQueued_flash (e : AskEntry) (c : Chip) : (dropQueued e c).store.flash = c.store.flash := rfl

@[simp] theorem replaceInSlot_flash (i : Nat) (e : AskEntry) (c : Chip) : (replaceInSlot i e c).store.flash = c.store.flash := by
  unfold replaceInSlot
  (repeat' split) <;> simp

@[simp] theorem answerAsk_flash (e : AskEntry) (c : Chip) : (answerAsk e c).store.flash = c.store.flash := by
  unfold answerAsk
  (repeat' split) <;> simp

@[simp] theorem onAsk_flash (server : Nat) (e : AskEntry) (c : Chip) : (onAsk server e c).store.flash = c.store.flash := by
  unfold onAsk
  (repeat' split) <;> simp

@[simp] theorem serveReadDone_flash (i : Nat) (bytes : List Byte) (c : Chip) : (serveReadDone i bytes c).store.flash = c.store.flash := by
  unfold serveReadDone
  (repeat' split) <;> simp

@[simp] theorem blockSent_flash (i asker : Nat) (k : ImageKey) (seg : Nat) (c : Chip) : (blockSent i asker k seg c).store.flash = c.store.flash := by
  unfold blockSent
  (repeat' split) <;> simp

@[simp] theorem suspendServing_flash (c : Chip) : (suspendServing c).store.flash = c.store.flash := rfl

@[simp] theorem announceDeparture_flash (id : Nat) (c : Chip) :
    (announceDeparture id c).store.flash = c.store.flash := (announceDeparture_reports id c).flash

@[simp] theorem presence_flash (f : RxFrame) (c : Chip) : (presence f c).store.flash = c.store.flash := flash_of_stands (presence_stands f c).1

/-! ## The cabin line (R113 to R125) -/

@[simp] theorem discardLine_flash (client : LineClient) (address : Nat) (c : Chip) : (discardLine client address c).store.flash = c.store.flash := rfl

@[simp] theorem lineQuiet_flash (c : Chip) : (lineQuiet c).store.flash = c.store.flash := rfl

@[simp] theorem closeRecovery_flash (c : Chip) : (closeRecovery c).store.flash = c.store.flash := by
  unfold closeRecovery
  (repeat' split) <;> simp

@[simp] theorem wireChange_flash (clock data : Bool) (c : Chip) : (wireChange clock data c).store.flash = c.store.flash := by
  unfold wireChange
  dsimp only
  (repeat' split) <;> simp

@[simp] theorem quietElapsed_flash (c : Chip) : (quietElapsed c).store.flash = c.store.flash := by
  unfold quietElapsed
  (repeat' split) <;> simp

@[simp] theorem leaveLine_flash (steps : List LineStep) (c : Chip) : (leaveLine steps c).store.flash = c.store.flash := rfl

@[simp] theorem abandonLine_flash (c : Chip) : (abandonLine c).store.flash = c.store.flash := rfl

@[simp] theorem loseLine_flash (q : CurrentRequest) (c : Chip) : (loseLine q c).store.flash = c.store.flash := rfl

@[simp] theorem reportLineFault_flash (address : Nat) (wire : Wire) (c : Chip) : (reportLineFault address wire c).store.flash = c.store.flash := rfl

@[simp] theorem recoverLine_flash (c : Chip) : (recoverLine c).store.flash = c.store.flash := rfl

@[simp] theorem reportStuck_flash (c : Chip) : (reportStuck c).store.flash = c.store.flash := by
  unfold reportStuck
  (repeat' split) <;> simp

/-! ## The flashing job (R142 to R156) -/

@[simp] theorem takeIdentity_flash (address : Nat) (r : Identity) (c : Chip) : (takeIdentity address r c).store.flash = c.store.flash := by
  unfold takeIdentity
  (repeat' split) <;> simp

@[simp] theorem flashReadDone_flash (packet : Nat) (raw : List Byte) (c : Chip) : (flashReadDone packet raw c).store.flash = c.store.flash := rfl

@[simp] theorem failJob_flash (j : JobRecord) (r : FailReason) (c : Chip) : (failJob j r c).store.flash = c.store.flash := by
  simp [failJob]

@[simp] theorem failAttempt_flash (j : JobRecord) (r : FailReason) (c : Chip) : (failAttempt j r c).store.flash = c.store.flash := by
  unfold failAttempt
  dsimp only
  (repeat' split) <;> simp

@[simp] theorem finishStop_flash (j : JobRecord) (c : Chip) : (finishStop j c).store.flash = c.store.flash := by
  unfold finishStop
  (repeat' split) <;> simp

@[simp] theorem replanJob_flash (c : Chip) : (replanJob c).store.flash = c.store.flash := by
  unfold replanJob
  (repeat' split) <;> simp

@[simp] theorem stopFlashing_flash (c : Chip) : (stopFlashing c).store.flash = c.store.flash := by
  unfold stopFlashing
  (repeat' split) <;> simp

@[simp] theorem enterProbation_flash (j : JobRecord) (c : Chip) : (enterProbation j c).store.flash = c.store.flash := rfl

@[simp] theorem beginPackets_flash (j : JobRecord) (r : Identity) (c : Chip) : (beginPackets j r c).store.flash = c.store.flash := rfl

@[simp] theorem identifyDone_flash (j : JobRecord) (bytes : List Byte) (c : Chip) : (identifyDone j bytes c).store.flash = c.store.flash := by
  unfold identifyDone
  (repeat' split) <;> simp

@[simp] theorem packetDone_flash (j : JobRecord) (command : CabinCommand) (bytes : List Byte) (c : Chip) :
    (packetDone j command bytes c).store.flash = c.store.flash := by
  unfold packetDone
  (repeat' split) <;> simp

@[simp] theorem retryOrFail_flash (j : JobRecord) (r : FailReason) (c : Chip) : (retryOrFail j r c).store.flash = c.store.flash := by
  unfold retryOrFail
  (repeat' split) <;> simp

@[simp] theorem pauseOrFail_flash (j : JobRecord) (c : Chip) : (pauseOrFail j c).store.flash = c.store.flash := by
  unfold pauseOrFail
  (repeat' split) <;> simp

@[simp] theorem plainOutcome_flash (j : JobRecord) (command : CabinCommand) (o : LineOutcome) (c : Chip) :
    (plainOutcome j command o c).store.flash = c.store.flash := by
  unfold plainOutcome
  (repeat' split) <;> simp

@[simp] theorem noteCompleted_flash (j : JobRecord) (command : CabinCommand) (o : LineOutcome) (c : Chip) :
    (noteCompleted j command o c).store.flash = c.store.flash := by
  unfold noteCompleted
  (repeat' split) <;> simp

@[simp] theorem jobOutcome_flash (command : CabinCommand) (o : LineOutcome) (c : Chip) : (jobOutcome command o c).store.flash = c.store.flash := by
  unfold jobOutcome
  (repeat' split) <;> simp

@[simp] theorem jobPauseEnd_flash (c : Chip) : (jobPauseEnd c).store.flash = c.store.flash := by
  unfold jobPauseEnd
  (repeat' split) <;> simp

/-! ## Probation (R157 to R162) -/

@[simp] theorem dropProbation_flash (address : Nat) (c : Chip) : (dropProbation address c).store.flash = c.store.flash := rfl

@[simp] theorem presentProbation_flash (address : Nat) (k : ProbationRequest) (c : Chip) :
    (presentProbation address k c).store.flash = c.store.flash := by
  simp [presentProbation]

@[simp] theorem pollDue_flash (address : Nat) (c : Chip) : (pollDue address c).store.flash = c.store.flash := by
  unfold pollDue
  (repeat' split) <;> simp

@[simp] theorem finalDue_flash (address : Nat) (c : Chip) : (finalDue address c).store.flash = c.store.flash := by
  unfold finalDue
  (repeat' split) <;> simp

@[simp] theorem repeatDue_flash (address : Nat) (c : Chip) : (repeatDue address c).store.flash = c.store.flash := by
  unfold repeatDue
  (repeat' split) <;> simp

@[simp] theorem afterPoll_flash (address : Nat) (c : Chip) : (afterPoll address c).store.flash = c.store.flash := by
  unfold afterPoll
  (repeat' split) <;> simp

@[simp] theorem repeatLater_flash (address : Nat) (k : ProbationRequest) (c : Chip) : (repeatLater address k c).store.flash = c.store.flash := rfl

@[simp] theorem endRolledBack_flash (address reason : Nat) (c : Chip) : (endRolledBack address reason c).store.flash = c.store.flash := by
  simp [endRolledBack]

@[simp] theorem endDone_flash (address : Nat) (c : Chip) : (endDone address c).store.flash = c.store.flash := by
  simp [endDone]

@[simp] theorem endUnreachable_flash (address : Nat) (c : Chip) : (endUnreachable address c).store.flash = c.store.flash := by
  simp [endUnreachable]

@[simp] theorem endConfirmed_flash (address : Nat) (new : Bank) (c : Chip) : (endConfirmed address new c).store.flash = c.store.flash := by
  simp [endConfirmed]

@[simp] theorem setActive_flash (address : Nat) (k : Bank) (c : Chip) : (setActive address k c).store.flash = c.store.flash := rfl

@[simp] theorem afterUnanswered_flash (address : Nat) (k : ProbationRequest) (c : Chip) :
    (afterUnanswered address k c).store.flash = c.store.flash := by
  unfold afterUnanswered
  (repeat' split) <;> simp

@[simp] theorem unansweredRequest_flash (p : ProbationRecord) (k : ProbationRequest) (c : Chip) :
    (unansweredRequest p k c).store.flash = c.store.flash := by
  unfold unansweredRequest
  (repeat' split) <;> simp

@[simp] theorem actOnVerdict_flash (p : ProbationRecord) (v : HealthVerdict) (c : Chip) : (actOnVerdict p v c).store.flash = c.store.flash := by
  unfold actOnVerdict
  (repeat' split) <;> simp

@[simp] theorem healthDone_flash (p : ProbationRecord) (k : ProbationRequest) (bytes : List Byte) (c : Chip) :
    (healthDone p k bytes c).store.flash = c.store.flash := by
  unfold healthDone
  dsimp only
  (repeat' split) <;> simp

@[simp] theorem confirmDone_flash (p : ProbationRecord) (bytes : List Byte) (c : Chip) : (confirmDone p bytes c).store.flash = c.store.flash := by
  unfold confirmDone
  (repeat' split) <;> simp

@[simp] theorem probationDone_flash (p : ProbationRecord) (k : ProbationRequest) (bytes : List Byte) (c : Chip) :
    (probationDone p k bytes c).store.flash = c.store.flash := by
  unfold probationDone
  (repeat' split) <;> simp

@[simp] theorem probationOutcome_flash (address : Nat) (o : LineOutcome) (c : Chip) : (probationOutcome address o c).store.flash = c.store.flash := by
  unfold probationOutcome
  (repeat' split) <;> simp

/-! ## Plans, admission and loads (R4 to R13, R188) -/

@[simp] theorem presentPiece_flash (body : List Byte) (position i : Nat) (c : Chip) :
    (presentPiece body position i c).store.flash = c.store.flash := rfl

@[simp] theorem startPersist_flash (c : Chip) : (startPersist c).store.flash = c.store.flash := by
  unfold startPersist
  (repeat' split) <;> simp

@[simp] theorem persistRequest_flash (c : Chip) : (persistRequest c).store.flash = c.store.flash := by
  unfold persistRequest
  (repeat' split) <;> simp

@[simp] theorem persistEnded_flash (written : Nat) (c : Chip) : (persistEnded written c).store.flash = c.store.flash := by
  unfold persistEnded
  dsimp only
  (repeat' split) <;> simp

@[simp] theorem pieceProgrammed_flash (c : Chip) : (pieceProgrammed c).store.flash = c.store.flash := by
  unfold pieceProgrammed
  (repeat' split) <;> simp

@[simp] theorem copyErased_flash (c : Chip) : (copyErased c).store.flash = c.store.flash := by
  unfold copyErased
  (repeat' split) <;> simp

@[simp] theorem copyFailed_flash (detail : Nat) (c : Chip) : (copyFailed detail c).store.flash = c.store.flash := by
  unfold copyFailed
  (repeat' split) <;> simp

@[simp] theorem endLoad_flash (l : Load) (detail : Nat) (c : Chip) : (endLoad l detail c).store.flash = c.store.flash := rfl

@[simp] theorem takeIn_flash (order : List Admitted) (c : Chip) : (takeIn order c).store.flash = c.store.flash := (takeIn_standsButLoad order c).flash

@[simp] theorem admission_flash (c : Chip) : (admission c).store.flash = c.store.flash := by
  simp [admission]

@[simp] theorem startAdmission_flash (c : Chip) : (startAdmission c).store.flash = c.store.flash := by
  unfold startAdmission
  (repeat' split) <;> simp

@[simp] theorem replanUnits_flash (c : Chip) : (replanUnits c).store.flash = c.store.flash := flash_of_stands (replanUnits_does c).1

@[simp] theorem adoptPlan_flash (body : List Byte) (c : Chip) : (adoptPlan body c).store.flash = c.store.flash := by
  simp [adoptPlan]

@[simp] theorem onPlan_flash (originFlag : Bool) (payload : List Byte) (c : Chip) : (onPlan originFlag payload c).store.flash = c.store.flash := by
  unfold onPlan
  (repeat' split) <;> simp

@[simp] theorem compareSerial_flash (f : RxFrame) (c : Chip) : (compareSerial f c).store.flash = c.store.flash := by
  unfold compareSerial
  (repeat' split) <;> simp

@[simp] theorem onPlanAsk_flash (named : Nat) (c : Chip) : (onPlanAsk named c).store.flash = c.store.flash := by
  unfold onPlanAsk
  (repeat' split) <;> simp

@[simp] theorem reportRestored_flash (copies : List (List Byte)) (c : Chip) : (reportRestored copies c).store.flash = c.store.flash := by
  unfold reportRestored
  (repeat' split) <;> simp

@[simp] theorem restorePlan_flash (c : Chip) : (restorePlan c).store.flash = c.store.flash := by
  simp [restorePlan]

/-! ## The census and the outcomes handed over (R119, R132 to R136) -/

@[simp] theorem abandonCensus_flash (detail : Nat) (c : Chip) : (abandonCensus detail c).store.flash = c.store.flash := rfl

@[simp] theorem departCensus_flash (c : Chip) : (departCensus c).store.flash = c.store.flash := by
  unfold departCensus
  (repeat' split) <;> simp

@[simp] theorem endLostProbations_flash (units : List UnitEntry) (c : Chip) : (endLostProbations units c).store.flash = c.store.flash :=
  forEach_flash (fun a c => dropProbation_flash a c) c

@[simp] theorem reportOverflow_flash (l : List (Nat × Identity)) (c : Chip) : (reportOverflow l c).store.flash = c.store.flash := by
  unfold reportOverflow
  (repeat' split) <;> simp

@[simp] theorem completeCensus_flash (c : Chip) : (completeCensus c).store.flash = c.store.flash := by
  simp [completeCensus]

@[simp] theorem surveyNext_flash (c : Chip) : (surveyNext c).store.flash = c.store.flash := by
  unfold surveyNext
  (repeat' split) <;> simp

@[simp] theorem reportIdentity_flash (detail : Nat) (c : Chip) : (reportIdentity detail c).store.flash = c.store.flash := rfl

@[simp] theorem censusOutcome_flash (o : LineOutcome) (c : Chip) : (censusOutcome o c).store.flash = c.store.flash := by
  unfold censusOutcome
  dsimp only
  (repeat' split) <;> simp

@[simp] theorem censusPauseEnd_flash (c : Chip) : (censusPauseEnd c).store.flash = c.store.flash := by
  unfold censusPauseEnd
  (repeat' split) <;> simp

@[simp] theorem deliver_flash (q : CurrentRequest) (o : LineOutcome) (c : Chip) : (deliver q o c).store.flash = c.store.flash := by
  unfold deliver
  (repeat' split) <;> simp

@[simp] theorem transactionEnds_flash (nak : Option Nat) (received : List Byte) (c : Chip) :
    (transactionEnds nak received c).store.flash = c.store.flash := by
  unfold transactionEnds
  (repeat' split) <;> simp

@[simp] theorem arbitrationLoss_flash (c : Chip) : (arbitrationLoss c).store.flash = c.store.flash := by
  unfold arbitrationLoss
  (repeat' split) <;> simp

@[simp] theorem lineFault_flash (wire : Wire) (c : Chip) : (lineFault wire c).store.flash = c.store.flash := by
  unfold lineFault
  (repeat' split) <;> simp

@[simp] theorem holdTimeout_flash (heldMs : Nat) (c : Chip) : (holdTimeout heldMs c).store.flash = c.store.flash := by
  unfold holdTimeout
  (repeat' split) <;> simp

@[simp] theorem recovered_flash (c : Chip) : (recovered c).store.flash = c.store.flash := by
  unfold recovered
  (repeat' split) <;> simp

/-! ## The yard link's other events (R78 to R94) -/

@[simp] theorem sendScheduled_flash (source : TxSource) (bytes : List Byte) (c : Chip) :
    (sendScheduled source bytes c).store.flash = c.store.flash := rfl

@[simp] theorem takeBlock_flash (n : Nat) (c : Chip) : (takeBlock n c).store.flash = c.store.flash := by
  unfold takeBlock
  (repeat' split) <;> simp

theorem takeOther_flash (c : Chip) : (takeLater.takeOther c).store.flash = c.store.flash := by
  unfold takeLater.takeOther
  (repeat' split) <;> simp

@[simp] theorem takeLater_flash (c : Chip) : (takeLater c).store.flash = c.store.flash := by
  unfold takeLater
  split
  · split
    exacts [takeBlock_flash _ c, takeOther_flash c]
  · exact takeOther_flash c

theorem takeAsk_flash {i : Nat} {c d : Chip} (h : takeAsk i c = some d) : d.store.flash = c.store.flash := by
  unfold takeAsk at h
  dsimp only at h
  (repeat' split at h) <;> cases h
  exact rfl

theorem takeAsks_flash (is : List Nat) (c : Chip) : (takeAsks is c).store.flash = c.store.flash := by
  induction is generalizing c with
  | nil => exact takeLater_flash c
  | cons i is ih =>
    unfold takeAsks
    split
    · exact takeLater_flash c
    · split
      · next d hd => exact takeAsk_flash hd
      · exact ih (withdrawAsk i c)

@[simp] theorem opportunity_flash (c : Chip) : (opportunity c).store.flash = c.store.flash := by
  unfold opportunity
  split
  · rfl
  · split
    exacts [takeAsks_flash _ c, rfl]

@[simp] theorem gapElapsed_flash (c : Chip) : (gapElapsed c).store.flash = c.store.flash := by
  unfold gapElapsed
  (repeat' split) <;> simp

@[simp] theorem deferElapsed_flash (c : Chip) : (deferElapsed c).store.flash = c.store.flash := by
  unfold deferElapsed
  dsimp only
  (repeat' split) <;> simp

@[simp] theorem countdownElapsed_flash (c : Chip) : (countdownElapsed c).store.flash = c.store.flash := by
  unfold countdownElapsed
  (repeat' split) <;> simp

@[simp] theorem busyRise_flash (c : Chip) : (busyRise c).store.flash = c.store.flash := by
  unfold busyRise
  dsimp only
  (repeat' split) <;> simp

@[simp] theorem busyFall_flash (c : Chip) : (busyFall c).store.flash = c.store.flash := by
  unfold busyFall
  dsimp only
  (repeat' split) <;> simp

@[simp] theorem tellSource_flash (s : TxSource) (c : Chip) : (tellSource s c).store.flash = c.store.flash := by
  unfold tellSource
  (repeat' split) <;> simp

@[simp] theorem transmissionEnds_flash (c : Chip) : (transmissionEnds c).store.flash = c.store.flash := by
  unfold transmissionEnds
  (repeat' split) <;> simp

@[simp] theorem spendOnAir_flash (c : Chip) : (spendOnAir c).store.flash = c.store.flash := rfl

@[simp] theorem startRound_flash (c : Chip) : (startRound c).store.flash = c.store.flash := rfl

@[simp] theorem roundExpires_flash (c : Chip) : (roundExpires c).store.flash = c.store.flash := by
  unfold roundExpires
  (repeat' split) <;> simp

@[simp] theorem portDeparted_flash (c : Chip) : (portDeparted c).store.flash = c.store.flash := rfl

@[simp] theorem portReturned_flash (c : Chip) : (portReturned c).store.flash = c.store.flash := by
  unfold portReturned
  dsimp only
  (repeat' split) <;> simp

@[simp] theorem openWindow_flash (c : Chip) : (openWindow c).store.flash = c.store.flash := by
  unfold openWindow
  split <;> rfl

/-! ## The clock and the departure line (R165 to R178) -/

@[simp] theorem reportAdoption_flash (before : ClockState) (sender depth : Nat) (change : Int) (c : Chip) :
    (reportAdoption before sender depth change c).store.flash = c.store.flash := by
  unfold reportAdoption
  (repeat' split) <;> simp

@[simp] theorem relayBeacon_flash (depth : Nat) (c : Chip) : (relayBeacon depth c).store.flash = c.store.flash := by
  unfold relayBeacon
  (repeat' split) <;> simp

@[simp] theorem adoptBeacon_flash (sender depth : Nat) (time : Word32) (c : Chip) :
    (adoptBeacon sender depth time c).store.flash = c.store.flash := by
  unfold adoptBeacon
  dsimp only
  (repeat' split) <;> simp

@[simp] theorem onBeacon_flash (f : RxFrame) (c : Chip) : (onBeacon f c).store.flash = c.store.flash := by
  unfold onBeacon
  dsimp only
  (repeat' split) <;> simp

@[simp] theorem beaconExpires_flash (c : Chip) : (beaconExpires c).store.flash = c.store.flash := by
  unfold beaconExpires
  (repeat' split) <;> simp

@[simp] theorem freeRun_flash (c : Chip) : (freeRun c).store.flash = c.store.flash := by
  unfold freeRun
  (repeat' split) <;> simp

@[simp] theorem notBeforeReached_flash (address : Nat) (c : Chip) : (notBeforeReached address c).store.flash = c.store.flash := by
  unfold notBeforeReached
  (repeat' split) <;> simp

@[simp] theorem lineEdge_flash (asserted : Bool) (c : Chip) : (lineEdge asserted c).store.flash = c.store.flash := by
  unfold lineEdge
  dsimp only
  (repeat' split) <;> simp

@[simp] theorem departBlocks_flash (c : Chip) : (departBlocks c).store.flash = c.store.flash := by
  simp [departBlocks]

@[simp] theorem queueLeave_flash (c : Chip) : (queueLeave c).store.flash = c.store.flash := by
  simp [queueLeave]

@[simp] theorem lineAsserted_flash (c : Chip) : (lineAsserted c).store.flash = c.store.flash := by
  unfold lineAsserted
  (repeat' split) <;> simp

@[simp] theorem readLineAtStart_flash (c : Chip) : (readLineAtStart c).store.flash = c.store.flash := by
  unfold readLineAtStart
  (repeat' split) <;> simp

@[simp] theorem leaveExpires_flash (c : Chip) : (leaveExpires c).store.flash = c.store.flash := by
  unfold leaveExpires
  (repeat' split) <;> simp

@[simp] theorem emptyPeers_flash (c : Chip) : (emptyPeers c).store.flash = c.store.flash := by
  simp [emptyPeers]

@[simp] theorem lineReleased_flash (c : Chip) : (lineReleased c).store.flash = c.store.flash := by
  unfold lineReleased
  (repeat' split) <;> simp

/-! ## Ends of store operations (R8, R58, R101 to R107, R187) -/

@[simp] theorem failLoad_flash (l : Load) (detail : Nat) (c : Chip) : (failLoad l detail c).store.flash = c.store.flash := rfl

@[simp] theorem freeChecked_flash (q : CheckRequest) (c : Chip) : (freeChecked q c).store.flash = c.store.flash := by
  unfold freeChecked
  (repeat' split) <;> simp

@[simp] theorem endCheckedLoad_flash (q : CheckRequest) (detail : Nat) (c : Chip) : (endCheckedLoad q detail c).store.flash = c.store.flash := by
  rw [(endCheckedLoad_leaves q detail c).2.1]

@[simp] theorem dropCheck_flash (q : CheckRequest) (c : Chip) : (dropCheck q c).store.flash = c.store.flash := rfl

@[simp] theorem reportSpoiled_flash (q : CheckRequest) (peer : Option Nat) (c : Chip) : (reportSpoiled q peer c).store.flash = c.store.flash := by
  unfold reportSpoiled
  (repeat' split) <;> simp

@[simp] theorem checkMismatch_flash (q : CheckRequest) (peer : Option Nat) (c : Chip) : (checkMismatch q peer c).store.flash = c.store.flash := by
  simp [checkMismatch]

@[simp] theorem compareCheck_flash (q : CheckRequest) (c : Chip) : (compareCheck q c).store.flash = c.store.flash := by
  unfold compareCheck
  (repeat' split) <;> simp

@[simp] theorem feedCheck_flash (bytes : List Byte) (q : CheckRequest) (c : Chip) : (feedCheck bytes q c).store.flash = c.store.flash := by
  unfold feedCheck
  dsimp only
  (repeat' split) <;> simp

@[simp] theorem checkReadDone_flash (c : Chip) : (checkReadDone c).store.flash = c.store.flash := by
  unfold checkReadDone
  dsimp only
  (repeat' split) <;> simp

@[simp] theorem serveRead_flash (c : Chip) : (serveRead c).store.flash = c.store.flash := by
  unfold serveRead
  (repeat' split) <;> simp

@[simp] theorem flasherRead_flash (c : Chip) : (flasherRead c).store.flash = c.store.flash := by
  unfold flasherRead
  (repeat' split) <;> simp

@[simp] theorem failCommission_flash (detail : Nat) (c : Chip) : (failCommission detail c).store.flash = c.store.flash := rfl

/-! ## The start scan (R108 to R112) -/

@[simp] theorem unconfigure_flash (c : Chip) : (unconfigure c).store.flash = c.store.flash := rfl

@[simp] theorem takeConfig_flash (r : ConfigRecord) (c : Chip) : (takeConfig r c).store.flash = c.store.flash := by
  simp [takeConfig]

@[simp] theorem configRead_flash (c : Chip) : (configRead c).store.flash = c.store.flash := by
  unfold configRead
  dsimp only
  (repeat' split) <;> simp

@[simp] theorem planCopyRead_flash (c : Chip) : (planCopyRead c).store.flash = c.store.flash := by
  unfold planCopyRead
  (repeat' split) <;> simp

@[simp] theorem dropFinding_flash (f : Finding) (c : Chip) : (dropFinding f c).store.flash = c.store.flash := rfl

@[simp] theorem manifestPhase_flash (c : Chip) : (manifestPhase c).store.flash = c.store.flash := (manifestPhase_does c).1.flash

@[simp] theorem manifestRead_flash (c : Chip) : (manifestRead c).store.flash = c.store.flash := by
  unfold manifestRead
  dsimp only
  (repeat' split) <;> simp

@[simp] theorem classifySlot_flash (slot : Nat) (k : SpareClass) (c : Chip) : (classifySlot slot k c).store.flash = c.store.flash := by
  unfold classifySlot
  (repeat' split) <;> simp

@[simp] theorem sweepRead_flash (c : Chip) : (sweepRead c).store.flash = c.store.flash := by
  unfold sweepRead
  dsimp only
  (repeat' split) <;> simp

/-! ## Commands of the local port (R179 to R196) -/

theorem handled_flash {f : Chip → Chip} (h : ∀ c, (f c).store.flash = c.store.flash) (k : CommandClass) (code : Nat) (c : Chip) :
    (handled k code f c).store.flash = c.store.flash := by
  unfold handled
  split
  exacts [rfl, h c]

@[simp] theorem say_flash (status : Status) (code : Nat) (c : Chip) : (say status code c).store.flash = c.store.flash := rfl

@[simp] theorem onStatus_flash (c : Chip) : (onStatus c).store.flash = c.store.flash := rfl

@[simp] theorem onReadUnits_flash (c : Chip) : (onReadUnits c).store.flash = c.store.flash :=
  handled_flash (by exact fun _ => rfl) _ _ c

@[simp] theorem onReadCatalog_flash (position : Byte) (first : BitVec 16) (c : Chip) : (onReadCatalog position first c).store.flash = c.store.flash :=
  handled_flash (by exact fun _ => rfl) _ _ c

@[simp] theorem onReadReports_flash (n : BitVec 16) (c : Chip) : (onReadReports n c).store.flash = c.store.flash :=
  handled_flash (by exact fun _ => rfl) _ _ c

@[simp] theorem onSetDeparture_flash (seconds : Word32) (c : Chip) : (onSetDeparture seconds c).store.flash = c.store.flash :=
  handled_flash (fun c => by (repeat' split) <;> simp) _ _ c

@[simp] theorem onClearDeparture_flash (c : Chip) : (onClearDeparture c).store.flash = c.store.flash :=
  handled_flash (fun c => by (repeat' split) <;> simp) _ _ c

@[simp] theorem onCensus_flash (c : Chip) : (onCensus c).store.flash = c.store.flash :=
  handled_flash (fun c => by (repeat' split) <;> simp) _ _ c

@[simp] theorem onRestart_flash (c : Chip) : (onRestart c).store.flash = c.store.flash := rfl

@[simp] theorem onCommission_flash (record : List Byte) (c : Chip) : (onCommission record c).store.flash = c.store.flash := by
  unfold onCommission
  (repeat' split) <;> simp

theorem originOnly_flash {f : Chip → Chip} (h : ∀ c, (f c).store.flash = c.store.flash) (code : Nat) (c : Chip) :
    (originOnly code f c).store.flash = c.store.flash :=
  handled_flash (fun c => by split; exacts [say_flash _ _ c, h c]) _ _ c

@[simp] theorem onLoadPlan_flash (serial : Word32) (count : Byte) (entries : List Byte) (c : Chip) :
    (onLoadPlan serial count entries c).store.flash = c.store.flash :=
  originOnly_flash (fun c => by (repeat' split) <;> simp) _ c

@[simp] theorem openLoad_flash (k : ImageKey) (seg slot : Nat) (c : Chip) : (openLoad k seg slot c).store.flash = c.store.flash := rfl

@[simp] theorem onLoadOpen_flash (id version segment slot : BitVec 16) (c : Chip) :
    (onLoadOpen id version segment slot c).store.flash = c.store.flash :=
  originOnly_flash (fun c => (say_flash _ 0x11 _).trans (by split; exacts [openLoad_flash _ _ _ c, rfl])) _ c

@[simp] theorem onLoadBlock_flash (index : Byte) (data : List Byte) (c : Chip) : (onLoadBlock index data c).store.flash = c.store.flash := by
  unfold onLoadBlock
  split
  · exact say_flash _ _ c
  · exact originOnly_flash (fun c => by dsimp only; (repeat' split) <;> simp) _ c

@[simp] theorem closeCheck_flash (l : Load) (c : Chip) : (closeCheck l c).store.flash = c.store.flash := rfl

@[simp] theorem closeDiscard_flash (l : Load) (c : Chip) : (closeDiscard l c).store.flash = c.store.flash := by
  simp [closeDiscard]

@[simp] theorem onLoadClose_flash (mode : Byte) (c : Chip) : (onLoadClose mode c).store.flash = c.store.flash :=
  originOnly_flash (fun c => by (repeat' split) <;> simp) _ c

@[simp] theorem onBadFrame_flash (frame : List Byte) (c : Chip) : (onBadFrame frame c).store.flash = c.store.flash := by
  unfold onBadFrame
  (repeat' split) <;> simp

/-! ## Received frames (R79, R80) -/

@[simp] theorem markBusy_flash (id : Nat) (c : Chip) : (markBusy id c).store.flash = c.store.flash := rfl

@[simp] theorem onBusy_flash (unknown : Bool) (f : RxFrame) (c : Chip) : (onBusy unknown f c).store.flash = c.store.flash := by
  have hmark : ∀ b : Bool, (if b then markBusy f.sender c else c).store.flash = c.store.flash := fun b => by split <;> simp
  exact (onReply_flash (fun c => markBusy_flash f.sender c) _ _ _ _ _).trans (hmark _)

/-- R80. What presence, the frame's owner and the comparison leave. -/
theorem receive_flash {owner : RxFrame → Chip → Chip} (h : ∀ f c, (owner f c).store.flash = c.store.flash) (kind : FrameKind) (frame : List Byte)
    (c : Chip) : (receive kind owner frame c).store.flash = c.store.flash := by
  unfold receive
  split
  · rfl
  · split
    · rfl
    · next f _ =>
      split
      exacts [(compareSerial_flash f _).trans ((h f _).trans (presence_flash f c)), rfl]

/-! ## Times reached (R18, R23, R31, R32, R51) -/

@[simp] theorem fetchTimerExpires_flash (i : Nat) (c : Chip) : (fetchTimerExpires i c).store.flash = c.store.flash := by
  unfold fetchTimerExpires
  (repeat' split) <;> simp [(endWindow_reports i c).flash]

@[simp] theorem coolingEnds_flash (k : ImageKey) (seg : Nat) (c : Chip) : (coolingEnds k seg c).store.flash = c.store.flash := by
  unfold coolingEnds
  (repeat' split) <;> simp

@[simp] theorem peerExpires_flash (id : Nat) (c : Chip) : (peerExpires id c).store.flash = c.store.flash := by
  unfold peerExpires
  (repeat' split) <;> simp

@[simp] theorem shunEnds_flash (id : Nat) (c : Chip) : (shunEnds id c).store.flash = c.store.flash := by
  unfold shunEnds
  (repeat' split) <;> simp

@[simp] theorem busyMarkEnds_flash (id : Nat) (c : Chip) : (busyMarkEnds id c).store.flash = c.store.flash := by
  unfold busyMarkEnds
  (repeat' split) <;> simp

end Sys2Proof.Machine
end

