-- ==== Sys2Proof/Proofs/FlashForm.lean ====
section
/-!
SUPPORT. The canonical form of the store's memory through every command (R96): the ends of programs and erases, a start, and all that leaves the memory.
-/
namespace Sys2Proof.Machine

variable {c d : Chip}

/-! ## Programs and erases -/

/-- The store's memory is in its canonical form. -/
def Canonical (c : Chip) : Prop := Memory.wf c.store.flash

theorem Canonical.of_flash (h : Canonical c) (hflash : d.store.flash = c.store.flash) : Canonical d := by rwa [Canonical, hflash]

theorem Canonical.of_program (h : Canonical c) {a : Nat} {bs : List Byte} (hflash : d.store.flash = Memory.program c.store.flash a bs) : Canonical d := by
  rw [Canonical, hflash]
  exact program_wf _ _ _ h

theorem programFlash_canonical (h : Canonical c) (a : Nat) (bs : List Byte) : Canonical (programFlash a bs c) := program_wf _ _ _ h

theorem spoilProgram_canonical (h : Canonical c) (a n : Nat) : Canonical (spoilProgram a n c) := program_wf _ _ _ h

theorem eraseFlash_canonical (h : Canonical c) (slot : Nat) : Canonical (eraseFlash slot c) := eraseSlot_wf _ _ h

theorem spoilErase_canonical (h : Canonical c) (slot : Nat) : Canonical (spoilErase slot c) := write_wf _ _ _ h

theorem spoilPlanProgram_canonical (h : Canonical c) (position piece len : Nat) : Canonical (spoilPlanProgram position piece len c) := by
  obtain ⟨f, hspoiled, hflash | hflash⟩ := spoilPlanProgram_does position piece len c <;> rw [hspoiled, hflash]
  exacts [h, spoilProgram_canonical h _ _]

theorem spoilPlanErase_canonical (h : Canonical c) : Canonical (spoilPlanErase c) := by
  obtain ⟨f, hspoiled, hflash | hflash⟩ := spoilPlanErase_does c <;> rw [hspoiled, hflash]
  exacts [spoilErase_canonical h 1, eraseFlash_canonical (spoilErase_canonical h 1) 1]

/-! ## Ends of store operations -/

section
variable (h : Canonical c)
include h

theorem fetchBlockDone_canonical : Canonical (fetchBlockDone c) := by
  unfold fetchBlockDone
  dsimp only
  split
  · split <;> exact h.of_program (by simp; rfl)
  · exact h

theorem fetchBlockFailed_canonical : Canonical (fetchBlockFailed c) := by
  unfold fetchBlockFailed
  dsimp only
  split
  · split <;> exact h.of_program (by simp; rfl)
  · exact h

theorem claimDone_canonical : Canonical (claimDone c) := by
  unfold claimDone
  dsimp only
  split
  · split <;> exact h.of_program (by simp; rfl)
  · split <;> exact h.of_program (by simp; rfl)
  · exact h

theorem claimFailed_canonical : Canonical (claimFailed c) := by
  unfold claimFailed
  dsimp only
  split
  · split <;> exact h.of_program (by simp; rfl)
  · split <;> exact h.of_program (by simp; rfl)
  · exact h

theorem headerDone_canonical : Canonical (headerDone c) := by
  unfold headerDone
  dsimp only
  split
  · (repeat' split) <;> exact h.of_program (by simp; rfl)
  · exact h

theorem headerFailed_canonical : Canonical (headerFailed c) := by
  unfold headerFailed
  dsimp only
  split
  · (repeat' split) <;> exact h.of_program (by simp; rfl)
  · exact h

theorem slotErased_canonical : Canonical (slotErased c) := by
  unfold slotErased
  split
  exacts [eraseFlash_canonical (c := freeDevice c) h _, h]

theorem slotEraseFailed_canonical : Canonical (slotEraseFailed c) := by
  unfold slotEraseFailed
  split
  exacts [spoilErase_canonical (c := freeDevice c) h _, h]

theorem eraseMarked_canonical : Canonical (eraseMarked c) := by
  unfold eraseMarked
  split
  exacts [programFlash_canonical (c := freeDevice c) h _ _, h]

theorem eraseMarkFailed_canonical : Canonical (eraseMarkFailed c) := by
  unfold eraseMarkFailed
  split
  exacts [spoilProgram_canonical (c := freeDevice c) h _ _, h]

theorem retiredMarkEnded_canonical (completed : Bool) : Canonical (retiredMarkEnded completed c) := by
  unfold retiredMarkEnded
  split
  · cases completed
    exacts [spoilProgram_canonical (c := freeDevice c) h _ _, programFlash_canonical (c := freeDevice c) h _ _]
  · exact h

theorem planProgrammed_canonical : Canonical (planProgrammed c) := by
  unfold planProgrammed
  split
  exacts [h.of_program (by simp; rfl), h]

theorem planProgramFailed_canonical : Canonical (planProgramFailed c) := by
  unfold planProgramFailed
  split
  exacts [(spoilPlanProgram_canonical (c := freeDevice c) h _ _ _).of_flash (copyFailed_flash 1 _), h]

theorem planErased_canonical : Canonical (planErased c) := by
  unfold planErased
  split
  exacts [(eraseFlash_canonical (c := freeDevice c) h 1).of_flash (copyErased_flash _), h]

theorem planEraseFailed_canonical : Canonical (planEraseFailed c) := by
  unfold planEraseFailed
  split
  exacts [(spoilPlanErase_canonical (c := freeDevice c) h).of_flash (copyFailed_flash 3 _), h]

theorem commissionErased_canonical : Canonical (commissionErased c) := by
  unfold commissionErased
  split
  exacts [eraseFlash_canonical (c := freeDevice c) h _, h]

theorem commissionEraseFailed_canonical : Canonical (commissionEraseFailed c) := by
  unfold commissionEraseFailed
  split
  exacts [spoilErase_canonical (c := freeDevice c) h _, h]

theorem commissioned_canonical : Canonical (commissioned c) := by
  unfold commissioned
  split
  exacts [programFlash_canonical (c := freeDevice c) h _ _, h]

theorem commissionProgramFailed_canonical : Canonical (commissionProgramFailed c) := by
  unfold commissionProgramFailed
  split
  exacts [spoilProgram_canonical (c := freeDevice c) h _ _, h]

theorem loadBlockDone_canonical : Canonical (loadBlockDone c) := by
  unfold loadBlockDone
  dsimp only
  split
  · split <;> exact h.of_program (by simp; rfl)
  · exact h

theorem loadBlockFailed_canonical : Canonical (loadBlockFailed c) := by
  unfold loadBlockFailed
  dsimp only
  split
  · split <;> exact h.of_program (by simp; rfl)
  · exact h

/-! ## A start (R184, log 10) -/

/-- R184. What an operation cut off leaves. -/
theorem cutOff_canonical : Canonical (cutOff c) := by
  unfold cutOff
  split
  · exact h
  · next o _ =>
    cases o.op with
    | fetchClaim fetch slot => exact spoilProgram_canonical h _ _
    | loadClaim slot => exact spoilProgram_canonical h _ _
    | fetchBlock fetch slot index data => exact spoilProgram_canonical h _ _
    | loadBlock slot index data => exact spoilProgram_canonical h _ _
    | checkHeader slot bytes => exact spoilProgram_canonical h _ _
    | planProgram position piece data => exact spoilPlanProgram_canonical h _ _ _
    | planErase => exact spoilPlanErase_canonical h
    | commissionErase => exact spoilErase_canonical h 0
    | commissionProgram data => exact spoilProgram_canonical h _ _
    | slotErase slot => exact spoilErase_canonical h slot
    | eraseMark slot => exact spoilProgram_canonical h _ _
    | retiredMark slot => exact spoilProgram_canonical h _ _
    | checkRead slot index => exact h
    | serveRead serve slot index => exact h
    | flashRead packet image segment slot index => exact h
    | scanConfig => exact h
    | scanPlan index => exact h
    | scanSpare slot => exact h
    | scanManifest slot index => exact h

theorem startPart_canonical (pins : Pins) (detail : Nat) : Canonical (startPart pins detail c) := by
  have hvoid : Canonical (voidRecord (cutOff c)) := by
    unfold voidRecord
    split
    exacts [eraseFlash_canonical (cutOff_canonical h) 0, cutOff_canonical h]
  exact hvoid.of_flash rfl

end

/-! ## Every command -/

/-- R96. A command's own effect leaves the store's memory, or puts a program, an erase or what is left of one into it. -/
theorem exec_canonical (i : Instr) (s : State) (h : Canonical s.chip) : ∃ d, exec i s = .next { s with chip := settle d } ∧ Canonical d := by
  cases i with
  | powerOn pins => exact ⟨_, rfl, startPart_canonical h _ _⟩
  | restartSelectRelease =>
    refine ⟨_, rfl, ?_⟩
    dsimp only
    split
    exacts [startPart_canonical h _ _, h]
  | offer frame => exact ⟨_, rfl, h.of_flash (receive_flash (fun f c => flash_of_stands (mergeOffer_quiet _ _ c).1.1) _ _ _)⟩
  | ask frame => exact ⟨_, rfl, h.of_flash (receive_flash (fun f c => onAsk_flash _ _ c) _ _ _)⟩
  | block frame => exact ⟨_, rfl, h.of_flash (receive_flash (fun f c => onBlock_flash _ _ c) _ _ _)⟩
  | lacking frame => exact ⟨_, rfl, h.of_flash (receive_flash (fun f c => onReply_flash (withdrawSegment_flash _ _ _) _ _ _ _ c) _ _ _)⟩
  | refused frame => exact ⟨_, rfl, h.of_flash (receive_flash (fun f c => onReply_flash (withdrawImage_flash _ _) _ _ _ _ c) _ _ _)⟩
  | busy frame => exact ⟨_, rfl, h.of_flash (receive_flash (fun f c => onBusy_flash _ f c) _ _ _)⟩
  | plan frame => exact ⟨_, rfl, h.of_flash (receive_flash (fun f c => onPlan_flash _ _ c) _ _ _)⟩
  | planAsk frame => exact ⟨_, rfl, h.of_flash (receive_flash (fun f c => onPlanAsk_flash _ c) _ _ _)⟩
  | beacon frame => exact ⟨_, rfl, h.of_flash (receive_flash (fun f c => onBeacon_flash f c) _ _ _)⟩
  | leave frame => exact ⟨_, rfl, h.of_flash (receive_flash (fun f c => announceDeparture_flash _ c) _ _ _)⟩
  | fetchTimerExpiry slot => exact ⟨_, rfl, h.of_flash (fetchTimerExpires_flash slot _)⟩
  | fetchBlockProgramComplete => exact ⟨_, rfl, fetchBlockDone_canonical h⟩
  | fetchBlockProgramFailed => exact ⟨_, rfl, fetchBlockFailed_canonical h⟩
  | claimProgramComplete => exact ⟨_, rfl, claimDone_canonical h⟩
  | claimProgramFailed => exact ⟨_, rfl, claimFailed_canonical h⟩
  | coolingEnd image segment => exact ⟨_, rfl, h.of_flash (coolingEnds_flash image segment _)⟩
  | checkReadComplete => exact ⟨_, rfl, h.of_flash (checkReadDone_flash _)⟩
  | headerProgramComplete => exact ⟨_, rfl, headerDone_canonical h⟩
  | headerProgramFailed => exact ⟨_, rfl, headerFailed_canonical h⟩
  | serveReadComplete => exact ⟨_, rfl, h.of_flash (serveRead_flash _)⟩
  | slotEraseComplete => exact ⟨_, rfl, slotErased_canonical h⟩
  | slotEraseFailed => exact ⟨_, rfl, slotEraseFailed_canonical h⟩
  | slotEraseMarkProgramComplete => exact ⟨_, rfl, eraseMarked_canonical h⟩
  | slotEraseMarkProgramFailed => exact ⟨_, rfl, eraseMarkFailed_canonical h⟩
  | retiredMarkProgramEnd completed => exact ⟨_, rfl, retiredMarkEnded_canonical h completed⟩
  | configReadComplete => exact ⟨_, rfl, h.of_flash (configRead_flash _)⟩
  | planCopyReadComplete => exact ⟨_, rfl, h.of_flash (planCopyRead_flash _)⟩
  | sweepReadComplete => exact ⟨_, rfl, h.of_flash (sweepRead_flash _)⟩
  | manifestReadComplete => exact ⟨_, rfl, h.of_flash (manifestRead_flash _)⟩
  | planCopyProgramComplete => exact ⟨_, rfl, planProgrammed_canonical h⟩
  | planCopyProgramFailed => exact ⟨_, rfl, planProgramFailed_canonical h⟩
  | planCopyEraseComplete => exact ⟨_, rfl, planErased_canonical h⟩
  | planCopyEraseFailed => exact ⟨_, rfl, planEraseFailed_canonical h⟩
  | commissionEraseComplete => exact ⟨_, rfl, commissionErased_canonical h⟩
  | commissionEraseFailed => exact ⟨_, rfl, commissionEraseFailed_canonical h⟩
  | commissionProgramComplete => exact ⟨_, rfl, commissioned_canonical h⟩
  | commissionProgramFailed => exact ⟨_, rfl, commissionProgramFailed_canonical h⟩
  | loadBlockProgramComplete => exact ⟨_, rfl, loadBlockDone_canonical h⟩
  | loadBlockProgramFailed => exact ⟨_, rfl, loadBlockFailed_canonical h⟩
  | transmissionEnd => exact ⟨_, rfl, h.of_flash (transmissionEnds_flash _)⟩
  | channelBusyRise => exact ⟨_, rfl, h.of_flash (busyRise_flash _)⟩
  | channelBusyFall => exact ⟨_, rfl, h.of_flash (busyFall_flash _)⟩
  | gapElapsed => exact ⟨_, rfl, h.of_flash (gapElapsed_flash _)⟩
  | deferSlotElapsed => exact ⟨_, rfl, h.of_flash (deferElapsed_flash _)⟩
  | countdownSlotElapsed => exact ⟨_, rfl, h.of_flash (countdownElapsed_flash _)⟩
  | allowanceWindowOpen => exact ⟨_, rfl, h.of_flash (openWindow_flash _)⟩
  | offerRoundExpiry => exact ⟨_, rfl, h.of_flash (roundExpires_flash _)⟩
  | peerExpiry station => exact ⟨_, rfl, h.of_flash (peerExpires_flash station _)⟩
  | shunEnd station => exact ⟨_, rfl, h.of_flash (shunEnds_flash station _)⟩
  | busyMarkEnd station => exact ⟨_, rfl, h.of_flash (busyMarkEnds_flash station _)⟩
  | beaconTimerExpiry => exact ⟨_, rfl, h.of_flash (beaconExpires_flash _)⟩
  | freeRunningTimeout => exact ⟨_, rfl, h.of_flash (freeRun_flash _)⟩
  | notBeforeReached address => exact ⟨_, rfl, h.of_flash (notBeforeReached_flash address _)⟩
  | departureLineEdge asserted => exact ⟨_, rfl, h.of_flash (lineEdge_flash asserted _)⟩
  | departureLineAsserted => exact ⟨_, rfl, h.of_flash (lineAsserted_flash _)⟩
  | leaveTimerExpiry => exact ⟨_, rfl, h.of_flash (leaveExpires_flash _)⟩
  | departureLineReleased => exact ⟨_, rfl, h.of_flash (lineReleased_flash _)⟩
  | lineWireChange clock data => exact ⟨_, rfl, h.of_flash (wireChange_flash clock data _)⟩
  | lineQuietElapsed => exact ⟨_, rfl, h.of_flash (quietElapsed_flash _)⟩
  | cabinTransactionEnd unacknowledged received => exact ⟨_, rfl, h.of_flash (transactionEnds_flash _ _ _)⟩
  | arbitrationLoss => exact ⟨_, rfl, h.of_flash (arbitrationLoss_flash _)⟩
  | lineFault wire => exact ⟨_, rfl, h.of_flash (lineFault_flash wire _)⟩
  | holdTimeout heldMs => exact ⟨_, rfl, h.of_flash (holdTimeout_flash heldMs _)⟩
  | recoveringClockReleased => exact ⟨_, rfl, h.of_flash (recovered_flash _)⟩
  | lineStuckTimeout => exact ⟨_, rfl, h.of_flash (reportStuck_flash _)⟩
  | censusPauseEnd => exact ⟨_, rfl, h.of_flash (censusPauseEnd_flash _)⟩
  | censusHoldoffEnd => exact ⟨_, rfl, h.of_flash (flash_of_stands (censusBegin_keeps _))⟩
  | jobPauseEnd => exact ⟨_, rfl, h.of_flash (jobPauseEnd_flash _)⟩
  | flasherReadComplete => exact ⟨_, rfl, h.of_flash (flasherRead_flash _)⟩
  | probationPollDue address => exact ⟨_, rfl, h.of_flash (pollDue_flash address _)⟩
  | finalReadDue address => exact ⟨_, rfl, h.of_flash (finalDue_flash address _)⟩
  | probationRepeatDue address => exact ⟨_, rfl, h.of_flash (repeatDue_flash address _)⟩
  | status => exact ⟨_, rfl, h.of_flash (onStatus_flash _)⟩
  | readUnits => exact ⟨_, rfl, h.of_flash (onReadUnits_flash _)⟩
  | readCatalog position firstSegment => exact ⟨_, rfl, h.of_flash (onReadCatalog_flash position firstSegment _)⟩
  | readReports sequence => exact ⟨_, rfl, h.of_flash (onReadReports_flash sequence _)⟩
  | setDeparture seconds => exact ⟨_, rfl, h.of_flash (onSetDeparture_flash seconds _)⟩
  | clearDeparture => exact ⟨_, rfl, h.of_flash (onClearDeparture_flash _)⟩
  | census => exact ⟨_, rfl, h.of_flash (onCensus_flash _)⟩
  | restart => exact ⟨_, rfl, h.of_flash (onRestart_flash _)⟩
  | commission record => exact ⟨_, rfl, h.of_flash (onCommission_flash record _)⟩
  | loadPlan serial count entries => exact ⟨_, rfl, h.of_flash (onLoadPlan_flash serial count entries _)⟩
  | loadSegmentOpen id version segment slot => exact ⟨_, rfl, h.of_flash (onLoadOpen_flash id version segment slot _)⟩
  | loadBlock index data => exact ⟨_, rfl, h.of_flash (onLoadBlock_flash index data _)⟩
  | loadSegmentClose mode => exact ⟨_, rfl, h.of_flash (onLoadClose_flash mode _)⟩
  | badCommandFrame frame => exact ⟨_, rfl, h.of_flash (onBadFrame_flash frame _)⟩
  | exchangeDiscarded => exact ⟨id s.chip, rfl, h⟩

/-- Settles O56: a command's own effect keeps the canonical form and what it sets going leaves the memory; the passing of time touches only the clock. -/
theorem flashStaysCanonical : Obligations.FlashStaysCanonical := by
  unfold Obligations.FlashStaysCanonical
  intro s t h hstep
  unfold step at hstep
  split at hstep
  · obtain rfl := Host.Outcome.next.inj hstep
    exact h
  · next i rest _ =>
    obtain ⟨d, hexec, hd⟩ := exec_canonical i { s with pending := rest } h
    obtain rfl := Host.Outcome.next.inj (hexec.symm.trans hstep)
    exact hd.of_flash (flash_of_stands (settle_keeps d))

end Sys2Proof.Machine
end

