-- ==== Sys2Proof/Proofs/StoreArbiter.lean ====
section
/-!
SUPPORT. The store arbiter (R105, R106): the ring, the operation granted, what an operation answered gone leaves, and the server reader's turn (R71, R98).
-/
namespace Sys2Proof.Machine

variable {c d : Chip}

/-! ## Round the ring (R105) -/

theorem mem_ringAfter (last k : StoreClient) : k ∈ ringAfter last := by cases last <;> cases k <;> decide

/-- R105. The ring counts its clients by their distance from the one last granted. -/
theorem ringAfter_rises (last : StoreClient) : (ringAfter last).Pairwise (fun a b => ringDistance last a ≤ ringDistance last b) := by
  cases last <;> decide

/-- Some operation of the client waits. -/
def ClientWaits (waiting : List WaitingOp) (k : StoreClient) : Prop := ∃ w ∈ waiting, w.op.client = k

/-- R105. The operation found is of the first client that waits. -/
theorem firstWaiting_eq_some {waiting : List WaitingOp} {w : WaitingOp} :
    ∀ {ks : List StoreClient}, firstWaiting waiting ks = some w →
      w ∈ waiting ∧ ∃ l₁ l₂, ks = l₁ ++ w.op.client :: l₂ ∧ ∀ k ∈ l₁, ¬ClientWaits waiting k
  | [], h => by simp [firstWaiting] at h
  | k :: ks, h => by
    rw [firstWaiting] at h
    split at h
    · next v hv =>
      obtain rfl : v = w := by simpa using h
      have hclient : v.op.client = k := by simpa using List.find?_some hv
      exact ⟨List.mem_of_find?_eq_some hv, [], ks, by rw [hclient]; rfl, by simp⟩
    · next hnone =>
      obtain ⟨hw, l₁, l₂, hks, hl₁⟩ := firstWaiting_eq_some h
      refine ⟨hw, k :: l₁, l₂, by rw [hks]; rfl, fun m hm => ?_⟩
      rcases List.mem_cons.mp hm with rfl | hm
      · rintro ⟨v, hv, hclient⟩
        simpa [hclient] using List.find?_eq_none.mp hnone v hv
      · exact hl₁ m hm

theorem firstWaiting_eq_none {waiting : List WaitingOp} :
    ∀ {ks : List StoreClient}, firstWaiting waiting ks = none → ∀ k ∈ ks, ¬ClientWaits waiting k
  | [], _ => by simp
  | k :: ks, h => by
    rw [firstWaiting] at h
    split at h
    · simp at h
    · next hnone =>
      intro m hm
      rcases List.mem_cons.mp hm with rfl | hm
      · rintro ⟨v, hv, hclient⟩
        simpa [hclient] using List.find?_eq_none.mp hnone v hv
      · exact firstWaiting_eq_none h m hm

/-- R105. The clients that come before the background eraser. -/
def otherClients (last : StoreClient) : List StoreClient := (ringAfter last).filter (fun k => k != .eraser)

theorem mem_otherClients {last k : StoreClient} : k ∈ otherClients last ↔ k ≠ .eraser := by
  simp [otherClients, mem_ringAfter]

/-- R105. A waiting operation of another client is granted before one of the background eraser. -/
theorem chooseOp_eq_some {w : WaitingOp} (h : chooseOp c = some w) :
    (firstWaiting c.store.waiting (otherClients c.store.lastGranted) = some w ∧ w.op.client ≠ .eraser) ∨
      (w ∈ c.store.waiting ∧ w.op.client = .eraser ∧ ∀ k, k ≠ .eraser → ¬ClientWaits c.store.waiting k) := by
  unfold chooseOp at h
  dsimp only at h
  split at h
  · next v hv =>
    obtain rfl : v = w := by simpa using h
    obtain ⟨-, l₁, l₂, hks, -⟩ := firstWaiting_eq_some hv
    exact .inl ⟨hv, mem_otherClients.mp (by rw [otherClients, hks]; simp)⟩
  · next hnone =>
    obtain ⟨hw, l₁, l₂, hks, -⟩ := firstWaiting_eq_some h
    have heraser : w.op.client ∈ [StoreClient.eraser] := by rw [hks]; simp
    exact .inr ⟨hw, by simpa using heraser, fun k hk => firstWaiting_eq_none hnone k (mem_otherClients.mpr hk)⟩

theorem chooseOp_eq_none (h : chooseOp c = none) : c.store.waiting = [] := by
  unfold chooseOp at h
  dsimp only at h
  split at h
  · simp at h
  · next hnone =>
    refine List.eq_nil_iff_forall_not_mem.mpr fun w hw => ?_
    by_cases hclient : w.op.client = .eraser
    · exact firstWaiting_eq_none h .eraser (by simp) ⟨w, hw, hclient⟩
    · exact firstWaiting_eq_none hnone _ (mem_otherClients.mpr hclient) ⟨w, hw, rfl⟩

/-- R105. No client that waits comes before the one found round the ring. -/
theorem firstWaiting_first {w v : WaitingOp} (h : firstWaiting c.store.waiting (otherClients c.store.lastGranted) = some w)
    (hv : v ∈ c.store.waiting) (hother : v.op.client ≠ .eraser) :
    ringDistance c.store.lastGranted w.op.client ≤ ringDistance c.store.lastGranted v.op.client := by
  obtain ⟨-, l₁, l₂, hks, hl₁⟩ := firstWaiting_eq_some h
  have hrises : (otherClients c.store.lastGranted).Pairwise _ := (ringAfter_rises c.store.lastGranted).filter _
  have hmem : v.op.client ∈ otherClients c.store.lastGranted := mem_otherClients.mpr hother
  rw [hks] at hrises hmem
  rcases List.mem_append.mp hmem with hbefore | hafter
  · exact absurd ⟨v, hv, rfl⟩ (hl₁ _ hbefore)
  · rcases List.mem_cons.mp hafter with hsame | hafter
    · exact (congrArg _ hsame.symm).le
    · exact (List.pairwise_cons.mp (List.pairwise_append.mp hrises).2.1).1 _ hafter

theorem nextGrant_eq_some {w : WaitingOp} (h : nextGrant c = some w) : c.store.current = none ∧ chooseOp c = some w := by
  unfold nextGrant at h
  split at h
  · simp at h
  · next hfree => exact ⟨by simpa using hfree, h⟩

theorem nextGrant_of_free (h : c.store.current = none) : nextGrant c = chooseOp c := by simp [nextGrant, h]

/-! ## The server reader's turn (R71, R98) -/

/-- R71. The slot whose read is taken next is the first in READING after the read rotation mark. -/
theorem nextReading_of_first {n p : Nat} {e : AskEntry} {l₁ l₂ : List Nat} (hrotation : rotation c.serve.readMark = l₁ ++ n :: l₂)
    (hbefore : ∀ m ∈ l₁, ∀ e' p', serveSlot c (m - 1) ≠ .reading e' p') (hreading : serveSlot c (n - 1) = .reading e p) :
    nextReading c = some n := by
  have hnone : l₁.find? (fun n => isReading (serveSlot c (n - 1))) = none := by
    refine List.find?_eq_none.mpr fun m hm hreads => ?_
    cases hslot : serveSlot c (m - 1) <;> simp_all [isReading]
  rw [nextReading, hrotation, List.find?_append, hnone, Option.none_or, List.find?_cons_of_pos (by simp [hreading, isReading])]

/-- R71. The read the server reader has next: of serve slot `i`, for the asker's entry `e`, from store slot `slot`, block `block`. -/
def serveWait (i slot block : Nat) (e : AskEntry) : WaitingOp :=
  { op := .serveRead i slot block, owner := some (.segment e.image e.segment) }

theorem serverOp_of_reading {n p slot : Nat} {e : AskEntry} (hnext : nextReading c = some n) (hreading : serveSlot c (n - 1) = .reading e p)
    (hheld : heldSlot c e.image e.segment = some slot) : serverOp c = some (n - 1, e, serveWait (n - 1) slot (e.base + p) e) := by
  simp only [serverOp, hnext, hreading, hheld, serveWait]

theorem clientFree_of_none {k : StoreClient} (hwaiting : ∀ w ∈ c.store.waiting, w.op.client ≠ k)
    (hcurrent : ∀ o, c.store.current = some o → o.op.client ≠ k) : clientFree c k = true := by
  unfold clientFree
  rw [Bool.and_eq_true]
  constructor
  · simpa using hwaiting
  · split
    · next o ho => simpa using hcurrent o ho
    · rfl

/-- R71, R98. The server reader's turn: its next read is presented, or, from a serve-locked area, refused, and the next slot is looked at. -/
theorem presentServer_of_serverOp {i slot block : Nat} {e : AskEntry} (hfree : clientFree c .serverReader = true)
    (hop : serverOp c = some (i, e, serveWait i slot block e)) (n : Nat) :
    presentServer (n + 1) c =
      if serveLocked c (areaOf c slot) then presentServer n (refuseRead i e c) else presentOp (serveWait i slot block e) c := by
  rw [presentServer, hfree, hop]
  rfl

theorem refuseRead_eq (i : Nat) (e : AskEntry) (c : Chip) :
    refuseRead i e c = { endServe i c with yard.urgent := laneWith (.reply .refused e.asker e.image e.segment) c.yard } := queueReply_eq _ _ _

/-- R71. A refused read leaves its serve slot FREE, and every FREE one so. -/
theorem refuseRead_serveSlot (i : Nat) (e : AskEntry) (c : Chip) (j : Nat) :
    serveSlot (refuseRead i e c) j = if j = i then .free else serveSlot c j := by
  rw [refuseRead_eq]
  exact serveSlot_setServeSlot_free c i j

/-- R71, R98. At the server reader's turn FREE serve slots stay FREE, and the urgent lane only grows. -/
theorem presentServer_leaves (n : Nat) (c : Chip) :
    (∀ j, serveSlot c j = .free → serveSlot (presentServer n c) j = .free) ∧ ∃ later, (presentServer n c).yard.urgent = c.yard.urgent ++ later := by
  induction n generalizing c with
  | zero => exact ⟨fun _ h => h, [], by simp [presentServer]⟩
  | succ n ih =>
    unfold presentServer
    split
    · exact ⟨fun _ h => h, [], by simp⟩
    · split
      · exact ⟨fun _ h => h, [], by simp⟩
      · next i e w _ =>
        split
        · split
          · obtain ⟨hfree, later, hlater⟩ := ih (refuseRead i e c)
            obtain ⟨reply, hreply⟩ := laneWith_grows (.reply .refused e.asker e.image e.segment) c.yard
            refine ⟨fun j hj => hfree j (by rw [refuseRead_serveSlot, hj, ite_self]), reply ++ later, ?_⟩
            rw [hlater, refuseRead_eq]
            simp [hreply]
          · exact ⟨fun _ h => h, [], by simp [presentOp]⟩
        · exact ⟨fun _ h => h, [], by simp⟩

/-! ## Answered gone (R106) -/

theorem reportNoTarget_leaves (u v : UnitEntry) (c : Chip) : (reportNoTarget u v c).store = c.store ∧ (reportNoTarget u v c).seq = c.seq := by
  unfold reportNoTarget
  (repeat' split) <;> exact ⟨rfl, rfl⟩

/-- R139. Target selection leaves the store and the job. -/
theorem selectUnit_leaves (address : Nat) (c : Chip) :
    (selectUnit address c).store = c.store ∧ (selectUnit address c).seq.job = c.seq.job := by
  unfold selectUnit
  split
  · exact ⟨rfl, rfl⟩
  · split
    · exact ⟨rfl, rfl⟩
    · simp [reportNoTarget_leaves, updateUnit]

theorem finishCancel_store (j : JobRecord) (c : Chip) : (finishCancel j c).store = (dropFlashReads c).store := (selectUnit_leaves _ _).1

theorem finishCancel_job (j : JobRecord) (c : Chip) : (finishCancel j c).seq.job = none := (selectUnit_leaves _ _).2

/-- R155. At a packet boundary of a job the store only has the flasher reader's reads dropped. -/
theorem jobBoundary_store (c : Chip) : (jobBoundary c).store = c.store ∨ (jobBoundary c).store = (dropFlashReads c).store := by
  unfold jobBoundary
  split
  · exact .inl rfl
  · split
    · exact .inl rfl
    · split
      · exact .inr rfl
      · exact .inr (finishCancel_store _ _)

/-- R155. A job that stands after a packet boundary is the one before it, with its cancel pending as it was. -/
theorem jobBoundary_job {g : JobRecord} (h : (jobBoundary c).seq.job = some g) :
    ∃ j, c.seq.job = some j ∧ g.address = j.address ∧ g.cancelAtBoundary = j.cancelAtBoundary ∧ g.readGone = j.readGone := by
  unfold jobBoundary at h
  split at h
  · next hnone => simp [hnone] at h
  · next j hj =>
    split at h
    · exact ⟨g, h, rfl, rfl, rfl⟩
    · split at h
      · have hg : c.seq.job.map (fun j => { j with closing := true, ring := [], pausingUntil := none }) = some g := h
        obtain ⟨j', hj', rfl⟩ := Option.map_eq_some_iff.mp hg
        exact ⟨j', hj', rfl, rfl, rfl⟩
      · simp [finishCancel_job] at h

/-- R106. The device is as free, its memory as it was, and the client last granted the same. -/
def GrantStands (c d : Chip) : Prop :=
  d.store.lastGranted = c.store.lastGranted ∧ d.store.flash = c.store.flash ∧ (c.store.current = none → d.store.current = none)

/-- R148, R155. A read of the flasher reader answered gone changes the waiting reads alone of a free store. -/
theorem flashReadGone_grantStands (c : Chip) : GrantStands c (flashReadGone c) := by
  rcases jobBoundary_store (updateJob (fun j => { j with cancelAtBoundary := true }) (updateJob (fun j => { j with readGone := true }) c))
    with hstore | hstore <;> rw [GrantStands, flashReadGone, cancelJob, hstore]
  · exact ⟨rfl, rfl, id⟩
  · exact ⟨rfl, rfl, fun hidle => Option.map_eq_none_iff.mpr hidle⟩

/-- R148, R155, log 60. A job that stands after a read was answered gone has its cancel pending and reads no more. -/
theorem flashReadGone_job {g : JobRecord} (h : (flashReadGone c).seq.job = some g) :
    ∃ j, c.seq.job = some j ∧ g.address = j.address ∧ g.cancelAtBoundary = true ∧ g.readGone = true := by
  obtain ⟨j', hj', haddress, hcancel, hgone⟩ := jobBoundary_job h
  have hmarked : (c.seq.job.map (fun j => { j with readGone := true })).map (fun j => { j with cancelAtBoundary := true }) = some j' := hj'
  rw [Option.map_map] at hmarked
  obtain ⟨j, hj, rfl⟩ := Option.map_eq_some_iff.mp hmarked
  exact ⟨j, hj, haddress, hcancel, hgone⟩

theorem nextFlashRead_of_readGone (h : ∀ g, c.seq.job = some g → g.readGone = true) : nextFlashRead c = none := by
  unfold nextFlashRead
  split
  · rfl
  · next g hg => rw [if_pos (h g hg)]

/-- R106. An operation answered gone leaves a free device free. -/
theorem answerGone_grantStands (op : StoreOp) (c : Chip) : GrantStands c (answerGone op c) := by
  cases op with
  | flashRead place k seg slot b => exact flashReadGone_grantStands c
  | _ => exact ⟨rfl, rfl, id⟩

/-! ## The grant (R105, R106) -/

/-- R106. The slot an operation is for still has the owner it is presented for. -/
def OwnerStands (c : Chip) (w : WaitingOp) : Prop :=
  ∀ o, w.owner = some o → ∃ slot, w.op.slot? = some slot ∧ (slotInfo c slot).owner = some o

theorem ownerStands_iff (c : Chip) (w : WaitingOp) : ownerStands c w = true ↔ OwnerStands c w := by
  unfold ownerStands OwnerStands
  cases w.owner with
  | none => simp
  | some o => cases w.op.slot? <;> simp

/-- R105. The operation has left its client's turn, and its client counts as granted. -/
def turnTaken (w : WaitingOp) (c : Chip) : Chip := { c with store.waiting := c.store.waiting.erase w, store.lastGranted := w.op.client }

theorem grant_of_stands {w : WaitingOp} (h : OwnerStands c w) :
    grant w c = noteGrant w.op { turnTaken w c with store.current := some { op := w.op, live := true } } :=
  if_pos ((ownerStands_iff (turnTaken w c) w).mpr h)

theorem grant_of_gone {w : WaitingOp} (h : ¬OwnerStands c w) : grant w c = answerGone w.op (turnTaken w c) :=
  if_neg (mt (ownerStands_iff (turnTaken w c) w).mp h)

theorem not_ownerStands {w : WaitingOp} {o : Owner} (howner : w.owner = some o)
    (hgone : ∀ slot, w.op.slot? = some slot → (slotInfo c slot).owner ≠ some o) : ¬OwnerStands c w := fun h => by
  obtain ⟨slot, hslot, hstands⟩ := h o howner
  exact hgone slot hslot hstands

/-- R71, R105. A grant that is performed: the operation runs, and a read of the server reader puts the rotation mark on its slot. -/
theorem noteGrant_does (op : StoreOp) (c : Chip) :
    (noteGrant op c).store = c.store ∧ (noteGrant op c).serve = (match op with | .serveRead i _ _ => { c.serve with readMark := i + 1 } | _ => c.serve) := by
  cases op <;> exact ⟨rfl, rfl⟩

/-- R105. The grant counts as its client's whatever becomes of the operation, and leaves the memory alone. -/
theorem grant_store (w : WaitingOp) (c : Chip) : (grant w c).store.lastGranted = w.op.client ∧ (grant w c).store.flash = c.store.flash := by
  by_cases h : OwnerStands c w
  · rw [grant_of_stands h, (noteGrant_does _ _).1]
    exact ⟨rfl, rfl⟩
  · rw [grant_of_gone h]
    obtain ⟨hlast, hflash, -⟩ := answerGone_grantStands w.op (turnTaken w c)
    exact ⟨hlast, hflash⟩

theorem grant_current_of_gone {w : WaitingOp} (hidle : c.store.current = none) (h : ¬OwnerStands c w) : (grant w c).store.current = none := by
  rw [grant_of_gone h]
  exact (answerGone_grantStands w.op (turnTaken w c)).2.2 hidle

/-- R148, R155, log 60. A read of the flasher reader answered gone at its grant: no further read is presented, and a job that stands is to be cancelled. -/
theorem grant_flashRead_gone {w : WaitingOp} {place seg b : Nat} {k : ImageKey} {slot : Option Nat} (h : ¬OwnerStands c w)
    (hop : w.op = .flashRead place k seg slot b) :
    nextFlashRead (grant w c) = none ∧
      ∀ j g, c.seq.job = some j → (grant w c).seq.job = some g → g.address = j.address ∧ g.cancelAtBoundary = true := by
  have hgrant : grant w c = flashReadGone (turnTaken w c) := by rw [grant_of_gone h, hop]; rfl
  rw [hgrant]
  refine ⟨nextFlashRead_of_readGone fun g hg => ?_, fun j g hj hg => ?_⟩
  · obtain ⟨_, _, _, _, hgone⟩ := flashReadGone_job hg
    exact hgone
  · obtain ⟨j', hj', haddress, hcancel, -⟩ := flashReadGone_job hg
    obtain rfl : j' = j := Option.some.inj (hj'.symm.trans hj)
    exact ⟨haddress, hcancel⟩

/-! ## The three parts of the statement -/

theorem nextGrant_is_first {w : WaitingOp} (h : nextGrant c = some w) :
    c.store.current = none ∧ w ∈ c.store.waiting ∧ (w.op.client = .eraser → ∀ v ∈ c.store.waiting, v.op.client = .eraser) ∧
      (w.op.client ≠ .eraser → ∀ v ∈ c.store.waiting, v.op.client ≠ .eraser →
        ringDistance c.store.lastGranted w.op.client ≤ ringDistance c.store.lastGranted v.op.client) := by
  obtain ⟨hidle, hchosen⟩ := nextGrant_eq_some h
  rcases chooseOp_eq_some hchosen with ⟨hfirst, hother⟩ | ⟨hw, heraser, halone⟩
  · exact ⟨hidle, (firstWaiting_eq_some hfirst).1, fun h => absurd h hother, fun _ v hv => firstWaiting_first hfirst hv⟩
  · exact ⟨hidle, hw, fun _ v hv => by_contra fun hclient => halone _ hclient ⟨v, hv, rfl⟩, fun h => absurd heraser h⟩

theorem presentServer_refuses {i slot block : Nat} {e : AskEntry} (hfree : clientFree c .serverReader = true)
    (hop : serverOp c = some (i, e, serveWait i slot block e)) (hlocked : serveLocked c (areaOf c slot) = true) :
    serveSlot (presentServer 3 c) i = .free ∧
      (c.yard.mode = .on → c.yard.urgent.length < 8 →
        Queued c.yard.urgent (presentServer 3 c).yard.urgent (.reply .refused e.asker e.image e.segment)) := by
  rw [presentServer_of_serverOp hfree hop, if_pos hlocked]
  obtain ⟨hkeeps, later, hlater⟩ := presentServer_leaves 2 (refuseRead i e c)
  refine ⟨hkeeps i (by rw [refuseRead_serveSlot, if_pos rfl]), fun hmode hroom => ⟨later, ?_⟩⟩
  rw [hlater, refuseRead_eq]
  simp [laneWith_of_room hmode hroom]

/-- Settles O29, by the first client of the ring with a waiting operation, the server reader's one step of `presentServer`, and the two ends of a grant. -/
theorem arbiterGrantsRoundRing : Obligations.ArbiterGrantsRoundRing := by
  refine ⟨fun c w h => nextGrant_is_first h, fun c hidle h => chooseOp_eq_none (nextGrant_of_free hidle ▸ h), ?_, ?_⟩
  · intro c n p slot e l₁ l₂ hwaiting hcurrent hrotation hbefore hreading hheld
    have hop := serverOp_of_reading (nextReading_of_first hrotation hbefore hreading) hreading hheld
    have hfree := clientFree_of_none hwaiting hcurrent
    refine ⟨fun hopen => ?_, presentServer_refuses hfree hop⟩
    rw [presentServer_of_serverOp hfree hop, hopen]
    rfl
  · intro c w hidle
    refine ⟨(grant_store w c).1, (grant_store w c).2, fun hstands => ?_, fun o howner hgone => ?_, fun o slot howner hslot hgone => ?_⟩
    · rw [grant_of_stands hstands]
      obtain ⟨hstore, hserve⟩ := noteGrant_does w.op { turnTaken w c with store.current := some { op := w.op, live := true } }
      exact ⟨by rw [hstore], by rw [hstore]; rfl, hserve⟩
    · have hfails := not_ownerStands howner hgone
      exact ⟨grant_current_of_gone hidle hfails, fun place k seg slot b hop => grant_flashRead_gone hfails hop⟩
    · have hfails := not_ownerStands howner fun slot' hslot' => Option.some.inj (hslot.symm.trans hslot') ▸ hgone
      refine ⟨grant_current_of_gone hidle hfails, fun i b data hop => ?_⟩
      rw [grant_of_gone hfails, turnTaken, hop]
      rfl

end Sys2Proof.Machine
end

