-- ==== Sys2Proof/Proofs/StoreOperations.lean ====
section
/-!
SUPPORT. The ends of claim programs (R101), of a load's programs (R187), of the background eraser's operations (R103, R104) and of the readers' reads
(R71, R74, R148).
-/
namespace Sys2Proof.Machine

variable {c d : Chip}

/-! ## A completion and what it sets going -/

/-- What a completion leaves standing, with all that it sets going. -/
theorem standing_settle_of {after : Standing} (h : standing d = after) :
    (settle d).store.flash = after.flash ∧ standing (settle d) = { after with flash := (settle d).store.flash } := by
  have hsettled := (settle_standing d).trans h
  generalize settle d = e at hsettled
  subst hsettled
  exact ⟨rfl, rfl⟩

/-- R102. The chip when the device has programmed an operation's bytes. -/
def programDone (a : Nat) (bytes : List Byte) (c : Chip) : Chip := programFlash a bytes (freeDevice c)

theorem programDone_programmed {a : Nat} {bytes : List Byte} (h : d.store.flash = (programDone a bytes c).store.flash) :
    Programmed c.store.flash d.store.flash a bytes := by
  rw [h]
  exact program_programmed _ _ _

/-! ## Claims and load blocks (R101, R187) -/

theorem claimDone_of_live {i slot : Nat} {live : Bool} {x : OpenFetch} (h : c.store.current = some { op := .fetchClaim i slot, live := live })
    (hx : liveFetch c i slot = some x) :
    claimDone c = setFetchSlot i (.opened { x with claimed := true }) (programDone (spareAddress slot 2) claimMarkBytes c) := by
  have hlive : liveFetch (programFlash (spareAddress slot 2) claimMarkBytes (freeDevice c)) i slot = some x := hx
  simp only [claimDone, h, hlive]
  exact updateOpen_of_opened (c := programDone (spareAddress slot 2) claimMarkBytes c) (liveFetch_opened hx) _

theorem claimDone_of_ended {i slot : Nat} {live : Bool} (h : c.store.current = some { op := .fetchClaim i slot, live := live })
    (hx : liveFetch c i slot = none) : claimDone c = finishRelease slot (programDone (spareAddress slot 2) claimMarkBytes c) := by
  have hlive : liveFetch (programFlash (spareAddress slot 2) claimMarkBytes (freeDevice c)) i slot = none := hx
  simp only [claimDone, h, hlive]
  rfl

theorem claimDone_standing {i slot : Nat} {live : Bool} (h : c.store.current = some { op := .fetchClaim i slot, live := live }) :
    standing (claimDone c) = standing (programDone (spareAddress slot 2) claimMarkBytes c) := by
  cases hx : liveFetch c i slot with
  | none => rw [claimDone_of_ended h hx, finishRelease_standing]
  | some x => rw [claimDone_of_live h hx]; rfl

/-- R101, R102, R187. The end of a program for a load: the load goes on with what `f` makes of it, or, when it has ended, the slot's release. -/
def loadProgramDone (slot a : Nat) (bytes : List Byte) (f : Load → Load) (c : Chip) : Chip :=
  match liveLoad c slot with
  | some l => { programDone a bytes c with port.load := .opened (f l) }
  | none => finishRelease slot (programDone a bytes c)

theorem claimDone_of_load {slot : Nat} {live : Bool} (h : c.store.current = some { op := .loadClaim slot, live := live }) :
    claimDone c = loadProgramDone slot (spareAddress slot 2) claimMarkBytes (fun l => { l with claimed := true }) c := by
  have hlive : liveLoad (programFlash (spareAddress slot 2) claimMarkBytes (freeDevice c)) slot = liveLoad c slot := rfl
  simp only [claimDone, h, hlive]
  cases hl : liveLoad c slot <;> simp only [loadProgramDone, hl] <;> rfl

theorem loadBlockDone_eq {slot b : Nat} {data : List Byte} {live : Bool} (h : c.store.current = some { op := .loadBlock slot b data, live := live }) :
    loadBlockDone c =
      loadProgramDone slot (dataAddress slot (b * 128)) data (fun l => { l with marks := l.marks ||| (1#64 <<< b), pending := false }) c := by
  have hlive : liveLoad (programFlash (dataAddress slot (b * 128)) data (freeDevice c)) slot = liveLoad c slot := rfl
  simp only [loadBlockDone, h, hlive]
  cases hl : liveLoad c slot <;> simp only [loadProgramDone, hl] <;> rfl

theorem loadProgramDone_standing (slot a : Nat) (bytes : List Byte) (f : Load → Load) (c : Chip) :
    standing (loadProgramDone slot a bytes f c) =
      { standing c with
        flash := Memory.program c.store.flash a bytes
        load := match liveLoad c slot with | some l => .opened (f l) | none => c.port.load } := by
  unfold loadProgramDone
  cases liveLoad c slot with
  | none => exact finishRelease_standing _ _
  | some l => rfl

/-- R102. A slot whose load has ended, and whose release waited, joins the dirty queue. -/
theorem loadProgramDone_dirty {slot : Nat} (hended : liveLoad c slot = none) (hwaits : slot ∈ c.store.releasing) (a : Nat) (bytes : List Byte)
    (f : Load → Load) : slot ∈ (loadProgramDone slot a bytes f c).store.dirtyQueue := by
  rw [loadProgramDone, hended]
  exact finishRelease_does slot _ hwaits

/-! ## The background eraser (R103, R104) -/

theorem slotErased_eq {slot : Nat} {live : Bool} (h : c.store.current = some { op := .slotErase slot, live := live }) :
    slotErased c = { eraseFlash slot (freeDevice c) with store.eraseMarkDue := some slot } := by
  simp only [slotErased, h]

/-- R103. The erase mark is programmed: out of the dirty queue, no mark due, and selection asked for. -/
def eraseMarkDone (slot : Nat) (c : Chip) : Chip :=
  askSelection { c with store.eraseMarkDue := none, store.dirtyQueue := c.store.dirtyQueue.filter (fun x => x != slot) }

theorem eraseMarked_eq {slot : Nat} {live : Bool} (h : c.store.current = some { op := .eraseMark slot, live := live }) :
    eraseMarked c = eraseMarkDone slot (setSlot slot ⟨.erased, none⟩ (programDone (spareAddress slot 0) eraseMarkBytes c)) := by
  simp only [eraseMarked, h]
  rfl

/-- R104. The end of a retired mark program takes the slot off its list. -/
def retiredMarkDone (slot : Nat) (c : Chip) : Chip := { c with store.awaitingMark := c.store.awaitingMark.filter (fun x => x != slot) }

theorem retiredMarkEnded_eq {slot : Nat} {live : Bool} (h : c.store.current = some { op := .retiredMark slot, live := live }) (completed : Bool) :
    retiredMarkEnded completed c =
      retiredMarkDone slot
        (if completed then programDone (spareAddress slot 60) retiredMarkBytes c else spoilProgram (spareAddress slot 60) 4 (freeDevice c)) := by
  simp only [retiredMarkEnded, h]
  rfl

/-! ## The readers (R71, R74, R148) -/

/-- R71, R102. The end of a serve slot's read, given up or not. -/
theorem serveRead_eq {i slot b : Nat} {live : Bool} (h : c.store.current = some { op := .serveRead i slot b, live := live }) :
    serveRead c = finishRelease slot (if live then serveReadDone i (readBlock c slot b) (freeDevice c) else freeDevice c) := by
  simp only [serveRead, h]
  rfl

theorem finishRelease_serve (slot : Nat) (c : Chip) : (finishRelease slot c).serve = c.serve := by
  obtain ⟨_, _, _, h⟩ := finishRelease_parts slot c
  rw [h]

theorem finishRelease_seq (slot : Nat) (c : Chip) : (finishRelease slot c).seq = c.seq := by
  obtain ⟨_, _, _, h⟩ := finishRelease_parts slot c
  rw [h]

/-- R71, R74. Of the serve engine a read's end changes its slot alone, and of the standing part nothing. -/
theorem serveReadDone_leaves (i : Nat) (bytes : List Byte) (c : Chip) :
    (serveReadDone i bytes c).serve.queue = c.serve.queue ∧ standing (serveReadDone i bytes c) = standing c := by
  unfold serveReadDone
  split
  · split <;> exact ⟨rfl, rfl⟩
  · exact ⟨rfl, rfl⟩

/-- R71, R74. A READING slot becomes READY with the bytes, or FREE when the asker is then departing. -/
theorem serveReadDone_serveSlot {i p : Nat} {e : AskEntry} (hreading : serveSlot c i = .reading e p) (hi : i < c.serve.slots.length) (bytes : List Byte) :
    serveSlot (serveReadDone i bytes c) i = if askerDeparting c e.asker then .free else .ready e p bytes := by
  simp only [serveReadDone, hreading]
  split
  · exact (serveSlot_setServeSlot_free c i i).trans (if_pos rfl)
  · exact (serveSlot_of_set (c := c) rfl hi i).trans (if_pos rfl)

theorem serveRead_leaves {i slot b : Nat} {live : Bool} (h : c.store.current = some { op := .serveRead i slot b, live := live }) :
    (serveRead c).serve.queue = c.serve.queue ∧ standing (serveRead c) = standing c := by
  rw [serveRead_eq h, finishRelease_serve, finishRelease_standing]
  cases live with
  | false => exact ⟨rfl, rfl⟩
  | true => exact serveReadDone_leaves i _ (freeDevice c)

/-- R102, R148. The end of a flasher read, given up or not. -/
theorem flasherRead_eq {place seg slot b : Nat} {k : ImageKey} {live : Bool}
    (h : c.store.current = some { op := .flashRead place k seg (some slot) b, live := live }) :
    flasherRead c = finishRelease slot (if live then flashReadDone place (readBlock c slot b) (freeDevice c) else freeDevice c) := by
  simp only [flasherRead, h]
  rfl

theorem flasherRead_standing {place seg slot b : Nat} {k : ImageKey} {live : Bool}
    (h : c.store.current = some { op := .flashRead place k seg (some slot) b, live := live }) : standing (flasherRead c) = standing c := by
  rw [flasherRead_eq h, finishRelease_standing]
  cases live <;> rfl

/-! ## The parts of the statement -/

variable {s : State}

theorem fetchClaim_completes {i slot : Nat} {live : Bool} (h : s.chip.store.current = some { op := .fetchClaim i slot, live := live }) :
    ∃ t c', exec .claimProgramComplete s = .next t ∧ t = { s with chip := settle c' } ∧
      Programmed s.chip.store.flash t.chip.store.flash (spareAddress slot 2) claimMarkBytes ∧
      standing t.chip = { standing s.chip with flash := t.chip.store.flash } ∧
      (∀ f, liveFetch s.chip i slot = some f → fetchSlot t.chip i = .opened { f with claimed := true }) ∧
      (liveFetch s.chip i slot = none → c'.fetch = s.chip.fetch ∧ (slot ∈ s.chip.store.releasing → slot ∈ t.chip.store.dirtyQueue)) := by
  obtain ⟨hflash, hstanding⟩ := standing_settle_of (claimDone_standing h)
  refine ⟨_, claimDone s.chip, exec_of_run rfl rfl, rfl, programDone_programmed hflash, hstanding, fun x hx => ?_, fun hx => ?_⟩
  · have hclaimed := fetchSlot_setFetchSlot (c := programDone (spareAddress slot 2) claimMarkBytes s.chip) (fetchSlot_opened_lt (liveFetch_opened hx))
      (.opened { x with claimed := true })
    exact (settle_keepsOpen (claimDone s.chip) i _ (claimDone_of_live h hx ▸ hclaimed)).1
  · have hrun := claimDone_of_ended h hx
    obtain ⟨_, _, _, hparts⟩ := finishRelease_parts slot (programDone (spareAddress slot 2) claimMarkBytes s.chip)
    exact ⟨by rw [hrun, hparts]; rfl, fun hwaits => settle_keepsDirty _ _ (hrun ▸ finishRelease_does slot _ hwaits)⟩

theorem loadProgram_completes {row : Instr} {run' : Chip → Chip} {slot a : Nat} {bytes : List Byte} {f : Load → Load} (hexec : exec row s = run run' s)
    (hrun : run' s.chip = loadProgramDone slot a bytes f s.chip) :
    ∃ t, exec row s = .next t ∧ t.pending = s.pending ∧ Programmed s.chip.store.flash t.chip.store.flash a bytes ∧
      standing t.chip =
        { standing s.chip with
          flash := t.chip.store.flash
          load := match liveLoad s.chip slot with | some l => .opened (f l) | none => s.chip.port.load } ∧
      (liveLoad s.chip slot = none → slot ∈ s.chip.store.releasing → slot ∈ t.chip.store.dirtyQueue) := by
  obtain ⟨hflash, hstanding⟩ := standing_settle_of (loadProgramDone_standing slot a bytes f s.chip)
  refine ⟨_, exec_of_run hexec hrun, rfl, programDone_programmed hflash, hstanding, fun hended hwaits => ?_⟩
  exact settle_keepsDirty _ _ (loadProgramDone_dirty hended hwaits a bytes f)

theorem slotErase_completes {slot : Nat} {live : Bool} (h : s.chip.store.current = some { op := .slotErase slot, live := live }) :
    ∃ t, exec .slotEraseComplete s = .next t ∧ t.pending = s.pending ∧ Erased s.chip.store.flash t.chip.store.flash slot ∧
      standing t.chip = { standing s.chip with flash := t.chip.store.flash, eraseMarkDue := some slot } := by
  have hdone : standing (slotErased s.chip) =
      { standing s.chip with flash := Memory.eraseSlot s.chip.store.flash slot, eraseMarkDue := some slot } := by rw [slotErased_eq h]; rfl
  obtain ⟨hflash, hstanding⟩ := standing_settle_of hdone
  refine ⟨_, exec_of_run rfl rfl, rfl, ?_, hstanding⟩
  rw [hflash]
  exact eraseSlot_erased _ _

theorem eraseMark_completes {slot : Nat} {live : Bool} (h : s.chip.store.current = some { op := .eraseMark slot, live := live }) :
    ∃ t c', exec .slotEraseMarkProgramComplete s = .next t ∧ t = { s with chip := settle c' } ∧
      Programmed s.chip.store.flash t.chip.store.flash (spareAddress slot 0) eraseMarkBytes ∧
      standing t.chip = { standing s.chip with flash := t.chip.store.flash, eraseMarkDue := none } ∧
      slotInfo c' slot = ⟨.erased, none⟩ ∧ (∀ x, x ≠ slot → slotInfo c' x = slotInfo s.chip x) ∧
      c'.store.dirtyQueue = s.chip.store.dirtyQueue.filter (fun x => x != slot) ∧ c'.fetch.selectionAsked = true := by
  have hrun := eraseMarked_eq h
  have hdone : standing (eraseMarked s.chip) =
      { standing s.chip with flash := Memory.program s.chip.store.flash (spareAddress slot 0) eraseMarkBytes, eraseMarkDue := none } := by
    rw [hrun]
    rfl
  obtain ⟨hflash, hstanding⟩ := standing_settle_of hdone
  refine ⟨_, eraseMarked s.chip, exec_of_run rfl rfl, rfl, programDone_programmed hflash, hstanding, ?_⟩
  rw [hrun]
  exact ⟨slotInfo_setSlot _ _ _, fun x hx => slotInfo_setSlot_ne hx _ _, rfl, rfl⟩

theorem retiredMark_ends {slot : Nat} {live : Bool} (h : s.chip.store.current = some { op := .retiredMark slot, live := live }) (completed : Bool) :
    ∃ t, exec (.retiredMarkProgramEnd completed) s = .next t ∧ t.pending = s.pending ∧
      (completed = true → Programmed s.chip.store.flash t.chip.store.flash (spareAddress slot 60) retiredMarkBytes) ∧
      (completed = false → ProgramFailed s.chip.store.flash t.chip.store.flash (spareAddress slot 60) 4) ∧
      standing t.chip =
        { standing s.chip with
          flash := t.chip.store.flash
          freeCount := if completed then s.chip.freeCount else s.chip.freeCount + 4
          awaitingMark := s.chip.store.awaitingMark.filter (fun x => x != slot) } := by
  have hrun := retiredMarkEnded_eq h completed
  obtain ⟨hflash, hstanding⟩ := standing_settle_of (congrArg standing hrun)
  refine ⟨_, exec_of_run rfl rfl, rfl, ?_, ?_, ?_⟩
  · rintro rfl
    exact programDone_programmed hflash
  · rintro rfl
    rw [hflash]
    exact spoilProgram_failed _ _ (freeDevice s.chip)
  · rw [hstanding]
    cases completed <;> rfl

theorem serveRead_completes {i slot b : Nat} {live : Bool} (h : s.chip.store.current = some { op := .serveRead i slot b, live := live })
    (hi : i < s.chip.serve.slots.length) :
    ∃ t c', exec .serveReadComplete s = .next t ∧ t = { s with chip := settle c' } ∧ standing t.chip = standing s.chip ∧
      c'.serve.queue = s.chip.serve.queue ∧
      (∀ e p, live = true → serveSlot s.chip i = .reading e p →
        serveSlot c' i = if askerDeparting s.chip e.asker then .free else .ready e p (readBlock s.chip slot b)) ∧
      (live = false → c'.serve = s.chip.serve) := by
  obtain ⟨hqueue, hstanding⟩ := serveRead_leaves h
  refine ⟨_, serveRead s.chip, exec_of_run rfl rfl, rfl, (settle_standing _).trans hstanding, hqueue, fun e p hlive hreading => ?_, fun hgiven => ?_⟩
  · have hserve : (serveRead s.chip).serve = (serveReadDone i (readBlock s.chip slot b) (freeDevice s.chip)).serve := by
      rw [serveRead_eq h, finishRelease_serve, if_pos hlive]
    exact (serveSlot_of_serve hserve i).trans (serveReadDone_serveSlot (c := freeDevice s.chip) hreading hi _)
  · rw [serveRead_eq h, finishRelease_serve, hgiven]
    rfl

theorem flasherRead_completes {place seg slot b : Nat} {k : ImageKey} {live : Bool}
    (h : s.chip.store.current = some { op := .flashRead place k seg (some slot) b, live := live }) :
    ∃ t c', exec .flasherReadComplete s = .next t ∧ t = { s with chip := settle c' } ∧ standing t.chip = standing s.chip ∧
      (live = false → c'.seq = s.chip.seq) ∧
      ∀ j, live = true → s.chip.seq.job = some j →
        c'.seq.job =
          some
            { j with
              ring := j.ring.map (fun p => if p.index = place then { p with bytes := some (preparedBytes p (readBlock s.chip slot b)) } else p) } := by
  refine ⟨_, flasherRead s.chip, exec_of_run rfl rfl, rfl, (settle_standing _).trans (flasherRead_standing h), fun hgiven => ?_, fun j hlive hj => ?_⟩
  · rw [flasherRead_eq h, finishRelease_seq, hgiven]
    rfl
  · rw [flasherRead_eq h, finishRelease_seq, if_pos hlive]
    exact congrArg (Option.map _) hj

/-- Settles O31, by the completion of each operation, with what it sets going. -/
theorem storeOperationsEnd : Obligations.StoreOperationsEnd := by
  refine ⟨⟨fun s i slot live h => fetchClaim_completes h, fun s op row slot a bytes live f h hcase => ?_⟩,
    ⟨fun s slot live h => slotErase_completes h, fun s slot live h => eraseMark_completes h, fun s slot live completed h => retiredMark_ends h completed⟩,
    fun s i slot b live h hi => serveRead_completes h hi, fun s place k seg slot b live h => flasherRead_completes h⟩
  rcases hcase with ⟨rfl, rfl, rfl, rfl, rfl⟩ | ⟨b, rfl, rfl, rfl, rfl⟩
  · exact loadProgram_completes rfl (claimDone_of_load h)
  · exact loadProgram_completes rfl (loadBlockDone_eq h)

end Sys2Proof.Machine
end

