-- ==== Sys2Proof/Proofs/FailedOperations.lean ====
section
/-!
SUPPORT. A failed program or erase on a slot of the segment area (R104): the bytes it leaves (log 9), the slot RETIRED, and what its owner does (R50, R59,
R101, R187, R188).
-/
namespace Sys2Proof.Machine

variable {c d e : Chip} {slot detail : Nat}

/-! ## The bytes a failure leaves (log 9) -/

/-- Log 9. From one chip to another, a failed operation has left free bytes in `n` bytes from address `a`, and the device is free. -/
structure Spoiled (a n : Nat) (c d : Chip) : Prop where
  outside : ∀ x, x < a ∨ a + n ≤ x → Memory.read d.store.flash x = Memory.read c.store.flash x
  standing : standing d = { standing c with flash := d.store.flash, freeCount := c.freeCount + n }
  port : d.port = c.port
  peers : d.peers = c.peers

theorem spoilProgram_spoiled (a n : Nat) (c : Chip) : Spoiled a n c (spoilProgram a n (freeDevice c)) where
  outside x hx := spoilProgram_failed a n (freeDevice c) x (by tauto)
  standing := rfl
  port := rfl
  peers := rfl

theorem spoilErase_spoiled (slot : Nat) (c : Chip) : Spoiled (slot * slotBytes) slotBytes c (spoilErase slot (freeDevice c)) where
  outside := spoilErase_failed slot (freeDevice c)
  standing := rfl
  port := rfl
  peers := rfl

/-! ## The slot (R104) -/

/-- R104. From one chip to another, the slot has been retired with STORE_ERROR and its owner has acted: a load has stayed or ended. -/
structure Retires (slot detail : Nat) (c d : Chip) : Prop where
  standing : standing d =
    { standing c with
      retiredList := c.store.retiredList ++ [slot]
      awaitingMark := c.store.awaitingMark ++ [slot]
      eraseMarkDue := if c.store.eraseMarkDue = some slot then none else c.store.eraseMarkDue
      load := d.port.load }
  slotInfo : slotInfo d slot = ⟨.retired, none⟩
  dirty : slot ∉ d.store.dirtyQueue
  reported : Reported c.port.reports d.port.reports .storeError (.number slot) detail c.now
  bodies : d.peers.map peerBody = c.peers.map peerBody
  load : d.port.load = c.port.load ∨ ∃ l n, (c.port.load = .opened l ∨ c.port.load = .checking l) ∧ LoadEnded c d l n

theorem retire_retires (slot detail : Nat) (c : Chip) : Retires slot detail c (retire slot detail c) where
  standing := rfl
  slotInfo := slotInfo_setSlot slot _ (withdrawOps slot c)
  dirty := by simp [retire, report]
  reported := reported_of_report (c := { retire slot detail c with port := c.port }) (.refl _) (.refl _)
  bodies := rfl
  load := .inl rfl

/-- What comes before the slot is retired leaves the standing part, the reports and the peers. -/
theorem Retires.of_leaves (h : Retires slot detail d e) (hstands : Stands c d) (hreports : d.port.reports = c.port.reports)
    (hbodies : d.peers.map peerBody = c.peers.map peerBody) : Retires slot detail c e := by
  have hsame := standing_of_stands hstands
  obtain ⟨hstanding, hslot, hdirty, hreported, hpeers, hload⟩ := h
  have hnow : d.now = c.now := congrArg Standing.now hsame
  have hl : d.port.load = c.port.load := congrArg Standing.load hsame
  have hretired : d.store.retiredList = c.store.retiredList := congrArg Standing.retiredList hsame
  have hawaiting : d.store.awaitingMark = c.store.awaitingMark := congrArg Standing.awaitingMark hsame
  have hdue : d.store.eraseMarkDue = c.store.eraseMarkDue := congrArg Standing.eraseMarkDue hsame
  rw [hsame, hretired, hawaiting, hdue] at hstanding
  rw [hreports, hnow] at hreported
  simp only [LoadEnded, hl, hreports, hnow] at hload
  exact ⟨hstanding, hslot, hdirty, hreported, hpeers.trans hbodies, hload⟩

theorem Retires.setSegState (h : Retires slot detail c d) (k : ImageKey) (seg : Nat) (st : SegState) :
    Retires slot detail c (setSegState k seg st d) := by
  obtain ⟨hstanding, hslot, hdirty, hreported, hpeers, hload⟩ := h
  exact ⟨hstanding, hslot, hdirty, hreported, hpeers, hload⟩

theorem Retires.reports (h : Retires slot detail c d) : Grows c.port.reports d.port.reports := by
  obtain ⟨earlier, later, r, hr, -⟩ := h.reported
  exact ⟨_, hr⟩

theorem Retires.flash (h : Retires slot detail c d) : d.store.flash = c.store.flash := congrArg Standing.flash h.standing

theorem Retires.now (h : Retires slot detail c d) : d.now = c.now := congrArg Standing.now h.standing

/-- R188. The load that waited for the operation ends. -/
theorem Retires.loadEnded (h : Retires slot detail c d) (l : Load) (n : Nat) : LoadEnded c (endLoad l n d) l n := by
  rw [LoadEnded, ← h.now]
  exact ⟨rfl, .before h.reports (reported_of_report (c := { d with port.load := .idle }) (.refl _) (.of_silent ⟨rfl, rfl, rfl⟩))⟩

theorem Retires.endLoad (h : Retires slot detail c d) {l : Load} (hload : c.port.load = .opened l ∨ c.port.load = .checking l) (n : Nat) :
    Retires slot detail c (endLoad l n d) where
  standing := by
    obtain ⟨-, -, hstands⟩ := endLoad_leaves l n d
    rw [hstands, h.standing]
  slotInfo := h.slotInfo
  dirty := h.dirty
  reported := h.reported.after (endLoad_adds l n d).1
  bodies := h.bodies
  load := .inr ⟨l, n, hload, h.loadEnded l n⟩

/-- R59, R188. The load that waited for the check ends, if one did. -/
theorem Retires.endCheckedLoad (h : Retires slot detail c d) (hsame : d.port.load = c.port.load) (q : CheckRequest) (n : Nat) :
    Retires slot detail c (endCheckedLoad q n d) := by
  by_cases hwaits : q.source.isSome ∨ ∀ l, d.port.load ≠ .checking l
  · rwa [endCheckedLoad_of_none hwaits]
  · obtain ⟨hsource, l, hl⟩ : q.source = none ∧ ∃ l, d.port.load = .checking l := by simpa using hwaits
    rw [endCheckedLoad_of_waiting hsource hl]
    exact h.endLoad (.inr (hsame ▸ hl)) n

/-! ## What the owner does -/

/-- R50, R101. An operation of fetch `i` has failed: the fetch is cancelled if it still fills the slot. -/
def fetchFails (i slot detail : Nat) (c : Chip) : Chip :=
  match liveFetch c i slot with
  | some f => failFetch i detail f c
  | none => retire slot detail c

theorem liveFetch_slot {i : Nat} {x : OpenFetch} (h : liveFetch c i slot = some x) : x.storeSlot = slot := by
  unfold liveFetch at h
  split at h
  · split at h
    · next hslot => exact Option.some.inj h ▸ hslot
    · cases h
  · cases h

theorem fetchFails_of_live {i : Nat} {x : OpenFetch} (h : liveFetch c i slot = some x) (detail : Nat) :
    fetchFails i slot detail c = setSegState x.image x.segment .absent (retire slot detail (freeFetch i x.peer x.counted c)) := by
  rw [fetchFails, h, ← liveFetch_slot h]
  rfl

theorem fetchFails_retires (i slot detail : Nat) (c : Chip) : Retires slot detail c (fetchFails i slot detail c) := by
  cases hx : liveFetch c i slot with
  | none =>
    rw [fetchFails, hx]
    exact retire_retires slot detail c
  | some x =>
    rw [fetchFails_of_live hx]
    have hquiet := freeFetch_quiet i x.peer x.counted c
    exact ((retire_retires slot detail _).setSegState _ _ _).of_leaves hquiet.1.1 hquiet.2 (freeFetch_bodies i x.peer x.counted c)

/-- R50. A fetch that is cancelled leaves its slot FREE and its segment ABSENT. -/
theorem fetchFails_frees {i : Nat} {x : OpenFetch} (h : liveFetch c i slot = some x) (detail : Nat) :
    fetchSlot (fetchFails i slot detail c) i = .free ∧
      ((segState c x.image x.segment).isSome → segState (fetchFails i slot detail c) x.image x.segment = some .absent) := by
  obtain ⟨hslots, hcatalog, -⟩ := freeFetch_does i x.peer x.counted c
  have hfails := fetchFails_of_live h detail
  have hfreed : (fetchFails i slot detail c).fetch.slots = c.fetch.slots.set i .free := by
    rw [hfails]
    exact hslots
  refine ⟨(fetchSlot_of_set hfreed (fetchSlot_opened_lt (liveFetch_opened h)) i).trans (if_pos rfl), fun hsome => ?_⟩
  rw [hfails]
  refine segState_setSegState ?_ _
  rwa [segState_of_catalog (show (retire slot detail (freeFetch i x.peer x.counted c)).catalog = c.catalog from hcatalog)]

/-- R187. An operation of the load has failed: the load ends with 2 if it still fills the slot. -/
def loadFails (slot detail : Nat) (c : Chip) : Chip :=
  match liveLoad c slot with
  | some l => failLoad l detail c
  | none => retire slot detail c

theorem liveLoad_eq_some {l : Load} (h : liveLoad c slot = some l) : c.port.load = .opened l ∧ l.slot = slot := by
  unfold liveLoad at h
  split at h
  · next l' hl =>
    split at h
    · next hslot =>
      obtain rfl : l' = l := Option.some.inj h
      exact ⟨hl, hslot⟩
    · cases h
  · cases h

theorem loadFails_of_live {l : Load} (h : liveLoad c slot = some l) (detail : Nat) : loadFails slot detail c = endLoad l 2 (retire slot detail c) := by
  rw [loadFails, h, ← (liveLoad_eq_some h).2]
  rfl

theorem loadFails_retires (slot detail : Nat) (c : Chip) : Retires slot detail c (loadFails slot detail c) := by
  have hretired := retire_retires slot detail c
  cases hl : liveLoad c slot with
  | none =>
    rw [loadFails, hl]
    exact hretired
  | some l =>
    rw [loadFails_of_live hl]
    exact hretired.endLoad (.inl (liveLoad_eq_some hl).1) 2

/-- R59. The header program of a check has failed: the slot is retired, and the segment returns to ABSENT unless its record has been removed. -/
def headerRetired (q : CheckRequest) (c : Chip) : Chip :=
  if q.orphan then retire q.slot 2 (dropCheck q c) else setSegState q.image q.segment .absent (retire q.slot 2 (dropCheck q c))

/-- R59, R188. The load that waited for the check ends too. -/
def headerFails (q : CheckRequest) (c : Chip) : Chip := endCheckedLoad q (if q.orphan then 3 else 2) (headerRetired q c)

theorem headerRetired_retires (q : CheckRequest) (c : Chip) : Retires q.slot 2 c (headerRetired q c) := by
  have hretired : Retires q.slot 2 c (retire q.slot 2 (dropCheck q c)) :=
    (retire_retires q.slot 2 (dropCheck q c)).of_leaves (by simp [dropCheck, Stands]) rfl rfl
  unfold headerRetired
  split
  exacts [hretired, hretired.setSegState _ _ _]

theorem headerRetired_load (q : CheckRequest) (c : Chip) : (headerRetired q c).port.load = c.port.load := by
  unfold headerRetired
  split <;> rfl

theorem headerFails_retires (q : CheckRequest) (c : Chip) : Retires q.slot 2 c (headerFails q c) :=
  (headerRetired_retires q c).endCheckedLoad (headerRetired_load q c) q _

theorem headerFails_segState {q : CheckRequest} (horphan : q.orphan = false) (h : (segState c q.image q.segment).isSome) :
    segState (headerFails q c) q.image q.segment = some .absent := by
  rw [headerFails, segState_of_catalog (endCheckedLoad_leaves q _ _).1, headerRetired, if_neg (by simp [horphan])]
  exact segState_setSegState (c := retire q.slot 2 (dropCheck q c)) h _

theorem headerFails_loadEnded {q : CheckRequest} {l : Load} (hsource : q.source = none) (hload : c.port.load = .checking l) :
    LoadEnded c (headerFails q c) l (if q.orphan then 3 else 2) := by
  rw [headerFails, endCheckedLoad_of_waiting hsource ((headerRetired_load q c).trans hload)]
  exact (headerRetired_retires q c).loadEnded l _

/-! ## The failed operations -/

/-- R104. What the end of an operation in failure does. -/
def failureRun : StoreOp → Chip → Chip
  | .fetchBlock _ _ _ _ => fetchBlockFailed
  | .fetchClaim _ _ => claimFailed
  | .loadClaim _ => claimFailed
  | .loadBlock _ _ _ => loadBlockFailed
  | .checkHeader _ _ => headerFailed
  | .slotErase _ => slotEraseFailed
  | .eraseMark _ => eraseMarkFailed
  | _ => id

/-- Log 9. The chip with the bytes that a failed operation has spoiled, `n` from address `a`. -/
def spoiledBy (op : StoreOp) (a n : Nat) (c : Chip) : Chip :=
  match op with
  | .slotErase slot => spoilErase slot (freeDevice c)
  | _ => spoilProgram a n (freeDevice c)

variable {op : StoreOp} {live : Bool} {row : Instr} {a n : Nat}

/-- R104. The row of a failure is the one whose effect is `failureRun`. -/
theorem exec_of_failureOf (hrow : failureOf op = some (row, slot, detail, a, n)) (s : State) : exec row s = run (failureRun op) s := by
  cases op <;> simp only [failureOf, Option.some.injEq, Prod.mk.injEq, reduceCtorEq] at hrow <;> obtain ⟨rfl, -⟩ := hrow <;> rfl

theorem slot_of_failureOf (hrow : failureOf op = some (row, slot, detail, a, n)) : op.slot? = some slot := by
  cases op <;> simp only [failureOf, Option.some.injEq, Prod.mk.injEq, reduceCtorEq] at hrow <;> obtain ⟨-, rfl, -⟩ := hrow <;> rfl

theorem spoiledBy_spoiled (hrow : failureOf op = some (row, slot, detail, a, n)) (c : Chip) : Spoiled a n c (spoiledBy op a n c) := by
  cases op with
  | slotErase slot =>
    simp only [failureOf, Option.some.injEq, Prod.mk.injEq] at hrow
    obtain ⟨-, -, -, rfl, rfl⟩ := hrow
    exact spoilErase_spoiled slot c
  | _ => exact spoilProgram_spoiled a n c

theorem spoiledBy_failed (hrow : failureOf op = some (row, slot, detail, a, n)) (hprogram : row ≠ .slotEraseFailed) (c : Chip) :
    ProgramFailed c.store.flash (spoiledBy op a n c).store.flash a n := by
  cases op with
  | slotErase slot =>
    simp only [failureOf, Option.some.injEq, Prod.mk.injEq] at hrow
    exact absurd hrow.1.symm hprogram
  | _ => exact spoilProgram_failed a n (freeDevice c)

theorem failureRun_fetch {i : Nat} (hop : op = .fetchClaim i slot ∨ ∃ b data, op = .fetchBlock i slot b data)
    (hcurrent : c.store.current = some { op := op, live := live }) (hrow : failureOf op = some (row, slot, detail, a, n)) :
    failureRun op c = fetchFails i slot detail (spoiledBy op a n c) := by
  rcases hop with rfl | ⟨b, data, rfl⟩ <;> simp only [failureOf, Option.some.injEq, Prod.mk.injEq] at hrow <;>
    obtain ⟨-, -, rfl, rfl, rfl⟩ := hrow
  · simp only [failureRun, claimFailed, hcurrent]
    rfl
  · simp only [failureRun, fetchBlockFailed, hcurrent]
    rfl

theorem failureRun_load (hop : op = .loadClaim slot ∨ ∃ b data, op = .loadBlock slot b data)
    (hcurrent : c.store.current = some { op := op, live := live }) (hrow : failureOf op = some (row, slot, detail, a, n)) :
    failureRun op c = loadFails slot detail (spoiledBy op a n c) := by
  rcases hop with rfl | ⟨b, data, rfl⟩ <;> simp only [failureOf, Option.some.injEq, Prod.mk.injEq] at hrow <;>
    obtain ⟨-, -, rfl, rfl, rfl⟩ := hrow
  · simp only [failureRun, claimFailed, hcurrent]
    rfl
  · simp only [failureRun, loadBlockFailed, hcurrent]
    rfl

theorem failureRun_header {bytes : List Byte} {q : CheckRequest} (hop : op = .checkHeader slot bytes)
    (hcurrent : c.store.current = some { op := op, live := live }) (hrow : failureOf op = some (row, slot, detail, a, n))
    (hfind : c.store.checkQueue.find? (fun x => x.slot == slot) = some q) : failureRun op c = headerFails q (spoiledBy op a n c) := by
  obtain rfl := hop
  simp only [failureOf, Option.some.injEq, Prod.mk.injEq] at hrow
  obtain ⟨-, -, rfl, rfl, rfl⟩ := hrow
  obtain rfl : q.slot = slot := by simpa using List.find?_some hfind
  have hfind' : (spoilProgram (spareAddress q.slot 4) bytes.length (freeDevice c)).store.checkQueue.find? (fun x => x.slot == q.slot) = some q := hfind
  simp only [failureRun, headerFailed, hcurrent, hfind', headerFails, headerRetired, spoiledBy]
  split <;> rfl

/-- R104. Whatever the operation, its failure retires its slot. -/
theorem failureRun_retires (hcurrent : c.store.current = some { op := op, live := live }) (hrow : failureOf op = some (row, slot, detail, a, n)) :
    Retires slot detail (spoiledBy op a n c) (failureRun op c) := by
  have hslot := slot_of_failureOf hrow
  cases op with
  | fetchClaim i s =>
    obtain rfl : s = slot := Option.some.inj hslot
    exact failureRun_fetch (.inl rfl) hcurrent hrow ▸ fetchFails_retires i s detail _
  | fetchBlock i s b data =>
    obtain rfl : s = slot := Option.some.inj hslot
    exact failureRun_fetch (.inr ⟨b, data, rfl⟩) hcurrent hrow ▸ fetchFails_retires i s detail _
  | loadClaim s =>
    obtain rfl : s = slot := Option.some.inj hslot
    exact failureRun_load (.inl rfl) hcurrent hrow ▸ loadFails_retires s detail _
  | loadBlock s b data =>
    obtain rfl : s = slot := Option.some.inj hslot
    exact failureRun_load (.inr ⟨b, data, rfl⟩) hcurrent hrow ▸ loadFails_retires s detail _
  | checkHeader s bytes =>
    simp only [failureOf, Option.some.injEq, Prod.mk.injEq] at hrow
    obtain ⟨rfl, rfl, rfl, rfl, rfl⟩ := hrow
    cases hfind : c.store.checkQueue.find? (fun x => x.slot == s) with
    | some q =>
      obtain rfl : q.slot = s := by simpa using List.find?_some hfind
      exact failureRun_header rfl hcurrent rfl hfind ▸ headerFails_retires q _
    | none =>
      have hfind' : (spoilProgram (spareAddress s 4) bytes.length (freeDevice c)).store.checkQueue.find? (fun x => x.slot == s) = none := hfind
      simp only [failureRun, headerFailed, hcurrent, hfind']
      exact retire_retires s 2 _
  | slotErase s =>
    simp only [failureOf, Option.some.injEq, Prod.mk.injEq] at hrow
    obtain ⟨rfl, rfl, rfl, rfl, rfl⟩ := hrow
    simp only [failureRun, slotEraseFailed, hcurrent]
    exact retire_retires s 3 _
  | eraseMark s =>
    simp only [failureOf, Option.some.injEq, Prod.mk.injEq] at hrow
    obtain ⟨rfl, rfl, rfl, rfl, rfl⟩ := hrow
    simp only [failureRun, eraseMarkFailed, hcurrent]
    exact retire_retires s 2 _
  | _ => simp [failureOf] at hrow

/-! ## With what the failure sets going -/

theorem settle_load (c : Chip) : (settle c).port.load = c.port.load := by simp

/-- A load's end stands with all that is set going. -/
theorem loadEnded_settle {l : Load} {k : Nat} (h : LoadEnded c d l k) : LoadEnded c (settle d) l k :=
  ⟨(settle_load d).trans h.1, h.2.after (settle_adds d).1⟩

theorem LoadEnded.of_spoiled {l : Load} {k : Nat} (hspoiled : Spoiled a n c d) (h : LoadEnded d e l k) : LoadEnded c e l k := by
  have hnow : d.now = c.now := congrArg Standing.now hspoiled.standing
  rwa [LoadEnded, hspoiled.port, hnow] at h

theorem Spoiled.standing_retires (hspoiled : Spoiled a n c d) (h : Retires slot detail d e) :
    Sys2Proof.Machine.standing e =
      { Sys2Proof.Machine.standing c with
        flash := d.store.flash
        freeCount := c.freeCount + n
        retiredList := c.store.retiredList ++ [slot]
        awaitingMark := c.store.awaitingMark ++ [slot]
        eraseMarkDue := if c.store.eraseMarkDue = some slot then none else c.store.eraseMarkDue
        load := e.port.load } := by
  have hretired : d.store.retiredList = c.store.retiredList := congrArg Standing.retiredList hspoiled.standing
  have hawaiting : d.store.awaitingMark = c.store.awaitingMark := congrArg Standing.awaitingMark hspoiled.standing
  have hdue : d.store.eraseMarkDue = c.store.eraseMarkDue := congrArg Standing.eraseMarkDue hspoiled.standing
  rw [h.standing, hspoiled.standing, hretired, hawaiting, hdue]

/-- R50, R101. A fetch still in the slot when the failed bytes were spoiled. -/
theorem liveFetch_spoiledBy (op : StoreOp) (a n i slot : Nat) (c : Chip) : liveFetch (spoiledBy op a n c) i slot = liveFetch c i slot := by
  cases op <;> rfl

theorem segState_spoiledBy (op : StoreOp) (a n : Nat) (c : Chip) (k : ImageKey) (seg : Nat) :
    segState (spoiledBy op a n c) k seg = segState c k seg := by
  cases op <;> rfl

/-- R104. Of a failed operation, with all that its end sets going (`e`): the bytes, the standing part, the report, the peers and the load. -/
structure FailureEnds (slot detail a n : Nat) (c e : Chip) : Prop where
  outside : ∀ x, x < a ∨ a + n ≤ x → Memory.read e.store.flash x = Memory.read c.store.flash x
  standing : standing e =
    { standing c with
      flash := e.store.flash
      freeCount := c.freeCount + n
      retiredList := c.store.retiredList ++ [slot]
      awaitingMark := c.store.awaitingMark ++ [slot]
      eraseMarkDue := if c.store.eraseMarkDue = some slot then none else c.store.eraseMarkDue
      load := e.port.load }
  reported : Reported c.port.reports e.port.reports .storeError (.number slot) detail c.now
  bodies : e.peers.map peerBody = c.peers.map peerBody
  load : e.port.load = c.port.load ∨ ∃ l k, (c.port.load = .opened l ∨ c.port.load = .checking l) ∧ LoadEnded c e l k

theorem Spoiled.failureEnds (hspoiled : Spoiled a n c d) (h : Retires slot detail d e) : FailureEnds slot detail a n c e where
  outside := h.flash ▸ hspoiled.outside
  standing := by rw [hspoiled.standing_retires h, h.flash]
  reported := by
    have hnow : d.now = c.now := congrArg Standing.now hspoiled.standing
    have hreported := h.reported
    rwa [hspoiled.port, hnow] at hreported
  bodies := h.bodies.trans (by rw [hspoiled.peers])
  load := by
    have hload := h.load
    rw [hspoiled.port] at hload
    exact hload.imp_right fun ⟨l, k, hwas, hended⟩ => ⟨l, k, hwas, hended.of_spoiled hspoiled⟩

theorem FailureEnds.settled (h : FailureEnds slot detail a n c e) : FailureEnds slot detail a n c (settle e) := by
  have hload := settle_load e
  have hadds := settle_adds e
  have hended := fun l k => loadEnded_settle (c := c) (d := e) (l := l) (k := k)
  obtain ⟨hflash, hstanding⟩ := standing_settle_of h.standing
  generalize settle e = f at *
  refine ⟨?_, ?_, h.reported.after hadds.1, hadds.2.2.trans h.bodies, ?_⟩
  · rw [hflash]
    exact h.outside
  · rw [hstanding, hload]
  · rw [hload]
    exact h.load.imp_right fun ⟨l, k, hwas, hl⟩ => ⟨l, k, hwas, hended l k hl⟩

/-- Settles O33, by what each failure makes of the slot and of its owner; what is set going leaves both. -/
theorem failedOperationRetiresSlot : Obligations.FailedOperationRetiresSlot := by
  unfold Obligations.FailedOperationRetiresSlot
  intro s op live row slot detail a n hcurrent hrow c
  have hspoiled := spoiledBy_spoiled hrow c
  have hretires := failureRun_retires hcurrent hrow
  have hflash : (settle (failureRun op c)).store.flash = (spoiledBy op a n c).store.flash := (flash_of_stands (settle_keeps _)).trans hretires.flash
  obtain ⟨houtside, hstanding, hreported, hbodies, hload⟩ := (hspoiled.failureEnds hretires).settled
  refine ⟨_, failureRun op c, exec_of_run (exec_of_failureOf hrow s) rfl, rfl, houtside, fun hprogram => ?_, hstanding, hretires.slotInfo, hretires.dirty,
    hreported, hbodies, hload, fun i f hop hlive => ?_, fun l hop hlive => ?_, fun bytes q hop hfind => ⟨fun horphan hsome => ?_, fun l hsource hl => ?_⟩⟩
  · rw [hflash]
    exact spoiledBy_failed hrow hprogram c
  · rw [failureRun_fetch hop hcurrent hrow, ← segState_spoiledBy op a n c]
    exact fetchFails_frees ((liveFetch_spoiledBy op a n i slot c).trans hlive) detail
  · have hlive' : liveLoad (spoiledBy op a n c) slot = some l := by rw [← hlive, liveLoad, hspoiled.port, liveLoad]
    refine loadEnded_settle ?_
    rw [failureRun_load hop hcurrent hrow, loadFails_of_live hlive']
    exact ((retire_retires slot detail _).loadEnded l 2).of_spoiled hspoiled
  · rw [failureRun_header hop hcurrent hrow hfind]
    exact headerFails_segState horphan (by rwa [segState_spoiledBy])
  · refine loadEnded_settle ?_
    rw [failureRun_header hop hcurrent hrow hfind]
    exact (headerFails_loadEnded hsource (by rwa [hspoiled.port])).of_spoiled hspoiled

end Sys2Proof.Machine
end

