-- ==== Sys2Proof/Proofs/CheckReads.lean ====
section
/-!
SUPPORT. The reads of a check (R107): the CRC that goes on, and after the last read the header program asked for (R58), or the check's end (R60, R188).
-/
namespace Sys2Proof.Machine

variable {c d : Chip} {q : CheckRequest}

/-! ## A read of the check (R107) -/

/-- R107. The request after a read of these bytes. -/
def fedRequest (bytes : List Byte) (q : CheckRequest) : CheckRequest := { q with reads := q.reads + 1, crc := crc32Feed q.crc bytes }

/-- R107. The check queue with the slot's request replaced. -/
def replaceRequest (q : CheckRequest) (c : Chip) : Chip :=
  { c with store.checkQueue := c.store.checkQueue.map (fun x => if x.slot = q.slot then q else x) }

theorem checkReadDone_eq {b : Nat} {live : Bool} (hcurrent : c.store.current = some { op := .checkRead q.slot b, live := live })
    (hfind : c.store.checkQueue.find? (fun x => x.slot == q.slot) = some q) :
    checkReadDone c =
      if 64 ≤ q.reads + 1 then
        compareCheck (fedRequest (readBlock c q.slot b) q) (replaceRequest (fedRequest (readBlock c q.slot b) q) (freeDevice c))
      else replaceRequest (fedRequest (readBlock c q.slot b) q) (freeDevice c) := by
  have hfind' : (freeDevice c).store.checkQueue.find? (fun x => x.slot == q.slot) = some q := hfind
  simp only [checkReadDone, hcurrent, hfind']
  rfl

/-! ## The fetch slot (R58) -/

/-- R58. Freeing the fetch slot of a check leaves the check queue, the catalog, the idle device and all of the peers but their open fetches. -/
structure LeavesCheck (c d : Chip) : Prop where
  checks : LeavesChecks c d
  catalog : d.catalog = c.catalog
  current : d.store.current = c.store.current
  bodies : d.peers.map peerBody = c.peers.map peerBody

theorem LeavesCheck.refl (c : Chip) : LeavesCheck c c := ⟨⟨by simp [Stands], .refl _, rfl⟩, rfl, rfl, rfl⟩

theorem freeFetch_leavesCheck (i peer : Nat) (counted : Bool) (c : Chip) : LeavesCheck c (freeFetch i peer counted c) := by
  obtain ⟨-, hcatalog, -, -, hstore, -⟩ := freeFetch_does i peer counted c
  have hquiet := freeFetch_quiet i peer counted c
  exact ⟨⟨hquiet.1.1, .of_eq hquiet.2, by rw [hstore]; rfl⟩, hcatalog, by rw [hstore]; rfl, freeFetch_bodies i peer counted c⟩

theorem freeChecked_of_checking {i : Nat} {f : CheckFetch} (hsource : q.source = some i) (hf : fetchSlot c i = .checking f) :
    freeChecked q c = setSlot q.slot { cond := .filling, owner := some (.check q.image q.segment) } (freeFetch i f.peer f.counted c) := by
  simp only [freeChecked, hsource, hf]

theorem freeChecked_leavesCheck (q : CheckRequest) (c : Chip) : LeavesCheck c (freeChecked q c) := by
  unfold freeChecked
  split
  · exact .refl c
  · next i _ =>
    split
    · next f _ =>
      obtain ⟨hchecks, hcatalog, hcurrent, hbodies⟩ := freeFetch_leavesCheck i f.peer f.counted c
      exact ⟨hchecks.trans (setSlot_leavesChecks _ _ _), hcatalog, hcurrent, hbodies⟩
    · exact .refl c

theorem fetchSlot_checking_lt {i : Nat} {f : CheckFetch} (h : fetchSlot c i = .checking f) : i < c.fetch.slots.length := by
  by_contra hge
  simp [fetchSlot, List.getD_eq_getElem?_getD, List.getElem?_eq_none (Nat.not_lt.mp hge)] at h

/-- R58, R107. After the last read the fetch slot is FREE and the request owns the store slot. -/
theorem freeChecked_frees {i : Nat} {f : CheckFetch} (hsource : q.source = some i) (hf : fetchSlot c i = .checking f) :
    fetchSlot (freeChecked q c) i = .free ∧ slotInfo (freeChecked q c) q.slot = ⟨.filling, some (.check q.image q.segment)⟩ := by
  obtain ⟨hslots, -⟩ := freeFetch_does i f.peer f.counted c
  rw [freeChecked_of_checking hsource hf]
  refine ⟨?_, slotInfo_setSlot _ _ _⟩
  have hfreed : (setSlot q.slot { cond := .filling, owner := some (.check q.image q.segment) } (freeFetch i f.peer f.counted c)).fetch.slots =
      c.fetch.slots.set i .free := hslots
  exact (fetchSlot_of_set hfreed (fetchSlot_checking_lt hf) i).trans (if_pos rfl)

/-! ## The comparison (R58, R60, R188) -/

/-- R58. The header program is asked for. -/
def askHeader (q : CheckRequest) (c : Chip) : Chip :=
  { c with store.checkQueue := c.store.checkQueue.map (fun x => if x.slot = q.slot then { x with header := true } else x) }

/-- R60. What a mismatch makes of the segment and of the peer. -/
def checkSpoiled (q : CheckRequest) (peer : Option Nat) (c : Chip) : Chip :=
  reportSpoiled q peer (setSegState q.image q.segment .absent (release q.slot (dropCheck q c)))

/-- R60, R188. The end of a check without a header program, the load apart. -/
def checkEnded (q : CheckRequest) (peer : Option Nat) (c : Chip) : Chip :=
  if q.orphan then release q.slot (dropCheck q c) else checkSpoiled q peer c

theorem compareCheck_of_match (horphan : q.orphan = false) (hcrc : ~~~q.crc = q.expected) (c : Chip) :
    compareCheck q c = askHeader q (freeChecked q c) := by
  simp [compareCheck, horphan, hcrc, askHeader]

theorem compareCheck_of_end (h : q.orphan = true ∨ ~~~q.crc ≠ q.expected) (c : Chip) :
    compareCheck q c = endCheckedLoad q (if q.orphan then 3 else 1) (checkEnded q (checkedPeer c q) (freeChecked q c)) := by
  cases horphan : q.orphan with
  | true => simp [compareCheck, checkEnded, horphan]
  | false =>
    have hcrc : ~~~q.crc ≠ q.expected := h.resolve_left (by simp [horphan])
    simp [compareCheck, checkEnded, horphan, hcrc, checkMismatch, checkSpoiled]

theorem compareCheck_of_mismatch (horphan : q.orphan = false) (hcrc : ~~~q.crc ≠ q.expected) (c : Chip) :
    compareCheck q c = endCheckedLoad q 1 (checkSpoiled q (checkedPeer c q) (freeChecked q c)) := by
  simp [compareCheck, horphan, hcrc, checkMismatch, checkSpoiled]

/-- R60. A strike and a report leave the store and the catalog. -/
theorem reportSpoiled_leaves (q : CheckRequest) (peer : Option Nat) (c : Chip) :
    LeavesChecks c (reportSpoiled q peer c) ∧ (reportSpoiled q peer c).catalog = c.catalog ∧ (reportSpoiled q peer c).store = c.store := by
  unfold reportSpoiled
  split
  · exact ⟨(LeavesCheck.refl c).checks, rfl, rfl⟩
  · cases peer with
    | some id =>
      have hquiet := strike_quiet id true c
      have hstruck : LeavesChecks c (strike id true c) := ⟨hquiet.1.1, .of_eq hquiet.2, rfl⟩
      exact ⟨hstruck.trans (report_leavesChecks _ _ _ _), rfl, rfl⟩
    | none => exact ⟨report_leavesChecks _ _ _ c, rfl, rfl⟩

/-- R60. SEGMENT_SPOILED names the counted peer, or 0. -/
theorem reportSpoiled_reports (hsource : q.source.isSome) (peer : Option Nat) (c : Chip) :
    Reported c.port.reports (reportSpoiled q peer c).port.reports .segmentSpoiled (.segment q.image q.segment) (peer.getD 0) c.now := by
  obtain ⟨i, hi⟩ := Option.isSome_iff_exists.mp hsource
  cases peer with
  | some id =>
    simp only [reportSpoiled, hi]
    exact reported_of_report (c := strike id true c) (.of_eq rfl) (.refl _)
  | none =>
    simp only [reportSpoiled, hi]
    exact reported_of_report (.refl _) (.refl _)

theorem struck_body (now : Nat) (p : PeerRecord) : peerBody (struck now p) = struck now (peerBody p) := by
  simp only [struck, apply_ite peerBody]
  rfl

/-- R31, R60. The counted peer of a spoiled segment has a strike. -/
theorem reportSpoiled_strikes (hsource : q.source.isSome) (id : Nat) (c : Chip) :
    (reportSpoiled q (some id) c).peers.map peerBody = (c.peers.map peerBody).map (fun p => if p.id = id then struck c.now p else p) := by
  obtain ⟨i, hi⟩ := Option.isSome_iff_exists.mp hsource
  simp only [reportSpoiled, hi]
  exact updatePeer_bodies (struck_body c.now) id c

theorem checkSpoiled_leavesChecks (q : CheckRequest) (peer : Option Nat) (c : Chip) : LeavesChecks (dropCheck q c) (checkSpoiled q peer c) :=
  (release_leavesChecks q.slot _).trans ((setSegState_leavesChecks _ _ _ _).trans (reportSpoiled_leaves q peer _).1)

theorem checkEnded_leavesChecks (q : CheckRequest) (peer : Option Nat) (c : Chip) : LeavesChecks (dropCheck q c) (checkEnded q peer c) := by
  unfold checkEnded
  split
  exacts [release_leavesChecks q.slot _, checkSpoiled_leavesChecks q peer c]

/-- R60, R102. The slot of the check is released at once: no operation is in progress. -/
theorem checkEnded_slotInfo (hidle : c.store.current = none) (peer : Option Nat) : slotInfo (checkEnded q peer c) q.slot = ⟨.dirty, none⟩ := by
  have hreleased : slotInfo (release q.slot (dropCheck q c)) q.slot = ⟨.dirty, none⟩ := release_slotInfo (c := dropCheck q c) hidle q.slot
  unfold checkEnded
  split
  · exact hreleased
  · exact (slotInfo_of_store (reportSpoiled_leaves q peer _).2.2 q.slot).trans hreleased

theorem checkSpoiled_segState (peer : Option Nat) (h : (segState c q.image q.segment).isSome) :
    segState (checkSpoiled q peer c) q.image q.segment = some .absent := by
  have hreleased : (release q.slot (dropCheck q c)).catalog = c.catalog := (release_unmoved q.slot (dropCheck q c)).1
  rw [checkSpoiled, segState_of_catalog (reportSpoiled_leaves q peer _).2.1]
  exact segState_setSegState (by rwa [segState_of_catalog hreleased]) _

/-! ## The whole command -/

/-- R107. Of the standing part a completion of a check's read has changed the load alone, its reports have grown, and the request has left the queue. -/
structure CheckOver (q : CheckRequest) (c d : Chip) : Prop where
  standing : StandsButLoad c d
  queue : d.store.checkQueue = c.store.checkQueue.filter (fun x => x.slot != q.slot)
  slotInfo : slotInfo d q.slot = ⟨.dirty, none⟩
  load : ∀ l, q.source = none → c.port.load = .checking l → LoadEnded c d l (if q.orphan then 3 else 1)

/-- R107. The request replaced and then removed. -/
theorem filter_replaceRequest (q : CheckRequest) (queue : List CheckRequest) :
    (queue.map (fun x => if x.slot = q.slot then q else x)).filter (fun x => x.slot != q.slot) = queue.filter (fun x => x.slot != q.slot) := by
  induction queue with
  | nil => rfl
  | cons x xs ih =>
    by_cases h : x.slot = q.slot <;> simp_all

theorem replaceRequest_leaves (q : CheckRequest) (c : Chip) : Stands c (replaceRequest q (freeDevice c)) := by simp [replaceRequest, freeDevice, Stands]

theorem compareCheck_over (h : q.orphan = true ∨ ~~~q.crc ≠ q.expected) (c : Chip) :
    CheckOver q c (compareCheck q (replaceRequest q (freeDevice c))) := by
  have hfree := freeChecked_leavesCheck q (replaceRequest q (freeDevice c))
  generalize hfreed : freeChecked q (replaceRequest q (freeDevice c)) = f at hfree
  generalize hpeer : checkedPeer (replaceRequest q (freeDevice c)) q = peer
  have hended := checkEnded_leavesChecks q peer f
  have hfreeLoad : f.port.load = c.port.load := hfree.checks.load
  have hload : (checkEnded q peer f).port.load = c.port.load := hended.load.trans hfreeLoad
  obtain ⟨-, hstore, hstands, -⟩ := endCheckedLoad_leaves q (if q.orphan then 3 else 1) (checkEnded q peer f)
  rw [compareCheck_of_end h, hfreed, hpeer]
  refine ⟨?_, ?_, ?_, fun l hsource hl => ?_⟩
  · have hdropped : Stands f (dropCheck q f) := by simp [dropCheck, Stands]
    have hbefore := (StandsButLoad.of_stands (replaceRequest_leaves q c)).trans (.of_stands hfree.checks.stands)
    exact hbefore.trans ((StandsButLoad.of_stands hdropped).trans ((StandsButLoad.of_stands hended.stands).trans hstands))
  · have hqueue : f.store.checkQueue = c.store.checkQueue.map (fun x => if x.slot = q.slot then q else x) := hfree.checks.queue
    have hrest : (dropCheck q f).store.checkQueue = f.store.checkQueue.filter (fun x => x.slot != q.slot) := rfl
    rw [hstore, hended.queue, hrest, hqueue, filter_replaceRequest]
  · rw [slotInfo_of_store hstore]
    exact checkEnded_slotInfo (hfree.current.trans rfl) peer
  · obtain ⟨hidle, hreported⟩ := endCheckedLoad_ends hsource (hload.trans hl) (if q.orphan then 3 else 1)
    have hnow : (checkEnded q peer f).now = c.now := hended.now.trans hfree.checks.now
    have hreports : Grows c.port.reports (checkEnded q peer f).port.reports := hfree.checks.reports.trans hended.reports
    rw [hnow] at hreported
    exact ⟨hidle, .before hreports hreported⟩

/-- R60. What a mismatch does to the segment, the reports and the counted peer. -/
structure SegmentSpoiled (q : CheckRequest) (peer : Option Nat) (c d : Chip) : Prop where
  segment : (segState c q.image q.segment).isSome → segState d q.image q.segment = some .absent
  reported : q.source.isSome → Reported c.port.reports d.port.reports .segmentSpoiled (.segment q.image q.segment) (peer.getD 0) c.now
  strikes : ∀ id, peer = some id → d.peers.map peerBody = (c.peers.map peerBody).map (fun p => if p.id = id then struck c.now p else p)

theorem source_of_checkedPeer {id : Nat} (h : checkedPeer c q = some id) : q.source.isSome := by
  unfold checkedPeer at h
  split at h
  · cases h
  · next hi => simp [hi]

theorem checkSpoiled_spoils {peer : Option Nat} (hpeer : ∀ id, peer = some id → q.source.isSome) (c : Chip) :
    SegmentSpoiled q peer c (checkSpoiled q peer c) := by
  have hleaves := (release_leavesChecks q.slot (dropCheck q c)).trans (setSegState_leavesChecks q.image q.segment .absent _)
  have hpeers : (setSegState q.image q.segment .absent (release q.slot (dropCheck q c))).peers = c.peers := (release_parts q.slot (dropCheck q c)).1
  have hnow : (setSegState q.image q.segment .absent (release q.slot (dropCheck q c))).now = c.now := hleaves.now
  refine ⟨checkSpoiled_segState peer, fun hsource => ?_, ?_⟩
  · rw [← hnow]
    exact .before hleaves.reports (reportSpoiled_reports hsource peer _)
  · rintro id rfl
    rw [checkSpoiled, reportSpoiled_strikes (hpeer id rfl), hpeers, hnow]

theorem compareCheck_spoils (horphan : q.orphan = false) (hcrc : ~~~q.crc ≠ q.expected) (c : Chip) :
    SegmentSpoiled q (checkedPeer c q) c (compareCheck q c) := by
  have hfree := freeChecked_leavesCheck q c
  have hspoils := checkSpoiled_spoils (peer := checkedPeer c q) (fun id h => source_of_checkedPeer h) (freeChecked q c)
  obtain ⟨hcatalog, -, -, hadds⟩ := endCheckedLoad_leaves q 1 (checkSpoiled q (checkedPeer c q) (freeChecked q c))
  have hnow : (freeChecked q c).now = c.now := hfree.checks.now
  rw [compareCheck_of_mismatch horphan hcrc]
  refine ⟨fun hsome => ?_, fun hsource => ?_, fun id hid => ?_⟩
  · rw [segState_of_catalog hcatalog]
    exact hspoils.segment (by rwa [segState_of_catalog hfree.catalog])
  · have hreported := hspoils.reported hsource
    rw [hnow] at hreported
    exact .before hfree.checks.reports (hreported.after hadds.1)
  · rw [hadds.2.2, hspoils.strikes id hid, hnow, hfree.bodies]

theorem bodies_struck (now id : Nat) (ps : List PeerRecord) :
    (ps.map peerBody).map (fun p => if p.id = id then struck now p else p) = ps.map (fun p => peerBody (if p.id = id then struck now p else p)) := by
  rw [List.map_map]
  refine List.map_congr_left fun p _ => ?_
  rw [apply_ite peerBody, struck_body]
  rfl

theorem compareCheck_of_match_leaves (horphan : q.orphan = false) (hcrc : ~~~q.crc = q.expected) (c : Chip) :
    Stands c (compareCheck q (replaceRequest q (freeDevice c))) ∧
      (compareCheck q (replaceRequest q (freeDevice c))).store.checkQueue =
        c.store.checkQueue.map (fun x => if x.slot = q.slot then { q with header := true } else x) := by
  have hfree := freeChecked_leavesCheck q (replaceRequest q (freeDevice c))
  rw [compareCheck_of_match horphan hcrc]
  generalize freeChecked q (replaceRequest q (freeDevice c)) = f at hfree
  have hasked : Stands f (askHeader q f) := by simp [askHeader, Stands]
  have hstands := (standing_of_stands hfree.checks.stands).trans (standing_of_stands (replaceRequest_leaves q c))
  refine ⟨.of_standing ((standing_of_stands hasked).trans hstands), ?_⟩
  have hqueue : f.store.checkQueue = c.store.checkQueue.map (fun x => if x.slot = q.slot then q else x) := hfree.checks.queue
  have hheader : (askHeader q f).store.checkQueue = f.store.checkQueue.map (fun x => if x.slot = q.slot then { x with header := true } else x) := rfl
  rw [hheader, hqueue, List.map_map]
  refine List.map_congr_left fun x _ => ?_
  by_cases h : x.slot = q.slot <;> simp [h]

theorem reportSpoiled_slots (q : CheckRequest) (peer : Option Nat) (c : Chip) : (reportSpoiled q peer c).fetch.slots = c.fetch.slots := by
  unfold reportSpoiled
  split
  · rfl
  · cases peer <;> rfl

theorem checkEnded_slots (q : CheckRequest) (peer : Option Nat) (c : Chip) : (checkEnded q peer c).fetch.slots = c.fetch.slots := by
  have hreleased : (release q.slot (dropCheck q c)).fetch.slots = c.fetch.slots := (release_unmoved q.slot (dropCheck q c)).2.1
  unfold checkEnded checkSpoiled
  split
  · exact hreleased
  · rw [reportSpoiled_slots]
    exact hreleased

/-- R58. Whatever the comparison, the fetch slot of the check is FREE after it. -/
theorem compareCheck_frees {i : Nat} {f : CheckFetch} (hsource : q.source = some i) (hf : fetchSlot c i = .checking f) :
    fetchSlot (compareCheck q c) i = .free := by
  have hfreed := (freeChecked_frees hsource hf).1
  by_cases h : q.orphan = true ∨ ~~~q.crc ≠ q.expected
  · rw [compareCheck_of_end h, endCheckedLoad_of_none (.inl (by simp [hsource]))]
    exact (fetchSlot_of_slots (checkEnded_slots _ _ _) i).trans hfreed
  · obtain ⟨horphan, hcrc⟩ : q.orphan = false ∧ ~~~q.crc = q.expected := by simpa using h
    rw [compareCheck_of_match horphan hcrc]
    exact hfreed

/-- R107. Of the standing part a check's comparison changes the load alone. -/
theorem compareCheck_standsButLoad (q : CheckRequest) (c : Chip) : StandsButLoad c (compareCheck q (replaceRequest q (freeDevice c))) := by
  by_cases h : q.orphan = true ∨ ~~~q.crc ≠ q.expected
  · exact (compareCheck_over h c).standing
  · obtain ⟨horphan, hcrc⟩ : q.orphan = false ∧ ~~~q.crc = q.expected := by simpa using h
    exact .of_stands (compareCheck_of_match_leaves horphan hcrc c).1

/-- R188. With what is set going after it, the load. -/
theorem settle_standsButLoad (h : StandsButLoad c d) : StandsButLoad c (settle d) := h.trans (.of_stands (settle_keeps d))

/-- Settles O34, by the two ends of the comparison; what is set going leaves the load, and only adds reports. -/
theorem checkReadCompared : Obligations.CheckReadCompared := by
  unfold Obligations.CheckReadCompared
  intro s slot b live q hcurrent hfind c crc whole fetching peer queue
  obtain rfl : q.slot = slot := by simpa using List.find?_some hfind
  have hdone := checkReadDone_eq hcurrent hfind
  have hpeer : peer = checkedPeer (replaceRequest (fedRequest (readBlock c q.slot b) q) (freeDevice c)) (fedRequest (readBlock c q.slot b) q) := rfl
  by_cases hwhole : 64 ≤ q.reads + 1
  · rw [if_pos hwhole] at hdone
    refine ⟨_, checkReadDone c, exec_of_run rfl rfl, rfl, ?_, fun h => absurd hwhole h, fun _ i f hsource hf => ?_, fun _ horphan hcrc => ?_,
      fun _ hends => ?_, fun _ horphan hcrc => ?_⟩
    · exact settle_standsButLoad (hdone ▸ compareCheck_standsButLoad _ c)
    · rw [hdone]
      exact compareCheck_frees (c := replaceRequest (fedRequest (readBlock c q.slot b) q) (freeDevice c)) hsource hf
    · obtain ⟨hstands, hqueue⟩ := compareCheck_of_match_leaves (q := fedRequest (readBlock c q.slot b) q) horphan hcrc c
      refine ⟨?_, ?_, ?_⟩
      · rw [hdone, hqueue]
        rfl
      · rw [settle_load, hdone]
        exact congrArg Standing.load (standing_of_stands hstands)
      · rintro ⟨i, f, hsource, hf⟩
        rw [hdone, compareCheck_of_match (q := fedRequest (readBlock c q.slot b) q) horphan hcrc]
        exact (freeChecked_frees (q := fedRequest (readBlock c q.slot b) q) (c := replaceRequest (fedRequest (readBlock c q.slot b) q) (freeDevice c))
          hsource hf).2
    · obtain ⟨-, hqueue, hslot, hload⟩ := compareCheck_over (q := fedRequest (readBlock c q.slot b) q) hends c
      rw [← hdone] at hqueue hslot hload
      exact ⟨hqueue, hslot, fun l hsource hl => loadEnded_settle (hload l hsource hl)⟩
    · obtain ⟨hsegment, hreported, hstrikes⟩ := compareCheck_spoils (q := fedRequest (readBlock c q.slot b) q) horphan hcrc
        (replaceRequest (fedRequest (readBlock c q.slot b) q) (freeDevice c))
      rw [← hdone, ← hpeer] at hreported hstrikes
      rw [← hdone] at hsegment
      refine ⟨hsegment, fun hsource => (hreported hsource).after (settle_adds _).1, fun id hid => ?_⟩
      rw [(settle_adds _).2.2, hstrikes id hid]
      exact bodies_struck c.now id c.peers
  · rw [if_neg hwhole] at hdone
    refine ⟨_, checkReadDone c, exec_of_run rfl rfl, rfl, ?_, fun _ => ⟨?_, ?_, ?_⟩, fun h => absurd h hwhole, fun h => absurd h hwhole,
      fun h => absurd h hwhole, fun h => absurd h hwhole⟩
    · exact settle_standsButLoad (hdone ▸ .of_stands (replaceRequest_leaves _ c))
    · rw [hdone]
      rfl
    · rw [hdone]
      rfl
    · rw [settle_load, hdone]
      rfl

end Sys2Proof.Machine
end

