-- ==== Sys2Proof/Proofs/ConfigRead.lean ====
section
/-!
SUPPORT. The read of slot 0 (R108): the configuration record in effect (R183), and a bus station that finds its departure line asserted as it starts (R175):
what the departure leaves, and the urgent lane that stays empty through all that is set going.
-/
namespace Sys2Proof.Machine

variable {c d e : Chip}

/-! ## The urgent lane of a departed bus station (R93) -/

/-- R93, R175. The part is a bus station in departure, its port DEPARTED. -/
def Away (c : Chip) : Prop := c.yard.mode = .departed ∧ c.role = .busStation ∧ c.departure.departed = true

/-- R93. The standing part stays, and with it the urgent lane of a departed bus station. -/
def KeepsLane (c d : Chip) : Prop := Stands c d ∧ (Away c → d.yard.urgent = c.yard.urgent)

theorem Away.of_stands (h : Stands c d) (haway : Away c) : Away d := by
  obtain ⟨hmode, hrole, hdeparted⟩ := haway
  have hsame := standing_of_stands h
  have hmode' : d.yard.mode = c.yard.mode := congrArg Standing.mode hsame
  have hrole' : d.role = c.role := congrArg Standing.role hsame
  have hdeparture : d.departure = c.departure := congrArg Standing.departure hsame
  exact ⟨hmode'.trans hmode, hrole'.trans hrole, (congrArg Departure.departed hdeparture).trans hdeparted⟩

theorem KeepsLane.refl (c : Chip) : KeepsLane c c := ⟨by simp [Stands], fun _ => rfl⟩

theorem KeepsLane.trans (h : KeepsLane c d) (k : KeepsLane d e) : KeepsLane c e :=
  ⟨.of_standing ((standing_of_stands k.1).trans (standing_of_stands h.1)), fun haway => (k.2 (haway.of_stands h.1)).trans (h.2 haway)⟩

theorem KeepsLane.of_silent (h : Stands c d) (k : Silent c d) : KeepsLane c d := ⟨h, fun _ => k.2.1⟩

theorem queueReply_keepsLane (kind : ReplyKind) (e : AskEntry) (c : Chip) : KeepsLane c (queueReply kind e c) := by
  refine ⟨by simp [Stands], fun haway => ?_⟩
  rw [queueReply_eq]
  exact if_neg (by simp [haway.1])

theorem examineTaken_keepsLane (i : Nat) (e : AskEntry) (c : Chip) : KeepsLane c (examineTaken i e c) := by
  unfold examineTaken
  split
  · exact queueReply_keepsLane _ _ _
  · split
    · exact queueReply_keepsLane _ _ _
    · split
      · exact .refl c
      · exact .of_silent (by simp [Stands]) (by simp [Silent])

theorem takeEntries_keepsLane (es : List AskEntry) (c : Chip) : KeepsLane c (takeEntries es c) := by
  induction es generalizing c with
  | nil => exact .of_silent (by simp [takeEntries, Stands]) ⟨rfl, rfl, rfl⟩
  | cons e es ih =>
    unfold takeEntries
    split
    · exact .of_silent (by simp [Stands]) ⟨rfl, rfl, rfl⟩
    · exact (examineTaken_keepsLane _ _ _).trans (ih _)

/-- R40, R175. A departed bus station opens no fetch. -/
theorem runSelection_keepsLane (c : Chip) : KeepsLane c (runSelection c) := by
  refine ⟨runSelection_keeps c, fun ⟨_, hrole, hdeparted⟩ => ?_⟩
  have hclosed : selectionOpen c = false := by simp [selectionOpen, hrole, hdeparted]
  unfold runSelection
  rw [hclosed]
  split <;> rfl

/-- R142, R175. A departed bus station starts no job. -/
theorem unitArbiter_keepsLane (c : Chip) : KeepsLane c (unitArbiter c) := by
  refine ⟨unitArbiter_keeps c, fun ⟨_, _, hdeparted⟩ => ?_⟩
  have hclosed : arbiterOpen c = false := by simp [arbiterOpen, hdeparted]
  unfold unitArbiter
  cases c.seq.units.length with
  | zero => rfl
  | succ n => simp [arbiterSteps, hclosed]

theorem presentServer_keepsLane (n : Nat) (c : Chip) : KeepsLane c (presentServer n c) := by
  induction n generalizing c with
  | zero => exact .refl c
  | succ n ih =>
    unfold presentServer
    split
    · exact .refl c
    · split
      · exact .refl c
      · next i e w _ =>
        split
        · split
          · exact ((KeepsLane.of_silent (endServe_keeps i c) (endServe_silent i c)).trans (queueReply_keepsLane _ _ _)).trans (ih _)
          · exact .of_silent (by simp [Stands]) ⟨rfl, rfl, rfl⟩
        · exact .refl c

theorem presentAll_keepsLane (c : Chip) : KeepsLane c (presentAll c) := by
  have hbefore : KeepsLane c (presentFor .checker checkerOp (presentFor .fetchWriter fetchWriterOp c)) := 
    .of_silent (by simp [Stands]) (by simp [Silent])
  have hafter : ∀ d, KeepsLane d (presentFor .scanner scannerOp (presentFor .eraser eraserOp (presentPort (presentFor .flasherReader flasherOp d)))) :=
    fun d => .of_silent (by simp [Stands]) (by simp [Silent])
  exact hbefore.trans ((presentServer_keepsLane 3 _).trans (hafter _))

theorem selectUnit_yard (address : Nat) (c : Chip) : (selectUnit address c).yard = c.yard := by
  unfold selectUnit reportNoTarget
  dsimp only
  (repeat' split) <;> rfl

theorem finishCancel_urgent (j : JobRecord) (c : Chip) : (finishCancel j c).yard.urgent = c.yard.urgent := by
  rw [finishCancel, endJob, selectUnit_yard]
  simp

theorem jobBoundary_urgent (c : Chip) : (jobBoundary c).yard.urgent = c.yard.urgent := by
  unfold jobBoundary
  split
  · rfl
  · split
    · rfl
    · split
      · rfl
      · exact finishCancel_urgent _ _

/-- R105, R106. A grant, performed or answered gone, queues no frame. -/
theorem grant_urgent (w : WaitingOp) (c : Chip) : (grant w c).yard.urgent = c.yard.urgent := by
  by_cases h : OwnerStands c w
  · rw [grant_of_stands h]
    cases w.op <;> rfl
  · rw [grant_of_gone h]
    cases hop : w.op with
    | flashRead place k seg slot b => exact jobBoundary_urgent _
    | _ => rfl

theorem storeSteps_keepsLane (n : Nat) (c : Chip) : KeepsLane c (storeSteps n c) := by
  induction n generalizing c with
  | zero => exact .refl c
  | succ n ih =>
    unfold storeSteps
    split
    · exact .refl c
    · next w _ =>
      have hgrant : KeepsLane c (grant w c) := ⟨grant_keeps w c, fun _ => grant_urgent w c⟩
      exact (hgrant.trans (presentAll_keepsLane _)).trans (ih _)

theorem settlePass_keepsLane (c : Chip) : KeepsLane c (settlePass c) := by
  have hserve := ((takeEntries_keepsLane c.serve.queue c).trans (runSelection_keepsLane (serveTake c))).trans
    (takeEntries_keepsLane (runSelection (serveTake c)).serve.queue _)
  have hcensus := hserve.trans (.of_silent (censusBegin_keeps _) (censusBegin_silent _))
  have hstore := (hcensus.trans (unitArbiter_keepsLane _)).trans ((presentAll_keepsLane _).trans (storeSteps_keepsLane 8 _))
  have hline : ∀ d, KeepsLane d (accessWake (watchLine (lineBegin (jobPresent d)))) := fun d => .of_silent (by simp [Stands]) (by simp [Silent])
  exact hstore.trans (hline _)

theorem settle_keepsLane (c : Chip) : KeepsLane c (settle c) := by
  have hline : ∀ d, KeepsLane d (driveAttention d) := fun d => .of_silent (by simp [Stands]) (by simp [Silent])
  exact ((settlePass_keepsLane c).trans (settlePass_keepsLane _)).trans (hline _)

/-! ## Departure at the start (R175) -/

/-- R175. What a departure that has begun leaves alone, but for the reports it makes. -/
structure StaysAway (c d : Chip) : Prop where
  role : d.role = c.role
  now : d.now = c.now
  clock : d.clock = c.clock
  config : d.port.config = c.port.config
  departure : d.departure = c.departure
  mode : d.yard.mode = c.yard.mode
  urgent : d.yard.urgent = c.yard.urgent
  reports : Grows c.port.reports d.port.reports

theorem StaysAway.of_stands (h : Stands c d) (hurgent : d.yard.urgent = c.yard.urgent) (hreports : Grows c.port.reports d.port.reports) :
    StaysAway c d := by
  have hsame := standing_of_stands h
  exact ⟨congrArg Standing.role hsame, congrArg Standing.now hsame, congrArg Standing.clock hsame, congrArg Standing.config hsame,
    congrArg Standing.departure hsame, congrArg Standing.mode hsame, hurgent, hreports⟩

theorem StaysAway.of_quiet (h : Quiet c d) : StaysAway c d := .of_stands h.1.1 h.1.2.2 (.of_eq h.2)

theorem StaysAway.of_silent (h : Stands c d) (k : Silent c d) : StaysAway c d := .of_stands h k.2.1 (.of_eq k.1)

theorem StaysAway.refl (c : Chip) : StaysAway c c := ⟨rfl, rfl, rfl, rfl, rfl, rfl, rfl, .refl _⟩

theorem StaysAway.trans (h : StaysAway c d) (k : StaysAway d e) : StaysAway c e :=
  ⟨k.role.trans h.role, k.now.trans h.now, k.clock.trans h.clock, k.config.trans h.config, k.departure.trans h.departure, k.mode.trans h.mode,
    k.urgent.trans h.urgent, h.reports.trans k.reports⟩

theorem departFetch_staysAway (i : Nat) (c : Chip) : StaysAway c (departFetch i c) := by
  unfold departFetch
  split
  · exact .refl c
  · exact .of_quiet (cancelFetch_quiet i _ c)
  · exact .of_quiet (freeFetch_quiet i _ _ c)

theorem departCheck_staysAway (q : CheckRequest) (c : Chip) : StaysAway c (departCheck q c) := by
  unfold departCheck
  dsimp only
  split
  · exact (StaysAway.of_quiet (by simp [Quiet, Apart, Stands])).trans (.of_quiet (release_quiet q.slot _))
  · exact ((StaysAway.of_quiet (by simp [Quiet, Apart, Stands])).trans (.of_quiet (setSegState_quiet q.image q.segment .absent _))).trans
      (.of_quiet (release_quiet q.slot _))

theorem departFetches_staysAway (c : Chip) : StaysAway c (departFetches c) := by
  have hfetches := forEach_keeps (R := StaysAway) (xs := [0, 1, 2, 3]) .refl .trans (fun i _ c => departFetch_staysAway i c) c
  have hchecks := fun d : Chip => forEach_keeps (R := StaysAway) (xs := c.store.checkQueue.filter (fun q => q.source.isSome)) .refl .trans
    (fun q _ c => departCheck_staysAway q c) d
  have hqueue : ∀ d : Chip, StaysAway d { d with store.checkQueue := d.store.checkQueue.filter (fun q => q.source.isNone) } :=
    fun d => .of_quiet (by simp [Quiet, Apart, Stands])
  exact ((hfetches.trans (hqueue _)).trans (hchecks _)).trans (.of_quiet (by simp [departFetches, Quiet, Apart, Stands]))

theorem suspendServing_staysAway (c : Chip) : StaysAway c (suspendServing c) := by
  have hend : ∀ i d, StaysAway d (endServe i d) := fun i d => .of_silent (endServe_keeps i d) (endServe_silent i d)
  exact (((hend 0 c).trans (hend 1 _)).trans (hend 2 _)).trans (.of_quiet (by simp [suspendServing, Quiet, Apart, Stands]))

theorem report_staysAway (kind : ReportKind) (subject : Subject) (detail : Nat) (c : Chip) : StaysAway c (report kind subject detail c) :=
  .of_stands (by simp [Stands]) rfl (report_grows kind subject detail c)

theorem selectUnit_staysAway (address : Nat) (c : Chip) : StaysAway c (selectUnit address c) :=
  .of_stands (selectUnit_keeps address c) (congrArg Yard.urgent (selectUnit_yard address c)) (selectUnit_adds address c).grows

theorem finishStop_staysAway (j : JobRecord) (c : Chip) : StaysAway c (finishStop j c) := by
  have hready : StaysAway c (recordLast j.address .cancelledDeparture (setUnitState j.address .ready (dropJob j c))) :=
    .of_silent (by simp [Stands]) (by simp [Silent])
  have hreported := hready.trans (report_staysAway .jobCancelled (.number j.address) 2 _)
  unfold finishStop
  dsimp only
  split
  exacts [hreported.trans (selectUnit_staysAway _ _), hreported]

theorem stopFlashing_staysAway (c : Chip) : StaysAway c (stopFlashing c) := by
  unfold stopFlashing
  split
  · exact .refl c
  · split
    · exact .of_silent (by simp [Stands]) ⟨rfl, rfl, rfl⟩
    · exact finishStop_staysAway _ c

theorem departCensus_staysAway (c : Chip) : StaysAway c (departCensus c) := by
  unfold departCensus
  split
  · exact .refl c
  · have hgiven : StaysAway c (discardLine .census 0 (withdrawLine .census 0 c)) := ⟨rfl, rfl, rfl, rfl, rfl, rfl, rfl, .refl _⟩
    have hidle : ∀ (d : Chip) (x : Census), StaysAway d { d with census := x } := fun d x => ⟨rfl, rfl, rfl, rfl, rfl, rfl, rfl, .refl _⟩
    exact (hgiven.trans (hidle _ _)).trans (report_staysAway _ _ _ _)

/-- R175, R176. The bus station is departed, nothing waits in its urgent lane, and the departure has only made reports besides. -/
structure Departed (c d : Chip) : Prop where
  away : Away d
  level : d.departure.levelTaken = true
  urgent : d.yard.urgent = []
  clock : d.clock = c.clock
  config : d.port.config = c.port.config
  now : d.now = c.now
  reports : Grows c.port.reports d.port.reports

theorem Departed.stays (h : Departed c d) (k : StaysAway d e) : Departed c e where
  away := ⟨k.mode.trans h.away.1, k.role.trans h.away.2.1, by rw [k.departure]; exact h.away.2.2⟩
  level := by rw [k.departure]; exact h.level
  urgent := k.urgent.trans h.urgent
  clock := k.clock.trans h.clock
  config := k.config.trans h.config
  now := k.now.trans h.now
  reports := h.reports.trans k.reports

theorem portDeparted_departed (hrole : c.role = .busStation) :
    Departed c (portDeparted { c with departure := { c.departure with
      departed := true, levelTaken := true, edgeAt := none, leaveCount := 0, leavesQueued := 0, nextLeave := none } }) :=
  ⟨⟨rfl, hrole, rfl⟩, rfl, rfl, rfl, rfl, rfl, .refl _⟩

theorem departBlocks_departed (hrole : c.role = .busStation) : Departed c (departBlocks c) := by
  have hrelay : ∀ d : Chip, StaysAway d { d with plans.relayPending := false } := fun d => ⟨rfl, rfl, rfl, rfl, rfl, rfl, rfl, .refl _⟩
  have hserve := ((portDeparted_departed hrole).stays (departFetches_staysAway _)).stays (suspendServing_staysAway _)
  exact ((hserve.stays (hrelay _)).stays (stopFlashing_staysAway _)).stays (departCensus_staysAway _)

/-! ## The configuration record (R108, R183) -/

/-- R108. The chip with the record in effect, its departure line not yet read. -/
def configTaken (r : ConfigRecord) (c : Chip) : Chip :=
  { pushPort (.scanPlan 0) none (freeDevice c) with
    port.config := some r
    yard.mode := .on
    clock.beaconTimer := if c.role = .origin then some (c.now + 5000) else none }

theorem configRead_of_none {live : Bool} (hcurrent : c.store.current = some { op := .scanConfig, live := live })
    (h : judgeConfig (readBlock c 0 0) = none) :
    configRead c = unconfigure (freeDevice c) := by
  have hread : judgeConfig (readBlock (freeDevice c) 0 0) = none := h
  simp only [configRead, hcurrent, hread]

theorem configRead_of_some {live : Bool} {r : ConfigRecord} (hcurrent : c.store.current = some { op := .scanConfig, live := live })
    (h : judgeConfig (readBlock c 0 0) = some r) :
    configRead c =
      if c.role = .busStation ∧ c.pins.departure = true then report .departed .none 1 (departBlocks (configTaken r c)) else configTaken r c := by
  have hread : judgeConfig (readBlock (freeDevice c) 0 0) = some r := h
  simp only [configRead, hcurrent, hread]
  have hline : takeConfig r (freeDevice c) = readLineAtStart (configTaken r c) := rfl
  have hpins : (configTaken r c).pins = c.pins := rfl
  have hrole : (configTaken r c).role = c.role := rfl
  rw [hline, readLineAtStart, hpins, hrole]
  simp

/-- R93, R175. A departed bus station with an empty urgent lane, with all that is set going after the report of its departure. -/
theorem Departed.settled (h : Departed c d) (detail : Nat) :
    Departed c (settle (report .departed .none detail d)) ∧
      Reported c.port.reports (settle (report .departed .none detail d)).port.reports .departed .none detail c.now := by
  have hreport := h.stays (report_staysAway .departed .none detail d)
  have hlane := (settle_keepsLane (report .departed .none detail d)).2 hreport.away
  have hsettle := StaysAway.of_stands (settle_keeps (report .departed .none detail d)) hlane (settle_grows _)
  exact ⟨hreport.stays hsettle, h.now ▸ reported_of_report h.reports (settle_adds _)⟩

/-- Settles O35, by the record's effect and, with the departure line asserted, by what a departure leaves and the lane of a departed part. -/
theorem configurationTakesEffect : Obligations.ConfigurationTakesEffect := by
  unfold Obligations.ConfigurationTakesEffect
  intro s live hcurrent c
  split
  · next hread =>
    have hdone := configRead_of_none hcurrent hread
    exact ⟨_, exec_of_run rfl hdone, rfl, (settle_standing _).trans rfl⟩
  · next r hread =>
    have hdone := configRead_of_some hcurrent hread
    intro away timer
    by_cases haway : c.role = .busStation ∧ c.pins.departure = true
    · rw [if_pos haway] at hdone
      have hexec : exec .configReadComplete s = .next { s with chip := settle (report .departed .none 1 (departBlocks (configTaken r c))) } :=
        exec_of_run rfl hdone
      have hdeparts := (departBlocks_departed (c := configTaken r c) haway.1).settled 1
      generalize settle (report .departed .none 1 (departBlocks (configTaken r c))) = e at hexec hdeparts
      obtain ⟨⟨hmode, hlevel, hurgent, hclock, hconfig, -, -⟩, hreported⟩ := hdeparts
      refine ⟨_, hexec, rfl, fun h => absurd haway h, fun _ => ⟨hconfig, hmode.1, hmode.2.2, hlevel, hurgent, ?_, hreported⟩⟩
      rw [hclock, configTaken, haway.1]
      rfl
    · rw [if_neg haway] at hdone
      exact ⟨_, exec_of_run rfl hdone, rfl, fun _ => (settle_standing _).trans rfl, fun h => absurd h haway⟩

end Sys2Proof.Machine
end

