-- ==== Sys2Proof/Proofs/SweepRead.lean ====
section
/-!
SUPPORT. The sweep of a slot (R110): what its spare area says of it, and after the last slot what the phases that follow (R111, R112) make of it, which pass
by every slot that no finding names and keep, accept or release one that a finding names.
-/
namespace Sys2Proof.Machine

variable {c d e : Chip} {slot : Nat}

/-! ## The spare area (R110, R194) -/

/-- R96. Byte `i` of the slot's spare area. -/
def spareByte (c : Chip) (slot i : Nat) : Byte := Memory.read c.store.flash (spareAddress slot i)

/-- R194. The `n` bytes of the spare area from offset `a` read as erased. -/
def SpareErased (c : Chip) (slot a n : Nat) : Prop := ∀ i < n, spareByte c slot (a + i) = 0xFF#8

/-- R194. The erase mark is in the spare area. -/
def SpareMarked (c : Chip) (slot : Nat) : Prop := spareByte c slot 0 = 0xA5#8 ∧ spareByte c slot 1 = 0xC3#8

/-- R110. The spare area is that of a slot whose segment was HELD: erase mark, claim mark and held stamp. -/
def SpareHeld (c : Chip) (slot : Nat) : Prop :=
  SpareMarked c slot ∧ spareByte c slot 2 = 0x3C#8 ∧ spareByte c slot 3 = 0x5A#8 ∧ spareByte c slot 14 = 0x6C#8 ∧ spareByte c slot 15 = 0x3A#8 ∧
    spareByte c slot 16 = 0x95#8 ∧ spareByte c slot 17 = 0xD2#8

/-- R110. The spare area is that of an erased slot. -/
def SpareClean (c : Chip) (slot : Nat) : Prop := SpareMarked c slot ∧ SpareErased c slot 2 16

theorem slice_readRange {m : List Host.Cell} {a n off len : Nat} (h : off + len ≤ n) :
    slice (Memory.readRange m a n) off len = Memory.readRange m (a + off) len := by
  refine List.ext_getElem (by rw [slice, List.length_take, List.length_drop, readRange_length, readRange_length]; omega) fun i h1 h2 => ?_
  simp only [slice, List.getElem_take, List.getElem_drop, readRange_getElem, Nat.add_assoc]

theorem slice_readSpare {off len : Nat} (h : off + len ≤ 64) :
    slice (readSpare c slot) off len = Memory.readRange c.store.flash (spareAddress slot off) len := slice_readRange h

theorem allErased_slice_iff {off len : Nat} (h : off + len ≤ 64) :
    allErased (slice (readSpare c slot) off len) = true ↔ SpareErased c slot off len := by
  have hbyte : ∀ i, spareByte c slot (off + i) = Memory.read c.store.flash (spareAddress slot off + i) := fun i => by
    simp only [spareByte, spareAddress, Nat.add_assoc]
  rw [slice_readSpare h, allErased, List.all_eq_true, SpareErased]
  constructor
  · intro hall i hi
    have hlen : i < (Memory.readRange c.store.flash (spareAddress slot off) len).length := by rwa [readRange_length]
    have hread := hall _ (List.getElem_mem hlen)
    rw [readRange_getElem] at hread
    rw [hbyte]
    exact beq_iff_eq.mp hread
  · intro hall x hx
    obtain ⟨i, hi, rfl⟩ := List.getElem_of_mem hx
    rw [readRange_getElem, ← hbyte]
    exact beq_iff_eq.mpr (hall i (by rwa [readRange_length] at hi))

theorem slice_eq_pair_iff {off : Nat} (h : off + 2 ≤ 64) {x y : Byte} :
    slice (readSpare c slot) off 2 = [x, y] ↔ spareByte c slot off = x ∧ spareByte c slot (off + 1) = y := by
  rw [slice_readSpare h]
  simp [Memory.readRange, spareByte, spareAddress, Nat.add_assoc]

theorem slice_eq_four_iff {off : Nat} (h : off + 4 ≤ 64) {x y z w : Byte} :
    slice (readSpare c slot) off 4 = [x, y, z, w] ↔
      spareByte c slot off = x ∧ spareByte c slot (off + 1) = y ∧ spareByte c slot (off + 2) = z ∧ spareByte c slot (off + 3) = w := by
  rw [slice_readSpare h]
  simp [Memory.readRange, spareByte, spareAddress, Nat.add_assoc]

theorem spareMarked_iff : (slice (readSpare c slot) 0 2 == eraseMarkBytes) = true ↔ SpareMarked c slot := by
  rw [beq_iff_eq, eraseMarkBytes, slice_eq_pair_iff (by omega), SpareMarked]

theorem spareHeld_iff :
    (slice (readSpare c slot) 0 2 == eraseMarkBytes && slice (readSpare c slot) 2 2 == claimMarkBytes && slice (readSpare c slot) 14 4 == heldStampBytes) =
      true ↔ SpareHeld c slot := by
  rw [Bool.and_eq_true, Bool.and_eq_true, spareMarked_iff, beq_iff_eq, beq_iff_eq, claimMarkBytes, heldStampBytes, slice_eq_pair_iff (by omega),
    slice_eq_four_iff (by omega), SpareHeld]
  simp only [and_assoc]

theorem spareClean_iff : (slice (readSpare c slot) 0 2 == eraseMarkBytes && allErased (slice (readSpare c slot) 2 16)) = true ↔ SpareClean c slot := by
  rw [Bool.and_eq_true, spareMarked_iff, allErased_slice_iff (by omega), SpareClean]

/-- R110. A clean spare area has no claim mark, and so is not that of a finding. -/
theorem SpareClean.not_held (h : SpareClean c slot) : ¬SpareHeld c slot := fun ⟨_, hclaim, _⟩ => by
  have herased : spareByte c slot 2 = 0xFF#8 := h.2 0 (by omega)
  rw [herased] at hclaim
  exact absurd hclaim (by decide)

/-- R110. The finding that a slot's spare area gives. -/
def spareFinding (c : Chip) (slot : Nat) : Finding where
  slot := slot
  image := imageAt (readSpare c slot) 4
  segment := be16 (readSpare c slot) 8
  crc := BitVec.ofNat 32 (be32 (readSpare c slot) 10)

theorem classifySpare_of_retired (h : ¬SpareErased c slot 60 4) : classifySpare (readSpare c slot) = .retired := by
  unfold classifySpare
  exact if_pos (by simpa using mt (allErased_slice_iff (by omega)).mp h)

theorem classifySpare_of_live (h : SpareErased c slot 60 4) : classifySpare (readSpare c slot) =
    if slice (readSpare c slot) 0 2 == eraseMarkBytes && slice (readSpare c slot) 2 2 == claimMarkBytes &&
        slice (readSpare c slot) 14 4 == heldStampBytes then
      .finding (spareFinding c slot).image (spareFinding c slot).segment (spareFinding c slot).crc
    else if slice (readSpare c slot) 0 2 == eraseMarkBytes && allErased (slice (readSpare c slot) 2 16) then .erased
    else .dirty := by
  unfold classifySpare
  exact if_neg (by simpa using (allErased_slice_iff (by omega)).mpr h)

theorem classifySpare_of_held (h : SpareErased c slot 60 4) (hheld : SpareHeld c slot) :
    classifySpare (readSpare c slot) = .finding (spareFinding c slot).image (spareFinding c slot).segment (spareFinding c slot).crc := by
  rw [classifySpare_of_live h, if_pos (spareHeld_iff.mpr hheld)]

theorem classifySpare_of_clean (h : SpareErased c slot 60 4) (hclean : SpareClean c slot) : classifySpare (readSpare c slot) = .erased := by
  rw [classifySpare_of_live h, if_neg (mt spareHeld_iff.mp hclean.not_held), if_pos (spareClean_iff.mpr hclean)]

theorem classifySpare_of_dirty (h : SpareErased c slot 60 4) (hheld : ¬SpareHeld c slot) (hclean : ¬SpareClean c slot) :
    classifySpare (readSpare c slot) = .dirty := by
  rw [classifySpare_of_live h, if_neg (mt spareHeld_iff.mp hheld), if_neg (mt spareClean_iff.mp hclean)]

/-! ## The swept slot (R110) -/

/-- R110. The slot classified, and the sweep at the next. -/
def slotSwept (slot : Nat) (k : SpareClass) (c : Chip) : Chip := { classifySlot slot k (freeDevice c) with store.scanNext := slot + 1 }

theorem sweepRead_eq {live : Bool} (h : c.store.current = some { op := .scanSpare slot, live := live }) :
    sweepRead c =
      if slot + 1 < segmentEnd c then slotSwept slot (classifySpare (readSpare c slot)) c
      else manifestPhase (slotSwept slot (classifySpare (readSpare c slot)) c) := by
  have hend : ∀ k, segmentEnd (slotSwept slot k c) = segmentEnd c := fun k => by cases k <;> rfl
  rw [← hend (classifySpare (readSpare c slot))]
  simp only [sweepRead, h]
  rfl

/-- R110. A sweep's class decides the slot's word, the dirty queue and the findings. -/
structure Sweeps (slot : Nat) (word : SlotInfo) (queue : List Nat) (findings : List Finding) (d : Chip) : Prop where
  word : slotInfo d slot = word
  queue : d.store.dirtyQueue = queue
  findings : d.store.findings = findings
  current : d.store.current = none

theorem slotSwept_retired (slot : Nat) (c : Chip) :
    Sweeps slot ⟨.retired, none⟩ c.store.dirtyQueue c.store.findings (slotSwept slot .retired c) :=
  ⟨slotInfo_setSlot _ _ (freeDevice c), rfl, rfl, rfl⟩

theorem slotSwept_erased (slot : Nat) (c : Chip) :
    Sweeps slot ⟨.erased, none⟩ c.store.dirtyQueue c.store.findings (slotSwept slot .erased c) :=
  ⟨slotInfo_setSlot _ _ (freeDevice c), rfl, rfl, rfl⟩

theorem slotSwept_finding (slot : Nat) (k : ImageKey) (seg : Nat) (crc : Word32) (c : Chip) :
    Sweeps slot ⟨.full, none⟩ c.store.dirtyQueue (c.store.findings ++ [{ slot := slot, image := k, segment := seg, crc := crc }])
      (slotSwept slot (.finding k seg crc) c) := ⟨slotInfo_setSlot _ _ (freeDevice c), rfl, rfl, rfl⟩

theorem slotSwept_dirty (slot : Nat) (c : Chip) :
    Sweeps slot ⟨.dirty, none⟩ (if slot ∈ c.store.dirtyQueue then c.store.dirtyQueue else c.store.dirtyQueue ++ [slot]) c.store.findings
      (slotSwept slot .dirty c) := ⟨slotInfo_setSlot _ _ (freeDevice c), rfl, rfl, rfl⟩

theorem slotSwept_standing (slot : Nat) (k : SpareClass) (c : Chip) :
    standing (slotSwept slot k c) = { standing c with scanNext := slot + 1, findings := (slotSwept slot k c).store.findings } := by
  cases k <;> rfl

/-! ## The phases after the sweep, seen from one slot (R111, R112) -/

/-- R102. With the device idle a release is made at once. -/
theorem release_of_idle (hidle : c.store.current = none) (slot : Nat) : release slot c = joinDirty slot (withdrawOps slot c) := by
  have hbusy : busyOn (withdrawOps slot c) slot = false := by
    have hcurrent : (withdrawOps slot c).store.current = none := hidle
    rw [busyOn, hcurrent]
  simp [release, hbusy]

/-- The slot's word stays, no slot leaves the dirty queue, and an idle device stays idle. -/
structure PassesBy (slot : Nat) (c d : Chip) : Prop where
  word : slotInfo d slot = slotInfo c slot
  dirty : KeepsDirty c d
  current : c.store.current = none → d.store.current = none

theorem PassesBy.refl (c : Chip) : PassesBy slot c c := ⟨rfl, .of_eq rfl, id⟩

theorem PassesBy.trans (h : PassesBy slot c d) (k : PassesBy slot d e) : PassesBy slot c e :=
  ⟨k.word.trans h.word, h.dirty.trans k.dirty, k.current ∘ h.current⟩

theorem PassesBy.of_store (h : d.store = c.store) : PassesBy slot c d := ⟨slotInfo_of_store h slot, .of_eq (by rw [h]), fun hidle => h ▸ hidle⟩

theorem setSlot_passesBy {s : Nat} (h : s ≠ slot) (i : SlotInfo) (c : Chip) : PassesBy slot c (setSlot s i c) :=
  ⟨slotInfo_setSlot_ne h.symm i c, .of_eq rfl, id⟩

theorem release_current (hidle : c.store.current = none) (slot : Nat) : (release slot c).store.current = none := by
  rw [release_of_idle hidle]
  exact hidle

theorem release_passesBy {s : Nat} (h : s ≠ slot) (c : Chip) : PassesBy slot c (release s c) := by
  obtain ⟨word, queue, waiting, hrelease, -⟩ := release_does s c
  refine ⟨?_, release_keepsDirty s c, fun hidle => release_current hidle s⟩
  rw [hrelease]
  exact slotInfo_setSlot_ne h.symm word (withdrawOps s c)

/-- R111. An accepted finding: its segment HELD in its slot. -/
theorem offerData_of_accepted {f : Finding} (h : acceptsData c f = true) :
    offerData f c = completeIfHeld f.image
      (setSegState f.image f.segment (.held f.slot) (setSlot f.slot { cond := .full, owner := some (.segment f.image f.segment) } c)) := if_pos h

theorem offerData_of_refused {f : Finding} (h : acceptsData c f = false) : offerData f c = release f.slot c := if_neg (by simp [h])

theorem offerData_passesBy {f : Finding} (h : f.slot ≠ slot) (c : Chip) : PassesBy slot c (offerData f c) := by
  cases haccepts : acceptsData c f with
  | true =>
    rw [offerData_of_accepted haccepts]
    exact (setSlot_passesBy h _ c).trans (.of_store (completeIfHeld_store _ _))
  | false =>
    rw [offerData_of_refused haccepts]
    exact release_passesBy h c

/-- R112. The scan's end leaves the slots, the dirty queue and the catalog. -/
theorem scanDone_passesBy (c : Chip) : PassesBy slot c (scanDone c) := by
  have hreports : ∀ d, (forEach c.catalog.records reportComplete d).store = d.store :=
    forEach_same (g := Chip.store) fun r _ c => by unfold reportComplete; split <;> rfl
  have hwithout : PassesBy slot c { c with store.scanPhase := .done, store.findings := [] } := ⟨rfl, .of_eq rfl, id⟩
  have hreported := hwithout.trans (.of_store (hreports _))
  unfold scanDone
  dsimp only
  split
  exacts [hreported.trans (.of_store rfl), hreported.trans (.of_store rfl)]

/-- R111. No finding is for the slot. -/
def Unnamed (slot : Nat) (findings : List Finding) : Prop := ∀ x ∈ findings, x.slot ≠ slot

theorem dataPhase_passesBy (h : Unnamed slot c.store.findings) : PassesBy slot c (dataPhase c) := by
  have hphase : PassesBy slot c { c with store.scanPhase := .data } := ⟨rfl, .of_eq rfl, id⟩
  exact (hphase.trans (forEach_keeps .refl .trans (fun f hf c => offerData_passesBy (h f hf) c) _)).trans (scanDone_passesBy _)

/-- R111. The findings left when a finding has been released. -/
theorem releaseFinding_findings (f : Finding) (c : Chip) :
    (release f.slot (dropFinding f c)).store.findings = c.store.findings.filter (fun x => x.slot != f.slot) := by
  simp [dropFinding_findings]

theorem releaseFinding_passesBy {f : Finding} (h : f.slot ≠ slot) (c : Chip) : PassesBy slot c (release f.slot (dropFinding f c)) := by
  have hdrop : PassesBy slot c (dropFinding f c) := ⟨rfl, .of_eq rfl, id⟩
  exact hdrop.trans (release_passesBy h _)

theorem manifestSteps_passesBy (n : Nat) (h : Unnamed slot c.store.findings) : PassesBy slot c (manifestSteps n c) := by
  induction n generalizing c with
  | zero => exact .refl c
  | succ n ih =>
    unfold manifestSteps
    split
    · exact dataPhase_passesBy h
    · next f hf =>
      split
      · exact .refl c
      · refine (releaseFinding_passesBy (h f (List.mem_of_find?_eq_some hf)) c).trans (ih fun x hx => ?_)
        rw [releaseFinding_findings] at hx
        exact h x (List.mem_of_mem_filter hx)

theorem manifestPhase_passesBy (h : Unnamed slot c.store.findings) : PassesBy slot c (manifestPhase c) := by
  have hphase : PassesBy slot c { c with store.scanPhase := .manifests } := ⟨rfl, .of_eq rfl, id⟩
  exact hphase.trans (manifestSteps_passesBy _ h)

/-! ## The slot of a finding (R111) -/

/-- R111. The finding waits: its slot is FULL without owner. -/
def FindingWaits (f : Finding) (c : Chip) : Prop := slotInfo c f.slot = ⟨.full, none⟩ ∧ f ∈ c.store.findings

/-- R111. The finding was accepted, and its segment is HELD, or its slot was released. -/
def Placed (f : Finding) (c : Chip) : Prop :=
  (slotInfo c f.slot = ⟨.full, some (.segment f.image f.segment)⟩ ∧ segState c f.image f.segment = some (.held f.slot)) ∨
    (slotInfo c f.slot = ⟨.dirty, none⟩ ∧ f.slot ∈ c.store.dirtyQueue)

theorem Placed.passed {f : Finding} (h : Placed f c) (hpasses : PassesBy f.slot c d)
    (hheld : segState c f.image f.segment = some (.held f.slot) → segState d f.image f.segment = some (.held f.slot)) : Placed f d :=
  h.imp (fun ⟨hword, hstate⟩ => ⟨hpasses.word.trans hword, hheld hstate⟩) fun ⟨hword, hdirty⟩ => ⟨hpasses.word.trans hword, hpasses.dirty _ hdirty⟩

/-- R102. With the device idle a released slot is in the dirty queue at once. -/
theorem release_frees (hidle : c.store.current = none) (slot : Nat) :
    slotInfo (release slot c) slot = ⟨.dirty, none⟩ ∧ slot ∈ (release slot c).store.dirtyQueue := by
  refine ⟨release_slotInfo hidle slot, ?_⟩
  obtain ⟨queue, hjoins, hmem, -⟩ := joinDirty_does slot (withdrawOps slot c)
  rw [release_of_idle hidle, hjoins]
  exact hmem

/-- R17. A change of one segment's state leaves every other segment's. -/
theorem segState_setSegState_other {k k' : ImageKey} {seg seg' : Nat} (h : ¬(k = k' ∧ seg = seg')) (st : SegState) (c : Chip) :
    segState (setSegState k seg st c) k' seg' = segState c k' seg' := by
  rw [segState, findRecord_of_map (setSegState_records k seg st c) (onImage_image (by exact fun _ => rfl)), segState]
  cases hr : findRecord c k' with
  | none => rfl
  | some r =>
    simp only [Option.map_some, onImage]
    split
    · next hk =>
      have hseg : seg ≠ seg' := fun hs => h ⟨hk.symm.trans (findRecord_image hr), hs⟩
      simp [withSegState, hseg]
    · rfl

/-- R111. Only an ABSENT segment is accepted. -/
theorem segState_of_acceptsData {f : Finding} (h : acceptsData c f = true) : segState c f.image f.segment = some .absent := by
  unfold acceptsData at h
  split at h
  · next r hr =>
    split at h
    · simp only [Bool.and_eq_true, beq_iff_eq] at h
      rw [segState, hr]
      exact h.2
    · cases h
  · cases h

theorem offerData_places (hidle : c.store.current = none) (f : Finding) : Placed f (offerData f c) := by
  cases haccepts : acceptsData c f with
  | true =>
    have habsent : segState (setSlot f.slot { cond := .full, owner := some (.segment f.image f.segment) } c) f.image f.segment = some .absent :=
      segState_of_acceptsData haccepts
    rw [offerData_of_accepted haccepts]
    refine .inl ⟨?_, ?_⟩
    · rw [slotInfo_of_store (completeIfHeld_store _ _)]
      exact slotInfo_setSlot f.slot _ c
    · rw [completeIfHeld_segState]
      exact segState_setSegState (by rw [habsent]; rfl) _
  | false =>
    rw [offerData_of_refused haccepts]
    exact .inr (release_frees hidle f.slot)

theorem offerData_keepsPlaced {f g : Finding} (hne : g.slot ≠ f.slot) (h : Placed f c) : Placed f (offerData g c) := by
  refine h.passed (offerData_passesBy hne c) fun hheld => ?_
  cases haccepts : acceptsData c g with
  | true =>
    have hother : ¬(g.image = f.image ∧ g.segment = f.segment) := fun ⟨himage, hsegment⟩ => by
      have habsent := segState_of_acceptsData haccepts
      rw [himage, hsegment, hheld] at habsent
      cases habsent
    rw [offerData_of_accepted haccepts, completeIfHeld_segState, segState_setSegState_other hother]
    exact hheld
  | false =>
    rw [offerData_of_refused haccepts, segState_of_catalog (release_unmoved g.slot c).1]
    exact hheld

/-- R111. A finding's slot is named by that finding alone. -/
def OnlyNamedBy (f : Finding) (findings : List Finding) : Prop := ∀ x ∈ findings, x.slot = f.slot → x = f

theorem offerData_current (hidle : c.store.current = none) (f : Finding) : (offerData f c).store.current = none := by
  cases haccepts : acceptsData c f with
  | true =>
    rw [offerData_of_accepted haccepts, completeIfHeld_store]
    exact hidle
  | false =>
    rw [offerData_of_refused haccepts]
    exact release_current hidle f.slot

theorem offers_keepPlaced {f : Finding} {xs : List Finding} (honly : OnlyNamedBy f xs) (hidle : c.store.current = none) (h : Placed f c) :
    Placed f (forEach xs offerData c) := by
  induction xs generalizing c with
  | nil => exact h
  | cons x xs ih =>
    refine ih (fun y hy => honly y (List.mem_cons_of_mem x hy)) (offerData_current hidle x) ?_
    by_cases hx : x.slot = f.slot
    · obtain rfl := honly x (by simp) hx
      exact offerData_places hidle x
    · exact offerData_keepsPlaced hx h

/-- R111. Once it has been offered, the slot of a finding is placed. -/
theorem offers_place {f : Finding} {xs : List Finding} (honly : OnlyNamedBy f xs) (hidle : c.store.current = none) (hmem : f ∈ xs) :
    Placed f (forEach xs offerData c) := by
  induction xs generalizing c with
  | nil => cases hmem
  | cons x xs ih =>
    have hrest : OnlyNamedBy f xs := fun y hy => honly y (List.mem_cons_of_mem x hy)
    rcases List.mem_cons.mp hmem with rfl | hlater
    · have hplaced := offers_keepPlaced hrest (offerData_current hidle f) (offerData_places hidle f)
      exact hplaced
    · exact ih hrest (offerData_current hidle x) hlater

theorem dataPhase_places {f : Finding} (honly : OnlyNamedBy f c.store.findings) (hidle : c.store.current = none) (hmem : f ∈ c.store.findings) :
    Placed f (dataPhase c) := by
  obtain ⟨-, -, hcatalog, -⟩ := scanDone_does (forEach c.store.findings offerData { c with store.scanPhase := .data })
  have hplaced := offers_place (c := { c with store.scanPhase := .data }) honly hidle hmem
  exact hplaced.passed (scanDone_passesBy _) fun hheld => (segState_of_catalog hcatalog _ _).trans hheld

/-- R111. Going through the findings, the slot of one of them keeps it waiting or is placed. -/
theorem manifestSteps_settles {f : Finding} (n : Nat) (honly : OnlyNamedBy f c.store.findings) (hidle : c.store.current = none) (h : FindingWaits f c) :
    FindingWaits f (manifestSteps n c) ∨ Placed f (manifestSteps n c) := by
  induction n generalizing c with
  | zero => exact .inl h
  | succ n ih =>
    obtain ⟨hword, hmem⟩ := h
    unfold manifestSteps
    split
    · exact .inr (dataPhase_places honly hidle hmem)
    · next g hg =>
      have hfindings := releaseFinding_findings g c
      split
      · exact .inl ⟨hword, hmem⟩
      · by_cases hslot : g.slot = f.slot
        · obtain rfl := honly g (List.mem_of_find?_eq_some hg) hslot
          obtain ⟨hdirty, hqueued⟩ := release_frees (c := dropFinding g c) hidle g.slot
          have hpasses : PassesBy g.slot (release g.slot (dropFinding g c)) (manifestSteps n (release g.slot (dropFinding g c))) :=
            manifestSteps_passesBy n fun x hx => by
              rw [hfindings] at hx
              simpa using (List.mem_filter.mp hx).2
          exact .inr (.inr ⟨hpasses.word.trans hdirty, hpasses.dirty _ hqueued⟩)
        · have hpasses := releaseFinding_passesBy hslot c
          refine ih (fun x hx => ?_) (hpasses.current hidle) ⟨hpasses.word.trans hword, ?_⟩
          · rw [hfindings] at hx
            exact honly x (List.mem_of_mem_filter hx)
          · rw [hfindings]
            exact List.mem_filter.mpr ⟨hmem, by simpa using Ne.symm hslot⟩

theorem manifestPhase_settles {f : Finding} (honly : OnlyNamedBy f c.store.findings) (hidle : c.store.current = none) (h : FindingWaits f c) :
    FindingWaits f (manifestPhase c) ∨ Placed f (manifestPhase c) :=
  manifestSteps_settles (c := { c with store.scanPhase := .manifests }) _ honly hidle h

/-! ## The whole command -/

/-- R110. What the sweep makes of the slot, by the first row that applies. -/
theorem sweep_rows (c : Chip) (slot : Nat) :
    (¬SpareErased c slot 60 4 →
        Sweeps slot ⟨.retired, none⟩ c.store.dirtyQueue c.store.findings (slotSwept slot (classifySpare (readSpare c slot)) c)) ∧
      (SpareErased c slot 60 4 → SpareHeld c slot →
        Sweeps slot ⟨.full, none⟩ c.store.dirtyQueue (c.store.findings ++ [spareFinding c slot])
          (slotSwept slot (classifySpare (readSpare c slot)) c)) ∧
      (SpareErased c slot 60 4 → SpareClean c slot →
        Sweeps slot ⟨.erased, none⟩ c.store.dirtyQueue c.store.findings (slotSwept slot (classifySpare (readSpare c slot)) c)) ∧
      (SpareErased c slot 60 4 → ¬SpareHeld c slot → ¬SpareClean c slot →
        Sweeps slot ⟨.dirty, none⟩ (if slot ∈ c.store.dirtyQueue then c.store.dirtyQueue else c.store.dirtyQueue ++ [slot]) c.store.findings
          (slotSwept slot (classifySpare (readSpare c slot)) c)) := by
  refine ⟨fun h => ?_, fun h hheld => ?_, fun h hclean => ?_, fun h hheld hclean => ?_⟩
  · rw [classifySpare_of_retired h]
    exact slotSwept_retired slot c
  · rw [classifySpare_of_held h hheld]
    exact slotSwept_finding slot _ _ _ c
  · rw [classifySpare_of_clean h hclean]
    exact slotSwept_erased slot c
  · rw [classifySpare_of_dirty h hheld hclean]
    exact slotSwept_dirty slot c

/-- R110. Only a finding joins the findings. -/
theorem findings_of_no_finding (c : Chip) (slot : Nat) (h : ¬SpareErased c slot 60 4 ∨ ¬SpareHeld c slot) :
    (slotSwept slot (classifySpare (readSpare c slot)) c).store.findings = c.store.findings := by
  obtain ⟨hretired, -, hclean, hdirty⟩ := sweep_rows c slot
  by_cases hlive : SpareErased c slot 60 4
  · by_cases hc : SpareClean c slot
    · exact (hclean hlive hc).findings
    · exact (hdirty hlive (h.resolve_left (not_not.mpr hlive)) hc).findings
  · exact (hretired hlive).findings

/-- R110, R111. A last slot that is no finding stays as it was classified. -/
theorem Sweeps.passed {word : SlotInfo} {queue : List Nat} (h : Sweeps slot word queue c.store.findings d) (hunnamed : Unnamed slot c.store.findings) :
    slotInfo (manifestPhase d) slot = word ∧ ∀ x ∈ queue, x ∈ (manifestPhase d).store.dirtyQueue := by
  have hpasses := manifestPhase_passesBy (slot := slot) (c := d) (h.findings ▸ hunnamed)
  exact ⟨hpasses.word.trans h.word, fun x hx => hpasses.dirty x (h.queue ▸ hx)⟩

/-- R111, R112. A last slot that is a finding waits so, is HELD or is released. -/
theorem Sweeps.settled {queue : List Nat} {f : Finding} (h : Sweeps f.slot ⟨.full, none⟩ queue (c.store.findings ++ [f]) d)
    (hunnamed : Unnamed f.slot c.store.findings) : FindingWaits f (manifestPhase d) ∨ Placed f (manifestPhase d) := by
  have honly : OnlyNamedBy f d.store.findings := fun x hx hslot => by
    rw [h.findings] at hx
    rcases List.mem_append.mp hx with hearlier | hlast
    · exact absurd hslot (hunnamed x hearlier)
    · simpa using hlast
  exact manifestPhase_settles honly h.current ⟨h.word, by rw [h.findings]; simp⟩

/-- Settles O36, by the row of R110 for the spare area's bytes and, for the last slot, by the phases that follow. -/
theorem sweepClassifiesSlot : Obligations.SweepClassifiesSlot := by
  unfold Obligations.SweepClassifiesSlot
  intro s slot live hcurrent c sp erased eraseMark retired held clean found
  obtain ⟨hretired, hheld, hclean, hdirty⟩ := sweep_rows c slot
  have hnone := findings_of_no_finding c slot
  have hstanding := slotSwept_standing slot (classifySpare (readSpare c slot)) c
  have hrun := sweepRead_eq hcurrent
  have hlive : ¬retired → SpareErased c slot 60 4 := not_not.mp
  refine ⟨_, sweepRead c, exec_of_run rfl rfl, rfl, fun hmore => ?_, fun hlast => ?_⟩
  · have hswept : sweepRead c = slotSwept slot (classifySpare (readSpare c slot)) c := by rw [hrun, if_pos hmore]
    have hfindings : (settle (sweepRead c)).store.findings = (slotSwept slot (classifySpare (readSpare c slot)) c).store.findings := by
      rw [hswept]
      simp
    rw [hfindings, settle_standing, hswept]
    refine ⟨hstanding, fun h => ⟨(hretired h).word, (hretired h).queue⟩, fun h hh => ?_, hnone, fun h hc => ?_, fun h hh hc => ?_⟩
    · obtain ⟨hword, hqueue, hlist, -⟩ := hheld (hlive h) hh
      exact ⟨hword, hqueue, hlist⟩
    · obtain ⟨hword, hqueue, -, -⟩ := hclean (hlive h) hc
      exact ⟨hword, hqueue⟩
    · obtain ⟨hword, hqueue, -, -⟩ := hdirty (hlive h) hh hc
      exact ⟨hword, fun hnew => by rw [hqueue, if_neg hnew]⟩
  · have hphase : sweepRead c = manifestPhase (slotSwept slot (classifySpare (readSpare c slot)) c) := by rw [hrun, if_neg (Nat.not_lt.mpr hlast)]
    rw [hphase]
    refine ⟨(manifestPhase_does _).2, fun hunnamed => ⟨fun h => ?_, fun h hh => ?_, fun h hc => ?_, fun h hh hc => ?_⟩⟩
    · exact ((hretired h).passed hunnamed).1
    · exact (hheld (hlive h) hh).settled (f := spareFinding c slot) hunnamed
    · exact ((hclean (hlive h) hc).passed hunnamed).1
    · obtain ⟨hword, hkept⟩ := (hdirty (hlive h) hh hc).passed hunnamed
      exact ⟨hword, hkept slot (by split <;> simp_all)⟩

end Sys2Proof.Machine
end
